-- ==== Sys2Proof/Word.lean ====
section
/-! DEFINITION. The machine word and the register-number type (R15, R25). -/
namespace Sys2Proof

/-- A 64-bit scalar word (R25, Table 01-1). -/
abbrev Word := BitVec 64

/-- The number of an x or v register: a five-bit field of an encoding (R76, R82, R84). -/
abbrev Reg := BitVec 5

end Sys2Proof
end

