-- ==== Sys2Proof/Syntax.lean ====
section
/-! DEFINITION. The abstract syntax: one constructor of `Instr` for each row of the opcode table (R79, R80, R83, R84,
the base of R73, and the device's events and requests). -/
namespace Sys2Proof

/-- The source in bits [19:15] of format VA, as its kind field selects it (R76). -/
inductive Src where
  | vv (r : Reg)   -- vector register vs1
  | vx (r : Reg)   -- x register rs1, low EW bits
  | vi (i : Reg)   -- imm5, sign-extended to EW bits
  | vf (r : Reg)   -- x register rs1 read as a floating-point pattern
  deriving DecidableEq, Repr

/-- Shape B of Table 03-4: vd, vs2 and a second source. -/
structure OpB where
  vd : Reg
  vs2 : Reg
  src : Src
  m : Bool
  deriving DecidableEq, Repr

/-- Shape U of Table 03-4: vd, vs2. -/
structure OpU where
  vd : Reg
  vs2 : Reg
  m : Bool
  deriving DecidableEq, Repr

/-- Shape S of Table 03-4: vd, vs2 and a selector (R78). -/
structure OpS where
  vd : Reg
  vs2 : Reg
  sel : BitVec 5
  m : Bool
  deriving DecidableEq, Repr

/-- Shape Z of Table 03-4: vd. -/
structure OpZ where
  vd : Reg
  m : Bool
  deriving DecidableEq, Repr

/-- Shape XR of Table 03-4: an x destination and vs2. -/
structure OpXR where
  rd : Reg
  vs2 : Reg
  m : Bool
  deriving DecidableEq, Repr

/-- Shape D of Table 03-4: vd and a source. -/
structure OpD where
  vd : Reg
  src : Src
  deriving DecidableEq, Repr

/-- A load or store of format VM (R82, R83): v is vd or vs3, idx is rs2 or vs2 (0 where the mode leaves it unused). -/
structure OpM where
  v : Reg
  rs1 : Reg
  idx : Reg
  width : BitVec 3
  m : Bool
  deriving DecidableEq, Repr

/-- A custom-1 form with one v or x register and rs1 (R101). -/
structure OpDS where
  d : Reg
  rs1 : Reg
  deriving DecidableEq, Repr

/-- A custom-3 form with rd, rs1, rs2 (R84). -/
structure OpR where
  rd : Reg
  rs1 : Reg
  rs2 : Reg
  deriving DecidableEq, Repr

/-- A slice act invocation (R84, R235, R239): d, s1, s2 name x registers (act) or v registers (vact). -/
structure OpAct where
  d : Reg
  s1 : Reg
  s2 : Reg
  id : BitVec 5
  deriving DecidableEq, Repr

/-- Widths of a scalar access. -/
inductive MemW where | b | h | w | d
  deriving DecidableEq, Repr

/-- A scalar load (RV64I). -/
structure OpLoad where
  width : MemW
  unsigned : Bool
  rd : Reg
  rs1 : Reg
  imm : BitVec 12
  deriving DecidableEq, Repr

/-- A scalar store (RV64I). -/
structure OpStore where
  width : MemW
  rs1 : Reg
  rs2 : Reg
  imm : BitVec 12
  deriving DecidableEq, Repr

/-- The nine read-modify-write operations of the A extension. -/
inductive AmoOp where | swap | add | xor | and | or | min | max | minu | maxu
  deriving DecidableEq, Repr

/-- Operands of LR, SC and the AMOs: wide is true for the .d forms. -/
structure OpAmo where
  wide : Bool
  aq : Bool
  rl : Bool
  rd : Reg
  rs1 : Reg
  rs2 : Reg
  deriving DecidableEq, Repr

/-- The fields of a fence (R354). -/
structure OpFence where
  fm : BitVec 4
  pred : BitVec 4
  succ : BitVec 4
  rd : Reg
  rs1 : Reg
  deriving DecidableEq, Repr

/-- How a CSR instruction combines the old value and its operand (Zicsr). -/
inductive CsrFn where | rw | rs | rc
  deriving DecidableEq, Repr

/-- A CSR instruction (Zicsr): imm is true when src is a five-bit immediate. -/
structure OpCsr where
  fn : CsrFn
  imm : Bool
  csr : BitVec 12
  rd : Reg
  src : Reg
  deriving DecidableEq, Repr

inductive BrCond where | eq | ne | lt | ge | ltu | geu
  deriving DecidableEq, Repr

/-- Register-immediate operations (OP-IMM). -/
inductive ImmOp where | addi | slti | sltiu | xori | ori | andi | slli | srli | srai
  deriving DecidableEq, Repr

/-- 32-bit register-immediate operations (OP-IMM-32). -/
inductive ImmOpW where | addiw | slliw | srliw | sraiw
  deriving DecidableEq, Repr

/-- Register-register operations of RV64IM (OP). -/
inductive RegOp where
  | add | sub | sll | slt | sltu | xor | srl | sra | or | and
  | mul | mulh | mulhsu | mulhu | div | divu | rem | remu
  deriving DecidableEq, Repr

/-- 32-bit register-register operations of RV64IM (OP-32). -/
inductive RegOpW where | addw | subw | sllw | srlw | sraw | mulw | divw | divuw | remw | remuw
  deriving DecidableEq, Repr

/-- The instructions of the row BASE_INSTRUCTION: RV64IM and the CSR reads that write nothing (R73). -/
inductive Base where
  | lui (rd : Reg) (imm : BitVec 20)
  | auipc (rd : Reg) (imm : BitVec 20)
  | jal (rd : Reg) (imm : BitVec 20)      -- the immediate's bits [20:1]
  | jalr (rd rs1 : Reg) (imm : BitVec 12)
  | branch (c : BrCond) (rs1 rs2 : Reg) (imm : BitVec 12)   -- the immediate's bits [12:1]
  | opImm (op : ImmOp) (rd rs1 : Reg) (imm : BitVec 12)     -- shifts use the low 6 bits
  | opImmW (op : ImmOpW) (rd rs1 : Reg) (imm : BitVec 12)   -- shifts use the low 5 bits
  | op (op : RegOp) (rd rs1 rs2 : Reg)
  | opW (op : RegOpW) (rd rs1 rs2 : Reg)
  | csrRead (fn : CsrFn) (imm : Bool) (csr : BitVec 12) (rd : Reg)   -- csrrs/csrrc with a zero source field
  deriving DecidableEq, Repr

/-- The target of a plain register write (R20, R415, R442, R451): a CSR instruction, a control-window register
written by the host, or a register-block store of a core. -/
inductive RegTarget where
  | csr (o : OpCsr)
  | bar0 (off : Nat) (v : Word)
  | block (core off : Nat) (v : Word)
  deriving DecidableEq, Repr

/-- A counting unit of Table 22-3. -/
inductive Unit22 where
  | core (id : Nat)
  | channel (id : Nat)     -- 0 to 31
  | dieArrays (die : Nat)
  | link (id : Nat)        -- 0 to 17
  | edge (a b : Nat)       -- die-to-die edge
  | die (die : Nat)        -- a fenced die (R456)
  | stage (n : Nat)        -- a boot stage whose alternate or skip has stuck (R456)
  deriving DecidableEq, Repr

/-- A configuration request's record address: the requests are read from device memory (R418). door is the doorbell:
none for the host, some c for core c. -/
structure CfgReq where
  door : Option Nat
  addr : Nat
  deriving DecidableEq, Repr

/-- Where a timing event is detected (R436). -/
inductive EventWhere where | scalar | group | rowStep
  deriving DecidableEq, Repr

/-- What a firmware package's signature stands beside (R433, R468): the header's minimum version, the public key, the image and the
signature of 29,792 bytes, each a little-endian number. -/
structure Signed where
  minVersion : Nat := 0
  key : Nat := 0
  image : Nat := 0
  signature : Nat := 0
  deriving DecidableEq, Repr

/-- A firmware package, as an update brings it and an image slot holds it: the header's version and the rest. -/
structure Package extends Signed where
  version : Nat := 0
  deriving DecidableEq, Repr

/-- Every row of the opcode table. -/
inductive Instr where
  -- custom-0 (R79)
  | vadd (o : OpB) | vsub (o : OpB) | vrsub (o : OpB) | vmul (o : OpB) | vmulh (o : OpB) | vmulhu (o : OpB)
  | vmacc (o : OpB) | vnmsac (o : OpB) | vdiv (o : OpB) | vdivu (o : OpB) | vrem (o : OpB) | vremu (o : OpB)
  | vmin (o : OpB) | vminu (o : OpB) | vmax (o : OpB) | vmaxu (o : OpB)
  | vand (o : OpB) | vor (o : OpB) | vxor (o : OpB) | vsll (o : OpB) | vsrl (o : OpB) | vsra (o : OpB)
  | vsadd (o : OpB) | vsaddu (o : OpB) | vssub (o : OpB) | vssubu (o : OpB) | vsmul (o : OpB)
  | vclz (o : OpU) | vcpop (o : OpU) | vabsd (o : OpB) | vmerge (o : OpB) | vmv (o : OpD)
  | vmseq (o : OpB) | vmsne (o : OpB) | vmslt (o : OpB) | vmsltu (o : OpB) | vmsle (o : OpB) | vmsleu (o : OpB)
  | vmsgt (o : OpB) | vmsgtu (o : OpB)
  | vmfeq (o : OpB) | vmfne (o : OpB) | vmflt (o : OpB) | vmfle (o : OpB) | vmfgt (o : OpB) | vmfge (o : OpB)
  | vmand (o : OpB) | vmor (o : OpB) | vmxor (o : OpB) | vmandn (o : OpB)
  | vmsbf (o : OpU) | vmsif (o : OpU) | vmsof (o : OpU) | viota (o : OpU) | vid (o : OpZ)
  | vmcnt (o : OpXR) | vmfirst (o : OpXR) | vmtox (o : OpXR) | vmfromx (o : OpD)
  | vfadd (o : OpB) | vfsub (o : OpB) | vfmul (o : OpB) | vfdiv (o : OpB) | vfsqrt (o : OpU)
  | vfmin (o : OpB) | vfmax (o : OpB) | vfmadd (o : OpB) | vfnmadd (o : OpB) | vfmsub (o : OpB) | vfnmsub (o : OpB)
  | vfsgnj (o : OpB) | vfsgnjn (o : OpB) | vfsgnjx (o : OpB) | vfrece (o : OpU) | vfrsqe (o : OpU)
  | vfcvtFX (o : OpS) | vfcvtFXu (o : OpS) | vfcvtXF (o : OpS) | vfcvtXuF (o : OpS) | vfwid (o : OpS) | vfnar (o : OpS)
  | vsext (o : OpS) | vzext (o : OpS) | vnclip (o : OpU) | vfclass (o : OpU) | vfcvtBfF (o : OpU) | vfcvtFBf (o : OpU)
  | vslideup (o : OpB) | vslidedn (o : OpB) | vslide1up (o : OpB) | vslide1dn (o : OpB) | vrgather (o : OpB)
  | vcompress (o : OpB)
  | vredsum (o : OpB) | vredmin (o : OpB) | vredmax (o : OpB) | vredand (o : OpB) | vredor (o : OpB)
  | vfredo (o : OpB) | vfredt (o : OpB) | vfredmin (o : OpB) | vfredmax (o : OpB) | vscan (o : OpS)
  | vmvXS (o : OpXR) | vmvSX (o : OpD) | vgperm (o : OpB) | vgred (o : OpS) | vgbcast (o : OpB)
  -- custom-2 (R80)
  | vqE4m3 (o : OpB) | vqE5m2 (o : OpB) | vqE2m1 (o : OpB) | vdq (o : OpB) | vsclmk (o : OpU) | vmxdot (o : OpB)
  | vmxmm (o : OpB) | vpkscl (o : OpB)
  | vaccX (o : OpD) | vaccI (vs2 rs1 : Reg) | vaccZ (rs1 : Reg)
  | lfAdd (o : OpB) | lfSub (o : OpB) | lfMul (o : OpB) | lfFma (o : OpB) | lfDiv (o : OpB) | lfSqrt (o : OpU)
  | lfRnd (o : OpU) | lfFromf (o : OpS) | lfTof (o : OpS) | lfFromx (o : OpS) | lfTox (o : OpS)
  | lfCmpLt (o : OpB) | lfCmpLe (o : OpB) | lfCmpEq (o : OpB) | lfCmpUn (o : OpB) | lfLen (o : OpU) | lfSgnj (o : OpB)
  | gbox (o : OpB) | gtri (o : OpB) | gsetup (o : OpU) | gcov (o : OpB) | gtex (o : OpB) | gblend (o : OpB)
  | grsvUpd (o : OpB) | grsvMrg (o : OpB) | gpack (o : OpU)
  | vdsegL2 (o : OpB) | vdsegIp (o : OpB) | vtopk (o : OpB) | vtopkM (o : OpU)
  -- custom-1 (R83)
  | vld (o : OpM) | vlds (o : OpM) | vldx (o : OpM) | vldff (o : OpM) | vldxff (o : OpM) | vldr (o : OpDS)
  | vst (o : OpM) | vsts (o : OpM) | vstx (o : OpM) | vstxo (o : OpM) | vstr (o : OpDS)
  | vstrip (o : OpDS) | vstripK (o : OpDS) | vcfg (o : OpDS) | vcfgi (rd : Reg) (vt : BitVec 14)
  | vbind (o : OpDS) | vunbind (vd : Reg) | vbend (rd vd : Reg) | vnest (rs1 : Reg) (len1 : BitVec 4)
  | vctxs (rs1 : Reg) | vctxl (rs1 : Reg)
  -- custom-3 (R84)
  | ecmd (rd vs1 rs2 : Reg) | ecommit (b : BitVec 3) | ewait (b : BitVec 3) | ewaitn (rs1 : Reg) | epoll (o : OpDS)
  | qspawn (o : OpDS) | qpush (o : OpR) | qpushNb (o : OpR) | qpushGate (o : OpR) | qpop (o : OpR) | qpopNb (o : OpR)
  | qyield | qexit | qresume (o : OpDS) | qticket (o : OpDS) | qturn (rs1 rs2 : Reg) | qnext (rs1 : Reg)
  | slotget (o : OpDS) | slotret (rs1 rs2 : Reg) | qlen (o : OpDS) | mwait (o : OpR)
  | barv (rs1 : Reg) | barw (rs1 : Reg) | barvw (rs1 : Reg) | barq (o : OpDS)
  | ofence (scope : Reg) (pred succ : BitVec 4) | xfence (scope : Reg)
  | act (o : OpAct) | actS (o : OpAct) | vact (o : OpAct) | vactS (o : OpAct)
  | actInst (rd rs2 : Reg) (id : BitVec 5) | actInstS (rd rs2 : Reg) (id : BitVec 5)
  | hbsave (rs1 : Reg) | hbload (rs1 : Reg) | mgnsafe (rs1 : Reg) | mgnrel | gjoin (o : OpDS) | gleave | vrel
  | cquar (rs1 : Reg)
  -- the standard base (R73)
  | load (o : OpLoad) | store (o : OpStore) | lr (o : OpAmo) | sc (o : OpAmo) | amo (f : AmoOp) (o : OpAmo)
  | fence (o : OpFence) | fenceTso (o : OpFence) | fenceI (rd rs1 : Reg) (imm : BitVec 12) | sfenceVma (rs1 rs2 : Reg)
  | wfi | sret | mret | ecall | ebreak | baseInstruction (b : Base)
  -- register writes (R20, R36, R43, R326, R439, R442 to R445, R451)
  | vtypeWrite (o : OpCsr) | vreclaimWrite (o : OpCsr) | satpWrite (o : OpCsr) | mgnctlWrite (o : OpCsr)
  | stashMapWord0Write (core entry : Nat) (v : Word) | stashMapWord1Write (core entry : Nat) (v : Word)
  | snapshot (core : Nat) (v : Word) | snapshotEnd (core : Nat) | requeue (core ctx : Nat) (v : Word)
  | saveareaRead (core ctx : Nat) (rd : Reg) | lvcfgWrite (die : Nat) (v : Word) | registerWrite (t : RegTarget)
  -- configuration requests (R419)
  | queue (r : CfgReq) | turnstile (r : CfgReq) | pool (r : CfgReq) | barrier (r : CfgReq) | pinned (r : CfgReq)
  | sched (r : CfgReq) | aspace (r : CfgReq) | asrel (r : CfgReq) | fenceRequest (r : CfgReq) | capkey (r : CfgReq)
  | ring (r : CfgReq) | nvmeqp (r : CfgReq) | waitword (r : CfgReq) | subscribe (r : CfgReq) | launch (r : CfgReq)
  | install (r : CfgReq)
  -- the host (R414 to R428)
  | hostPush (queue size : Nat) (words : List Word) | hostRead (off : Nat) (wd : MemW) | hostWrite (off : Nat) (wd : MemW) (v : Word)
  | atsInvalidation (page : Nat)
  -- engine commands (R183 to R209)
  | kmma (core node : Nat) | kcopy (core node : Nat) | kgath (core node : Nat) | kscat (core node : Nat)
  | kfill (core node : Nat) | kred (core node : Nat) | kcoll (core node : Nat) | kdisk (core node : Nat)
  | knest (core node : Nat) | ksig (core node : Nat)
  | commandLaunch (core node : Nat) | leaveAdmit (die : Nat) | leaveWaitExpire (die : Nat) (core node : Nat)
  | kmmaRowFinish (core node : Nat) | commandComplete (core node : Nat) | commandFault (core node : Nat) (status : BitVec 8)
  | enginePageFaultResolved (core node : Nat) (ok : Bool) | ownershipWindowTake (core node : Nat)
  | remoteCommandArrive (core node target : Nat) (cap : Word) | remoteCompletion (core node : Nat) (status : BitVec 8) (progress : Nat)
  | nvmeCompletion (qp : Nat) (cid : Nat) (status : BitVec 16)
  -- operations completing later (R37, R117, R119, R176, R237, R239)
  | actPerform (line : Nat) | vactComplete (core ctx : Nat) | vectorLoadComplete (core ctx : Nat) (vd : Reg)
  | boundRefillLand (core ctx : Nat) (vd : Reg) | channelChunkDeposit (core ctx : Nat) (vd : Reg) | vaccPerform (core : Nat)
  -- scheduling (R269, R293 to R309)
  | expand (die : Nat) | expandResume (die : Nat) | dispatch (core ctx : Nat) | stealAttempt (core attempt : Nat)
  | stealAnswer (victim thief : Nat) | stealBackoffEnd (core : Nat) | dequeRefill (core : Nat) | agingStep (core : Nat)
  | reclaimStart (core : Nat) | reclaimTimeout (core ctx : Nat) | reclaimInterrupt (core ctx : Nat)
  | supervisorTimerInterrupt (core ctx : Nat)
  -- barriers, gangs, power, margin (R241, R282, R285, R305, R436 to R441, R455)
  | barrierHeldPhaseComplete (dev : Bool) (die idx : Nat) | barrierCompletionNotice (dev : Bool) (die idx : Nat)
  | barrierTimeout (dev : Bool) (die idx : Nat) | gjoinTimeout (core ctx : Nat) | powerWindowEnd (die : Nat)
  | timingEvent (core : Nat) (at' : EventWhere) | marginWindowEnd (core : Nat) | mgnsafeExpire (core : Nat)
  | regulatorStep (core : Nat) | droopDetect (core : Nat) | clockHopEnd (die : Nat)
  -- boot and operation (R429 to R434, R449, R452 to R469)
  | coldReset | warmReset | bootWatchdogExpire | oxeilQuarantine (core : Nat) | unitWindowEnd (u : Unit22)
  | oxeilSetThreshold (u : Unit22) (raise quar : Nat) | oxeilSetTimer (t : Nat) | requalification (u : Unit22)
  | telemetryRead (src : Nat) | telemetrySample (die : Nat) | subscriptionSample (slot : Nat)
  | laxelFlit (link : Nat) (seq : BitVec 10) (crcOk : Bool) | laxelReplayRequest (link : Nat) (seq : BitVec 10)
  | linkDown (link : Nat) | e2eRequestArrive (src : Nat) (seq : BitVec 32) (age addr : Nat) (f : AmoOp) (val : Word)
  | e2eResponse (seq : BitVec 32) (busy : Bool) (val : Word) | retransmitTimeout (seq : BitVec 32)
  | dedupExpire (src : Nat) (seq : BitVec 32) | powerCapMessage (seq cap lease : Nat) | capLeaseExpire
  | spdmRequest (nonce : Nat) | firmwareUpdate (version : Nat) (image : Signed) | activate | commit
  | cfgreqDoorbell (door : Option Nat) (v : Word) | engineLineWrite (core node : Nat) | clockSourceHop (die : Nat)
  | linkTrained (link : Nat) (ok : Bool) | machineExternalInterrupt (die ctx : Nat) | powerLoss | bucketDrain (core : Nat)
  | unitReplacement (u : Unit22)
  deriving DecidableEq, Repr

/-- An event, request or input waiting to happen: the rows of the opcode table that no instruction word carries, with the
same operands as their constructors of `Instr`. State's agenda, inbox and timers hold these (log 4). -/
inductive Event where
  | stashMapWord0Write (core entry : Nat) (v : Word) | stashMapWord1Write (core entry : Nat) (v : Word)
  | snapshot (core : Nat) (v : Word) | snapshotEnd (core : Nat) | requeue (core ctx : Nat) (v : Word)
  | saveareaRead (core ctx : Nat) (rd : Reg) | lvcfgWrite (die : Nat) (v : Word) | registerWrite (t : RegTarget)
  -- configuration requests (R419)
  | queue (r : CfgReq) | turnstile (r : CfgReq) | pool (r : CfgReq) | barrier (r : CfgReq) | pinned (r : CfgReq)
  | sched (r : CfgReq) | aspace (r : CfgReq) | asrel (r : CfgReq) | fenceRequest (r : CfgReq) | capkey (r : CfgReq)
  | ring (r : CfgReq) | nvmeqp (r : CfgReq) | waitword (r : CfgReq) | subscribe (r : CfgReq) | launch (r : CfgReq)
  | install (r : CfgReq)
  -- the host (R414 to R428)
  | hostPush (queue size : Nat) (words : List Word) | hostRead (off : Nat) (wd : MemW) | hostWrite (off : Nat) (wd : MemW) (v : Word)
  | atsInvalidation (page : Nat)
  -- engine commands (R183 to R209)
  | kmma (core node : Nat) | kcopy (core node : Nat) | kgath (core node : Nat) | kscat (core node : Nat)
  | kfill (core node : Nat) | kred (core node : Nat) | kcoll (core node : Nat) | kdisk (core node : Nat)
  | knest (core node : Nat) | ksig (core node : Nat)
  | commandLaunch (core node : Nat) | leaveAdmit (die : Nat) | leaveWaitExpire (die : Nat) (core node : Nat)
  | kmmaRowFinish (core node : Nat) | commandComplete (core node : Nat) | commandFault (core node : Nat) (status : BitVec 8)
  | enginePageFaultResolved (core node : Nat) (ok : Bool) | ownershipWindowTake (core node : Nat)
  | remoteCommandArrive (core node target : Nat) (cap : Word) | remoteCompletion (core node : Nat) (status : BitVec 8) (progress : Nat)
  | nvmeCompletion (qp : Nat) (cid : Nat) (status : BitVec 16)
  -- operations completing later (R37, R117, R119, R176, R237, R239)
  | actPerform (line : Nat) | vactComplete (core ctx : Nat) | vectorLoadComplete (core ctx : Nat) (vd : Reg)
  | boundRefillLand (core ctx : Nat) (vd : Reg) | channelChunkDeposit (core ctx : Nat) (vd : Reg) | vaccPerform (core : Nat)
  -- scheduling (R269, R293 to R309)
  | expand (die : Nat) | expandResume (die : Nat) | dispatch (core ctx : Nat) | stealAttempt (core attempt : Nat)
  | stealAnswer (victim thief : Nat) | stealBackoffEnd (core : Nat) | dequeRefill (core : Nat) | agingStep (core : Nat)
  | reclaimStart (core : Nat) | reclaimTimeout (core ctx : Nat) | reclaimInterrupt (core ctx : Nat)
  | supervisorTimerInterrupt (core ctx : Nat)
  -- barriers, gangs, power, margin (R241, R282, R285, R305, R436 to R441, R455)
  | barrierHeldPhaseComplete (dev : Bool) (die idx : Nat) | barrierCompletionNotice (dev : Bool) (die idx : Nat)
  | barrierTimeout (dev : Bool) (die idx : Nat) | gjoinTimeout (core ctx : Nat) | powerWindowEnd (die : Nat)
  | timingEvent (core : Nat) (at' : EventWhere) | marginWindowEnd (core : Nat) | mgnsafeExpire (core : Nat)
  | regulatorStep (core : Nat) | droopDetect (core : Nat) | clockHopEnd (die : Nat)
  -- boot and operation (R429 to R434, R449, R452 to R469)
  | coldReset | warmReset | bootWatchdogExpire | oxeilQuarantine (core : Nat) | unitWindowEnd (u : Unit22)
  | oxeilSetThreshold (u : Unit22) (raise quar : Nat) | oxeilSetTimer (t : Nat) | requalification (u : Unit22)
  | telemetryRead (src : Nat) | telemetrySample (die : Nat) | subscriptionSample (slot : Nat)
  | laxelFlit (link : Nat) (seq : BitVec 10) (crcOk : Bool) | laxelReplayRequest (link : Nat) (seq : BitVec 10)
  | linkDown (link : Nat) | e2eRequestArrive (src : Nat) (seq : BitVec 32) (age addr : Nat) (f : AmoOp) (val : Word)
  | e2eResponse (seq : BitVec 32) (busy : Bool) (val : Word) | retransmitTimeout (seq : BitVec 32)
  | dedupExpire (src : Nat) (seq : BitVec 32) | powerCapMessage (seq cap lease : Nat) | capLeaseExpire
  | spdmRequest (nonce : Nat) | firmwareUpdate (version : Nat) (image : Signed) | activate | commit
  | cfgreqDoorbell (door : Option Nat) (v : Word) | engineLineWrite (core node : Nat) | clockSourceHop (die : Nat)
  | linkTrained (link : Nat) (ok : Bool) | machineExternalInterrupt (die ctx : Nat) | powerLoss | bucketDrain (core : Nat)
  | unitReplacement (u : Unit22)
  deriving DecidableEq, Repr

end Sys2Proof
end

