-- ==== Sys2Proof/WellFormed.lean ====
section
/-! DEFINITION. Well-formed instructions: the layout each constructor has in the encoding tables (Tables 03-3 to 03-11,
04-1, 04-2, and the standard base), and the checks R77, R78, R82, R85, R101 place on its fields. -/
namespace Sys2Proof

/-- The operand kinds an instruction accepts (R76, column Kinds of Tables 03-6 and 03-7). -/
structure Kinds where
  vv : Bool := false
  vx : Bool := false
  vi : Bool := false
  vf : Bool := false
  deriving DecidableEq, Repr

def Kinds.admits (k : Kinds) : Src → Bool
  | .vv _ => k.vv
  | .vx _ => k.vx
  | .vi _ => k.vi
  | .vf _ => k.vf

def Kinds.vvxi : Kinds := { vv := true, vx := true, vi := true }
def Kinds.xi : Kinds := { vx := true, vi := true }
def Kinds.vvf : Kinds := { vv := true, vf := true }
def Kinds.onlyF : Kinds := { vf := true }
def Kinds.onlyV : Kinds := { vv := true }
def Kinds.onlyX : Kinds := { vx := true }
def Kinds.xf : Kinds := { vx := true, vf := true }

/-- The column Masking of Tables 03-6, 03-7 and 03-9. -/
inductive MaskRule where | optional | never | required
  deriving DecidableEq, Repr

def MaskRule.admits : MaskRule → Bool → Bool
  | .optional, _ => true
  | .never, m => !m
  | .required, m => m

/-- The legal selectors of Table 03-5: a destination tag, an extension factor, or a value up to a bound. -/
inductive SelRule where
  | tag
  | ext
  | upTo (n : Nat)
  deriving DecidableEq, Repr

def SelRule.admits : SelRule → BitVec 5 → Bool
  | .tag, v => v.toNat ≤ 7
  | .ext, v => 1 ≤ v.toNat && v.toNat ≤ 3
  | .upTo n, v => v.toNat ≤ n

/-- The width codes a load or store mode accepts (Table 04-2). -/
inductive WidthRule where | unit | nonUnit
  deriving DecidableEq, Repr

def WidthRule.admits : WidthRule → BitVec 3 → Bool
  | .unit, w => w.toNat ≤ 6
  | .nonUnit, w => w.toNat ≤ 5

/-- Where an instruction's operands stand in its word. -/
inductive Layout where
  | shapeB (c2 : Bool) (grp op : Nat) (ks : Kinds) (mr : MaskRule) (o : OpB)
  | shapeU (c2 : Bool) (grp op : Nat) (mr : MaskRule) (o : OpU)
  | shapeS (c2 : Bool) (grp op : Nat) (sr : SelRule) (o : OpS)
  | shapeZ (grp op : Nat) (o : OpZ)
  | shapeXR (grp op : Nat) (mr : MaskRule) (o : OpXR)
  | shapeD (c2 : Bool) (grp op : Nat) (ks : Kinds) (o : OpD)
  | lfCmp (pred : Nat) (o : OpB)
  | accI (vs2 rs1 : Reg)
  | accZ (rs1 : Reg)
  | mem (dir mode : Nat) (indexed : Bool) (wr : WidthRule) (o : OpM)
  | conf (dir mode : Nat) (b a : Reg) (m : Bool) (d : Reg)
  | cfgi (rd : Reg) (vt : BitVec 14)
  | s3 (cls funct7 : Nat) (d a b : Reg)
  | act (hi : Nat) (needsLine : Bool) (o : OpAct)
  | ofence (scope : Reg) (pred succ : BitVec 4)
  | xfence (scope : Reg)
  | load (o : OpLoad)
  | store (o : OpStore)
  | amo (funct5 : Nat) (noRs2 : Bool) (o : OpAmo)
  | fence (o : OpFence)
  | fenceTso (o : OpFence)
  | fenceI (rd rs1 : Reg) (imm : BitVec 12)
  | system (funct7 : Nat) (b a : Reg)
  | csr (num : BitVec 12 → Bool) (o : OpCsr)
  | base (b : Base)
  | event (ok : Bool)   -- no instruction word: an event, a request, or a register-block write

/-- The four CSR numbers whose writes have rows of their own (Tables 01-5, 01-25, 01-26 and R73's satp). -/
def isSpecialCsr (n : BitVec 12) : Bool :=
  n == 0x801#12 || n == 0x5C6#12 || n == 0x180#12 || n == 0x7C0#12

/-- A CSR instruction that writes its CSR: csrrs and csrrc with a zero source field only read (R73, Zicsr). -/
def OpCsr.writes (o : OpCsr) : Bool := o.fn == .rw || o.src != 0

def AmoOp.funct5 : AmoOp → Nat
  | .add => 0 | .swap => 1 | .xor => 4 | .or => 8 | .and => 12 | .min => 16 | .max => 20 | .minu => 24 | .maxu => 28

def coreOk (c : Nat) : Bool := c < 384
def ctxOk (x : Nat) : Bool := x < 8
def nodeOk (n : Nat) : Bool := n < 96
def dieOk (d : Nat) : Bool := d < 4

/-- The layout of every constructor. -/
def Instr.layout : Instr → Layout
  -- Table 03-6
  | .vadd o => .shapeB false 0 0 .vvxi .optional o | .vsub o => .shapeB false 0 1 .vvxi .optional o
  | .vrsub o => .shapeB false 0 2 .xi .optional o | .vmul o => .shapeB false 0 3 .vvxi .optional o
  | .vmulh o => .shapeB false 0 4 .vvxi .optional o | .vmulhu o => .shapeB false 0 5 .vvxi .optional o
  | .vmacc o => .shapeB false 0 6 .vvxi .optional o | .vnmsac o => .shapeB false 0 7 .vvxi .optional o
  | .vdiv o => .shapeB false 0 8 .vvxi .optional o | .vdivu o => .shapeB false 0 9 .vvxi .optional o
  | .vrem o => .shapeB false 0 10 .vvxi .optional o | .vremu o => .shapeB false 0 11 .vvxi .optional o
  | .vmin o => .shapeB false 0 12 .vvxi .optional o | .vminu o => .shapeB false 0 13 .vvxi .optional o
  | .vmax o => .shapeB false 0 14 .vvxi .optional o | .vmaxu o => .shapeB false 0 15 .vvxi .optional o
  | .vand o => .shapeB false 1 0 .vvxi .optional o | .vor o => .shapeB false 1 1 .vvxi .optional o
  | .vxor o => .shapeB false 1 2 .vvxi .optional o | .vsll o => .shapeB false 1 3 .vvxi .optional o
  | .vsrl o => .shapeB false 1 4 .vvxi .optional o | .vsra o => .shapeB false 1 5 .vvxi .optional o
  | .vsadd o => .shapeB false 1 6 .vvxi .optional o | .vsaddu o => .shapeB false 1 7 .vvxi .optional o
  | .vssub o => .shapeB false 1 8 .vvxi .optional o | .vssubu o => .shapeB false 1 9 .vvxi .optional o
  | .vsmul o => .shapeB false 1 10 .vvxi .optional o | .vclz o => .shapeU false 1 11 .optional o
  | .vcpop o => .shapeU false 1 12 .optional o | .vabsd o => .shapeB false 1 13 .vvxi .optional o
  | .vmerge o => .shapeB false 1 14 .vvxi .required o | .vmv o => .shapeD false 1 15 .vvxi o
  | .vmseq o => .shapeB false 2 0 .vvxi .optional o | .vmsne o => .shapeB false 2 1 .vvxi .optional o
  | .vmslt o => .shapeB false 2 2 .vvxi .optional o | .vmsltu o => .shapeB false 2 3 .vvxi .optional o
  | .vmsle o => .shapeB false 2 4 .vvxi .optional o | .vmsleu o => .shapeB false 2 5 .vvxi .optional o
  | .vmsgt o => .shapeB false 2 6 .xi .optional o | .vmsgtu o => .shapeB false 2 7 .xi .optional o
  | .vmfeq o => .shapeB false 2 8 .vvf .optional o | .vmfne o => .shapeB false 2 9 .vvf .optional o
  | .vmflt o => .shapeB false 2 10 .vvf .optional o | .vmfle o => .shapeB false 2 11 .vvf .optional o
  | .vmfgt o => .shapeB false 2 12 .onlyF .optional o | .vmfge o => .shapeB false 2 13 .onlyF .optional o
  | .vmand o => .shapeB false 3 0 .onlyV .never o | .vmor o => .shapeB false 3 1 .onlyV .never o
  | .vmxor o => .shapeB false 3 2 .onlyV .never o | .vmandn o => .shapeB false 3 3 .onlyV .never o
  | .vmsbf o => .shapeU false 3 4 .optional o | .vmsif o => .shapeU false 3 5 .optional o
  | .vmsof o => .shapeU false 3 6 .optional o | .viota o => .shapeU false 3 7 .optional o
  | .vid o => .shapeZ 3 8 o | .vmcnt o => .shapeXR 3 9 .optional o | .vmfirst o => .shapeXR 3 10 .optional o
  | .vmtox o => .shapeXR 3 11 .never o | .vmfromx o => .shapeD false 3 12 .onlyX o
  | .vfadd o => .shapeB false 4 0 .vvf .optional o | .vfsub o => .shapeB false 4 1 .vvf .optional o
  | .vfmul o => .shapeB false 4 2 .vvf .optional o | .vfdiv o => .shapeB false 4 3 .vvf .optional o
  | .vfsqrt o => .shapeU false 4 4 .optional o
  | .vfmin o => .shapeB false 4 5 .vvf .optional o | .vfmax o => .shapeB false 4 6 .vvf .optional o
  | .vfmadd o => .shapeB false 4 7 .vvf .optional o | .vfnmadd o => .shapeB false 4 8 .vvf .optional o
  | .vfmsub o => .shapeB false 4 9 .vvf .optional o | .vfnmsub o => .shapeB false 4 10 .vvf .optional o
  | .vfsgnj o => .shapeB false 4 11 .vvf .optional o | .vfsgnjn o => .shapeB false 4 12 .vvf .optional o
  | .vfsgnjx o => .shapeB false 4 13 .vvf .optional o
  | .vfrece o => .shapeU false 4 14 .optional o | .vfrsqe o => .shapeU false 4 15 .optional o
  | .vfcvtFX o => .shapeS false 5 0 .tag o | .vfcvtFXu o => .shapeS false 5 1 .tag o
  | .vfcvtXF o => .shapeS false 5 2 .tag o | .vfcvtXuF o => .shapeS false 5 3 .tag o
  | .vfwid o => .shapeS false 5 4 .tag o | .vfnar o => .shapeS false 5 5 .tag o
  | .vsext o => .shapeS false 5 6 .ext o | .vzext o => .shapeS false 5 7 .ext o
  | .vnclip o => .shapeU false 5 8 .optional o | .vfclass o => .shapeU false 5 9 .optional o
  | .vfcvtBfF o => .shapeU false 5 10 .optional o | .vfcvtFBf o => .shapeU false 5 11 .optional o
  | .vslideup o => .shapeB false 6 0 .xi .optional o | .vslidedn o => .shapeB false 6 1 .xi .optional o
  | .vslide1up o => .shapeB false 6 2 .xf .optional o | .vslide1dn o => .shapeB false 6 3 .xf .optional o
  | .vrgather o => .shapeB false 6 4 .vvxi .optional o | .vcompress o => .shapeB false 6 5 .onlyV .never o
  | .vredsum o => .shapeB false 6 6 .onlyV .optional o | .vredmin o => .shapeB false 6 7 .onlyV .optional o
  | .vredmax o => .shapeB false 6 8 .onlyV .optional o | .vredand o => .shapeB false 6 9 .onlyV .optional o
  | .vredor o => .shapeB false 6 10 .onlyV .optional o | .vfredo o => .shapeB false 6 11 .onlyV .optional o
  | .vfredt o => .shapeB false 6 12 .onlyV .optional o | .vfredmin o => .shapeB false 6 13 .onlyV .optional o
  | .vfredmax o => .shapeB false 6 14 .onlyV .optional o | .vscan o => .shapeS false 6 15 (.upTo 2) o
  | .vmvXS o => .shapeXR 7 0 .never o | .vmvSX o => .shapeD false 7 1 .onlyX o
  | .vgperm o => .shapeB false 7 2 .onlyV .optional o | .vgred o => .shapeS false 7 3 (.upTo 4) o
  | .vgbcast o => .shapeB false 7 4 .xi .optional o
  -- Table 03-7
  | .vqE4m3 o => .shapeB true 0 0 .onlyV .optional o | .vqE5m2 o => .shapeB true 0 1 .onlyV .optional o
  | .vqE2m1 o => .shapeB true 0 2 .onlyV .optional o | .vdq o => .shapeB true 0 3 .onlyV .optional o
  | .vsclmk o => .shapeU true 0 4 .never o | .vmxdot o => .shapeB true 0 5 .onlyV .optional o
  | .vmxmm o => .shapeB true 0 6 .onlyV .never o | .vpkscl o => .shapeB true 0 7 .onlyV .never o
  | .vaccX o => .shapeD true 1 0 .onlyX o | .vaccI b a => .accI b a | .vaccZ a => .accZ a
  | .lfAdd o => .shapeB true 2 0 .onlyV .optional o | .lfSub o => .shapeB true 2 1 .onlyV .optional o
  | .lfMul o => .shapeB true 2 2 .onlyV .optional o | .lfFma o => .shapeB true 2 3 .onlyV .optional o
  | .lfDiv o => .shapeB true 2 4 .onlyV .optional o | .lfSqrt o => .shapeU true 2 5 .optional o
  | .lfRnd o => .shapeU true 2 6 .optional o | .lfFromf o => .shapeS true 2 7 (.upTo 3) o
  | .lfTof o => .shapeS true 2 8 (.upTo 3) o | .lfFromx o => .shapeS true 2 9 (.upTo 1) o
  | .lfTox o => .shapeS true 2 10 (.upTo 1) o
  | .lfCmpLt o => .lfCmp 0 o | .lfCmpLe o => .lfCmp 1 o | .lfCmpEq o => .lfCmp 2 o | .lfCmpUn o => .lfCmp 3 o
  | .lfLen o => .shapeU true 2 12 .optional o | .lfSgnj o => .shapeB true 2 13 .onlyV .optional o
  | .gbox o => .shapeB true 3 0 .onlyV .optional o | .gtri o => .shapeB true 3 1 .onlyV .optional o
  | .gsetup o => .shapeU true 3 2 .optional o | .gcov o => .shapeB true 3 3 .onlyX .optional o
  | .gtex o => .shapeB true 3 4 .onlyX .optional o | .gblend o => .shapeB true 3 5 .onlyV .optional o
  | .grsvUpd o => .shapeB true 3 6 .onlyV .optional o | .grsvMrg o => .shapeB true 3 7 .onlyV .optional o
  | .gpack o => .shapeU true 3 8 .optional o
  | .vdsegL2 o => .shapeB true 4 0 .onlyV .optional o | .vdsegIp o => .shapeB true 4 1 .onlyV .optional o
  | .vtopk o => .shapeB true 4 2 .onlyV .never o | .vtopkM o => .shapeU true 4 3 .never o
  -- Tables 03-9, 04-1
  | .vld o => .mem 0 0 false .unit o | .vlds o => .mem 0 1 true .nonUnit o | .vldx o => .mem 0 2 true .nonUnit o
  | .vldff o => .mem 0 4 false .unit o | .vldxff o => .mem 0 5 true .nonUnit o
  | .vldr o => .conf 0 6 0 o.rs1 false o.d
  | .vst o => .mem 1 0 false .unit o | .vsts o => .mem 1 1 true .nonUnit o | .vstx o => .mem 1 2 true .nonUnit o
  | .vstxo o => .mem 1 3 true .nonUnit o | .vstr o => .conf 1 6 0 o.rs1 false o.d
  | .vstrip o => .conf 2 0 0 o.rs1 false o.d | .vstripK o => .conf 2 0 0 o.rs1 true o.d
  | .vcfg o => .conf 2 1 0 o.rs1 false o.d | .vcfgi rd vt => .cfgi rd vt
  | .vbind o => .conf 2 3 0 o.rs1 false o.d | .vunbind vd => .conf 2 4 0 0 false vd
  | .vbend rd vd => .conf 2 5 vd 0 false rd
  | .vnest rs1 len1 => .conf 2 6 (len1.zeroExtend 5) rs1 false 0
  | .vctxs rs1 => .conf 2 7 0 rs1 false 0 | .vctxl rs1 => .conf 3 0 0 rs1 false 0
  -- Table 03-11
  | .ecmd rd vs1 rs2 => .s3 0 0 rd vs1 rs2
  | .ecommit b => .s3 0 1 0 (b.zeroExtend 5) 0 | .ewait b => .s3 0 2 0 (b.zeroExtend 5) 0
  | .ewaitn rs1 => .s3 0 3 0 rs1 0 | .epoll o => .s3 0 4 o.d o.rs1 0
  | .qspawn o => .s3 1 0 o.d o.rs1 0 | .qpush o => .s3 1 1 o.rd o.rs1 o.rs2 | .qpushNb o => .s3 1 65 o.rd o.rs1 o.rs2
  | .qpushGate o => .s3 1 33 o.rd o.rs1 o.rs2 | .qpop o => .s3 1 2 o.rd o.rs1 o.rs2
  | .qpopNb o => .s3 1 66 o.rd o.rs1 o.rs2 | .qyield => .s3 1 3 0 0 0 | .qexit => .s3 1 4 0 0 0
  | .qresume o => .s3 1 5 o.d o.rs1 0 | .qticket o => .s3 1 6 o.d o.rs1 0 | .qturn a b => .s3 1 7 0 a b
  | .qnext a => .s3 1 8 0 a 0 | .slotget o => .s3 1 9 o.d o.rs1 0 | .slotret a b => .s3 1 10 0 a b
  | .qlen o => .s3 1 11 o.d o.rs1 0 | .mwait o => .s3 1 12 o.rd o.rs1 o.rs2
  | .barv a => .s3 2 0 0 a 0 | .barw a => .s3 2 1 0 a 0 | .barvw a => .s3 2 2 0 a 0 | .barq o => .s3 2 3 o.d o.rs1 0
  | .ofence w p q => .ofence w p q | .xfence w => .xfence w
  | .act o => .act 0 true o | .actS o => .act 1 true o | .vact o => .act 2 false o | .vactS o => .act 3 false o
  | .actInst rd rs2 id => .act 0 false ⟨rd, 0, rs2, id⟩ | .actInstS rd rs2 id => .act 1 false ⟨rd, 0, rs2, id⟩
  | .hbsave a => .s3 5 0 0 a 0 | .hbload a => .s3 5 1 0 a 0 | .mgnsafe a => .s3 5 2 0 a 0 | .mgnrel => .s3 5 3 0 0 0
  | .gjoin o => .s3 5 4 o.d o.rs1 0 | .gleave => .s3 5 5 0 0 0 | .vrel => .s3 5 6 0 0 0 | .cquar a => .s3 5 7 0 a 0
  -- the standard base
  | .load o => .load o | .store o => .store o
  | .lr o => .amo 2 true o | .sc o => .amo 3 false o | .amo f o => .amo f.funct5 false o
  | .fence o => .fence o | .fenceTso o => .fenceTso o | .fenceI rd rs1 imm => .fenceI rd rs1 imm
  | .sfenceVma a b => .system 9 b a | .wfi => .system 8 5 0 | .sret => .system 8 2 0 | .mret => .system 24 2 0
  | .ecall => .system 0 0 0 | .ebreak => .system 0 1 0 | .baseInstruction b => .base b
  | .vtypeWrite o => .csr (· == 0x801#12) o | .vreclaimWrite o => .csr (· == 0x5C6#12) o
  | .satpWrite o => .csr (· == 0x180#12) o | .mgnctlWrite o => .csr (· == 0x7C0#12) o
  | .registerWrite (.csr o) => .csr (fun n => !isSpecialCsr n) o
  | .registerWrite (.bar0 off _) => .event (off < 65536)
  | .registerWrite (.block c off _) => .event (coreOk c && off < 65536)
  -- events and requests: operands in the ranges the device has
  | .stashMapWord0Write c e _ => .event (coreOk c && e < 64) | .stashMapWord1Write c e _ => .event (coreOk c && e < 64)
  | .snapshot c _ => .event (coreOk c) | .snapshotEnd c => .event (coreOk c)
  | .requeue c x _ => .event (coreOk c && ctxOk x) | .saveareaRead c x _ => .event (coreOk c && ctxOk x)
  | .lvcfgWrite d _ => .event (dieOk d)
  | .queue _ => .event true | .turnstile _ => .event true | .pool _ => .event true | .barrier _ => .event true
  | .pinned _ => .event true | .sched _ => .event true | .aspace _ => .event true | .asrel _ => .event true
  | .fenceRequest _ => .event true | .capkey _ => .event true | .ring _ => .event true | .nvmeqp _ => .event true
  | .waitword _ => .event true | .subscribe _ => .event true | .launch _ => .event true | .install _ => .event true
  | .hostPush _ _ _ => .event true | .hostRead _ _ => .event true | .hostWrite _ _ _ => .event true
  | .atsInvalidation _ => .event true
  | .kmma c n => .event (coreOk c && nodeOk n) | .kcopy c n => .event (coreOk c && nodeOk n)
  | .kgath c n => .event (coreOk c && nodeOk n) | .kscat c n => .event (coreOk c && nodeOk n)
  | .kfill c n => .event (coreOk c && nodeOk n) | .kred c n => .event (coreOk c && nodeOk n)
  | .kcoll c n => .event (coreOk c && nodeOk n) | .kdisk c n => .event (coreOk c && nodeOk n)
  | .knest c n => .event (coreOk c && nodeOk n) | .ksig c n => .event (coreOk c && nodeOk n)
  | .commandLaunch c n => .event (coreOk c && nodeOk n) | .leaveAdmit d => .event (dieOk d)
  | .leaveWaitExpire d c n => .event (dieOk d && coreOk c && nodeOk n)
  | .kmmaRowFinish c n => .event (coreOk c && nodeOk n) | .commandComplete c n => .event (coreOk c && nodeOk n)
  | .commandFault c n _ => .event (coreOk c && nodeOk n) | .enginePageFaultResolved c n _ => .event (coreOk c && nodeOk n)
  | .ownershipWindowTake c n => .event (coreOk c && nodeOk n)
  | .remoteCommandArrive c n t _ => .event (coreOk c && nodeOk n && coreOk t)
  | .remoteCompletion c n _ _ => .event (coreOk c && nodeOk n) | .nvmeCompletion q _ _ => .event (q < 256)
  | .actPerform _ => .event true | .vactComplete c x => .event (coreOk c && ctxOk x)
  | .vectorLoadComplete c x _ => .event (coreOk c && ctxOk x) | .boundRefillLand c x _ => .event (coreOk c && ctxOk x)
  | .channelChunkDeposit c x _ => .event (coreOk c && ctxOk x) | .vaccPerform c => .event (coreOk c)
  | .expand d => .event (dieOk d) | .expandResume d => .event (dieOk d) | .dispatch c x => .event (coreOk c && ctxOk x)
  | .stealAttempt c _ => .event (coreOk c) | .stealAnswer v t => .event (coreOk v && coreOk t)
  | .stealBackoffEnd c => .event (coreOk c) | .dequeRefill c => .event (coreOk c) | .agingStep c => .event (coreOk c)
  | .reclaimStart c => .event (coreOk c) | .reclaimTimeout c x => .event (coreOk c && ctxOk x)
  | .reclaimInterrupt c x => .event (coreOk c && ctxOk x) | .supervisorTimerInterrupt c x => .event (coreOk c && ctxOk x)
  | .barrierHeldPhaseComplete _ d _ => .event (dieOk d) | .barrierCompletionNotice _ d _ => .event (dieOk d)
  | .barrierTimeout _ d _ => .event (dieOk d) | .gjoinTimeout c x => .event (coreOk c && ctxOk x)
  | .powerWindowEnd d => .event (dieOk d) | .timingEvent c _ => .event (coreOk c) | .marginWindowEnd c => .event (coreOk c)
  | .mgnsafeExpire c => .event (coreOk c) | .regulatorStep c => .event (coreOk c) | .droopDetect c => .event (coreOk c)
  | .clockHopEnd d => .event (dieOk d)
  | .coldReset => .event true | .warmReset => .event true | .bootWatchdogExpire => .event true
  | .oxeilQuarantine c => .event (coreOk c) | .unitWindowEnd _ => .event true | .oxeilSetThreshold _ _ _ => .event true
  | .oxeilSetTimer _ => .event true | .requalification _ => .event true | .telemetryRead _ => .event true
  | .telemetrySample d => .event (dieOk d) | .subscriptionSample n => .event (n < 64)
  | .laxelFlit l _ _ => .event (l < 18) | .laxelReplayRequest l _ => .event (l < 18) | .linkDown l => .event (l < 18)
  | .e2eRequestArrive _ _ _ _ _ _ => .event true | .e2eResponse _ _ _ => .event true | .retransmitTimeout _ => .event true
  | .dedupExpire _ _ => .event true | .powerCapMessage _ _ _ => .event true | .capLeaseExpire => .event true
  | .spdmRequest _ => .event true | .firmwareUpdate _ _ => .event true | .activate => .event true | .commit => .event true
  | .cfgreqDoorbell d _ => .event (match d with | none => true | some c => coreOk c)
  | .engineLineWrite c n => .event (coreOk c && nodeOk n) | .clockSourceHop d => .event (dieOk d)
  | .linkTrained l _ => .event (l < 18) | .machineExternalInterrupt d x => .event (dieOk d && ctxOk x)
  | .powerLoss => .event true | .bucketDrain c => .event (coreOk c) | .unitReplacement _ => .event true

/-- The checks on the fields of a base instruction: shift amounts in range (RV64I); a CSR read that writes nothing is a csrrs or
csrrc. -/
def Base.wellFormed : Base → Bool
  | .opImm f _ _ imm => match f with
    | .slli | .srli | .srai => imm.toNat < 64
    | _ => true
  | .opImmW f _ _ imm => match f with
    | .addiw => true
    | _ => imm.toNat < 32
  | .csrRead fn _ _ _ => fn != .rw
  | _ => true

def Layout.ok : Layout → Bool
  | .shapeB _ _ _ ks mr o => ks.admits o.src && mr.admits o.m
  | .shapeU _ _ _ mr o => mr.admits o.m
  | .shapeS _ _ _ sr o => sr.admits o.sel
  | .shapeZ _ _ _ => true
  | .shapeXR _ _ mr o => mr.admits o.m
  | .shapeD _ _ _ ks o => ks.admits o.src
  | .lfCmp _ o => Kinds.onlyV.admits o.src
  | .accI _ _ => true
  | .accZ _ => true
  | .mem _ _ indexed wr o => wr.admits o.width && (indexed || o.idx == 0)
  | .conf _ _ _ _ _ _ => true
  | .cfgi _ vt => vt.toNat / 2048 != 7          -- R101
  | .s3 _ _ _ _ _ => true
  | .act _ needsLine o => !needsLine || o.s1 != 0   -- R86: rs1 = 0 is the install form
  | .ofence w _ _ => w.toNat ≤ 5               -- R85
  | .xfence w => w.toNat ≤ 5
  | .load o => !(o.unsigned && o.width == .d)
  | .store _ => true
  | .amo _ noRs2 o => !noRs2 || o.rs2 == 0
  | .fence o => !(o.fm == 8#4 && o.pred == 3#4 && o.succ == 3#4)
  | .fenceTso o => o.fm == 8#4 && o.pred == 3#4 && o.succ == 3#4
  | .fenceI _ _ _ => true
  | .system _ _ _ => true
  | .csr num o => num o.csr && o.writes
  | .base b => b.wellFormed
  | .event ok => ok

/-- Well-formedness of an instruction. -/
def Instr.wellFormed (i : Instr) : Bool := i.layout.ok

end Sys2Proof
end

