-- ==== Sys2Proof/Decode.lean ====
section
/-! DEFINITION. The decoder of the 32-bit instruction word, total and rejecting by name, and the encoder written from the
same tables (Tables 03-2 to 03-11, 04-1, 04-2; the standard base of R73 as the standard encodes it, log 15). -/
namespace Sys2Proof

/-- Why a word is no instruction (R74, R75, R77, R78, R82, R84, R85, R101): every one raises illegal instruction. -/
inductive Reject where
  | parcel16        -- bits [1:0] are not 0b11
  | major           -- the major opcode is not one of Table 03-2's decoded ones
  | reserved        -- a reserved code point
  | kind            -- a kind outside the instruction's legal set
  | masking         -- m against the masking column
  | selector        -- an illegal selector
  | field           -- a non-zero field that must be zero
  | width           -- a mode and width combination not listed
  | scope           -- a scope code 6 to 31
  deriving DecidableEq, Repr

/-! ### The formats -/

/-- The fields of format VA (Table 03-3). -/
structure VA where
  op : BitVec 4
  grp : BitVec 3
  b : BitVec 5
  a : BitVec 5
  kind : BitVec 2
  m : Bool
  d : BitVec 5
  deriving DecidableEq, Repr

def VA.ofWord (w : BitVec 32) : VA :=
  let n := w.toNat
  { op := BitVec.ofNat 4 (n / 268435456), grp := BitVec.ofNat 3 (n / 33554432), b := BitVec.ofNat 5 (n / 1048576),
    a := BitVec.ofNat 5 (n / 32768), kind := BitVec.ofNat 2 (n / 8192), m := n / 4096 % 2 == 1,
    d := BitVec.ofNat 5 (n / 128) }

def VA.toWord (opc : Nat) (f : VA) : BitVec 32 :=
  BitVec.ofNat 32 (f.op.toNat * 268435456 + f.grp.toNat * 33554432 + f.b.toNat * 1048576 + f.a.toNat * 32768 +
    f.kind.toNat * 8192 + f.m.toNat * 4096 + f.d.toNat * 128 + opc)

/-- The fields of format VM (Table 03-8). -/
structure VM where
  mode : BitVec 3
  z : Bool
  width : BitVec 3
  b : BitVec 5
  a : BitVec 5
  dir : BitVec 2
  m : Bool
  d : BitVec 5
  deriving DecidableEq, Repr

def VM.ofWord (w : BitVec 32) : VM :=
  let n := w.toNat
  { mode := BitVec.ofNat 3 (n / 536870912), z := n / 268435456 % 2 == 1, width := BitVec.ofNat 3 (n / 33554432),
    b := BitVec.ofNat 5 (n / 1048576), a := BitVec.ofNat 5 (n / 32768), dir := BitVec.ofNat 2 (n / 8192),
    m := n / 4096 % 2 == 1, d := BitVec.ofNat 5 (n / 128) }

def VM.toWord (f : VM) : BitVec 32 :=
  BitVec.ofNat 32 (f.mode.toNat * 536870912 + f.z.toNat * 268435456 + f.width.toNat * 33554432 + f.b.toNat * 1048576 +
    f.a.toNat * 32768 + f.dir.toNat * 8192 + f.m.toNat * 4096 + f.d.toNat * 128 + 43)

/-- The fields of format S (Table 03-10), which are also the fields of the standard R format. -/
structure SF where
  f7 : BitVec 7
  b : BitVec 5
  a : BitVec 5
  cls : BitVec 3
  d : BitVec 5
  deriving DecidableEq, Repr

def SF.ofWord (w : BitVec 32) : SF :=
  let n := w.toNat
  { f7 := BitVec.ofNat 7 (n / 33554432), b := BitVec.ofNat 5 (n / 1048576), a := BitVec.ofNat 5 (n / 32768),
    cls := BitVec.ofNat 3 (n / 4096), d := BitVec.ofNat 5 (n / 128) }

def SF.toWord (opc : Nat) (f : SF) : BitVec 32 :=
  BitVec.ofNat 32 (f.f7.toNat * 33554432 + f.b.toNat * 1048576 + f.a.toNat * 32768 + f.cls.toNat * 4096 +
    f.d.toNat * 128 + opc)

/-- The I-format immediate of the standard: bits [31:20]. -/
def SF.immI (f : SF) : BitVec 12 := BitVec.ofNat 12 (f.f7.toNat * 32 + f.b.toNat)
/-- The S-format immediate: bits [31:25] and [11:7]. -/
def SF.immS (f : SF) : BitVec 12 := BitVec.ofNat 12 (f.f7.toNat * 32 + f.d.toNat)
/-- The B-format immediate's bits [12:1]. -/
def SF.immB (f : SF) : BitVec 12 :=
  BitVec.ofNat 12 (f.f7.toNat / 64 * 2048 + f.d.toNat % 2 * 1024 + f.f7.toNat % 64 * 16 + f.d.toNat / 2)
/-- The U-format immediate: bits [31:12]. -/
def SF.immU (f : SF) : BitVec 20 :=
  BitVec.ofNat 20 (f.f7.toNat * 8192 + f.b.toNat * 256 + f.a.toNat * 8 + f.cls.toNat)
/-- The J-format immediate's bits [20:1]. -/
def SF.immJ (f : SF) : BitVec 20 :=
  BitVec.ofNat 20 (f.f7.toNat / 64 * 524288 + (f.a.toNat * 8 + f.cls.toNat) * 2048 + f.b.toNat % 2 * 1024 +
    f.f7.toNat % 64 * 16 + f.b.toNat / 2)

/-! ### Operand shapes (Table 03-4) -/

/-- The source the kind field selects in bits [19:15] (R76). -/
def VA.src (f : VA) : Src :=
  match f.kind.toNat with
  | 0 => .vv f.a
  | 1 => .vx f.a
  | 2 => .vi f.a
  | _ => .vf f.a

def VA.formB (f : VA) (ks : Kinds) (mr : MaskRule) (c : OpB → Instr) : Except Reject Instr :=
  if !ks.admits f.src then .error .kind
  else if !mr.admits f.m then .error .masking
  else .ok (c ⟨f.d, f.b, f.src, f.m⟩)

def VA.formU (f : VA) (mr : MaskRule) (c : OpU → Instr) : Except Reject Instr :=
  if f.kind != 0 then .error .kind
  else if f.a != 0 then .error .field
  else if !mr.admits f.m then .error .masking
  else .ok (c ⟨f.d, f.b, f.m⟩)

def VA.formS (f : VA) (sr : SelRule) (c : OpS → Instr) : Except Reject Instr :=
  if f.kind != 0 then .error .kind
  else if !sr.admits f.a then .error .selector
  else .ok (c ⟨f.d, f.b, f.a, f.m⟩)

def VA.formZ (f : VA) (c : OpZ → Instr) : Except Reject Instr :=
  if f.kind != 0 then .error .kind
  else if f.a != 0 then .error .field
  else if f.b != 0 then .error .field
  else .ok (c ⟨f.d, f.m⟩)

def VA.formXR (f : VA) (mr : MaskRule) (c : OpXR → Instr) : Except Reject Instr :=
  if f.kind != 0 then .error .kind
  else if f.a != 0 then .error .field
  else if !mr.admits f.m then .error .masking
  else .ok (c ⟨f.d, f.b, f.m⟩)

def VA.formD (f : VA) (ks : Kinds) (c : OpD → Instr) : Except Reject Instr :=
  if !ks.admits f.src then .error .kind
  else if f.b != 0 then .error .field
  else if f.m then .error .masking
  else .ok (c ⟨f.d, f.src⟩)

/-- lf.cmp: the predicate is in the kind field and both sources are vector registers (R80). -/
def VA.lfCmp (f : VA) : Instr :=
  match f.kind.toNat with
  | 0 => .lfCmpLt ⟨f.d, f.b, .vv f.a, f.m⟩
  | 1 => .lfCmpLe ⟨f.d, f.b, .vv f.a, f.m⟩
  | 2 => .lfCmpEq ⟨f.d, f.b, .vv f.a, f.m⟩
  | _ => .lfCmpUn ⟨f.d, f.b, .vv f.a, f.m⟩

def VA.vaccI (f : VA) : Except Reject Instr :=
  if f.kind != 1 then .error .kind
  else if f.m then .error .masking
  else if f.d != 0 then .error .field
  else .ok (.vaccI f.b f.a)

def VA.vaccZ (f : VA) : Except Reject Instr :=
  if f.kind != 1 then .error .kind
  else if f.m then .error .masking
  else if f.d != 0 then .error .field
  else if f.b != 0 then .error .field
  else .ok (.vaccZ f.a)

/-! ### custom-0 (Table 03-6) and custom-2 (Table 03-7) -/

def decodeCustom0Grp0 (f : VA) : Except Reject Instr :=
  match f.op.toNat with
  | 0 => f.formB .vvxi .optional .vadd
  | 1 => f.formB .vvxi .optional .vsub
  | 2 => f.formB .xi .optional .vrsub
  | 3 => f.formB .vvxi .optional .vmul
  | 4 => f.formB .vvxi .optional .vmulh
  | 5 => f.formB .vvxi .optional .vmulhu
  | 6 => f.formB .vvxi .optional .vmacc
  | 7 => f.formB .vvxi .optional .vnmsac
  | 8 => f.formB .vvxi .optional .vdiv
  | 9 => f.formB .vvxi .optional .vdivu
  | 10 => f.formB .vvxi .optional .vrem
  | 11 => f.formB .vvxi .optional .vremu
  | 12 => f.formB .vvxi .optional .vmin
  | 13 => f.formB .vvxi .optional .vminu
  | 14 => f.formB .vvxi .optional .vmax
  | 15 => f.formB .vvxi .optional .vmaxu
  | _ => .error .reserved

def decodeCustom0Grp1 (f : VA) : Except Reject Instr :=
  match f.op.toNat with
  | 0 => f.formB .vvxi .optional .vand
  | 1 => f.formB .vvxi .optional .vor
  | 2 => f.formB .vvxi .optional .vxor
  | 3 => f.formB .vvxi .optional .vsll
  | 4 => f.formB .vvxi .optional .vsrl
  | 5 => f.formB .vvxi .optional .vsra
  | 6 => f.formB .vvxi .optional .vsadd
  | 7 => f.formB .vvxi .optional .vsaddu
  | 8 => f.formB .vvxi .optional .vssub
  | 9 => f.formB .vvxi .optional .vssubu
  | 10 => f.formB .vvxi .optional .vsmul
  | 11 => f.formU .optional .vclz
  | 12 => f.formU .optional .vcpop
  | 13 => f.formB .vvxi .optional .vabsd
  | 14 => f.formB .vvxi .required .vmerge
  | 15 => f.formD .vvxi .vmv
  | _ => .error .reserved

def decodeCustom0Grp2 (f : VA) : Except Reject Instr :=
  match f.op.toNat with
  | 0 => f.formB .vvxi .optional .vmseq
  | 1 => f.formB .vvxi .optional .vmsne
  | 2 => f.formB .vvxi .optional .vmslt
  | 3 => f.formB .vvxi .optional .vmsltu
  | 4 => f.formB .vvxi .optional .vmsle
  | 5 => f.formB .vvxi .optional .vmsleu
  | 6 => f.formB .xi .optional .vmsgt
  | 7 => f.formB .xi .optional .vmsgtu
  | 8 => f.formB .vvf .optional .vmfeq
  | 9 => f.formB .vvf .optional .vmfne
  | 10 => f.formB .vvf .optional .vmflt
  | 11 => f.formB .vvf .optional .vmfle
  | 12 => f.formB .onlyF .optional .vmfgt
  | 13 => f.formB .onlyF .optional .vmfge
  | _ => .error .reserved

def decodeCustom0Grp3 (f : VA) : Except Reject Instr :=
  match f.op.toNat with
  | 0 => f.formB .onlyV .never .vmand
  | 1 => f.formB .onlyV .never .vmor
  | 2 => f.formB .onlyV .never .vmxor
  | 3 => f.formB .onlyV .never .vmandn
  | 4 => f.formU .optional .vmsbf
  | 5 => f.formU .optional .vmsif
  | 6 => f.formU .optional .vmsof
  | 7 => f.formU .optional .viota
  | 8 => f.formZ .vid
  | 9 => f.formXR .optional .vmcnt
  | 10 => f.formXR .optional .vmfirst
  | 11 => f.formXR .never .vmtox
  | 12 => f.formD .onlyX .vmfromx
  | _ => .error .reserved

def decodeCustom0Grp4 (f : VA) : Except Reject Instr :=
  match f.op.toNat with
  | 0 => f.formB .vvf .optional .vfadd
  | 1 => f.formB .vvf .optional .vfsub
  | 2 => f.formB .vvf .optional .vfmul
  | 3 => f.formB .vvf .optional .vfdiv
  | 4 => f.formU .optional .vfsqrt
  | 5 => f.formB .vvf .optional .vfmin
  | 6 => f.formB .vvf .optional .vfmax
  | 7 => f.formB .vvf .optional .vfmadd
  | 8 => f.formB .vvf .optional .vfnmadd
  | 9 => f.formB .vvf .optional .vfmsub
  | 10 => f.formB .vvf .optional .vfnmsub
  | 11 => f.formB .vvf .optional .vfsgnj
  | 12 => f.formB .vvf .optional .vfsgnjn
  | 13 => f.formB .vvf .optional .vfsgnjx
  | 14 => f.formU .optional .vfrece
  | 15 => f.formU .optional .vfrsqe
  | _ => .error .reserved

def decodeCustom0Grp5 (f : VA) : Except Reject Instr :=
  match f.op.toNat with
  | 0 => f.formS .tag .vfcvtFX
  | 1 => f.formS .tag .vfcvtFXu
  | 2 => f.formS .tag .vfcvtXF
  | 3 => f.formS .tag .vfcvtXuF
  | 4 => f.formS .tag .vfwid
  | 5 => f.formS .tag .vfnar
  | 6 => f.formS .ext .vsext
  | 7 => f.formS .ext .vzext
  | 8 => f.formU .optional .vnclip
  | 9 => f.formU .optional .vfclass
  | 10 => f.formU .optional .vfcvtBfF
  | 11 => f.formU .optional .vfcvtFBf
  | _ => .error .reserved

def decodeCustom0Grp6 (f : VA) : Except Reject Instr :=
  match f.op.toNat with
  | 0 => f.formB .xi .optional .vslideup
  | 1 => f.formB .xi .optional .vslidedn
  | 2 => f.formB .xf .optional .vslide1up
  | 3 => f.formB .xf .optional .vslide1dn
  | 4 => f.formB .vvxi .optional .vrgather
  | 5 => f.formB .onlyV .never .vcompress
  | 6 => f.formB .onlyV .optional .vredsum
  | 7 => f.formB .onlyV .optional .vredmin
  | 8 => f.formB .onlyV .optional .vredmax
  | 9 => f.formB .onlyV .optional .vredand
  | 10 => f.formB .onlyV .optional .vredor
  | 11 => f.formB .onlyV .optional .vfredo
  | 12 => f.formB .onlyV .optional .vfredt
  | 13 => f.formB .onlyV .optional .vfredmin
  | 14 => f.formB .onlyV .optional .vfredmax
  | 15 => f.formS (.upTo 2) .vscan
  | _ => .error .reserved

def decodeCustom0Grp7 (f : VA) : Except Reject Instr :=
  match f.op.toNat with
  | 0 => f.formXR .never .vmvXS
  | 1 => f.formD .onlyX .vmvSX
  | 2 => f.formB .onlyV .optional .vgperm
  | 3 => f.formS (.upTo 4) .vgred
  | 4 => f.formB .xi .optional .vgbcast
  | _ => .error .reserved

def decodeCustom2Grp0 (f : VA) : Except Reject Instr :=
  match f.op.toNat with
  | 0 => f.formB .onlyV .optional .vqE4m3
  | 1 => f.formB .onlyV .optional .vqE5m2
  | 2 => f.formB .onlyV .optional .vqE2m1
  | 3 => f.formB .onlyV .optional .vdq
  | 4 => f.formU .never .vsclmk
  | 5 => f.formB .onlyV .optional .vmxdot
  | 6 => f.formB .onlyV .never .vmxmm
  | 7 => f.formB .onlyV .never .vpkscl
  | _ => .error .reserved

def decodeCustom2Grp1 (f : VA) : Except Reject Instr :=
  match f.op.toNat with
  | 0 => f.formD .onlyX .vaccX
  | 1 => f.vaccI
  | 2 => f.vaccZ
  | _ => .error .reserved

def decodeCustom2Grp2 (f : VA) : Except Reject Instr :=
  match f.op.toNat with
  | 0 => f.formB .onlyV .optional .lfAdd
  | 1 => f.formB .onlyV .optional .lfSub
  | 2 => f.formB .onlyV .optional .lfMul
  | 3 => f.formB .onlyV .optional .lfFma
  | 4 => f.formB .onlyV .optional .lfDiv
  | 5 => f.formU .optional .lfSqrt
  | 6 => f.formU .optional .lfRnd
  | 7 => f.formS (.upTo 3) .lfFromf
  | 8 => f.formS (.upTo 3) .lfTof
  | 9 => f.formS (.upTo 1) .lfFromx
  | 10 => f.formS (.upTo 1) .lfTox
  | 11 => .ok f.lfCmp
  | 12 => f.formU .optional .lfLen
  | 13 => f.formB .onlyV .optional .lfSgnj
  | _ => .error .reserved

def decodeCustom2Grp3 (f : VA) : Except Reject Instr :=
  match f.op.toNat with
  | 0 => f.formB .onlyV .optional .gbox
  | 1 => f.formB .onlyV .optional .gtri
  | 2 => f.formU .optional .gsetup
  | 3 => f.formB .onlyX .optional .gcov
  | 4 => f.formB .onlyX .optional .gtex
  | 5 => f.formB .onlyV .optional .gblend
  | 6 => f.formB .onlyV .optional .grsvUpd
  | 7 => f.formB .onlyV .optional .grsvMrg
  | 8 => f.formU .optional .gpack
  | _ => .error .reserved

def decodeCustom2Grp4 (f : VA) : Except Reject Instr :=
  match f.op.toNat with
  | 0 => f.formB .onlyV .optional .vdsegL2
  | 1 => f.formB .onlyV .optional .vdsegIp
  | 2 => f.formB .onlyV .never .vtopk
  | 3 => f.formU .never .vtopkM
  | _ => .error .reserved

def decodeCustom0 (f : VA) : Except Reject Instr :=
  match f.grp.toNat with
  | 0 => decodeCustom0Grp0 f
  | 1 => decodeCustom0Grp1 f
  | 2 => decodeCustom0Grp2 f
  | 3 => decodeCustom0Grp3 f
  | 4 => decodeCustom0Grp4 f
  | 5 => decodeCustom0Grp5 f
  | 6 => decodeCustom0Grp6 f
  | _ => decodeCustom0Grp7 f

def decodeCustom2 (f : VA) : Except Reject Instr :=
  match f.grp.toNat with
  | 0 => decodeCustom2Grp0 f
  | 1 => decodeCustom2Grp1 f
  | 2 => decodeCustom2Grp2 f
  | 3 => decodeCustom2Grp3 f
  | 4 => decodeCustom2Grp4 f
  | _ => .error .reserved

/-! ### custom-1 (Tables 03-9, 04-1, 04-2) -/

def VM.mem (f : VM) (indexed : Bool) (wr : WidthRule) (c : OpM → Instr) : Except Reject Instr :=
  if !wr.admits f.width then .error .width
  else if !indexed && f.b != 0 then .error .field
  else .ok (c ⟨f.d, f.a, f.b, f.width, f.m⟩)

/-- A form without width, index register and mask. -/
def VM.plain (f : VM) (c : OpDS → Instr) : Except Reject Instr :=
  if f.width != 0 then .error .width
  else if f.b != 0 then .error .field
  else if f.m then .error .masking
  else .ok (c ⟨f.d, f.a⟩)

def decodeLoadMode (f : VM) : Except Reject Instr :=
  match f.mode.toNat with
  | 0 => f.mem false .unit .vld
  | 1 => f.mem true .nonUnit .vlds
  | 2 => f.mem true .nonUnit .vldx
  | 4 => f.mem false .unit .vldff
  | 5 => f.mem true .nonUnit .vldxff
  | 6 => f.plain .vldr
  | _ => .error .reserved

def decodeStoreMode (f : VM) : Except Reject Instr :=
  match f.mode.toNat with
  | 0 => f.mem false .unit .vst
  | 1 => f.mem true .nonUnit .vsts
  | 2 => f.mem true .nonUnit .vstx
  | 3 => f.mem true .nonUnit .vstxo
  | 6 => f.plain .vstr
  | _ => .error .reserved

/-- The vtype bits [13:0] that vcfgi carries in [27:25], [24:20], [19:15] and [12] (Table 04-1). -/
def VM.vtypeImm (f : VM) : BitVec 14 :=
  BitVec.ofNat 14 (f.width.toNat * 2048 + f.b.toNat * 64 + f.a.toNat * 2 + f.m.toNat)

def decodeConfMode (f : VM) : Except Reject Instr :=
  match f.mode.toNat with
  | 0 =>
    if f.width != 0 then .error .width
    else if f.b != 0 then .error .field
    else if f.m then .ok (.vstripK ⟨f.d, f.a⟩) else .ok (.vstrip ⟨f.d, f.a⟩)
  | 1 => f.plain .vcfg
  | 2 => if f.width == 7 then .error .width else .ok (.vcfgi f.d f.vtypeImm)
  | 3 => f.plain .vbind
  | 4 => if f.a != 0 then .error .field else f.plain (fun o => .vunbind o.d)
  | 5 =>
    if f.width != 0 then .error .width
    else if f.a != 0 then .error .field
    else if f.m then .error .masking
    else .ok (.vbend f.d f.b)
  | 6 =>
    if f.width != 0 then .error .width
    else if f.b.toNat ≥ 16 || f.d != 0 then .error .field
    else if f.m then .error .masking
    else .ok (.vnest f.a (BitVec.ofNat 4 f.b.toNat))
  | _ => if f.d != 0 then .error .field else f.plain (fun o => .vctxs o.rs1)

def decodeCustom1 (f : VM) : Except Reject Instr :=
  if f.z then .error .field
  else match f.dir.toNat with
  | 0 => decodeLoadMode f
  | 1 => decodeStoreMode f
  | 2 => decodeConfMode f
  | _ =>
    if f.mode != 0 then .error .reserved
    else if f.d != 0 then .error .field
    else f.plain (fun o => .vctxl o.rs1)

/-! ### custom-3 (Table 03-11) -/

/-- A form of Table 03-11 whose unused fields must be zero. -/
def SF.form (f : SF) (useD useA useB : Bool) (i : Instr) : Except Reject Instr :=
  if (useD || f.d == 0) && (useA || f.a == 0) && (useB || f.b == 0) then .ok i else .error .field

def decodeEngineClass (f : SF) : Except Reject Instr :=
  match f.f7.toNat with
  | 0 => .ok (.ecmd f.d f.a f.b)
  | 1 => if f.a.toNat < 8 then f.form false true false (.ecommit (BitVec.ofNat 3 f.a.toNat)) else .error .field
  | 2 => if f.a.toNat < 8 then f.form false true false (.ewait (BitVec.ofNat 3 f.a.toNat)) else .error .field
  | 3 => f.form false true false (.ewaitn f.a)
  | 4 => f.form true true false (.epoll ⟨f.d, f.a⟩)
  | _ => .error .reserved

def decodeTaskClass (f : SF) : Except Reject Instr :=
  match f.f7.toNat with
  | 0 => f.form true true false (.qspawn ⟨f.d, f.a⟩)
  | 1 => .ok (.qpush ⟨f.d, f.a, f.b⟩)
  | 2 => .ok (.qpop ⟨f.d, f.a, f.b⟩)
  | 3 => f.form false false false .qyield
  | 4 => f.form false false false .qexit
  | 5 => f.form true true false (.qresume ⟨f.d, f.a⟩)
  | 6 => f.form true true false (.qticket ⟨f.d, f.a⟩)
  | 7 => f.form false true true (.qturn f.a f.b)
  | 8 => f.form false true false (.qnext f.a)
  | 9 => f.form true true false (.slotget ⟨f.d, f.a⟩)
  | 10 => f.form false true true (.slotret f.a f.b)
  | 11 => f.form true true false (.qlen ⟨f.d, f.a⟩)
  | 12 => .ok (.mwait ⟨f.d, f.a, f.b⟩)
  | 33 => .ok (.qpushGate ⟨f.d, f.a, f.b⟩)
  | 65 => .ok (.qpushNb ⟨f.d, f.a, f.b⟩)
  | 66 => .ok (.qpopNb ⟨f.d, f.a, f.b⟩)
  | _ => .error .reserved

def decodeBarrierClass (f : SF) : Except Reject Instr :=
  match f.f7.toNat with
  | 0 => f.form false true false (.barv f.a)
  | 1 => f.form false true false (.barw f.a)
  | 2 => f.form false true false (.barvw f.a)
  | 3 => f.form true true false (.barq ⟨f.d, f.a⟩)
  | _ => .error .reserved

def decodeFenceClass (f : SF) : Except Reject Instr :=
  match f.f7.toNat with
  | 0 =>
    if f.a.toNat ≥ 16 || f.b.toNat ≥ 16 then .error .field
    else if f.d.toNat > 5 then .error .scope
    else .ok (.ofence f.d (BitVec.ofNat 4 f.a.toNat) (BitVec.ofNat 4 f.b.toNat))
  | 1 => if f.d.toNat > 5 then .error .scope else f.form true false false (.xfence f.d)
  | _ => .error .reserved

/-- Class 100: funct7 is 0bvsppppp; an act or act.s whose rs1 field is 0 is the install form (R86). -/
def decodeActClass (f : SF) : Except Reject Instr :=
  let id := BitVec.ofNat 5 f.f7.toNat
  match f.f7.toNat / 32 with
  | 0 => if f.a == 0 then .ok (.actInst f.d f.b id) else .ok (.act ⟨f.d, f.a, f.b, id⟩)
  | 1 => if f.a == 0 then .ok (.actInstS f.d f.b id) else .ok (.actS ⟨f.d, f.a, f.b, id⟩)
  | 2 => .ok (.vact ⟨f.d, f.a, f.b, id⟩)
  | _ => .ok (.vactS ⟨f.d, f.a, f.b, id⟩)

def decodeSystemClass (f : SF) : Except Reject Instr :=
  match f.f7.toNat with
  | 0 => f.form false true false (.hbsave f.a)
  | 1 => f.form false true false (.hbload f.a)
  | 2 => f.form false true false (.mgnsafe f.a)
  | 3 => f.form false false false .mgnrel
  | 4 => f.form true true false (.gjoin ⟨f.d, f.a⟩)
  | 5 => f.form false false false .gleave
  | 6 => f.form false false false .vrel
  | 7 => f.form false true false (.cquar f.a)
  | _ => .error .reserved

def decodeCustom3 (f : SF) : Except Reject Instr :=
  match f.cls.toNat with
  | 0 => decodeEngineClass f
  | 1 => decodeTaskClass f
  | 2 => decodeBarrierClass f
  | 3 => decodeFenceClass f
  | 4 => decodeActClass f
  | 5 => decodeSystemClass f
  | _ => .error .reserved

/-! ### The standard base (R73, Table 03-2) -/

def decodeLoad (f : SF) : Except Reject Instr :=
  match f.cls.toNat with
  | 0 => .ok (.load ⟨.b, false, f.d, f.a, f.immI⟩)
  | 1 => .ok (.load ⟨.h, false, f.d, f.a, f.immI⟩)
  | 2 => .ok (.load ⟨.w, false, f.d, f.a, f.immI⟩)
  | 3 => .ok (.load ⟨.d, false, f.d, f.a, f.immI⟩)
  | 4 => .ok (.load ⟨.b, true, f.d, f.a, f.immI⟩)
  | 5 => .ok (.load ⟨.h, true, f.d, f.a, f.immI⟩)
  | 6 => .ok (.load ⟨.w, true, f.d, f.a, f.immI⟩)
  | _ => .error .reserved

def decodeStore (f : SF) : Except Reject Instr :=
  match f.cls.toNat with
  | 0 => .ok (.store ⟨.b, f.a, f.b, f.immS⟩)
  | 1 => .ok (.store ⟨.h, f.a, f.b, f.immS⟩)
  | 2 => .ok (.store ⟨.w, f.a, f.b, f.immS⟩)
  | 3 => .ok (.store ⟨.d, f.a, f.b, f.immS⟩)
  | _ => .error .reserved

def decodeMiscMem (f : SF) : Except Reject Instr :=
  match f.cls.toNat with
  | 0 =>
    let o : OpFence := { fm := BitVec.ofNat 4 (f.f7.toNat / 8), pred := BitVec.ofNat 4 (f.f7.toNat % 8 * 2 + f.b.toNat / 16),
                         succ := BitVec.ofNat 4 f.b.toNat, rd := f.d, rs1 := f.a }
    if o.fm == 8#4 && o.pred == 3#4 && o.succ == 3#4 then .ok (.fenceTso o) else .ok (.fence o)
  | 1 => .ok (.fenceI f.d f.a f.immI)
  | _ => .error .reserved

def decodeOpImm (f : SF) : Except Reject Instr :=
  let i := f.immI
  match f.cls.toNat with
  | 0 => .ok (.baseInstruction (.opImm .addi f.d f.a i))
  | 1 => if i.toNat < 64 then .ok (.baseInstruction (.opImm .slli f.d f.a i)) else .error .reserved
  | 2 => .ok (.baseInstruction (.opImm .slti f.d f.a i))
  | 3 => .ok (.baseInstruction (.opImm .sltiu f.d f.a i))
  | 4 => .ok (.baseInstruction (.opImm .xori f.d f.a i))
  | 5 =>
    if i.toNat < 64 then .ok (.baseInstruction (.opImm .srli f.d f.a i))
    else if i.toNat / 64 == 16 then .ok (.baseInstruction (.opImm .srai f.d f.a (BitVec.ofNat 12 (i.toNat % 64))))
    else .error .reserved
  | 6 => .ok (.baseInstruction (.opImm .ori f.d f.a i))
  | _ => .ok (.baseInstruction (.opImm .andi f.d f.a i))

def decodeOpImmW (f : SF) : Except Reject Instr :=
  let i := f.immI
  match f.cls.toNat with
  | 0 => .ok (.baseInstruction (.opImmW .addiw f.d f.a i))
  | 1 => if i.toNat < 32 then .ok (.baseInstruction (.opImmW .slliw f.d f.a i)) else .error .reserved
  | 5 =>
    if i.toNat < 32 then .ok (.baseInstruction (.opImmW .srliw f.d f.a i))
    else if i.toNat / 32 == 32 then .ok (.baseInstruction (.opImmW .sraiw f.d f.a (BitVec.ofNat 12 (i.toNat % 32))))
    else .error .reserved
  | _ => .error .reserved

def regOpOf (f7 f3 : Nat) : Option RegOp :=
  match f7, f3 with
  | 0, 0 => some .add | 0, 1 => some .sll | 0, 2 => some .slt | 0, 3 => some .sltu
  | 0, 4 => some .xor | 0, 5 => some .srl | 0, 6 => some .or | 0, 7 => some .and
  | 32, 0 => some .sub | 32, 5 => some .sra
  | 1, 0 => some .mul | 1, 1 => some .mulh | 1, 2 => some .mulhsu | 1, 3 => some .mulhu
  | 1, 4 => some .div | 1, 5 => some .divu | 1, 6 => some .rem | 1, 7 => some .remu
  | _, _ => none

def RegOp.codes : RegOp → Nat × Nat
  | .add => (0, 0) | .sll => (0, 1) | .slt => (0, 2) | .sltu => (0, 3)
  | .xor => (0, 4) | .srl => (0, 5) | .or => (0, 6) | .and => (0, 7)
  | .sub => (32, 0) | .sra => (32, 5)
  | .mul => (1, 0) | .mulh => (1, 1) | .mulhsu => (1, 2) | .mulhu => (1, 3)
  | .div => (1, 4) | .divu => (1, 5) | .rem => (1, 6) | .remu => (1, 7)

def regOpWOf (f7 f3 : Nat) : Option RegOpW :=
  match f7, f3 with
  | 0, 0 => some .addw | 0, 1 => some .sllw | 0, 5 => some .srlw
  | 32, 0 => some .subw | 32, 5 => some .sraw
  | 1, 0 => some .mulw | 1, 4 => some .divw | 1, 5 => some .divuw | 1, 6 => some .remw | 1, 7 => some .remuw
  | _, _ => none

def RegOpW.codes : RegOpW → Nat × Nat
  | .addw => (0, 0) | .sllw => (0, 1) | .srlw => (0, 5)
  | .subw => (32, 0) | .sraw => (32, 5)
  | .mulw => (1, 0) | .divw => (1, 4) | .divuw => (1, 5) | .remw => (1, 6) | .remuw => (1, 7)

def decodeOp (f : SF) : Except Reject Instr :=
  match regOpOf f.f7.toNat f.cls.toNat with
  | some op => .ok (.baseInstruction (.op op f.d f.a f.b))
  | none => .error .reserved

def decodeOpW (f : SF) : Except Reject Instr :=
  match regOpWOf f.f7.toNat f.cls.toNat with
  | some op => .ok (.baseInstruction (.opW op f.d f.a f.b))
  | none => .error .reserved

def brCondOf : Nat → Option BrCond
  | 0 => some .eq | 1 => some .ne | 4 => some .lt | 5 => some .ge | 6 => some .ltu | 7 => some .geu | _ => none

def BrCond.code : BrCond → Nat
  | .eq => 0 | .ne => 1 | .lt => 4 | .ge => 5 | .ltu => 6 | .geu => 7

def decodeBranch (f : SF) : Except Reject Instr :=
  match brCondOf f.cls.toNat with
  | some c => .ok (.baseInstruction (.branch c f.a f.b f.immB))
  | none => .error .reserved

def amoOpOf : Nat → Option AmoOp
  | 0 => some .add | 1 => some .swap | 4 => some .xor | 8 => some .or | 12 => some .and
  | 16 => some .min | 20 => some .max | 24 => some .minu | 28 => some .maxu | _ => none

def decodeAmo (f : SF) : Except Reject Instr :=
  let go (wide : Bool) : Except Reject Instr :=
    let o : OpAmo := { wide := wide, aq := f.f7.toNat / 2 % 2 == 1, rl := f.f7.toNat % 2 == 1, rd := f.d, rs1 := f.a, rs2 := f.b }
    match f.f7.toNat / 4 with
    | 2 => if f.b == 0 then .ok (.lr o) else .error .field
    | 3 => .ok (.sc o)
    | n => match amoOpOf n with
      | some op => .ok (.amo op o)
      | none => .error .reserved
  match f.cls.toNat with
  | 2 => go false
  | 3 => go true
  | _ => .error .reserved

/-- A CSR instruction: one that writes goes to the row of its CSR, one that only reads is a base instruction. -/
def decodeCsr (fn : CsrFn) (imm : Bool) (f : SF) : Except Reject Instr :=
  let o : OpCsr := { fn := fn, imm := imm, csr := f.immI, rd := f.d, src := f.a }
  if !o.writes then .ok (.baseInstruction (.csrRead fn imm f.immI f.d))
  else if o.csr == 0x801#12 then .ok (.vtypeWrite o)
  else if o.csr == 0x5C6#12 then .ok (.vreclaimWrite o)
  else if o.csr == 0x180#12 then .ok (.satpWrite o)
  else if o.csr == 0x7C0#12 then .ok (.mgnctlWrite o)
  else .ok (.registerWrite (.csr o))

def decodeSystem (f : SF) : Except Reject Instr :=
  match f.cls.toNat with
  | 0 =>
    if f.d != 0 then .error .field
    else match f.f7.toNat with
    | 0 =>
      if f.a != 0 then .error .field
      else if f.b == 0 then .ok .ecall
      else if f.b == 1 then .ok .ebreak
      else .error .reserved
    | 8 =>
      if f.a != 0 then .error .field
      else if f.b == 2 then .ok .sret
      else if f.b == 5 then .ok .wfi
      else .error .reserved
    | 9 => .ok (.sfenceVma f.a f.b)
    | 24 => if f.a != 0 then .error .field else if f.b == 2 then .ok .mret else .error .reserved
    | _ => .error .reserved
  | 1 => decodeCsr .rw false f
  | 2 => decodeCsr .rs false f
  | 3 => decodeCsr .rc false f
  | 5 => decodeCsr .rw true f
  | 6 => decodeCsr .rs true f
  | 7 => decodeCsr .rc true f
  | _ => .error .reserved

/-! ### The whole decoder -/

/-- The instruction of a 32-bit word (R74, Table 03-2); every rejection raises illegal instruction (R75). -/
def decode (w : BitVec 32) : Except Reject Instr :=
  match w.toNat % 128 with
  | 0x0B => decodeCustom0 (VA.ofWord w)
  | 0x2B => decodeCustom1 (VM.ofWord w)
  | 0x5B => decodeCustom2 (VA.ofWord w)
  | 0x7B => decodeCustom3 (SF.ofWord w)
  | 0x03 => decodeLoad (SF.ofWord w)
  | 0x0F => decodeMiscMem (SF.ofWord w)
  | 0x13 => decodeOpImm (SF.ofWord w)
  | 0x17 => .ok (.baseInstruction (.auipc (SF.ofWord w).d (SF.ofWord w).immU))
  | 0x1B => decodeOpImmW (SF.ofWord w)
  | 0x23 => decodeStore (SF.ofWord w)
  | 0x2F => decodeAmo (SF.ofWord w)
  | 0x33 => decodeOp (SF.ofWord w)
  | 0x37 => .ok (.baseInstruction (.lui (SF.ofWord w).d (SF.ofWord w).immU))
  | 0x3B => decodeOpW (SF.ofWord w)
  | 0x63 => decodeBranch (SF.ofWord w)
  | 0x67 =>
    let f := SF.ofWord w
    if f.cls == 0 then .ok (.baseInstruction (.jalr f.d f.a f.immI)) else .error .reserved
  | 0x6F => .ok (.baseInstruction (.jal (SF.ofWord w).d (SF.ofWord w).immJ))
  | 0x73 => decodeSystem (SF.ofWord w)
  | n => if n % 4 == 3 then .error .major else .error .parcel16

/-- A word from its four bytes, lowest address first (R15). -/
def wordOfBytes (b0 b1 b2 b3 : BitVec 8) : BitVec 32 :=
  BitVec.ofNat 32 (b0.toNat + b1.toNat * 256 + b2.toNat * 65536 + b3.toNat * 16777216)

/-- Decoding from bytes, with the bytes that follow. -/
def decodeBytes : List (BitVec 8) → Except Reject (Instr × List (BitVec 8))
  | b0 :: b1 :: b2 :: b3 :: rest => (decode (wordOfBytes b0 b1 b2 b3)).map (fun i => (i, rest))
  | _ => .error .parcel16

/-- The bits the trap value takes for a rejected word: 16 for a 16-bit parcel, otherwise all 32 (R75). -/
def trapBits (w : BitVec 32) : Nat :=
  if w.toNat % 4 == 3 then w.toNat else w.toNat % 65536

/-! ### The encoder -/

def Src.kindCode : Src → BitVec 2
  | .vv _ => 0
  | .vx _ => 1
  | .vi _ => 2
  | .vf _ => 3

def Src.field : Src → BitVec 5
  | .vv r => r
  | .vx r => r
  | .vi r => r
  | .vf r => r

/-- The major opcode of format VA. -/
def vaOpc (c2 : Bool) : Nat := if c2 then 0x5B else 0x0B

def vaWord (c2 : Bool) (grp op : Nat) (b a : BitVec 5) (kind : BitVec 2) (m : Bool) (d : BitVec 5) : BitVec 32 :=
  VA.toWord (vaOpc c2) { op := BitVec.ofNat 4 op, grp := BitVec.ofNat 3 grp, b := b, a := a, kind := kind, m := m, d := d }

def vmWord (mode dir : Nat) (width : BitVec 3) (b a : BitVec 5) (m : Bool) (d : BitVec 5) : BitVec 32 :=
  VM.toWord { mode := BitVec.ofNat 3 mode, z := false, width := width, b := b, a := a, dir := BitVec.ofNat 2 dir, m := m, d := d }

def sfWord (opc f7 cls : Nat) (b a d : BitVec 5) : BitVec 32 :=
  SF.toWord opc { f7 := BitVec.ofNat 7 f7, b := b, a := a, cls := BitVec.ofNat 3 cls, d := d }

/-- A word of the I format. -/
def iWord (opc cls : Nat) (imm : BitVec 12) (a d : BitVec 5) : BitVec 32 :=
  sfWord opc (imm.toNat / 32) cls (BitVec.ofNat 5 imm.toNat) a d

/-- A word whose bits [31:12] are given (U and J formats). -/
def uWord (opc u : Nat) (d : BitVec 5) : BitVec 32 :=
  sfWord opc (u / 8192) (u % 8) (BitVec.ofNat 5 (u / 256)) (BitVec.ofNat 5 (u / 8)) d

def MemW.code : MemW → Nat
  | .b => 0 | .h => 1 | .w => 2 | .d => 3

def CsrFn.code : CsrFn → Nat
  | .rw => 1 | .rs => 2 | .rc => 3

def csrWord (fn : CsrFn) (imm : Bool) (csr : BitVec 12) (rd src : Reg) : BitVec 32 :=
  iWord 0x73 (fn.code + if imm then 4 else 0) csr src rd

def ImmOp.cls : ImmOp → Nat
  | .addi => 0 | .slli => 1 | .slti => 2 | .sltiu => 3 | .xori => 4 | .srli => 5 | .srai => 5 | .ori => 6 | .andi => 7

def ImmOp.high : ImmOp → Nat
  | .srai => 1024
  | _ => 0

def ImmOpW.cls : ImmOpW → Nat
  | .addiw => 0 | .slliw => 1 | .srliw => 5 | .sraiw => 5

def ImmOpW.high : ImmOpW → Nat
  | .sraiw => 1024
  | _ => 0

def Base.word : Base → BitVec 32
  | .lui rd imm => uWord 0x37 imm.toNat rd
  | .auipc rd imm => uWord 0x17 imm.toNat rd
  | .jal rd imm =>
    let v := imm.toNat
    uWord 0x6F (v / 524288 * 524288 + v % 1024 * 512 + v / 1024 % 2 * 256 + v / 2048 % 256) rd
  | .jalr rd rs1 imm => iWord 0x67 0 imm rs1 rd
  | .branch c rs1 rs2 imm =>
    let v := imm.toNat
    sfWord 0x63 (v / 2048 * 64 + v / 16 % 64) c.code rs2 rs1 (BitVec.ofNat 5 (v % 16 * 2 + v / 1024 % 2))
  | .opImm f rd rs1 imm => iWord 0x13 f.cls (BitVec.ofNat 12 (f.high + imm.toNat)) rs1 rd
  | .opImmW f rd rs1 imm => iWord 0x1B f.cls (BitVec.ofNat 12 (f.high + imm.toNat)) rs1 rd
  | .op f rd rs1 rs2 => sfWord 0x33 f.codes.1 f.codes.2 rs2 rs1 rd
  | .opW f rd rs1 rs2 => sfWord 0x3B f.codes.1 f.codes.2 rs2 rs1 rd
  | .csrRead fn imm csr rd => csrWord fn imm csr rd 0

def fenceWord (o : OpFence) : BitVec 32 :=
  sfWord 0x0F (o.fm.toNat * 8 + o.pred.toNat / 2) 0 (BitVec.ofNat 5 (o.pred.toNat % 2 * 16 + o.succ.toNat)) o.rs1 o.rd

/-- The word of a layout; none for an event or request, which no instruction word carries. -/
def Layout.word : Layout → Option (BitVec 32)
  | .shapeB c2 grp op _ _ o => some (vaWord c2 grp op o.vs2 o.src.field o.src.kindCode o.m o.vd)
  | .shapeU c2 grp op _ o => some (vaWord c2 grp op o.vs2 0 0 o.m o.vd)
  | .shapeS c2 grp op _ o => some (vaWord c2 grp op o.vs2 o.sel 0 o.m o.vd)
  | .shapeZ grp op o => some (vaWord false grp op 0 0 0 o.m o.vd)
  | .shapeXR grp op _ o => some (vaWord false grp op o.vs2 0 0 o.m o.rd)
  | .shapeD c2 grp op _ o => some (vaWord c2 grp op 0 o.src.field o.src.kindCode false o.vd)
  | .lfCmp pred o => some (vaWord true 2 11 o.vs2 o.src.field (BitVec.ofNat 2 pred) o.m o.vd)
  | .accI vs2 rs1 => some (vaWord true 1 1 vs2 rs1 1 false 0)
  | .accZ rs1 => some (vaWord true 1 2 0 rs1 1 false 0)
  | .mem dir mode _ _ o => some (vmWord mode dir o.width o.idx o.rs1 o.m o.v)
  | .conf dir mode b a m d => some (vmWord mode dir 0 b a m d)
  | .cfgi rd vt =>
    some (vmWord 2 2 (BitVec.ofNat 3 (vt.toNat / 2048)) (BitVec.ofNat 5 (vt.toNat / 64)) (BitVec.ofNat 5 (vt.toNat / 2))
      (vt.toNat % 2 == 1) rd)
  | .s3 cls f7 d a b => some (sfWord 0x7B f7 cls b a d)
  | .act hi _ o => some (sfWord 0x7B (hi * 32 + o.id.toNat) 4 o.s2 o.s1 o.d)
  | .ofence w p q => some (sfWord 0x7B 0 3 (q.zeroExtend 5) (p.zeroExtend 5) w)
  | .xfence w => some (sfWord 0x7B 1 3 0 0 w)
  | .load o => some (iWord 0x03 (o.width.code + if o.unsigned then 4 else 0) o.imm o.rs1 o.rd)
  | .store o => some (sfWord 0x23 (o.imm.toNat / 32) o.width.code o.rs2 o.rs1 (BitVec.ofNat 5 o.imm.toNat))
  | .amo f5 _ o =>
    some (sfWord 0x2F (f5 * 4 + o.aq.toNat * 2 + o.rl.toNat) (if o.wide then 3 else 2) o.rs2 o.rs1 o.rd)
  | .fence o => some (fenceWord o)
  | .fenceTso o => some (fenceWord o)
  | .fenceI rd rs1 imm => some (iWord 0x0F 1 imm rs1 rd)
  | .system f7 b a => some (sfWord 0x73 f7 0 b a 0)
  | .csr _ o => some (csrWord o.fn o.imm o.csr o.rd o.src)
  | .base b => some b.word
  | .event _ => none

/-- The word of an instruction; none for an event or a request. -/
def encode (i : Instr) : Option (BitVec 32) := i.layout.word

/-- The instruction the decoder reads from an opcode-table word: a row of nbits bits whose bits are w (the bits above
nbits are zero). Bytes lie lowest first (R15). -/
def decodeTableWord (nbits w : Nat) : Option Instr :=
  let v := w % 2 ^ nbits
  let byte (i : Nat) : BitVec 8 := BitVec.ofNat 8 (v / 256 ^ i)
  match decodeBytes [byte 0, byte 1, byte 2, byte 3] with
  | .ok (i, _) => some i
  | .error _ => none

end Sys2Proof
end

