-- ==== Sys2Proof/Config.lean ====
section
/-! DEFINITION. What an implementation fixes and what the spec leaves open. The opaque constants are the free values
(log 5): nothing can evaluate them, so a statement that mentions one holds whatever the device gives. -/
namespace Sys2Proof.Config

/-- A free 64-bit value for each draw (log 5): the n-th draw of the machine's counter. -/
opaque freeWord : Nat → BitVec 64

/-- A free natural number for each draw: a choice the spec leaves to the device (log 4). -/
opaque pick : Nat → Nat

/-- Which of the translations that a TLB may still hold serves an access: at a tick, by a core, of a virtual address
(R332, log 7). -/
opaque staleTranslation : Nat → Nat → Nat → Nat

/-- Whether a thread's access at a tick to an address goes ahead of its own command, which no fence orders before it (R353). -/
opaque goesEarly : Nat → Nat → Bool

/-- Whether a BC1 or BC3 interpolated channel numerator/denominator rounds up where it is no integer (R253, log 11). -/
opaque bcRoundsUp : Nat → Nat → Bool

/-- Reading i of a die's monitors at the sampling of a draw: 0 to 31 its sensors in 1/256 °C, 32 to 39 its process monitors (log 13). -/
opaque sensor : Nat → Nat → Nat → BitVec 64

/-- Whether SLH-DSA-SHAKE-256s accepts a signature: public key, header (version and minimum version), image, signature (R433,
log 12). -/
opaque signatureOk : Nat → Nat × Nat → Nat → Nat → Bool

/-- The fused SHAKE256 digest of the firmware's public key (R433, log 12). -/
opaque keyDigest : Nat

/-- The code of the boot ROM and of the device kernel, as numbers (R433, Table 22-7, log 12). -/
opaque romCode : Nat
opaque kernelCode : Nat

/-- The identity record and certificate chain of the flash, as a number (Table 21-1, log 12). -/
opaque identity : Nat

/-- The bytes of an SPDM transcript, from the nonces answered and the measurements, as a number; and the SLH-DSA-SHAKE-256f signature of
a digest (R467, log 12). -/
opaque transcript : List Nat → List (List Nat) → Nat
opaque signature : Nat → Nat

/-- How the device packs a nest (240 bits as a number) into the 128 bits of a binding record's words 2 and 3, and reads
it back (R124 gives no coding, and 240 bits do not fit: log 16). -/
opaque packNest : Nat → BitVec 128
opaque unpackNest : BitVec 128 → Nat

/-- The bus address the host gives BAR 4 (R416, R425). -/
opaque bar4Base : BitVec 64

/-- The part and revision code of ID (Table 20-1). -/
def partCode : Nat := 0x59340001

/-- Ticks of 1/163.8 GHz per cycle of each clock (R4, Table 03-1): every clock has a whole number of ticks. -/
def slicePeriod : Nat := 91
def refPeriod : Nat := 1638

/-- Period of a core's clock by column class (R4). -/
def corePeriod (cls : Nat) : Nat :=
  match cls with
  | 0 => 78
  | 1 => 91
  | _ => 126

/-- Time limits stated by the spec. -/
def gjoinLimit : Nat := 65536            -- core cycles (R241)
def stealWait : Nat := 256               -- slice cycles (R301)
def powerWindow : Nat := 4096            -- slice cycles (R305)
def samplePeriod : Nat := 65536          -- slice cycles (R427, R452)
def regulatorPeriod : Nat := 64          -- slice cycles per 5 mV step (R440)
def watchdogLimit : Nat := 4294967296    -- reference cycles (R430)
def unitWindow : Nat := 137438953472     -- slice cycles (Table 22-3)
def hopLength : Nat := 64                -- core cycles (R441)

end Sys2Proof.Config
end

