-- ==== Sys2Proof/Machine/Map.lean ====
section
/-! DEFINITION. Finite maps as plain data: lists of (key, value) pairs with strictly rising keys. `set` keeps no entry
equal to the default, so a map of bytes is memory in its one canonical form. -/
namespace Sys2Proof.Machine

/-- A map from natural keys as a list of pairs. -/
abbrev SMap (α : Type) := List (Nat × α)

/-- The value at key k, d where the map lists none. -/
def SMap.get {α : Type} (d : α) : SMap α → Nat → α
  | [], _ => d
  | (k', v) :: m, k => if k' = k then v else SMap.get d m k

/-- The map with value v at key k. -/
def SMap.put {α : Type} : SMap α → Nat → α → SMap α
  | [], k, v => [(k, v)]
  | (k', w) :: m, k, v =>
    if k' < k then (k', w) :: SMap.put m k v
    else if k' = k then (k, v) :: m
    else (k, v) :: (k', w) :: m

/-- The map without key k. -/
def SMap.del {α : Type} (m : SMap α) (k : Nat) : SMap α := m.filter (fun e => e.1 != k)

/-- The map with value v at key k, listing no default. -/
def SMap.set {α : Type} [DecidableEq α] (d : α) (m : SMap α) (k : Nat) (v : α) : SMap α :=
  if v = d then m.del k else m.put k v

/-- Keys strictly rise from a lower bound and no entry is the default. -/
def SMap.wfFrom {α : Type} [DecidableEq α] (d : α) : Nat → SMap α → Bool
  | _, [] => true
  | lo, (k, v) :: m => decide (lo ≤ k) && decide (v ≠ d) && SMap.wfFrom d (k + 1) m

/-- The canonical form. -/
def SMap.wf {α : Type} [DecidableEq α] (d : α) (m : SMap α) : Bool := SMap.wfFrom d 0 m

/-- Whether a key is listed. -/
def SMap.has {α : Type} (m : SMap α) (k : Nat) : Bool := m.any (fun e => e.1 == k)

end Sys2Proof.Machine
end

