-- ==== Sys2Proof/Machine/State.lean ====
section
/-! DEFINITION. The state of the machine as plain data: every piece of state the spec names (INVENTORY.md '## State'),
the reasons a step can stop, and the state after reset. -/
namespace Sys2Proof.Machine

/-- Why the machine stops with a fault. -/
inductive Fault where
  /-- Raised by no meaning: every case the spec describes is a next state (exceptions are taken). Safe. -/
  | unstated
  deriving DecidableEq, Repr

/-- Why an instruction has no meaning. -/
inductive Refusal where
  /-- The instruction is not modelled yet; raised by an arm of Dispatch only. Safe. -/
  | notModelled (mnemonic : String)
  deriving DecidableEq, Repr

/-! ### Copies and older values (R320 to R323, R332, R343, R357) -/

/-- A translation held in a TLB (R332, Table 12-8): whose it is, its address space, whether it is global, and its leaf entry. -/
structure TlbEntry where
  holder : Nat × Nat               -- (0, core): L1 TLB; (1, core): matrix load-pipe TLB; (2, die): shared TLB
  asid : Nat
  isGlobal : Bool
  base : Nat                       -- first virtual address of its page
  size : Nat                       -- log2 of its page size: 12, 16, 21 or 30
  pte : Nat
  deriving DecidableEq, Repr

/-- A read-only replica of a line (R320): the die that holds it, the line, and the writes performed before its fill. -/
structure Replica where
  die : Nat
  line : Nat
  fill : Nat
  deriving DecidableEq, Repr

/-- A line in a scalar L1 data cache (R322), and whether a replica filled it. -/
structure L1Line where
  core : Nat
  line : Nat
  replica : Bool
  deriving DecidableEq, Repr

/-- A routine in a slice's cache (R233): its address space, its act id and its 32 words. -/
structure Routine where
  asid : Nat
  id : Nat
  words : List Nat
  deriving DecidableEq, Repr

/-- The copies that caches and translation buffers hold (R320 to R323, R332). -/
structure Copies where
  tlb : List TlbEntry := []
  replicas : List Replica := []
  l1 : List L1Line := []
  present : List Nat := []         -- lines whose scalar-presence bit is set
  routines : SMap (List Routine) := []     -- per slice, 31 × die + slice: at most 32 routines, the latest used first (R233)
  deriving DecidableEq, Repr

/-- An xfence that covers a write (R355): its scope, its tick, its thread, and the cores its scope names. -/
structure Reach where
  scope : Nat
  tick : Nat
  thread : Nat
  cores : List Nat
  deriving DecidableEq, Repr

/-- A write to device memory with the bytes it replaced: a read that the rules do not order after it may still miss it (R321, R357). -/
structure Past where
  seq : Nat                        -- writes performed before it
  addr : Nat
  len : Nat
  old : Nat
  thread : Option Nat := none      -- the thread of an ordinary write (R340)
  cmd : Option Nat := none         -- the command of an engine write
  asid : Nat := 0                  -- its address space (R338)
  act : Bool := false              -- an act's, of set A (Table 13-1)
  reach : List Reach := []
  deriving DecidableEq, Repr

/-! ### A thread's context (R25, R73) -/

/-- A synchronous exception (R210): cause, trap value, the page to queue for retirement (R337), and the cause words of
cause 25 (Table 11-7). -/
structure Exc where
  cause : Nat
  tval : Nat
  retire : Option Nat := none
  words : List Nat := []
  deriving DecidableEq, Repr

/-- An exception whose redirection waits (R311): its pc, the instruction's bits, and whether it came at dispatch (R471). -/
structure Raised where
  exc : Exc
  epc : Word
  word : BitVec 32
  dispatch : Bool
  deriving DecidableEq, Repr

/-- The privilege modes (R73). -/
inductive Priv where | U | S | M
  deriving DecidableEq, Repr

/-- Table 10-10's context states. -/
inductive CtxStatus where | empty | running | held
  deriving DecidableEq, Repr

/-- The CSRs of the standard privileged architecture that a hart keeps (R73). -/
structure StdCsr where
  mstatus : Word := 0
  mtvec : Word := 0
  medeleg : Word := 0
  mideleg : Word := 0
  mie : Word := 0
  mip : Word := 0
  mscratch : Word := 0
  mepc : Word := 0
  mcause : Word := 0
  mtval : Word := 0
  mcounteren : Word := 0
  mcountinhibit : Word := 0
  menvcfg : Word := 0
  stvec : Word := 0
  sscratch : Word := 0
  sepc : Word := 0
  scause : Word := 0
  stval : Word := 0
  scounteren : Word := 0
  senvcfg : Word := 0
  satp : Word := 0
  instret : Word := 0
  cycleOff : Word := 0             -- what a write of mcycle added (log 15)
  deriving DecidableEq, Repr

/-- The device CSRs of a thread (Tables 01-5 to 01-25) at their Reset column. -/
structure DevCsr where
  vtype : Word := 0x8000000000000000
  vstart : BitVec 16 := 0
  vgrant : BitVec 16 := 0
  vfill : Word := 0
  vprecP : BitVec 9 := 32
  vprecRm : BitVec 3 := 0
  vprecX : Bool := false
  vfcsr : BitVec 10 := 0
  vetrap : BitVec 32 := 0
  ptrmap : BitVec 32 := 0
  vdsl : BitVec 16 := 16
  rsvcap : BitVec 16 := 0xFFFF
  fmta : BitVec 16 := 0
  fmtb : BitVec 16 := 0
  fmtc : BitVec 16 := 0
  sclpa : Word := 0
  sclpb : Word := 0
  wid : Word := 0
  wfld : BitVec 36 := 0
  mrowp : BitVec 16 := 0
  vcap : BitVec 4 := 4
  hvtype : Word := 0
  hvgrant : Word := 0
  hvstart : Word := 0
  hvValid : Bool := false
  hvLost : Bool := false
  actbase : Word := 0
  reclPend : Bool := false
  reclClass : BitVec 2 := 0
  vrclwait : BitVec 24 := 0x1000
  deriving DecidableEq, Repr

/-- A nest register: six counts and six byte strides (R25, R99, R114). -/
structure Nest where
  counts : List Nat := [1, 1, 1, 1, 1, 1]
  strides : List Int := [0, 0, 0, 0, 0, 0]
  deriving DecidableEq, Repr

/-- A chunk of a bound stream: its length in points and its elements at the descriptor's width (R116). -/
structure Chunk where
  len : Nat
  data : Nat
  deriving DecidableEq, Repr

/-- A binding of a v register (R114 to R121): the descriptor copy with its nest, the stream position in points, the end
flag, the chunk that stands in the register, and the staged chunks. -/
structure Binding where
  reg : Nat
  word0 : Word := 0
  word1 : Word := 0
  nest : Nest := {}
  savedOn : Option Nat := none     -- core id of a restored channel binding (R126)
  pos : Nat := 0
  ended : Bool := false
  resident : Option Nat := none    -- length of the chunk in the register (inputs)
  iterPos : Option Nat := none     -- loop iteration whose chunk stands in the register (R116)
  staged : List Chunk := []        -- arrived channel chunks, oldest first
  refill : Option Nat := none      -- length of the refill in flight (memory-in)
  since : Nat := 0                 -- writes performed when its previous chunk was consumed (R117)
  deriving DecidableEq, Repr

/-- The loop buffer (R122, R123). -/
structure Loop where
  active : Bool := false
  suspended : Bool := false        -- a trap left the body; a return to the expected pc resumes
  base : Word := 0                 -- address of the vnest
  len : Nat := 0
  nestReg : Nat := 0
  counts : List Nat := [1, 1, 1, 1, 1, 1]
  words : List (BitVec 32) := []   -- the captured body
  j0 : Nat := 0                    -- first i0 point of the iteration
  row : Nat := 0                   -- number of the (i5 ... i1) row
  iter : Nat := 0                  -- completed iterations
  pos : Nat := 0                   -- body position
  deriving DecidableEq, Repr

/-- What the model remembers of a saved binding record, whose layout has no place for it: its nest, and whether its chunk was
touched in the loop iteration under way (log 16). -/
structure BindSave where
  nest : Nest
  touched : Bool
  deriving DecidableEq, Repr

/-- A vector load in flight: the destination group, VLEN at issue and the group's value to land (R37). -/
structure Landing where
  vd : Nat
  count : Nat
  vlen : Nat
  val : Nat
  deriving DecidableEq, Repr

/-- A task record (R270) with what travels with it: address space, the submitter's privilege, when it last became
pending, its save area and what restricts its redispatch (R293, R302, R310, R444). -/
structure TaskRec where
  words : List Word := [0, 0, 0, 0, 0, 0, 0, 0]
  asid : Nat := 0
  sup : Bool := false
  since : Nat := 0                 -- tick
  area : Nat := 0                  -- save area, 0 for none
  saved : Bool := false
  savedLen : Nat := 0              -- bits of the saved VLEN
  handle : Nat := 0
  onlyCore : Option Nat := none
  hook : Bool := false
  batches : List (List Nat) := []
  closed : List (List Nat) := []
  sortKey : Option Nat := none     -- key under sort mode 1 (R266, R290)
  deriving DecidableEq, Repr

/-- Where a thread stands in a gang (R241, R277). -/
structure Gang where
  members : List Nat               -- core ids, leader first
  pos : Nat
  preVlen : Nat
  rd : Nat
  deriving DecidableEq, Repr

/-- An act or vact whose requests have left the core (R216, R239): per element a result or a status. -/
structure ActWait where
  vector : Bool
  status : Bool                    -- a .s form
  vd : Nat
  left : Nat
  results : SMap Word := []
  aborts : SMap Nat := []          -- element -> stval of the abort
  word : BitVec 32                 -- the instruction's word, which goes on whatever its page has become (R216)
  tag : Nat                        -- names its requests
  deriving DecidableEq, Repr

/-- A barw or barvw in progress (R283 to R285). -/
structure BarWait where
  dev : Bool
  die : Nat
  idx : Nat
  seq : Nat
  epoch : Nat
  arrived : Bool                   -- the barvw's own arrival is made
  own : Bool                       -- it waits on the core's unwaited arrival
  third : Bool := false            -- it is unready on a third arrival (R282)
  ends : Option Nat := none        -- how its wait has ended: 0 its phase is complete (R283), 4 a reset (R285)
  deriving DecidableEq, Repr

/-- One context of a core: a hart (R73). -/
structure Ctx where
  status : CtxStatus := .empty
  priv : Priv := .M
  pc : Word := 0
  x : Vector Word 32 := Vector.replicate 32 0
  v : Vector (BitVec 2048) 32 := Vector.replicate 32 0
  full : BitVec 32 := 0xFFFFFFFF
  vlen : Nat := 2048
  cls : Nat := 4                   -- clusters of its class: 1, 2 or 4
  clusters : BitVec 4 := 15
  std : StdCsr := {}
  dev : DevCsr := {}
  binds : List Binding := []
  loop : Loop := {}
  landing : List Landing := []
  resv : Option Nat := none        -- line of the reservation (R346)
  batchOpen : List (List Nat) := [[], [], [], [], [], [], [], []]    -- submitted with tag b
  batchSet : List (List Nat) := [[], [], [], [], [], [], [], []]     -- S(b)
  task : Option TaskRec := none
  gang : Option Gang := none
  joining : Option (Nat × Nat) := none      -- shape and the core cycle of the first gjoin
  joinRd : Nat := 0                         -- rd of the gjoin in progress
  joinStatus : Option Nat := none           -- status its gjoin completes with
  act : Option ActWait := none
  barWait : Option BarWait := none
  mgnWait : Bool := false                   -- an mgnsafe waits for the supply
  reclSince : Nat := 0                      -- core cycle of the latest reclaim write
  rc : Nat := 0                             -- replays of the current instruction (R436)
  firstIssue : Nat := 0                     -- its first-issue core cycle
  requeue : Option (Nat × Bool × Bool) := none   -- REQUEUE: area, fault, hook
  reentry : Nat := 0                        -- REENTRY
  reentryPend : Bool := false               -- interrupt 17
  wfi : Bool := false                       -- halted in wfi
  fenceW : Nat := 0                         -- writes performed before its latest ofence with W in pred and E in succ (R357)
  fenceA : Nat := 0                         -- the same with A in pred
  fenceER : Nat := 0                        -- tick of its latest ofence with E in pred and R in succ (R353)
  fenceEW : Nat := 0                        -- the same with W in succ
  fenceEA : Nat := 0                        -- the same with A in succ
  fetchSync : Nat := 0                      -- writes performed before its latest fence.i (Table 03-1)
  charged : Bool := false                   -- its instruction passed the dispatch gate and has yet to commit (R303, R436)
  replayAt : Option Nat := none             -- core cycle in which an element group of its instruction is replayed (R436)
  raised : Option Raised := none            -- its exception waits to be redirected (R311)
  midway : Bool := false                    -- a vector access of it waits between its elements (R112)
  ended : Nat := 0                          -- instructions completed or trapped (model)
  lastPrec : List Nat := []                 -- cause words of the latest trap of cause 25 (R448)
  deriving DecidableEq, Repr

/-! ### A core (R25, R183, R296, R325, R435 to R441) -/

/-- Node states (R183, Table 07-4). -/
inductive NodeSt where | free | waiting | running | faulted | stalled
  deriving DecidableEq, Repr

/-- A write that a copy-kind command has yet to make in its window: its unit, the piece's offset in the unit, its physical
place, its length in bytes and its value (R361). -/
structure EngWrite where
  unit : Nat
  off : Nat
  pa : Nat
  len : Nat
  val : Nat
  deriving DecidableEq, Repr

/-- A node of the dependence graph with its command (R185 to R195). -/
structure Node where
  st : NodeSt := .free
  w0 : Word := 0
  w1 : Word := 0
  w2 : Word := 0
  w3 : Word := 0
  kind : Nat := 0                  -- of the last command (Table 07-4)
  status : Nat := 0
  detail : Nat := 0
  progress : Nat := 0
  dcount : Nat := 0                -- D(n)
  preds : Nat := 0
  asid : Nat := 0
  satp : Word := 0
  ctx : Nat := 0
  serial : Nat := 0                -- identity of the command
  thread : Nat := 0                -- the thread that submitted it (R340)
  home : Nat := 0                  -- that thread's core at the ecmd
  accepted : Nat := 0              -- tick of its acceptance
  fenceW : Nat := 0                -- that thread's fences at its acceptance (R357)
  fenceA : Nat := 0
  sup : Bool := false              -- submitted above user privilege
  launched : Nat := 0              -- writes performed before its launch (R357)
  fmta : BitVec 16 := 0
  fmtb : BitVec 16 := 0
  sclpa : Word := 0
  sclpb : Word := 0
  srcNest : Nest := {}
  dstNest : Nest := {}
  leave : Bool := false            -- waits for leave
  leaveSince : Nat := 0
  holdsLeave : Bool := false
  pageStop : Bool := false         -- stopped by a page fault in the kernel's hands
  winLo : Nat := 0                 -- units winLo … winEnd − 1 form the current window
  winEnd : Nat := 0
  fetched : Nat := 0               -- units below it have been read
  pend : List EngWrite := []       -- writes of the current window still to make
  writing : Bool := false          -- some line of the current window has been written
  held : List (List (List Nat × List Nat)) := []   -- per member and column: the B elements and scale pairs that rows heldGroup share
  heldGroup : Option Nat := none   -- the group of 32 rows of a kmma that they serve (R363)
  minEnd : Nat := 0                -- tick before which a kmma does not complete (R201)
  owned : List Nat := []           -- lines owned and not yet written
  remote : Option (Nat × Word) := none   -- proxy: target core and capability
  sent : Bool := false             -- the remote command has been accepted at the target
  collIdx : Nat := 0               -- the n-th kcoll of its (scope, barrier)
  members : List Nat := []         -- participants of a kcoll or a gang kmma
  rank : Nat := 0
  read : Bool := false             -- a kcoll participant has read its source
  nvmeLeft : List Nat := []        -- submission slots outstanding
  stopping : Bool := false         -- a snapshot stops it at its next unit
  deriving DecidableEq, Repr

/-- The margin state of a core (Table 01-26, R240, R435 to R441, R455). -/
structure Margin where
  auto : Bool := true
  limit : BitVec 3 := 3
  floor : BitVec 5 := 0
  trim : BitVec 5 := 0
  statQuar : Bool := false
  hold : Bool := false
  raises : BitVec 16 := 0
  events : BitVec 32 := 0
  quarth : BitVec 16 := 0xFFFF
  raiseth : BitVec 16 := 0x0100
  n : BitVec 6 := 24
  stepped : Bool := false          -- the window's raise step has been taken (R438)
  tevcnt : Word := 0
  supply : Nat := 0                -- trim step at which the supply stands
  win : Nat := 0                   -- number of the counting window under way
  safe : Nat := 0                  -- core cycle at which the open mgnsafe window ends; 0: none open
  regPend : Bool := false          -- a regulator step is under way
  last : BitVec 32 := 0            -- WINHIST
  crossed : Bool := false
  streak : BitVec 3 := 0
  frozen : Bool := false           -- a droop in the hop froze issue
  late : Option EventWhere := none -- the core's next cycle meets a timing event (R435, R436)
  droops : Nat := 0                -- droop telemetry (Table 22-1)
  stretched : Nat := 0
  hopDroops : Nat := 0
  deriving DecidableEq, Repr

/-- Quarantine state of a core (quarst, Table 01-26). -/
structure Quar where
  reason : BitVec 4 := 0
  quar : Bool := false
  report : Bool := false
  deriving DecidableEq, Repr

/-- The dispatch gate of a core (pwrbkt, R303, R304, GATEREF). -/
structure Gate where
  cap : BitVec 16 := 0xFFFF
  drain : BitVec 16 := 0x0400
  level : Nat := 0
  claim : Option (Nat × Nat) := none   -- claiming context and its charge
  refused : Word := 0                  -- GATEREF
  drained : Nat := 0                   -- core cycles whose drain has been applied (R304)
  deriving DecidableEq, Repr

/-- A stash sector's tag (R327): the line it holds, its entry and whether it is dirty. -/
structure Sector where
  sector : Nat                         -- physical 32-byte sector number
  entry : Nat
  asid : Nat
  dirty : Bool
  deriving DecidableEq, Repr

/-- A completion ring (R424). -/
structure Ring where
  base : Nat := 0
  log2 : Nat := 0
  tailAt : Nat := 0
  headAt : Nat := 0
  t : Nat := 0
  deriving DecidableEq, Repr

/-- Steal round of a core (R301): attempts used, and the end of its back-off. -/
structure Steal where
  attempt : Nat := 0
  backoff : Option Nat := none         -- tick
  pending : Bool := false              -- an attempt is on the midway
  deriving DecidableEq, Repr

/-- A doorbell: its pending requests and CFGDONE (R415, R418). -/
structure Doorbell where
  queue : List Nat := []
  ovf : Bool := false
  mis : Bool := false
  count : BitVec 32 := 0
  deriving DecidableEq, Repr

/-- A snapshot (R442, R443). -/
structure Snap where
  addr : Word := 0                     -- ESNAPA
  done : Bool := true
  err : Bool := false
  count : Nat := 0
  mask : Nat := 0                      -- contexts of the snapshot under way
  satp : Word := 0
  deriving DecidableEq, Repr

/-- Matrix-unit work received from another core (R209): issuer, node, and the target's own commands that ran when it
arrived. -/
structure RemoteWork where
  core : Nat
  node : Nat
  ahead : List Nat := []
  deriving DecidableEq, Repr

/-- One core. -/
structure Core where
  ctxs : Vector Ctx 8 := Vector.replicate 8 {}
  cycle : Nat := 0                     -- core cycles since reset (R38)
  acc : SMap (BitVec 32) := []         -- accumulator cell 192 * row + column (R25)
  portBusy : List (Nat × Nat × Nat) := []    -- (core, context, vd) of each vacc.x that waits for the accumulator port (R176)
  nests : SMap Nest := []              -- n0 to n31
  nodes : SMap Node := []              -- 0 to 95
  serial : Nat := 0
  colls : SMap Nat := []               -- kcolls issued per (scope, barrier)
  collBad : List (Nat × Nat × Nat) := []     -- kcolls still to run here whose peer has faulted: (scope, barrier), index, rank (R205)
  capKey : List (BitVec 8) := List.replicate 32 0
  capGen : BitVec 8 := 0
  ring : Ring := {}
  margin : Margin := {}
  quar : Quar := {}
  gate : Gate := {}
  lpwr : Nat := 8192
  stash0 : SMap Word := []             -- map entry word 0
  stash1 : SMap Word := []             -- map entry word 1
  sectors : SMap Sector := []
  deque : List TaskRec := []           -- the core's entries, top first, at most 64
  overflow : List TaskRec := []        -- overflow storage, top first
  snap : Snap := {}
  bell : Doorbell := {}
  steal : Steal := {}
  portHold : Nat := 0                  -- tick until which a row write holds the accumulator port (R176)
  lvdef : Word := 0
  lvwait : Word := 0
  remotes : List RemoteWork := []
  deriving DecidableEq, Repr

/-! ### A die (R280, R294 to R297, R305, R306, R451, R454) -/

/-- A turnstile (R226). -/
structure Turnstile where
  next : BitVec 32 := 0
  serving : BitVec 32 := 0
  broken : Bool := false
  deriving DecidableEq, Repr

/-- A path-state pool (R227, R295): its size and the slots handed out. -/
structure Pool where
  size : Nat := 0
  out : List Nat := []
  broken : Bool := false
  deriving DecidableEq, Repr

/-- What a core remembers of a barrier (R283): the phase of its latest arrival and whether it was waited on. -/
structure Mark where
  seq : Nat
  waited : Bool
  deriving DecidableEq, Repr

/-- A barrier (R280 to R286). -/
structure Barrier where
  members : List Nat := []             -- core ids
  n : Nat := 0                         -- 0: unconfigured
  timeout : Nat := 0                   -- slice cycles
  seq : Nat := 0
  here : List Nat := []                -- cores with an arrival in the current phase
  ahead : List Nat := []               -- cores with an arrival toward the next phase
  marks : SMap Mark := []
  first : Option Nat := none           -- tick of the phase's first arrival
  raised : Bool := false               -- its timeout has been raised in this phase
  epoch : Nat := 0                     -- number of resets
  completing : Bool := false           -- the held arrivals complete the phase in the next slice cycle
  noticed : Nat := 0                   -- phases below it have reached the cores as complete (R282)
  deriving DecidableEq, Repr

/-- The power controller of a die (Table 21-7, R305, R306). -/
structure Power where
  lfloor : BitVec 3 := 0
  target : BitVec 32 := 266000
  wait : BitVec 32 := 65536
  ceiling : BitVec 8 := 96
  floor : BitVec 8 := 8
  limit : Nat := 8
  held : Nat := 0
  power : BitVec 32 := 0
  asking : List (Nat × Nat) := []      -- core, node in arrival order
  hot : Bool := false                  -- thermal rule in force (R451)
  deriving DecidableEq, Repr

/-- An expansion in progress on a die (R268, R269). -/
structure Expansion where
  task : TaskRec                       -- the request
  head : List Word                     -- its header, read once (R269)
  index : Nat                          -- records placed
  total : Nat
  deriving DecidableEq, Repr

/-- One die. -/
structure Die where
  turnstiles : SMap Turnstile := []
  pools : SMap Pool := []
  barriers : SMap Barrier := []
  aging : BitVec 5 := 12
  overflowCap : Nat := 960
  pinned : Nat := 0
  power : Power := {}
  expansions : List Expansion := []
  requests : List TaskRec := []        -- launch requests accepted and not yet started
  hop : Option Nat := none             -- tick at which a clock-source hop began (R441)
  sample : Nat := 0                    -- draw of its sensors' latest sample (R452; model: log 13)
  deriving DecidableEq, Repr

/-! ### The device -/

/-- An item of a hardware queue: its words (two or eight) and what travels with it (R222, R290, R293). -/
structure QItem where
  task : TaskRec
  key : Nat
  deriving DecidableEq, Repr

/-- A hardware queue (Table 11-1, R288 to R293, R331, R420). -/
structure Queue where
  enable : Bool := false
  mode : Nat := 0
  records : Bool := false
  priority : Nat := 0
  aging : Nat := 0
  capacity : Nat := 0
  threshold : Nat := 0
  hostAsid : Nat := 0
  gate : Nat := 0
  items : List QItem := []             -- in push order
  broken : Bool := false
  deriving DecidableEq, Repr

/-- An address space (R421). -/
structure ASpace where
  satp : Word
  actbase : Word
  poolBase : Nat
  poolSize : Nat
  poolCount : Nat
  used : List Nat := []                -- areas handed out
  deriving DecidableEq, Repr

/-- A slice-act request waiting at its home slice (R235, R237, R239). -/
structure ActReq where
  core : Nat
  ctx : Nat
  elem : Nat
  id : Nat
  asid : Nat
  satp : Word
  actbase : Word
  addr : Nat                           -- physical address of the line
  arg0 : Word
  arg1 : Word
  tag : Nat                        -- the ActWait it answers
  deriving DecidableEq, Repr

/-- A faulted task (R221, R278). -/
structure Faulted where
  task : TaskRec
  core : Nat
  deriving DecidableEq, Repr

/-- An event for the device kernel or firmware. -/
inductive KernelEvent where
  | launchError (words : List Word) (cause : Nat)      -- R267, R269
  | barrierTimeout (dev : Bool) (die idx : Nat)        -- R285
  | quarantined (core : Nat) (lost : List TaskRec)     -- R449
  | retirePage (page : Nat)                            -- R337, R339
  | lostLine (line asid : Nat)                         -- R338
  | brokenObject (kind idx : Nat)                      -- R331
  | lostRecords (core : Nat) (recs : List TaskRec)     -- deque overflow of a core (R331)
  | enginePageFault (core node : Nat)                  -- R186
  | pathFailed (seq : BitVec 32)                           -- R462
  | linkDown (link : Nat)                              -- R463
  | serviceFlag (u : Unit22)                           -- Table 22-3
  | thermalTrip (die : Nat)                            -- R451
  deriving DecidableEq, Repr

/-- Something the device sends out: to the host (R424, R426, R427), to its managers and to other modules. -/
inductive Post where
  | write (addr : Nat) (size : Nat) (v : Nat)
  | msix (vec : Nat)
  | readReply (ok : Bool) (v : Nat)
  | atsDone (page : Nat)
  | pldm (src value : Nat)                            -- a telemetry reading, over MCTP (R452)
  | e2e (src : Nat) (seq : BitVec 32) (busy : Bool) (v : Word)   -- an answer to another module (R460)
  | e2eCopy (seq : BitVec 32) (link : Nat)            -- a copy of a request sent on a link (R460)
  | replay (link : Nat) (seq : BitVec 10)             -- a replay request (R459)
  | spdm (nonce : Nat) (measurements : List (List Nat)) (signature : Nat)    -- a signed response (R467)
  deriving DecidableEq, Repr

/-- A host wait word (R426). -/
structure WaitWord where
  addr : Nat
  cond : Nat
  operand : Word
  host : Nat
  msi : Option Nat
  deriving DecidableEq, Repr

/-- A subscription (R427). -/
structure Subscription where
  source : Nat
  die : Nat
  sensor : Nat
  low : Int
  high : Int
  notify : Nat
  msi : Option Nat
  above : Option Bool := none
  seq : Nat := 0
  deriving DecidableEq, Repr

/-- An NVMe queue pair handed to the device (R425): tail and head slots, and the commands outstanding. -/
structure NvmePair where
  sq : Nat
  cq : Nat
  entries : Nat
  nvmeId : Nat
  bell : Nat
  log2Block : Nat
  log2Xfer : Nat
  cqBell : Nat
  tail : Nat := 0
  head : Nat := 0
  phase : Bool := true
  outstanding : List (Nat × Nat × Nat × Nat × Nat) := []   -- slot, core, node, first block, blocks
  deriving DecidableEq, Repr

/-- A boot-record entry (Table 21-3): sequence, slot word, begin marks and done marks of stages 1 to 9; the other words are erased. -/
structure BootEntry where
  seq : Nat
  slot : Word := 0xFFFFFFFFFFFFFFFF
  begun : List Word
  doneM : List Word
  requal : Bool := false               -- written by a requalification order (R456; model: log 12)
  deriving DecidableEq, Repr

/-- An image slot (R433, R468): its header's state word, and what is written into it. -/
structure ImageSlot where
  state : Word := 0xFFFFFFFFFFFFFFFF
  pkg : Package := {}
  deriving DecidableEq, Repr

/-- The flash and the boot (R429 to R434, R468, R469). Of the flash, the telemetry log is kept as events and unit counts. -/
structure Boot where
  ring : SMap BootEntry := []          -- flash boot record, by position; a position not listed is erased
  slotA : ImageSlot := { state := 0xFFFFFFFFFFFFFFFC }
  slotB : ImageSlot := {}
  booted : Bool := false               -- slot used by this boot: true for B
  stage : Nat := 9                     -- stage in progress or done last
  stageOk : Bool := true
  recovery : Bool := false
  rollback : Nat := 0                  -- fused counter
  half : Bool := false                 -- GDDR7 trained at 32 Gb/s
  oxeil : Bool := true                 -- the management endpoints are up (stage 8)
  requal : Bool := false               -- the cold reset under way is a requalification's (R456)
  poweredDown : Bool := false
  measured : List (Nat × Nat) := []    -- measurement log: a stage, and the digest of the code it ran (R433)
  transcript : List Nat := []          -- nonces answered
  deriving DecidableEq, Repr

/-- A counting unit outside the cores (R454). -/
structure UnitCount where
  events : Nat := 0
  raise : Option Nat := none           -- none: the default of Table 22-3
  quarth : Option Nat := none
  total : Nat := 0                     -- events of all windows (telemetry)
  hist : List Bool := []               -- whether the last two windows crossed raise, latest first
  lasting : Bool := false
  records : Nat := 0                   -- lasting records since replacement (R458)
  deriving DecidableEq, Repr

/-- A Laxel link (R459, R463). -/
structure Link where
  up : Bool := true
  expect : BitVec 10 := 0
  nextSeq : BitVec 10 := 0
  window : List Nat := []              -- the last 512 flits sent
  replays : List (Nat × Nat) := []     -- flit of the window, times replayed
  retrain : Bool := false
  replayFlits : Nat := 0               -- link-retry telemetry
  accepted : Nat := 0
  retrans : Nat := 0                   -- end-to-end telemetry (Table 22-1)
  dups : Nat := 0
  fails : Nat := 0
  deriving DecidableEq, Repr

/-- An outstanding end-to-end request of this module (R460, R462). -/
structure E2eOut where
  seq : BitVec 32
  target : Nat                         -- module
  link : Nat                           -- link of its last sending
  due : Nat                            -- tick of its retransmission timer
  timeouts : Nat := 0
  kind : Nat := 0                      -- 0 load, 1 store, AMO or act, 2 engine command
  done : Option Word := none           -- the response
  failed : Option Nat := none          -- the requester's outcome of a failed path (R462)
  deriving DecidableEq, Repr

/-- A deduplication entry (R461). -/
structure Dedup where
  src : Nat
  seq : BitVec 32
  resp : Word
  expiry : Nat                         -- tick
  deriving DecidableEq, Repr

/-- Pod operation: links, end-to-end requests, power caps (R459 to R466). -/
structure Fleet where
  links : SMap Link := []
  out : List E2eOut := []
  dedup : List Dedup := []
  timerT : Nat := 163800000            -- T in ticks: 1 ms
  capSeq : Option Nat := none
  cap : Nat := 1200                    -- watts in force
  leaseEnd : Option Nat := none        -- reference tick count at which the lease expires
  failSafe : Nat := 0
  units : SMap UnitCount := []         -- by the number of the unit
  deriving DecidableEq, Repr

/-- The control window (Table 20-1) and the bus state (R414 to R428). -/
structure HostIf where
  bell : Doorbell := {}
  hwbase : Word := 0
  pdropAny : Bool := false
  pdropCount : BitVec 16 := 0
  pdropQueue : BitVec 12 := 0
  msiEn : Bool := false
  msiVec : BitVec 11 := 0
  atsOn : Bool := true                 -- Address Translation Services enabled (R414; model: log 23)
  ats : List Nat := []                 -- pages cached
  pend : Option Event := none          -- a host access that waits for an owned line (R362)
  behind : List Event := []            -- host accesses behind it, oldest first (R352)
  waits : SMap WaitWord := []
  subs : SMap Subscription := []
  nvme : SMap NvmePair := []
  posts : List Post := []              -- oldest first
  deriving DecidableEq, Repr

/-- The whole machine. -/
structure State where
  now : Nat := 0                       -- ticks of 1/163.8 GHz since reset (model: log 4)
  cur : Nat × Nat := (0, 0)            -- core and context whose instruction runs (model)
  fetched : BitVec 32 := 0             -- its fetched bits (model)
  fresh : Nat := 0                     -- draws of free values (model: log 5)
  cores : SMap Core := []
  dies : SMap Die := []
  mem : List Host.Cell := []           -- physical memory bytes (log 2)
  past : List Past := []               -- writes performed, latest first, with what they replaced
  copies : Copies := {}                -- translations, replicas and L1 lines held (R320 to R323, R332)
  bad : List Nat := []                 -- uncorrectable 32-byte sectors (R337, R338)
  retired : List Nat := []             -- pages queued for retirement
  queues : SMap Queue := []
  devBarriers : SMap Barrier := []
  aspaces : SMap ASpace := []
  installed : SMap (BitVec 32) := []   -- installed routines per address space (R233)
  acts : List ActReq := []
  faulted : List Faulted := []
  handles : Nat := 1                   -- next task handle
  live : BitVec 4 := 15                -- live dies
  host : HostIf := {}
  boot : Boot := {}
  fleet : Fleet := {}
  events : List KernelEvent := []
  nestSaves : SMap BindSave := []      -- saved binding records, by physical address (model: log 16)
  timers : List (Nat × Event) := []    -- events due at a tick (model: log 4)
  inbox : List Event := []             -- events due now, oldest first (model: log 4)
  agenda : List Event := []            -- events of free latency (R473; model: log 4)
  deriving DecidableEq, Repr

/-- What a step answers. -/
abbrev Outcome := Host.Outcome State Fault Refusal

/-- The context that runs at reset: in machine mode at pc 0, of class C4, with every device CSR at its Reset column
(log 1, log 3). -/
def Ctx.boot : Ctx := { status := .running, priv := .M }

/-- Events that recur from reset on: the end of each die's power window (R305), its sensors' sampling (R452), and the counting
windows outside the cores (Table 22-3), whose first unit carries the others. -/
def State.clockwork : List (Nat × Event) :=
  (List.range 4).map (fun d => (Config.powerWindow * Config.slicePeriod, .powerWindowEnd d)) ++
  (List.range 4).map (fun d => (Config.samplePeriod * Config.slicePeriod, .telemetrySample d)) ++
  [(Config.unitWindow * Config.slicePeriod, .unitWindowEnd (.channel 0))]

/-- The machine right after reset: one running hart on core 0, nothing configured, memory unwritten (log 1, 2, 3). -/
def State.reset : State :=
  { cores := [(0, { ctxs := (Vector.replicate 8 ({} : Ctx)).set 0 Ctx.boot })], timers := State.clockwork }

end Sys2Proof.Machine
end

