-- ==== Sys2Proof/Machine/Regs.lean ====
section
/-! DEFINITION. Access to the parts of State: cores, dies, contexts, the running hart, x registers, v registers (own and
gang view), and the clocks. -/
namespace Sys2Proof.Machine

/-! ### Places (R3, R4) -/

def dieOf (core : Nat) : Nat := core / 96
def rowOf (core : Nat) : Nat := core % 96 / 8
def colOf (core : Nat) : Nat := core % 8
def coreAt (die row col : Nat) : Nat := die * 96 + row * 8 + col

/-- Column class of a core (R4, R299): 0 fast, 1 medium, 2 efficient. -/
def classOf (core : Nat) : Nat := if colOf core < 2 then 0 else if colOf core < 6 then 1 else 2

/-- colcls of a core (Table 01-26). -/
def colclsOf (core : Nat) : Nat := dieOf core * 2048 + rowOf core * 128 + colOf core * 16 + classOf core

/-! ### Cores, dies, contexts -/

def State.core (s : State) (c : Nat) : Core := SMap.get {} s.cores c
def State.setCore (s : State) (c : Nat) (k : Core) : State := { s with cores := s.cores.put c k }
def State.modCore (s : State) (c : Nat) (f : Core → Core) : State := s.setCore c (f (s.core c))
def State.die (s : State) (d : Nat) : Die := SMap.get {} s.dies d
def State.setDie (s : State) (d : Nat) (k : Die) : State := { s with dies := s.dies.put d k }
def State.modDie (s : State) (d : Nat) (f : Die → Die) : State := s.setDie d (f (s.die d))

/-- The position of a context number in a core's eight contexts. -/
def ctxIx (x : Nat) : Fin 8 := ⟨x % 8, Nat.mod_lt _ (by decide)⟩

def Core.ctx (k : Core) (x : Nat) : Ctx := k.ctxs[ctxIx x]
def Core.setCtx (k : Core) (x : Nat) (t : Ctx) : Core := { k with ctxs := k.ctxs.set (ctxIx x) t }
def State.thr (s : State) (c x : Nat) : Ctx := (s.core c).ctx x
def State.setThr (s : State) (c x : Nat) (t : Ctx) : State := s.setCore c ((s.core c).setCtx x t)
def State.modThr (s : State) (c x : Nat) (f : Ctx → Ctx) : State := s.setThr c x (f (s.thr c x))

/-- Every context of the device changed by its core and number. -/
def State.mapCtxs (s : State) (f : Nat → Nat → Ctx → Ctx) : State :=
  { s with cores := s.cores.map (fun e => (e.1, { e.2 with ctxs := Vector.ofFn (fun (i : Fin 8) => f e.1 i.val e.2.ctxs[i]) })) }

/-- The running hart's context. -/
def State.hart (s : State) : Ctx := s.thr s.cur.1 s.cur.2
def State.setHart (s : State) (t : Ctx) : State := s.setThr s.cur.1 s.cur.2 t
def State.modHart (s : State) (f : Ctx → Ctx) : State := s.setHart (f s.hart)
/-- The running hart's core. -/
def State.myCore (s : State) : Core := s.core s.cur.1
def State.modMyCore (s : State) (f : Core → Core) : State := s.modCore s.cur.1 f
def State.myDie (s : State) : Nat := dieOf s.cur.1

/-- The thread that hart (c, x) runs: its task's, or the hart's own (R340). -/
def State.threadOf (s : State) (c x : Nat) : Nat :=
  match (s.thr c x).task with
  | some r => 2 * r.handle + 1
  | none => 2 * (8 * c + x % 8)

def State.dieLive (s : State) (d : Nat) : Bool := decide (d < 4) && s.live.getLsbD d
/-- A core that exists and whose die is not fenced (R12). -/
def State.coreLive (s : State) (c : Nat) : Bool := decide (c < 384) && s.dieLive (dieOf c)
def State.quarantined (s : State) (c : Nat) : Bool := (s.core c).quar.quar
/-- A live core that is not quarantined. -/
def State.coreUp (s : State) (c : Nat) : Bool := s.coreLive c && !s.quarantined c
def State.liveDies (s : State) : List Nat := (List.range 4).filter s.dieLive
def State.degraded (s : State) : Bool := s.live != 15

/-! ### Clocks (R4, R38, Table 03-1) -/

def State.coreCycle (s : State) (c : Nat) : Nat := s.now / Config.corePeriod (classOf c)
def State.sliceCycle (s : State) : Nat := s.now / Config.slicePeriod
def State.refCycle (s : State) : Nat := s.now / Config.refPeriod
def sliceTicks (n : Nat) : Nat := n * Config.slicePeriod

/-- An event due n ticks from now (log 4). -/
def State.after (s : State) (n : Nat) (e : Event) : State := { s with timers := s.timers ++ [(s.now + n, e)] }
/-- An event of free latency (R473, log 4). -/
def State.later (s : State) (e : Event) : State := { s with agenda := s.agenda ++ [e] }
def State.notify (s : State) (e : KernelEvent) : State := { s with events := s.events ++ [e] }
def State.post (s : State) (p : Post) : State := { s with host := { s.host with posts := s.host.posts ++ [p] } }

/-- A free value and the state after the draw (log 5). -/
def State.draw (s : State) : BitVec 64 × State := (Config.freeWord s.fresh, { s with fresh := s.fresh + 1 })
/-- A free choice below n (log 4); 0 where n is 0. -/
def State.choose (s : State) (n : Nat) : Nat × State := (Config.pick s.fresh % n, { s with fresh := s.fresh + 1 })

/-! ### x registers (R25): x0 reads zero and drops writes -/

def Ctx.getX (t : Ctx) (r : Reg) : Word := if r = 0 then 0 else t.x[r.toFin]
def Ctx.setX (t : Ctx) (r : Reg) (w : Word) : Ctx := if r = 0 then t else { t with x := t.x.set r.toFin w }
def State.xr (s : State) (r : Reg) : Word := s.hart.getX r
def State.setX (s : State) (r : Reg) (w : Word) : State := s.modHart (fun t => t.setX r w)

/-! ### v registers (R25, R26) -/

/-- The register number n modulo 32. -/
def vIx (n : Nat) : Fin 32 := ⟨n % 32, Nat.mod_lt _ (by decide)⟩

def Ctx.ownV (t : Ctx) (r : Nat) : BitVec 2048 := t.v[vIx r]
def Ctx.setOwnV (t : Ctx) (r : Nat) (w : BitVec 2048) : Ctx := { t with v := t.v.set (vIx r) w }

/-- The harts whose register slices a thread's registers consist of: itself, or the gang's members in member order when it
leads a gang (R26, R241). -/
def State.slicesOf (s : State) (c x : Nat) : List Nat :=
  match (s.thr c x).gang with
  | some g => if g.pos = 0 then g.members else [c]
  | none => [c]

/-- Bits of a hart's own slices: 512 per cluster of its class (R26). -/
def Ctx.ownBits (t : Ctx) : Nat := 512 * t.cls

/-- The hardware length of a hart (R26). -/
def State.hwLen (s : State) (c x : Nat) : Nat := (s.thr c x).ownBits * (s.slicesOf c x).length

/-- The low n bits of a value. -/
def lowBits (v n : Nat) : Nat := v % (1 <<< n)

/-- The bits of register r over a list of members' slices, the leader's lowest. -/
def gatherV (s : State) (x r bits : Nat) : List Nat → Nat
  | [] => 0
  | m :: ms => lowBits ((s.thr m x).ownV r).toNat bits + (gatherV s x r bits ms) <<< bits

/-- Writes register r over a list of members' slices; bits of a slice above the class's are kept. -/
def scatterV (s : State) (x r bits : Nat) (w : Nat) : List Nat → State
  | [] => s
  | m :: ms =>
    let s1 := s.modThr m x (fun t =>
      let old := (t.ownV r).toNat
      t.setOwnV r (BitVec.ofNat 2048 (old / (1 <<< bits) * (1 <<< bits) + lowBits w bits)))
    scatterV s1 x r bits (w >>> bits) ms

/-- The hardware-length value of register r of a hart. -/
def State.rawV (s : State) (c x r : Nat) : Nat :=
  gatherV s x r (s.thr c x).ownBits (s.slicesOf c x)

/-- The visible VLEN bits of register r of the running hart (R26). -/
def State.getV (s : State) (r : Nat) : Nat := lowBits (s.rawV s.cur.1 s.cur.2 r) s.hart.vlen

/-- Writes the visible VLEN bits of register r of the running hart; hardware bits above VLEN are kept. -/
def State.setV (s : State) (r : Nat) (w : Nat) : State :=
  let vl := s.hart.vlen
  let old := s.rawV s.cur.1 s.cur.2 r
  scatterV s s.cur.2 r s.hart.ownBits (old / (1 <<< vl) * (1 <<< vl) + lowBits w vl) (s.slicesOf s.cur.1 s.cur.2)

/-- Writes the visible bits of register r of hart (c, x). -/
def State.setVAt (s : State) (c x r w : Nat) : State :=
  let vl := (s.thr c x).vlen
  let old := s.rawV c x r
  scatterV s x r (s.thr c x).ownBits (old / (1 <<< vl) * (1 <<< vl) + lowBits w vl) (s.slicesOf c x)

/-- The registers r … r+n−1 as one number, register j at bit j × VLEN (R28). -/
def State.getGroup (s : State) (r : Nat) : Nat → Nat
  | 0 => 0
  | n + 1 => s.getV r + (s.getGroup (r + 1) n) <<< s.hart.vlen

def State.setGroup (s : State) (r : Nat) : Nat → Nat → State
  | 0, _ => s
  | n + 1, w => State.setGroup (s.setV r w) (r + 1) n (w >>> s.hart.vlen)

/-! ### Full/empty bits (R37) -/

def Ctx.isFull (t : Ctx) (r : Nat) : Bool := t.full.getLsbD (r % 32)
def Ctx.setFull (t : Ctx) (r : Nat) (b : Bool) : Ctx :=
  { t with full := if b then t.full ||| (1 <<< (r % 32)) else t.full &&& ~~~(1#32 <<< (r % 32)) }

def Ctx.setFullGroup (t : Ctx) (r : Nat) (b : Bool) : Nat → Ctx
  | 0 => t
  | n + 1 => Ctx.setFullGroup (t.setFull r b) (r + 1) b n

/-- The first register of r … r+n−1 that is empty. -/
def Ctx.firstEmpty (t : Ctx) (r : Nat) : Nat → Option Nat
  | 0 => none
  | n + 1 => if t.isFull r then t.firstEmpty (r + 1) n else some (r % 32)

/-! ### Bindings -/

def Ctx.binding (t : Ctx) (r : Nat) : Option Binding := t.binds.find? (fun b => b.reg == r)
def Ctx.setBinding (t : Ctx) (b : Binding) : Ctx :=
  { t with binds := t.binds.map (fun c => if c.reg == b.reg then b else c) }
def Ctx.dropBinding (t : Ctx) (r : Nat) : Ctx := { t with binds := t.binds.filter (fun b => b.reg != r) }
def Binding.kind (b : Binding) : Nat := b.word1.toNat % 4
def Binding.ew (b : Binding) : Nat := 8 <<< (b.word1.toNat / 4 % 8)
def Binding.nestReg (b : Binding) : Nat := b.word1.toNat / 32 % 32
def Binding.dir (b : Binding) : Nat := b.word1.toNat / 1024 % 4
def Binding.chan (b : Binding) : Nat := b.word1.toNat / 4096 % 8
def Binding.isInput (b : Binding) : Bool := b.kind % 2 == 0
def Binding.isChannel (b : Binding) : Bool := b.kind ≥ 2

/-! ### Nodes -/

def Core.node (k : Core) (n : Nat) : Node := SMap.get {} k.nodes n
def Core.setNode (k : Core) (n : Nat) (v : Node) : Core := { k with nodes := k.nodes.put n v }
def Core.modNode (k : Core) (n : Nat) (f : Node → Node) : Core := k.setNode n (f (k.node n))
def State.node (s : State) (c n : Nat) : Node := (s.core c).node n
def State.modNode (s : State) (c n : Nat) (f : Node → Node) : State := s.modCore c (fun k => k.modNode n f)
def Node.inFlight (n : Node) : Bool := n.st != .free

/-- Insertion into a list ordered by le, after its equals. -/
def insertBy {α : Type} (le : α → α → Bool) (a : α) : List α → List α
  | [] => [a]
  | b :: l => if le b a then b :: insertBy le a l else a :: b :: l

/-- A stable sort. -/
def sortBy {α : Type} (le : α → α → Bool) : List α → List α
  | [] => []
  | a :: l => insertBy (fun x y => le x y && !le y x) a (sortBy le l)

def listSet {α : Type} (l : List α) (i : Nat) (v : α) : List α := l.set i v

end Sys2Proof.Machine
end

