-- ==== Sys2Proof/Machine/Mem.lean ====
section
/-! DEFINITION. Physical memory and translation: the physical map (Table 12-1), bytes and their canonical form, what a
write does to reservations, stash copies and host wait words, uncorrectable sectors, owned lines, and the Sv48 walk. -/
namespace Sys2Proof.Machine

/-- The answer of an operation inside an instruction: a value, an exception, or 'unready' (R38). -/
inductive Res (α : Type) where
  | done (a : α)
  | trap (e : Exc)
  | wait
  deriving DecidableEq, Repr

def Res.bind {α β : Type} : Res α → (α → Res β) → Res β
  | .done a, f => f a
  | .trap e, _ => .trap e
  | .wait, _ => .wait

/-- Kinds of access, for causes and permissions. -/
inductive Acc where | fetch | load | store
  deriving DecidableEq, Repr

def Acc.pageCause : Acc → Nat
  | .fetch => 12 | .load => 13 | .store => 15
def Acc.accessCause : Acc → Nat
  | .fetch => 1 | .load => 5 | .store => 7

/-- The idempotence classes (Table 12-2). -/
inductive Cls where | pma | nc | io
  deriving DecidableEq, Repr

/-- A translated address: physical address, class, and whether the leaf entry has W = 1. -/
structure PAddr where
  pa : Nat
  cls : Cls
  writable : Bool := true
  deriving DecidableEq, Repr

/-! ### The physical map (Table 12-1) -/

inductive Region where
  | dram
  | block (core off : Nat)
  | host (off : Nat)
  | nowhere
  deriving DecidableEq, Repr

def dramTop (s : State) : Nat := if s.degraded then 0x0021C0000000 else 0x002D00000000

def regionOf (s : State) (pa : Nat) : Region :=
  if pa < dramTop s then .dram
  else if 0x00F000000000 ≤ pa ∧ pa < 0x00F000000000 + 384 * 4096 then
    .block ((pa - 0x00F000000000) / 4096) (pa % 4096)
  else if 0x010000000000 ≤ pa ∧ pa < 0x020000000000 then .host (pa - 0x010000000000)
  else .nowhere

def lineOf (pa : Nat) : Nat := pa / 128
def sectorOf (pa : Nat) : Nat := pa / 32
def pageOf (pa : Nat) : Nat := pa / 4096

/-- XOR of the 2-bit fields of a line address, the home die with four live dies (R318). -/
def xorFields : Nat → Nat → Nat
  | 0, _ => 0
  | n + 1, a => Nat.xor (a % 4) (xorFields n (a / 4))

/-- Home die of a line (R318). -/
def homeDie (s : State) (a : Nat) : Nat :=
  match s.liveDies with
  | [d0, d1, d2] => [d0, d1, d2].getD (a % 3) 0
  | _ => xorFields 25 a

/-- Home slice of a line within its die (R319). -/
def homeSlice (a : Nat) : Nat := a % 31

/-! ### Bytes -/

/-- What an unlisted byte of memory reads as (log 2). -/
def emptyByte : BitVec 8 := 0

def State.byte (s : State) (a : Nat) : BitVec 8 := SMap.get emptyByte s.mem a

/-- Memory is in canonical form. -/
def Memory.wf (m : List Host.Cell) : Bool := SMap.wf emptyByte m

def setByte (m : List Host.Cell) (a : Nat) (b : BitVec 8) : List Host.Cell := SMap.set emptyByte m a b

/-- The n bytes at a, little-endian (R15). -/
def State.peek (s : State) (a : Nat) : Nat → Nat
  | 0 => 0
  | n + 1 => (s.byte a).toNat + 256 * s.peek (a + 1) n

def pokeBytes (m : List Host.Cell) (a : Nat) : Nat → Nat → List Host.Cell
  | 0, _ => m
  | n + 1, v => pokeBytes (setByte m a (BitVec.ofNat 8 v)) (a + 1) n (v / 256)

/-! ### Uncorrectable sectors (R337, R338) -/

/-- The first uncorrectable sector among the bytes a … a+n−1. -/
def State.badIn (s : State) (a n : Nat) : Option Nat :=
  s.bad.find? (fun k => decide (k * 32 < a + n) && decide (a < k * 32 + 32))

/-- The first sector that a write of those bytes covers only in part and that is uncorrectable. -/
def State.badPartly (s : State) (a n : Nat) : Option Nat :=
  s.bad.find? (fun k => decide (k * 32 < a + n) && decide (a < k * 32 + 32) &&
    !(decide (a ≤ k * 32) && decide (k * 32 + 32 ≤ a + n)))

def State.retirePage (s : State) (page : Nat) : State :=
  if s.retired.contains page then s
  else { s with retired := s.retired ++ [page], events := s.events ++ [.retirePage page] }

/-! ### What a write does besides its bytes -/

/-- Lines touched by the bytes a … a+n−1. -/
def touches (line a n : Nat) : Bool := decide (line * 128 < a + n) && decide (a < line * 128 + 128)

def Ctx.killResv (t : Ctx) (a n : Nat) : Ctx :=
  match t.resv with
  | some l => if touches l a n then { t with resv := none } else t
  | none => t

/-- Reservations of every hart but the writer's on the written lines are lost (R346). -/
def killReservations (s : State) (writer : Option (Nat × Nat)) (a n : Nat) : State :=
  s.mapCtxs (fun c x t => if writer.any (fun w => w.1 == c && w.2 % 8 == x) then t else t.killResv a n)

def WaitWord.holds (w : WaitWord) (v : Word) : Bool :=
  match w.cond with
  | 0 => v == w.operand
  | 1 => v != w.operand
  | 2 => w.operand.ule v
  | _ => (v &&& w.operand) != 0

/-- Tests one armed wait word; on success it disarms and posts (R426). A word of lost data satisfies nothing (R338, log 36). -/
def testWait (s : State) (slot : Nat) (w : WaitWord) : State :=
  let v := BitVec.ofNat 64 (s.peek w.addr 8)
  match s.badIn w.addr 8 with
  | some k => s.retirePage (k * 32 / 4096)
  | none =>
  if w.holds v then
    let s1 := { s with host := { s.host with waits := s.host.waits.del slot } }
    let s2 := s1.post (.write w.host 8 v.toNat)
    match w.msi with
    | some k => s2.post (.msix k)
    | none => s2
  else s

/-- Tests every armed wait word whose word the written bytes touch (R426). -/
def testWaits (s : State) (a n : Nat) : State :=
  s.host.waits.foldl (fun t e =>
    if decide (e.2.addr < a + n) && decide (a < e.2.addr + 8) then testWait t e.1 e.2 else t) s

/-- A stash sector that holds bytes of a line touched by a … a+n−1: the directory keeps sharers and owners by line (R328). -/
def Sector.meets (e : Sector) (a n : Nat) : Bool := touches (e.sector / 4) a n

/-- The dirty sectors of the lines touched, in every stash but one. -/
def dirtyIn (s : State) (via : Option Nat) (a n : Nat) : List Nat :=
  (s.cores.map (fun e =>
    if via = some e.1 then [] else (e.2.sectors.filter (fun p => p.2.meets a n && p.2.dirty)).map (fun p => p.2.sector))).flatten

/-- Dirty sectors reach their home lines as ordinary writes of the sectors (R329): their bytes stand in memory since the store (log 8);
the wait words they touch are tested now (R426). -/
def writeBack (s : State) (l : List Nat) : State := l.foldl (fun u k => testWaits u (k * 32) 32) s

/-- Before a write by another agent, stash copies of its lines are recalled and invalidated; the writer's own stash, through which it
writes, keeps its sectors (R327, R328). -/
def recallWrite (s : State) (via : Option Nat) (a n : Nat) : State :=
  let s1 := writeBack s (dirtyIn s via a n)
  { s1 with cores := s1.cores.map (fun e =>
      if via = some e.1 then e else (e.1, { e.2 with sectors := e.2.sectors.filter (fun p => !p.2.meets a n) })) }

/-- Before a read by another agent, the owner's dirty sectors are recalled and kept clean (R328). -/
def recallRead (s : State) (via : Option Nat) (a n : Nat) : State :=
  let s1 := writeBack s (dirtyIn s via a n)
  { s1 with cores := s1.cores.map (fun e =>
      if via = some e.1 then e
      else (e.1, { e.2 with sectors := e.2.sectors.map (fun p => if p.2.meets a n then (p.1, { p.2 with dirty := false }) else p) })) }

/-- What a performed write does to scalar L1 copies of its lines (R323): a line whose scalar-presence bit is set is invalidated in every
L1, and the bit is cleared. -/
def Copies.written (k : Copies) (a n : Nat) : Copies :=
  { k with l1 := k.l1.filter (fun e => !touches e.line a n), present := k.present.filter (fun l => !touches l a n) }

def asidOf (satp : Word) : Nat := satp.toNat / (1 <<< 44) % 65536

/-- The record of a write about to be performed (R321, R338, R357). -/
def pastOf (s : State) (writer eng : Option (Nat × Nat)) (act : Bool) (a n : Nat) : Past :=
  { seq := s.past.length, addr := a, len := n, old := s.peek a n, thread := writer.map (fun w => s.threadOf w.1 w.2), act := act,
    cmd := eng.map (·.1),
    asid := match eng, writer with
      | some e, _ => e.2
      | none, some w => asidOf (s.thr w.1 w.2).std.satp
      | none, none => 0 }

def Past.meets (w : Past) (a n : Nat) : Bool := decide (w.addr < a + n) && decide (a < w.addr + w.len)

/-- Nothing before a write over lost or uncorrectable bytes can be read any more (R338). -/
def Past.forget (a n : Nat) (w : Past) : Past := if w.meets a n then { w with len := 0 } else w

/-- A write of n bytes at physical address a (R342): bytes, check codes of wholly covered sectors, reservations, stash and L1 copies.
Performed at its home slice, it tests wait words; through a stash it waits there until its write-back (R327, R329). An engine write names
its command and address space. -/
def State.storePhys (s : State) (writer : Option (Nat × Nat)) (via : Option Nat) (a n v : Nat) (act : Bool := false)
    (eng : Option (Nat × Nat) := none) : State :=
  let s1 := recallWrite (killReservations s writer a n) via a n
  let s2 := { s1 with mem := pokeBytes s1.mem a n v,
                      past := if (s.badIn a n).isSome then { pastOf s writer eng act a n with len := 0 } :: s1.past.map (Past.forget a n)
                              else pastOf s writer eng act a n :: s1.past,
                      copies := s1.copies.written a n,
                      bad := s1.bad.filter (fun k => !(decide (a ≤ k * 32) && decide (k * 32 + 32 ≤ a + n))) }
  if via.isSome then s2 else testWaits s2 a n

/-! ### Reads that may miss a write (R320, R321, R343, R357) -/

/-- The value of u bytes at a before a write, from their value after it. -/
def Past.undo (w : Past) (a u v : Nat) : Nat :=
  (List.range u).foldl (fun acc i =>
    let b := if w.addr ≤ a + i ∧ a + i < w.addr + w.len then w.old / 256 ^ (a + i - w.addr) else v / 256 ^ i
    acc + b % 256 * 256 ^ i) 0

/-- The latest writes to u bytes at a that a read may miss, latest first: the read misses none older than one it may not miss. -/
def State.missable (s : State) (miss : Past → Bool) (a u : Nat) : List Past :=
  (s.past.filter (fun w => w.meets a u)).takeWhile miss

/-- A read of u bytes at a as one: their value, or the value before some of the writes it may miss, a free choice. -/
def State.readUnit (s : State) (miss : Past → Bool) (a u : Nat) : Nat × State :=
  match s.missable miss a u with
  | [] => (s.peek a u, s)
  | l =>
    let ch := s.choose (l.length + 1)
    ((l.take ch.1).foldl (fun v w => w.undo a u v) (s.peek a u), ch.2)

/-- A read of k units of u bytes at a, each as one. -/
def State.readUnits (s : State) (miss : Past → Bool) (u : Nat) : Nat → Nat → Nat × State
  | 0, _ => (0, s)
  | k + 1, a =>
    let r := s.readUnit miss a u
    let q := r.2.readUnits miss u k (a + u)
    (r.1 + q.1 <<< (8 * u), q.2)

/-- The read of a place by a core is served by a replica in its die (R320). -/
def State.replicates (s : State) (core : Nat) (p : PAddr) : Bool :=
  p.cls == .pma && !p.writable && regionOf s p.pa == .dram && homeDie s (lineOf p.pa) != dieOf core

/-- Fills the replica of a line in a die where it is absent. -/
def State.fillReplica (s : State) (die line : Nat) : State :=
  if s.copies.replicas.any (fun r => r.die == die && r.line == line) then s
  else { s with copies := { s.copies with replicas := { die := die, line := line, fill := s.past.length } :: s.copies.replicas } }

/-- A write may be missed through the replicas of a die: it came after the fill of the replica of a line it touches (R321). -/
def State.replicaMisses (s : State) (die : Nat) (w : Past) : Bool :=
  s.copies.replicas.any (fun r => r.die == die && touches r.line w.addr w.len && decide (r.fill ≤ w.seq))

/-- A read of n bytes at a place for a core: from memory, or, through a translation with W = 0, from its die's replica, where each byte
may have any value that the line has held since the fill (R320, R321). miss names the writes that the reader may miss besides, with u
the bytes it reads as one. -/
def State.readPlace (s : State) (core : Nat) (p : PAddr) (n u : Nat) (miss : Past → Bool) : Nat × State :=
  if s.replicates core p then
    let s1 := (s.fillReplica (dieOf core) (lineOf p.pa)).fillReplica (dieOf core) (lineOf (p.pa + (n - 1)))
    s1.readUnits (fun w => miss w || s1.replicaMisses (dieOf core) w) 1 n p.pa
  else if !(s.past.any (fun w => w.meets p.pa n && miss w)) then (s.peek p.pa n, s)
  else if n % max 1 u = 0 then s.readUnits miss (max 1 u) (n / max 1 u) p.pa
  else s.readUnits miss 1 n p.pa

/-- A thread's read misses no write (R342; log 6). -/
def noMiss : Past → Bool := fun _ => false

/-- A line owned by a running command (R361, R362). -/
def State.lineOwned (s : State) (line : Nat) : Bool :=
  s.cores.any (fun e => e.2.nodes.any (fun p => p.2.owned.contains line))

/-- Some byte a … a+n−1 lies in an owned line: the access waits (R362). -/
def State.ownedIn (s : State) (a n : Nat) : Bool :=
  s.cores.any (fun e => e.2.nodes.any (fun p => p.2.owned.any (fun l => touches l a n)))

/-- The sets of Table 13-1 that an ofence orders after earlier acceptances (R353). -/
inductive AccSet where | R | W | A
  deriving DecidableEq, Repr

/-- Tick of a thread's latest fence with E in pred and a set in succ. -/
def Ctx.fenceE (t : Ctx) : AccSet → Nat
  | .R => t.fenceER | .W => t.fenceEW | .A => t.fenceEA

/-- A line among a … a+n−1 is owned by a command that the access of hart (c, x) must wait for: any but a command of its own thread
that no fence orders before the access, which may then be performed before the acceptance (R348, R353), a free choice. -/
def State.blocked (s : State) (c x : Nat) (set : AccSet) (a n : Nat) : Bool :=
  s.cores.any (fun e => e.2.nodes.any (fun p => p.2.owned.any (fun l => touches l a n) &&
    !(p.2.thread == s.threadOf c x && decide ((s.thr c x).fenceE set ≤ p.2.accepted) && Config.goesEarly s.now a)))

/-! ### Translation (R73, R313, R314, R316) -/

/-- Who translates: the effective privilege and the status bits that matter, and whose TLBs serve it: by default the running core's
L1 TLB, or the L1 or the matrix load-pipe TLB of a core (R332); and whether a stash may serve it (R327). -/
structure Xlat where
  satp : Word
  priv : Priv
  sum : Bool := false
  mxr : Bool := false
  tlb : Option (Nat × Bool) := none
  stash : Bool := true
  deriving DecidableEq, Repr

def bitOf (n i : Nat) : Bool := n / (1 <<< i) % 2 == 1

/-- Default class of a region in Bare mode (R316). -/
def bareClass : Region → Cls
  | .dram => .pma
  | .block _ _ => .io
  | .host _ => .nc
  | .nowhere => .pma

/-- A reserved or illegal leaf, or a permission the leaf refuses. -/
def leafOk (t : Xlat) (acc : Acc) (pte : Nat) : Bool :=
  let r := bitOf pte 1; let w := bitOf pte 2; let x := bitOf pte 3; let u := bitOf pte 4
  let a := bitOf pte 6; let d := bitOf pte 7
  let perm := match acc with
    | .fetch => x
    | .load => r || (t.mxr && x)
    | .store => w
  let mode := match t.priv, acc with
    | .U, _ => u
    | _, .fetch => !u
    | _, _ => !u || t.sum
  perm && mode && a && (acc != .store || d)

/-- The leaf entry that a walk finds from a level down (level 3 first), with its level and the places of the entries read. -/
def walk (s : State) (acc : Acc) (va : Nat) : Nat → Nat → Res (Nat × Nat × List Nat)
  | 0, _ => .trap { cause := acc.pageCause, tval := va }
  | lvl + 1, table =>
    let at' := table + 8 * (va / (1 <<< (12 + 9 * lvl)) % 512)
    if regionOf s at' != .dram then .trap { cause := acc.accessCause, tval := va }
    else match s.badIn at' 8 with
    | some k => .trap { cause := 46, tval := va, retire := some (k * 32 / 4096) }
    | none =>
      let pte := s.peek at' 8
      let v := bitOf pte 0; let r := bitOf pte 1; let w := bitOf pte 2; let x := bitOf pte 3
      let ppn := pte / 1024 % (1 <<< 44)
      let pbmt := pte / (1 <<< 61) % 4
      let n := bitOf pte 63
      let fail : Res (Nat × Nat × List Nat) := .trap { cause := acc.pageCause, tval := va }
      if !v || (!r && w) || pte / (1 <<< 54) % 128 != 0 then fail
      else if !r && !x then
        if n || pbmt != 0 || bitOf pte 4 || bitOf pte 6 || bitOf pte 7 then fail
        else (walk s acc va lvl (ppn * 4096)).bind (fun q => .done (q.1, q.2.1, at' :: q.2.2))
      else if lvl ≥ 3 || pbmt == 3 then fail
      else if n && (lvl != 0 || ppn % 16 != 8) then fail
      else if ppn % (1 <<< (9 * lvl)) != 0 then fail
      else .done (pte, lvl, [at'])

/-- What a leaf entry of a level gives an access: its permission (R314), class (R316) and address. -/
def leafPlace (t : Xlat) (acc : Acc) (va pte lvl : Nat) : Res PAddr :=
  if !leafOk t acc pte then .trap { cause := acc.pageCause, tval := va }
  else
    let n := bitOf pte 63
    let ppn := pte / 1024 % (1 <<< 44)
    let cls : Cls := match pte / (1 <<< 61) % 4 with | 0 => .pma | 1 => .nc | _ => .io
    let off := if n then va % 65536 else va % (1 <<< (12 + 9 * lvl))
    let base := if n then ppn / 16 * 16 * 4096 else ppn * 4096
    .done { pa := base + off, cls := cls, writable := bitOf pte 2 }

/-! ### TLBs (R332) -/

/-- The TLBs that serve a translation: the core's L1 or matrix load-pipe TLB, then its die's shared one. -/
def State.holders (s : State) (t : Xlat) : List (Nat × Nat) :=
  let k := t.tlb.getD (s.cur.1, false)
  [(k.2.toNat, k.1), (2, dieOf k.1)]

/-- Entries of a TLB of a kind (Table 12-8). -/
def tlbSize (kind : Nat) : Nat := match kind with | 0 => 64 | 1 => 128 | _ => 16384

def TlbEntry.covers (e : TlbEntry) (asid va : Nat) : Bool :=
  (e.isGlobal || e.asid == asid) && e.base >>> e.size == va >>> e.size

def pageSizeOf (pte lvl : Nat) : Nat := if bitOf pte 63 then 16 else 12 + 9 * lvl
def leafLevel (size : Nat) : Nat := (size - 12) / 9

/-- The entries held that serve an address. -/
def State.heldFor (s : State) (t : Xlat) (va : Nat) : List TlbEntry :=
  s.copies.tlb.filter (fun e => (s.holders t).contains e.holder && e.covers (asidOf t.satp) va)

def freshPlace (s : State) (t : Xlat) (acc : Acc) (va : Nat) : Res PAddr :=
  (walk s acc va 4 (t.satp.toNat % (1 <<< 44) * 4096)).bind (fun q => leafPlace t acc va q.1 q.2.1)

/-- What held entries give where that is not what a walk now gives. -/
def stalePlaces (s : State) (t : Xlat) (acc : Acc) (va : Nat) : List (Res PAddr) :=
  (((s.heldFor t va).map (fun e => leafPlace t acc va e.pte (leafLevel e.size))).filter (· ≠ freshPlace s t acc va)).eraseDups

/-- The one of n held results that serves the access; n where every held entry has been replaced, a free choice. -/
def staleChoice (s : State) (va n : Nat) : Nat := Config.staleTranslation s.now s.cur.1 va % (n + 1)

/-- Translation under Sv48: by a walk, or by an entry that a TLB still holds (R332). -/
def pagedPlace (s : State) (t : Xlat) (acc : Acc) (va : Nat) : Res PAddr :=
  match stalePlaces s t acc va with
  | [] => freshPlace s t acc va
  | l => l.getD (staleChoice s va l.length) (freshPlace s t acc va)

def Xlat.bare (t : Xlat) : Bool := t.priv == .M || t.satp.toNat / (1 <<< 60) == 0

/-- Bits [63:48] equal bit 47 (R313). -/
def canonical (va : Nat) : Bool := va / (1 <<< 47) == 0 || va / (1 <<< 47) == 131071

/-- Translation of a virtual address: Bare in machine mode or with MODE 0, else Sv48 with the sign check of R313. The
physical address must lie in a region of Table 12-1 (R315). -/
def translate (s : State) (t : Xlat) (acc : Acc) (va : Nat) : Res PAddr :=
  let out : Res PAddr :=
    if t.bare then .done { pa := va, cls := bareClass (regionOf s va) }
    else if !canonical va then .trap { cause := acc.pageCause, tval := va }
    else pagedPlace s t acc va
  match out with
  | .done p =>
    match regionOf s p.pa with
    | .nowhere => .trap { cause := acc.accessCause, tval := va }
    | .block _ _ => .done { p with cls := .io }
    | .host _ => .done { p with cls := if p.cls = .pma then .nc else p.cls }
    | .dram => .done p
  | r => r

/-- The first n entries of a TLB in a list that starts with the newest; entries of others stay. -/
def keepNewest (h : Nat × Nat) : Nat → List TlbEntry → List TlbEntry
  | _, [] => []
  | n, e :: l =>
    if e.holder = h then (match n with | 0 => keepNewest h 0 l | m + 1 => e :: keepNewest h m l) else e :: keepNewest h n l

/-- A TLB takes an entry; beyond its size the oldest goes (log 7). -/
def Copies.insert (k : Copies) (e : TlbEntry) : Copies :=
  if k.tlb.contains e then k else { k with tlb := keepNewest e.holder (tlbSize e.holder.1) (e :: k.tlb) }

/-- What an access translated in u leaves in the TLBs that served it: unless a held entry served it, its walk read the tables,
recalling dirty stash sectors (R328), and its leaf entry is held. -/
def State.noted (s u : State) (t : Xlat) (acc : Acc) (va : Nat) : State :=
  if t.bare || !canonical va then s
  else match walk u acc va 4 (t.satp.toNat % (1 <<< 44) * 4096) with
  | .done (pte, lvl, path) =>
    let stale := stalePlaces u t acc va
    if stale ≠ [] ∧ staleChoice u va stale.length < stale.length then s
    else
      let held := s.heldFor t va
      let keep := held.filter (fun e => e.pte == pte)
      let size := pageSizeOf pte lvl
      let s1 := if keep = [] then path.foldl (fun q a => recallRead q none a 8) s else s
      let k := { s1.copies with tlb := s1.copies.tlb.filter (fun e => !held.contains e || keep.contains e) }
      { s1 with copies := (s.holders t).foldl (fun q h =>
          q.insert { holder := h, asid := asidOf t.satp, isGlobal := bitOf pte 5, base := va >>> size <<< size, size := size, pte := pte }) k }
  | _ => s

/-- The translation context of a hart's data access: MPRV lends MPP's privilege (R73). -/
def Ctx.dataXlat (t : Ctx) : Xlat :=
  let ms := t.std.mstatus.toNat
  let p : Priv := if bitOf ms 17 && t.priv == .M then
      (match ms / 2048 % 4 with | 0 => .U | 1 => .S | _ => .M) else t.priv
  { satp := t.std.satp, priv := p, sum := bitOf ms 18, mxr := bitOf ms 19 }

def Ctx.fetchXlat (t : Ctx) : Xlat := { satp := t.std.satp, priv := t.priv }

/-- Translation for the device's own reads and writes for a task, made as user accesses of its space (R310, R313). -/
def userXlat (satp : Word) : Xlat := { satp := satp, priv := .U, stash := false }

end Sys2Proof.Machine
end

