-- ==== Sys2Proof/Machine/Block.lean ====
section
/-! DEFINITION. The core register block (Table 12-1): the stash map (R326), the configuration doorbell (R415, R418), the save
and snapshot registers (R442 to R445), the power controller (R451), the quarst mirror (R439) and the counters (R453). -/
namespace Sys2Proof.Machine

/-! ### The stash map (R325, R326) -/

def stashRange (w0 : Word) : Nat := 4096 <<< (w0.toNat / 256 % 16)
def stashVbase (w0 : Word) : Nat := w0.toNat / 4096 % (1 <<< 36) * 4096
def stashAsid (w0 : Word) : Nat := w0.toNat / (1 <<< 48)
def stashValid (w0 : Word) : Bool := w0.toNat % 2 == 1
def stashOffset (w1 : Word) : Nat := w1.toNat / 4096 % 256 * 4096

def Core.stashW0 (k : Core) (e : Nat) : Word := SMap.get 0 k.stash0 e
def Core.stashW1 (k : Core) (e : Nat) : Word := SMap.get 0 k.stash1 e

/-- The sectors of an entry are invalid. -/
def Core.stashUnmap (k : Core) (e : Nat) : Core :=
  if stashValid (k.stashW0 e) then { k with sectors := k.sectors.filter (fun p => p.2.entry != e) } else k

/-- The dirty sectors that a store to an entry's words writes back first: those of a valid entry. -/
def Core.dirtyOf (k : Core) (e : Nat) : List Nat :=
  if stashValid (k.stashW0 e) then (k.sectors.filter (fun p => p.2.entry == e && p.2.dirty)).map (fun p => p.2.sector) else []

/-- The virtual range of w0 overlaps that of another valid entry of its ASID. -/
def Core.stashOverlap (k : Core) (e : Nat) (w0 : Word) : Bool :=
  (List.range 64).any (fun f =>
    let o := k.stashW0 f
    f != e && stashValid o && stashAsid o == stashAsid w0 &&
      decide (stashVbase o < stashVbase w0 + stashRange w0) && decide (stashVbase w0 < stashVbase o + stashRange o))

/-- The three refusals of a store to word 0 with valid = 1 (R326). -/
def Core.stashRefused (k : Core) (e : Nat) (w0 : Word) : Bool :=
  decide (8 < w0.toNat / 256 % 16) || decide (stashVbase w0 % stashRange w0 ≠ 0) ||
    decide (stashOffset (k.stashW1 e) % stashRange w0 ≠ 0) || k.stashOverlap e w0

def Core.writeStash0 (k : Core) (e : Nat) (v : Word) : Core :=
  let k1 := k.stashUnmap e
  let kept := v.toNat / 256 * 256     -- asid, vbase, size; bits [7:0] set below
  let w : Nat :=
    if stashValid v then
      (if k1.stashRefused e v then kept + 2 else kept + 1)
    else kept + (k1.stashW0 e).toNat / 2 % 2 * 2     -- err tells of the last write with valid = 1
  { k1 with stash0 := k1.stash0.put e (BitVec.ofNat 64 w) }

def Core.writeStash1 (k : Core) (e : Nat) (v : Word) : Core :=
  let k1 := k.stashUnmap e
  let w0 := (k1.stashW0 e).toNat
  { k1 with stash1 := k1.stash1.put e (BitVec.ofNat 64 (v.toNat / 4096 % 256 * 4096)),
            stash0 := k1.stash0.put e (BitVec.ofNat 64 (w0 / 2 * 2)) }

/-- A supervisor store to a word of the stash map of a core (R326). -/
def writeStashMap (s : State) (core off : Nat) (v : Word) : State :=
  (writeBack s ((s.core core).dirtyOf (off / 16))).modCore core (fun k =>
    if off % 16 == 0 then k.writeStash0 (off / 16) v else k.writeStash1 (off / 16) v)

/-! ### Doorbells (R415, R418) -/

def State.bell (s : State) (door : Option Nat) : Doorbell :=
  match door with
  | none => s.host.bell
  | some c => (s.core c).bell

def State.setBell (s : State) (door : Option Nat) (b : Doorbell) : State :=
  match door with
  | none => { s with host := { s.host with bell := b } }
  | some c => s.modCore c (fun k => { k with bell := b })

/-- The row that performs the request at an address: by its opcode; an unknown opcode is refused by whichever row runs. -/
def requestRow (s : State) (r : CfgReq) : Event :=
  match s.peek r.addr 1 with
  | 0x02 => .turnstile r
  | 0x03 => .pool r
  | 0x04 => .barrier r
  | 0x05 => .pinned r
  | 0x06 => .sched r
  | 0x07 => .aspace r
  | 0x08 => .asrel r
  | 0x09 => .fenceRequest r
  | 0x0A => .capkey r
  | 0x0B => .ring r
  | 0x0C => .nvmeqp r
  | 0x0D => .waitword r
  | 0x0E => .subscribe r
  | 0x0F => .launch r
  | 0x10 => .install r
  | _ => .queue r

/-- A write of v to a doorbell (R418). A device store to a full doorbell waits; a host write to one is dropped. -/
def ringDoorbell (s : State) (door : Option Nat) (v : Word) : Res State :=
  let b := s.bell door
  let addr := v.toNat % (1 <<< 48)
  if addr % 64 ≠ 0 then .done (s.setBell door { b with mis := true })
  else if b.queue.length ≥ 16 then
    match door with
    | none => .done (s.setBell door { b with ovf := true })
    | some _ => .wait
  else
    let s1 := s.setBell door { b with queue := b.queue ++ [addr] }
    .done (if b.queue = [] then s1.later (requestRow s1 ⟨door, addr⟩) else s1)

def cfgDone (b : Doorbell) : Word :=
  BitVec.ofNat 64 (b.ovf.toNat * (1 <<< 63) + b.mis.toNat * (1 <<< 62) + b.count.toNat)

/-- W1C of ovf and mis. -/
def writeCfgDone (b : Doorbell) (v : Word) : Doorbell :=
  { b with ovf := b.ovf && !v.getLsbD 63, mis := b.mis && !v.getLsbD 62 }

/-! ### Save areas (R310, R442) -/

/-- The lowest save area of an address space that is not handed out. -/
def ASpace.freeArea (a : ASpace) : Option Nat := (List.range a.poolCount).find? (fun i => !a.used.contains i)

def ASpace.areaAt (a : ASpace) (i : Nat) : Nat := a.poolBase + a.poolSize * i

def State.aspace (s : State) (asid : Nat) : Option ASpace := (s.aspaces.find? (fun e => e.1 == asid)).map (·.2)
def State.setASpace (s : State) (asid : Nat) (a : ASpace) : State := { s with aspaces := s.aspaces.put asid a }

/-- Gives the task of hart (c, x) a save area if it has none; answers its address, 0 when the pool is empty. -/
def allocArea (s : State) (c x : Nat) : Nat × State :=
  match (s.thr c x).task with
  | none => (0, s)
  | some t =>
    if t.area ≠ 0 then (t.area, s)
    else match s.aspace t.asid with
    | none => (0, s)
    | some a => match a.freeArea with
      | none => (0, s)
      | some i =>
        let at' := a.areaAt i
        (at', (s.setASpace t.asid { a with used := a.used ++ [i] }).modThr c x
          (fun h => { h with task := some { t with area := at' } }))

/-- Returns the save area of a retiring task to its pool (R310). -/
def freeAreaOf (s : State) (t : TaskRec) : State :=
  if t.area = 0 then s
  else match s.aspace t.asid with
  | none => s
  | some a => s.setASpace t.asid { a with used := a.used.filter (fun i => a.areaAt i != t.area) }

/-- A store to REQUEUE by hart (c, x) (R445): ignored for a gang context or one that runs no task. -/
def writeRequeue (s : State) (c x : Nat) (v : Word) : State :=
  let h := s.thr c x
  if h.gang.isSome || h.task.isNone then s
  else s.modThr c x (fun t =>
    { t with requeue := some (v.toNat % (1 <<< 48) / 64 * 64, v.getLsbD 1, v.getLsbD 0) })

/-! ### Snapshots (R443) -/

/-- A kind that a snapshot lets run to completion: kred, knest, ksig. -/
def runsOut (kind : Nat) : Bool := kind == 6 || kind == 9 || kind == 10

/-- A write to ESNAPC starts a snapshot unless one is under way: launching stops and running commands of the masked
contexts stop at their next unit. -/
def startSnapshot (s : State) (core : Nat) (mask : Nat) (satp : Word) : State :=
  let k := s.core core
  if !k.snap.done then s
  else
    let stop (n : Node) : Node :=
      if n.st == .running && bitOf mask n.ctx && !runsOut n.kind && n.remote.isNone then { n with stopping := true } else n
    (s.setCore core { k with snap := { k.snap with done := false, err := false, count := 0, mask := mask, satp := satp },
                             nodes := k.nodes.map (fun e => (e.1, stop e.2)) }).later (.snapshotEnd core)

def esnapc (n : Snap) : Word :=
  BitVec.ofNat 64 (n.done.toNat * (1 <<< 63) + n.err.toNat * (1 <<< 62) + n.count % 128 * 65536)

/-! ### The power controller and the counters (R451, R453, R455) -/

def Power.pwrtgt (p : Power) : Word := BitVec.ofNat 64 (p.lfloor.toNat * (1 <<< 32) + p.target.toNat)
def Power.lvcfg (p : Power) : Word := BitVec.ofNat 64 (p.wait.toNat * 65536 + p.ceiling.toNat * 256 + p.floor.toNat)
def Power.pwrstat (p : Power) : Word :=
  BitVec.ofNat 64 (p.limit % 256 * (1 <<< 56) + p.held % 256 * (1 <<< 48) + p.power.toNat)

/-- The L_pwr floor in bits (Table 21-7). -/
def Power.lpwrFloor (p : Power) : Nat := 512 <<< (min p.lfloor.toNat 4)

/-- The running limit clamped into the range; the floor where it exceeds the ceiling (R306). -/
def Power.clamp (p : Power) (l : Nat) : Nat :=
  if p.ceiling.toNat < p.floor.toNat then p.floor.toNat else max p.floor.toNat (min p.ceiling.toNat l)

def Power.writeTgt (p : Power) (v : Word) : Power :=
  { p with lfloor := BitVec.ofNat 3 (v.toNat / (1 <<< 32)), target := BitVec.ofNat 32 v.toNat }

def Power.writeLvcfg (p : Power) (v : Word) : Power :=
  let q := { p with wait := BitVec.ofNat 32 (v.toNat / 65536), ceiling := BitVec.ofNat 8 (v.toNat / 256),
                    floor := BitVec.ofNat 8 v.toNat }
  { q with limit := q.clamp q.limit }

/-- The end of each waiting leave request's limit, under the wait limit as it now stands (R306). -/
def armLeaves (s : State) (die : Nat) : State :=
  let p := (s.die die).power
  p.asking.foldl (fun u e =>
    u.after ((s.node e.1 e.2).leaveSince + sliceTicks p.wait.toNat - s.now) (.leaveWaitExpire die e.1 e.2)) s

def writeLvcfgOf (s : State) (die : Nat) (v : Word) : State :=
  let s1 := s.modDie die (fun d => { d with power := d.power.writeLvcfg v })
  (armLeaves s1 die).later (.leaveAdmit die)

def quarst (q : Quar) : Word :=
  BitVec.ofNat 64 (q.reason.toNat * 16 + q.quar.toNat * 2 + q.report.toNat)

/-- W1C of report. -/
def Quar.write (q : Quar) (v : Word) : Quar := { q with report := q.report && !v.getLsbD 0 }

def winhist (m : Margin) : Word :=
  BitVec.ofNat 64 (m.last.toNat * (1 <<< 32) + m.crossed.toNat * 256 + m.streak.toNat)

/-! ### Loads and stores of the block -/

/-- A naturally aligned 8-byte load of the block of a core by hart (c, x) at a privilege (R315, R442, R451, R453). -/
def blockLoad (s : State) (c x : Nat) (priv : Priv) (core off : Nat) : Res (Word × State) :=
  let k := s.core core
  let no : Res (Word × State) := .trap { cause := 5, tval := 0 }
  let sup := priv != .U
  if !s.coreUp core then no
  else if off < 0x400 then
    let e := off / 16
    .done (if off % 16 == 0 then k.stashW0 e else k.stashW1 e, s)
  else match off with
  | 0x400 => if sup && c == core then .done (0, s) else no
  | 0x408 => if sup && c == core then .done (cfgDone k.bell, s) else no
  | 0x410 => if sup && c == core then .done (k.snap.addr, s) else no
  | 0x418 => if sup && c == core then .done (esnapc k.snap, s) else no
  | 0x420 => if sup && c == core then .done (0, s) else no
  | 0x428 =>
    if sup && c == core then
      let r := allocArea s c x
      .done (BitVec.ofNat 64 r.1, r.2)
    else no
  | 0x430 => if sup && c == core then .done (BitVec.ofNat 64 (s.thr c x).reentry, s) else no
  | 0x800 => .done ((s.die (dieOf core)).power.pwrtgt, s)
  | 0x808 => .done ((s.die (dieOf core)).power.lvcfg, s)
  | 0x810 => .done ((s.die (dieOf core)).power.pwrstat, s)
  | 0x818 => if priv == .M && dieOf c == dieOf core then .done (quarst k.quar, s) else no
  | 0x820 => if sup && dieOf c == dieOf core then .done (winhist k.margin, s) else no
  | 0x828 => if sup && dieOf c == dieOf core then .done (k.lvdef, s) else no
  | 0x830 => if sup && dieOf c == dieOf core then .done (k.lvwait, s) else no
  | 0x838 => if sup && dieOf c == dieOf core then .done (k.gate.refused, s) else no
  | _ => .done (0, s)

/-- A naturally aligned 8-byte store to the block of a core. -/
def blockStore (s : State) (c x : Nat) (priv : Priv) (core off : Nat) (v : Word) : Res State :=
  let no : Res State := .trap { cause := 7, tval := 0 }
  let sup := priv != .U
  if !s.coreUp core then no
  else if off < 0x400 then
    if !sup then no
    else .done (writeStashMap s core off v)
  else match off with
  | 0x400 => if sup && c == core then ringDoorbell s (some core) v else no
  | 0x408 =>
    if sup && c == core then .done (s.modCore core (fun k => { k with bell := writeCfgDone k.bell v })) else no
  | 0x410 =>
    if sup && c == core then
      .done (s.modCore core (fun k =>
        { k with snap := { k.snap with addr := BitVec.ofNat 64 (v.toNat % (1 <<< 48) / 128 * 128) } }))
    else no
  | 0x418 =>
    if sup && c == core then .done (startSnapshot s core (v.toNat % 256) (s.thr c x).std.satp) else no
  | 0x420 => if sup && c == core then .done (writeRequeue s c x v) else no
  | 0x428 => if sup && c == core then .done s else no
  | 0x430 => if sup && c == core then .done s else no
  | 0x800 =>
    if priv == .M then .done (s.modDie (dieOf core) (fun d => { d with power := d.power.writeTgt v })) else .done s
  | 0x808 => if priv == .M then .done (writeLvcfgOf s (dieOf core) v) else .done s
  | 0x810 => .done s
  | 0x818 =>
    if priv == .M && dieOf c == dieOf core then .done (s.modCore core (fun k => { k with quar := k.quar.write v })) else no
  | _ => .done s

end Sys2Proof.Machine
end

