-- ==== Sys2Proof/Machine/Access.lean ====
section
/-! DEFINITION. Data accesses of a hart: scalar-sized loads and stores through translation, the stash, the register block
and the host window, and runs of 64-bit words. -/
namespace Sys2Proof.Machine

/-! ### The stash on an access (R327) -/

/-- The valid map entry of an ASID that holds a virtual address, of which it compares bits [47:12] (R326). -/
def Core.stashEntry (k : Core) (asid va : Nat) : Option Nat :=
  let a := va % (1 <<< 48)
  (List.range 64).find? (fun e =>
    let w := k.stashW0 e
    stashValid w && stashAsid w == asid && decide (stashVbase w ≤ a) && decide (a < stashVbase w + stashRange w))

/-- The stash sector that serves a virtual address under entry e. -/
def Core.stashSector (k : Core) (e va : Nat) : Nat :=
  (stashOffset (k.stashW1 e) + (va % (1 <<< 48) - stashVbase (k.stashW0 e))) / 32

/-- An access of core c to a physical sector through entry e: a sector that holds another line is evicted, written back if dirty; a
load fills, a store makes dirty (R327). -/
def stashTouch (s : State) (c asid e va pa : Nat) (dirty : Bool) : State :=
  let k := s.core c
  let ix := k.stashSector e va
  let same := fun (o : Sector) => o.sector == sectorOf pa && o.entry == e
  let old := (k.sectors.find? (fun p => p.1 == ix)).map (·.2)
  let was := old.any (fun o => same o && o.dirty)
  let s1 := match old with
    | some o => if !same o && o.dirty then writeBack s [o.sector] else s
    | none => s
  s1.modCore c (fun k => { k with
    sectors := k.sectors.put ix { sector := sectorOf pa, entry := e, asid := asid, dirty := was || dirty } })

/-- Touches every sector of an access of n bytes that lies in at most two sectors. -/
def stashTouches (s : State) (c asid e va pa n : Nat) (dirty : Bool) : State :=
  stashTouch (stashTouch s c asid e va pa dirty) c asid e (va + (n - 1)) (pa + (n - 1)) dirty

/-- The entry that serves an access of core c: it may use the stash, the address lies in a valid entry of the ASID and the page is PMA. -/
def stashFor (s : State) (c : Nat) (t : Xlat) (va : Nat) (p : PAddr) : Option Nat :=
  if t.stash ∧ p.cls = .pma ∧ regionOf s p.pa = .dram then (s.core c).stashEntry (asidOf t.satp) va else none

/-! ### Host window (R417) -/

def hostOpen (s : State) : Bool := s.host.hwbase.toNat / 4096 != 0

/-- With ATS enabled, a device access to the host window uses a cached translation of its page, at most 256 (R414). -/
def atsUse (s : State) (page : Nat) : State :=
  if !s.host.atsOn || s.host.ats.contains page then s
  else { s with host := { s.host with ats := (page :: s.host.ats).take 256 } }

def hostAddr (s : State) (off : Nat) : Nat := s.host.hwbase.toNat / 4096 * 4096 + off

/-- A read of the host window: the host's memory is outside the machine, so its bytes are free values (log 6). -/
def hostLoad (s : State) (off n : Nat) : Nat × State :=
  let d := s.draw
  (d.1.toNat % (1 <<< (8 * n)), atsUse d.2 (hostAddr s off / 4096))

def hostStore (s : State) (off n v : Nat) : State :=
  (atsUse s (hostAddr s off / 4096)).post (.write (hostAddr s off) n (lowBits v (8 * n)))

/-! ### One access -/

/-- A load of n bytes at a translated address by hart (c, x), which may miss the writes that miss names. va is the address for the trap
value. -/
def loadAt (s : State) (c x : Nat) (t : Xlat) (va n : Nat) (p : PAddr) (miss : Past → Bool := noMiss) : Res (Nat × State) :=
  match regionOf s p.pa with
  | .dram =>
    if s.blocked c x .R p.pa n then .wait
    else match s.badIn p.pa n with
    | some k => .trap { cause := 46, tval := va, retire := some (k * 32 / 4096) }
    | none =>
      match stashFor s c t va p with
      | some e => .done ((stashTouches (recallRead s (some c) p.pa n) c (asidOf t.satp) e va p.pa n false).readPlace c p n n miss)
      | none => .done ((recallRead s none p.pa n).readPlace c p n n miss)
  | .block core off =>
    if n = 8 ∧ p.pa % 8 = 0 then
      match blockLoad s c x t.priv core off with
      | .done r => .done (r.1.toNat, r.2)
      | .trap e => .trap { e with tval := va }
      | .wait => .wait
    else .trap { cause := 5, tval := va }
  | .host off => if hostOpen s then .done (hostLoad s off n) else .trap { cause := 5, tval := va }
  | .nowhere => .trap { cause := 5, tval := va }

/-- A store of n bytes at a translated address. -/
def storeAt (s : State) (c x : Nat) (t : Xlat) (va n v : Nat) (p : PAddr) : Res State :=
  match regionOf s p.pa with
  | .dram =>
    if s.blocked c x .W p.pa n then .wait
    else match s.badPartly p.pa n with
    | some k => .trap { cause := 46, tval := va, retire := some (k * 32 / 4096) }
    | none =>
      match stashFor s c t va p with
      | some e => .done (stashTouches (s.storePhys (some (c, x)) (some c) p.pa n v) c (asidOf t.satp) e va p.pa n true)
      | none => .done (s.storePhys (some (c, x)) none p.pa n v)
  | .block core off =>
    if n = 8 ∧ p.pa % 8 = 0 then
      match blockStore s c x t.priv core off (BitVec.ofNat 64 v) with
      | .trap e => .trap { e with tval := va }
      | r => r
    else .trap { cause := 7, tval := va }
  | .host off => if hostOpen s then .done (hostStore s off n v) else .trap { cause := 7, tval := va }
  | .nowhere => .trap { cause := 7, tval := va }

/-- Adds an offset to an address modulo 2^64 (R106). -/
def wrapAddr (a : Nat) : Nat := a % (1 <<< 64)

/-- A data load of hart (c, x) at a virtual address, translated in u. -/
def loadFrom (u s : State) (c x : Nat) (t : Xlat) (va n : Nat) : Res (Nat × State) :=
  (translate u t .load va).bind (fun p => loadAt (s.noted u t .load va) c x t va n p)

def storeFrom (u s : State) (c x : Nat) (t : Xlat) (va n v : Nat) : Res State :=
  (translate u t .store va).bind (fun p => storeAt (s.noted u t .store va) c x t va n v p)

def loadVA (s : State) (c x : Nat) (t : Xlat) (va n : Nat) : Res (Nat × State) := loadFrom s s c x t va n
def storeVA (s : State) (c x : Nat) (t : Xlat) (va n v : Nat) : Res State := storeFrom s s c x t va n v

/-! ### Scalar accesses and the L1 (R322, R323) -/

/-- Lines an L1 is taken to hold at most (log 7). -/
def l1Lines : Nat := 512

def Copies.fillL1 (k : Copies) (c line : Nat) (replica : Bool) : Copies :=
  let own := (k.l1.filter (fun e => e.core == c && e.line != line)).take (l1Lines - 1)
  { k with l1 := ⟨c, line, replica⟩ :: own ++ k.l1.filter (fun e => e.core != c),
           present := if k.present.contains line then k.present else line :: k.present }

/-- A scalar access through place p at va may use the L1: a PMA line that no stash serves (R322, R327). -/
def inL1 (s : State) (c : Nat) (t : Xlat) (va : Nat) (p : PAddr) : Bool :=
  p.cls == .pma && regionOf s p.pa == .dram && (stashFor s c t va p).isNone

/-- A scalar load: a miss fills the L1 with the line and sets its scalar-presence bit. -/
def scalarRead (s : State) (c x : Nat) (t : Xlat) (va n : Nat) : Res (Nat × State) :=
  (translate s t .load va).bind (fun p =>
    (loadAt (s.noted s t .load va) c x t va n p).bind (fun r =>
      .done (r.1, if inL1 s c t va p then { r.2 with copies := r.2.copies.fillL1 c (lineOf p.pa) (s.replicates c p) } else r.2)))

/-- A scalar store: performed at the home slice, it leaves every L1 without the line but the core's own, which it updates. -/
def scalarWrite (s : State) (c x : Nat) (t : Xlat) (va n v : Nat) : Res State :=
  (translate s t .store va).bind (fun p =>
    (storeAt (s.noted s t .store va) c x t va n v p).bind (fun u =>
      match s.copies.l1.find? (fun e => e.core == c && e.line == lineOf p.pa) with
      | some e => .done (if inL1 s c t va p then { u with copies := u.copies.fillL1 c e.line e.replica } else u)
      | none => .done u))

/-! ### Runs of 64-bit words -/

/-- A 64-bit word at any address, translated in u: one that runs into a second page is read in two parts. -/
def loadWordFrom (u s : State) (c x : Nat) (t : Xlat) (va : Nat) : Res (Nat × State) :=
  let k := 4096 - va % 4096
  if 8 ≤ k then loadFrom u s c x t va 8
  else (loadFrom u s c x t va k).bind (fun r =>
    (loadFrom u r.2 c x t (wrapAddr (va + k)) (8 - k)).bind (fun q => .done (r.1 + q.1 <<< (8 * k), q.2)))

def loadWordsFrom (u s : State) (c x : Nat) (t : Xlat) (va : Nat) : Nat → Res (List Word × State)
  | 0 => .done ([], s)
  | n + 1 =>
    (loadWordFrom u s c x t (wrapAddr va)).bind (fun r =>
      (loadWordsFrom u r.2 c x t (va + 8) n).bind (fun q => .done (BitVec.ofNat 64 r.1 :: q.1, q.2)))

def storeWordsFrom (u s : State) (c x : Nat) (t : Xlat) (va : Nat) : List Word → Res State
  | [] => .done s
  | w :: ws => (storeFrom u s c x t (wrapAddr va) 8 w.toNat).bind (fun s1 => storeWordsFrom u s1 c x t (va + 8) ws)

/-- Runs of words whose pages are translated once, before their accesses (R333). -/
def loadWords (s : State) (c x : Nat) (t : Xlat) (va n : Nat) : Res (List Word × State) := loadWordsFrom s s c x t va n
def storeWords (s : State) (c x : Nat) (t : Xlat) (va : Nat) (ws : List Word) : Res State := storeWordsFrom s s c x t va ws

/-- A number as n little-endian 64-bit words. -/
def toWords (v : Nat) : Nat → List Word
  | 0 => []
  | n + 1 => BitVec.ofNat 64 v :: toWords (v >>> 64) n

def ofWords : List Word → Nat
  | [] => 0
  | w :: ws => w.toNat + (ofWords ws) <<< 64

/-- The word at index i of a list of words. -/
def wordAt (l : List Word) (i : Nat) : Word := l.getD i 0

end Sys2Proof.Machine
end

