-- ==== Sys2Proof/Machine/VConf.lean ====
section
/-! DEFINITION. The vector configuration: vtype's fields and legality (R27, R43), VLMAX (R27), element positions (R28), the
length grant's inputs (R34) and zeroing above a length. -/
namespace Sys2Proof.Machine

def DevCsr.vill (d : DevCsr) : Bool := d.vtype.getLsbD 63
def DevCsr.ewCode (d : DevCsr) : Nat := d.vtype.toNat % 16
def DevCsr.grp (d : DevCsr) : Nat := 1 <<< (d.vtype.toNat / 16 % 4)
def DevCsr.ta (d : DevCsr) : Bool := d.vtype.getLsbD 6
def DevCsr.ma (d : DevCsr) : Bool := d.vtype.getLsbD 7
def DevCsr.k (d : DevCsr) : Nat := d.vtype.toNat / 256 % 8
def DevCsr.tag (d : DevCsr) : Nat := d.vtype.toNat / 2048 % 8

/-- Bits of an element of a width code; k is the long-float window (R27). -/
def ewBits (code k : Nat) : Nat :=
  match code with
  | 0 => 4 | 1 => 8 | 2 => 16 | 3 => 32 | 4 => 64 | _ => 64 * (k + 1)

def DevCsr.ew (d : DevCsr) : Nat := ewBits d.ewCode d.k
def DevCsr.isLf (d : DevCsr) : Bool := d.ewCode == 5

/-- The tags Table 01-5 lists for a width code. -/
def tagListed (code tag : Nat) : Bool :=
  match code with
  | 0 => tag ≤ 1 | 1 => tag ≤ 2 | 2 => tag ≤ 2 | 3 => tag ≤ 1 | 4 => tag ≤ 1 | 5 => tag == 0 | _ => false

/-- The low 14 bits name a legal combination (R43). -/
def vtypeLegal (v : Nat) : Bool :=
  let code := v % 16
  tagListed code (v / 2048 % 8) && (code == 5 || v / 256 % 8 == 0)

/-- Elements per 512-bit slice-group (R27). -/
def perSlice (g ew : Nat) : Nat := g * 512 / ew

/-- VLMAX at a length (R27). -/
def vlmaxAt (len g ew : Nat) : Nat := len / 512 * perSlice g ew

def Ctx.vlmax (t : Ctx) : Nat := vlmaxAt t.vlen t.dev.grp t.dev.ew

def villValue : Word := 0x8000000000000000

/-- A write of vtype (R43): bits [62:14] and [63] of the value are ignored (R103). -/
def Ctx.writeVtype (t : Ctx) (v : Nat) : Ctx :=
  let low := v % 16384
  if vtypeLegal low then
    let d := { t.dev with vtype := BitVec.ofNat 64 low }
    let t1 := { t with dev := d }
    { t1 with dev := { d with vgrant := BitVec.ofNat 16 (min d.vgrant.toNat t1.vlmax) } }
  else { t with dev := { t.dev with vtype := villValue, vgrant := 0 } }

/-- Bit position of element i of a group: the register offset and the bit within it (R28). The group is held as one number
whose register j stands at bit j × VLEN. -/
def elemPos (vlen g ew : Nat) (lf : Bool) (i : Nat) : List (Nat × Nat) :=
  if lf then
    -- slice j, bit offset within the G × 512-bit field; the element may run over several registers' slices
    let per := perSlice g ew
    let j := i / per
    let off := i % per * ew
    (List.range (ew / 64)).map (fun w =>
      let b := off + 64 * w
      (b / 512 * vlen + 512 * j + b % 512, 64))
  else [(i * ew, ew)]

/-- Reads bits at the positions, the first position lowest. -/
def readAt (v : Nat) : List (Nat × Nat) → Nat
  | [] => 0
  | (p, n) :: ps => lowBits (v >>> p) n + (readAt v ps) <<< n

/-- Replaces n bits at position p. -/
def setBits (v p n w : Nat) : Nat :=
  v / (1 <<< (p + n)) * (1 <<< (p + n)) + lowBits w n * (1 <<< p) + v % (1 <<< p)

def writeAt (v : Nat) (w : Nat) : List (Nat × Nat) → Nat
  | [] => v
  | (p, n) :: ps => writeAt (setBits v p n w) (w >>> n) ps

/-- ReadElem and WriteElem (R32) on a group's number. -/
def readElem (vlen g ew : Nat) (lf : Bool) (v i : Nat) : Nat := readAt v (elemPos vlen g ew lf i)
def writeElem (vlen g ew : Nat) (lf : Bool) (v i w : Nat) : Nat := writeAt v w (elemPos vlen g ew lf i)

/-- Zero(EW) (R31): for long floats a head whose bits [62:60] are vtype.k and zero limbs. -/
def zeroElem (lf : Bool) (k : Nat) : Nat := if lf then k * (1 <<< 60) else 0

/-! ### Length inputs (R34) -/

def capBits (c : BitVec 4) : Nat := 512 <<< (min c.toNat 4)

/-- Clusters that a reclaim class leaves (R34). -/
def reclClusters (c : BitVec 2) : Nat := match c.toNat with | 1 => 1 | 2 => 2 | _ => 4

/-- L_rcl: the reclaim cap of a hart when a reclaim is pending, else its hardware length. -/
def State.lRcl (s : State) (c x : Nat) : Nat :=
  let t := s.thr c x
  if t.dev.reclPend then min (s.hwLen c x) (512 * reclClusters t.dev.reclClass * (s.slicesOf c x).length)
  else s.hwLen c x

/-- The length a vstrip grants (R34): keep ignores the reclaim cap. A gang uses its leader's L_pwr (R305). -/
def State.stripLen (s : State) (c x : Nat) (keep : Bool) : Nat :=
  let l := min (s.hwLen c x) (min (capBits (s.thr c x).dev.vcap) (s.core c).lpwr)
  if keep then l else min l (s.lRcl c x)

/-- Advance of a pointer slot (R34). DESIGN CHOICE (log 36): codes 6 and 7, which vstrip refuses, move at Truncate as code 5. -/
def advance (size k g : Nat) : Nat :=
  match size with
  | 0 => g | 1 => g * 2 | 2 => g * 4 | 3 => g * 8 | 4 => g * 8 * (k + 1) | _ => (g + 1) / 2

def slotReg (pm : BitVec 32) (i : Nat) : Reg := BitVec.ofNat 5 (pm.toNat / (1 <<< (8 * i)))
def slotSize (pm : BitVec 32) (i : Nat) : Nat := pm.toNat / (1 <<< (8 * i + 5)) % 8

def slotOn (pm : BitVec 32) (i : Nat) : Bool := slotReg pm i != 0

def nibbleSlot (pm : BitVec 32) : Bool := (List.range 4).any (fun i => slotOn pm i && slotSize pm i == 5)
def badSlot (pm : BitVec 32) : Bool := (List.range 4).any (fun i => slotOn pm i && slotSize pm i ≥ 6)

/-- The grant for want elements (R34). -/
def grantFor (want nmax : Nat) (nibble : Bool) : Nat :=
  let g := min want nmax
  if nibble && want ≥ 2 && g % 2 == 1 then g - 1 else g

/-- A register's hardware value with bits len … VLEN−1 zero (ZeroAbove, R34). -/
def clearRange (v len vlen : Nat) : Nat :=
  if len < vlen then v / (1 <<< vlen) * (1 <<< vlen) + lowBits v len else v

def zeroAboveRegs (s : State) (len : Nat) : Nat → State
  | 0 => s
  | n + 1 =>
    let s1 := zeroAboveRegs s len n
    scatterV s1 s1.cur.2 n s1.hart.ownBits (clearRange (s1.rawV s1.cur.1 s1.cur.2 n) len s1.hart.vlen)
      (s1.slicesOf s1.cur.1 s1.cur.2)

def Chunk.below (c : Chunk) (len : Nat) : Chunk := { c with data := lowBits c.data len }

/-- ZeroAbove(len): every register, every staged chunk, and what loads in flight have yet to land (R34, R35). -/
def zeroAbove (s : State) (len : Nat) : State :=
  (zeroAboveRegs s len 32).modHart (fun t =>
    { t with binds := t.binds.map (fun b => { b with staged := b.staged.map (fun c => c.below len) }),
             landing := t.landing.map (fun l =>
               { l with val := (List.range l.count).foldl
                          (fun a j => a + lowBits (l.val >>> (j * l.vlen)) (min len l.vlen) * (1 <<< (j * l.vlen))) 0 }) })

end Sys2Proof.Machine
end

