-- ==== Sys2Proof/Machine/Ops.lean ====
section
/-! DEFINITION. Shared operations of the machine: how an instruction ends (next, jump, trap, unready), the loop buffer's
advance, saving a task, taking an exception and an interrupt (R210 to R213, R311, R312), returning from one (R215, R445),
and freeing a context. -/
namespace Sys2Proof.Machine

/-! ### Node status (Table 07-4) -/

def NodeSt.code : NodeSt → Nat
  | .free => 0 | .waiting => 1 | .running => 2 | .faulted => 3 | .stalled => 4

def Node.statusWord (n : Node) : Word :=
  BitVec.ofNat 64 (n.progress % (1 <<< 40) * (1 <<< 24) + n.kind % 256 * 65536 + n.status % 256 * 256 + n.st.code)

/-! ### Bindings: what is in flight -/

/-- A refill or a landing of the thread is in flight (R125). -/
def Ctx.busyVector (t : Ctx) : Bool :=
  !t.landing.isEmpty || t.binds.any (fun b => b.refill.isSome)

/-! ### The vector context block (Table 04-6, R124) -/

def lcodeOf (len : Nat) : Nat := match len with | 512 => 0 | 1024 => 1 | 2048 => 2 | 4096 => 3 | _ => 4

/-- A nest as the 240-bit number of its image (R99). -/
def Nest.bits (n : Nest) : Nat :=
  (List.range 6).foldl (fun a d => a + n.counts.getD d 1 % 65536 * (1 <<< (16 * d))) 0 +
  (List.range 6).foldl (fun a d => a + (n.strides.getD d 0 % 16777216).toNat * (1 <<< (96 + 24 * d))) 0

def sext24 (v : Nat) : Int := if v % 16777216 < 8388608 then v % 16777216 else (v % 16777216 : Int) - 16777216

def Nest.ofBits (v : Nat) : Nest :=
  { counts := (List.range 6).map (fun d => v / (1 <<< (16 * d)) % 65536),
    strides := (List.range 6).map (fun d => sext24 (v / (1 <<< (96 + 24 * d)))) }

def vprecWord (d : DevCsr) : Word :=
  let p := d.vprecP.toNat
  let w := if p ≤ 32 then 0 else (p - 32 + 63) / 64
  BitVec.ofNat 64 (w * 8192 + d.vprecX.toNat * 4096 + d.vprecRm.toNat * 512 + p)

/-- P after a write of the field: below 8 stores 8, above 480 stores 480 (Table 01-8). -/
def clampP (p : Nat) : BitVec 9 := BitVec.ofNat 9 (max 8 (min 480 (p % 512)))

def DevCsr.writeVprec (d : DevCsr) (v : Nat) : DevCsr :=
  { d with vprecP := clampP v, vprecRm := BitVec.ofNat 3 (v / 512), vprecX := bitOf v 12 }

def rsvcapOf (v : Nat) : BitVec 16 := if v % 65536 = 0 then 1 else BitVec.ofNat 16 v

def boundMask (t : Ctx) : Nat := t.binds.foldl (fun a b => a ||| (1 <<< (b.reg % 32))) 0
def endMask (t : Ctx) : Nat := t.binds.foldl (fun a b => if b.ended then a ||| (1 <<< (b.reg % 32)) else a) 0

/-- A binding's 64-byte record, saved on a core, and its staged chunks of B bytes. -/
def Binding.record (b : Binding) (core len : Nat) : List Word :=
  let pn := (Config.packNest b.nest.bits).toNat
  let lens := (List.range 4).foldl (fun a i => a + (b.staged.getD i ⟨0, 0⟩).len % 65536 * (1 <<< (16 * i))) 0
  [b.word0, b.word1, BitVec.ofNat 64 pn, BitVec.ofNat 64 (pn >>> 64),
   BitVec.ofNat 64 (b.reg % 32 + b.ended.toNat * 256 + core * 65536), BitVec.ofNat 64 b.pos,
   BitVec.ofNat 64 b.staged.length, BitVec.ofNat 64 lens] ++
  (b.staged.map (fun c => toWords c.data (len / 64))).flatten

/-- The words of the vector context block of hart (c, x). -/
def blockWords (s : State) (c x : Nat) : List Word :=
  let t := s.thr c x
  let d := t.dev
  let len := t.vlen
  let regs := ((List.range 32).map (fun r => toWords (lowBits (s.rawV c x r) len) (len / 64))).flatten
  let binds := (t.binds.map (fun b => b.record c len)).flatten
  let bytes := 128 + 8 * regs.length + 8 * binds.length
  [BitVec.ofNat 64 (bytes + lcodeOf len * (1 <<< 32) + 1 * (1 <<< 40) + t.binds.length * (1 <<< 48)),
   d.vtype, BitVec.ofNat 64 (d.vgrant.toNat + d.vstart.toNat * 65536), vprecWord d, BitVec.ofNat 64 d.vfcsr.toNat, d.vfill,
   BitVec.ofNat 64 d.ptrmap.toNat, BitVec.ofNat 64 d.vetrap.toNat, BitVec.ofNat 64 (d.vdsl.toNat + d.rsvcap.toNat * 65536),
   BitVec.ofNat 64 (t.full.toNat + boundMask t * (1 <<< 32)),
   (if t.loop.active then
      BitVec.ofNat 64 ((t.loop.base.toNat + 4) % (1 <<< 48) + (t.loop.len - 1) % 16 * (1 <<< 48) +
        t.loop.nestReg % 32 * (1 <<< 52) + 1 * (1 <<< 63))
    else 0),
   (if t.loop.active then BitVec.ofNat 64 t.loop.iter else 0), 0, 0, 0, 0] ++ regs ++ binds

/-- Remembers what the binding records of a block stored at a virtual address have no place for (log 16). -/
def rememberNests (s : State) (t : Xlat) (len iter : Nat) : Nat → List Binding → State
  | _, [] => s
  | va, b :: bs =>
    let s1 := match translate s t .load va with
      | .done p => { s with nestSaves := s.nestSaves.put p.pa ⟨b.nest, b.iterPos == some iter⟩ }
      | _ => s
    rememberNests s1 t len iter (va + 64 + b.staged.length * (len / 8)) bs

/-- Stores the block of hart (c, x) at va. -/
def storeBlock (s : State) (c x : Nat) (t : Xlat) (va : Nat) : Res State :=
  (storeWords s c x t va (blockWords s c x)).bind (fun s1 =>
    let h := s1.thr c x
    .done (rememberNests s1 t h.vlen h.loop.iter (va + 128 + 32 * (h.vlen / 8)) h.binds))

/-! ### Saving a task (Table 11-6) -/

/-- Class code of a hart: 0 C1, 1 C2, 2 C4. -/
def Ctx.classCode (t : Ctx) : Nat := match t.cls with | 1 => 0 | 2 => 1 | _ => 2

/-- A record's word 4 with the class replaced. -/
def withClass (w : Word) (code : Nat) : Word :=
  BitVec.ofNat 64 (w.toNat / 256 * 256 + code * 64 + w.toNat % 64)

/-- The record of the running task with the class at this moment. -/
def Ctx.recordNow (t : Ctx) (r : TaskRec) : TaskRec :=
  { r with words := r.words.set 4 (withClass (wordAt r.words 4) t.classCode) }

/-- A command of hart (c, x) is in flight on its core. -/
def commandsInFlight (s : State) (c x : Nat) : Bool :=
  let t := s.thr c x
  (s.core c).nodes.any (fun e => e.2.inFlight && t.batchOpen.any (fun l => l.contains e.2.serial))

/-- The pending record of a task saved from hart (c, x) (R220, R302, R310, R444). -/
def pendingRec (s : State) (c x : Nat) (r : TaskRec) (area : Nat) (hook : Bool) : TaskRec :=
  let t := s.thr c x
  { t.recordNow r with
    since := s.now, area := area, saved := true, savedLen := t.vlen, hook := hook,
    onlyCore := if t.binds.any Binding.isChannel || commandsInFlight s c x then some c else none,
    batches := t.batchOpen, closed := t.batchSet }

/-- Offsets 320 to 383 of the save area: format shadows, identifier, handle. -/
def shadowWords (t : Ctx) (r : TaskRec) : List Word :=
  let d := t.dev
  [BitVec.ofNat 64 d.fmta.toNat, BitVec.ofNat 64 d.fmtb.toNat, BitVec.ofNat 64 d.fmtc.toNat, d.sclpa, d.sclpb, d.wid,
   BitVec.ofNat 64 d.wfld.toNat, BitVec.ofNat 64 r.handle]

def xWords (t : Ctx) : List Word := (List.range 31).map (fun i => t.getX (BitVec.ofNat 5 (i + 1)))

/-- The address space's translation for the device's own accesses for a task (R310). -/
def taskXlat (s : State) (r : TaskRec) : Xlat :=
  match s.aspace r.asid with
  | some a => userXlat a.satp
  | none => userXlat (BitVec.ofNat 64 (r.asid * (1 <<< 44)))

/-- Saves the whole context of hart (c, x) into the area (Table 11-6) with a resume pc. -/
def saveTask (s : State) (c x : Nat) (r : TaskRec) (area : Nat) (pc : Word) : Res State :=
  let t := s.thr c x
  let xl := taskXlat s r
  (storeWords s c x xl area ((t.recordNow r).words ++ [pc] ++ xWords t ++ shadowWords t r)).bind (fun s1 =>
    storeBlock s1 c x xl (area + 512))

/-! ### Deques (R218, R296) -/

def dequeRoom (s : State) (c : Nat) : Bool :=
  decide ((s.core c).deque.length + (s.core c).overflow.length < 64 + (s.die (dieOf c)).overflowCap)

/-- A record enters at the bottom: the topmost of 64 entries first moves to the overflow's bottom end. -/
def pushBottom (s : State) (c : Nat) (r : TaskRec) : State :=
  s.modCore c (fun k =>
    match k.deque with
    | top :: rest =>
      if k.deque.length ≥ 64 then { k with overflow := k.overflow ++ [top], deque := rest ++ [r] }
      else { k with deque := k.deque ++ [r] }
    | [] => { k with deque := [r] })

/-- A record enters at the top of the sequence. -/
def pushTop (s : State) (c : Nat) (r : TaskRec) : State :=
  s.modCore c (fun k =>
    if k.overflow.isEmpty ∧ k.deque.length < 64 then { k with deque := r :: k.deque }
    else { k with overflow := r :: k.overflow })

/-- The event is a choice of a record for a context. -/
def isDispatch (c x : Nat) : Event → Bool
  | .dispatch d y => d == c && y == x
  | _ => false

/-- The event is the first attempt of a steal round of a core. -/
def isSteal (c : Nat) : Event → Bool
  | .stealAttempt d 0 => d == c
  | _ => false

/-- A record may be stolen by a core of a column class: its column class is that class, or it is a launch request, whose word 4
carries none (R268, R299). -/
def stealableBy (r : TaskRec) (cls : Nat) : Bool :=
  (wordAt r.words 4).getLsbD 13 || (wordAt r.words 4).toNat / 256 % 4 == cls

/-- A core's deque from top to bottom, and its bottom 64 entries (R296). -/
def Core.sequence (k : Core) : List TaskRec := k.overflow ++ k.deque
def Core.bottom (k : Core) : List TaskRec := k.sequence.drop (k.sequence.length - 64)

/-- A core that looks for records in other deques: up, with an empty context, no candidate in its deque (R298, R299), and no round or
wait under way (R301). -/
def State.idle (s : State) (t : Nat) : Bool :=
  let k := s.core t
  s.coreUp t && !k.bottom.any (fun r => stealableBy r (classOf t)) && !k.steal.pending && k.steal.backoff.isNone &&
    (List.range 8).any (fun x => (k.ctx x).status == .empty)

/-- Idle cores that may take one of the records of core c start a steal round; while no deque holds a record for them their rounds
find nothing and are left out (log 4). -/
def alertThieves (s : State) (c : Nat) : State :=
  let k := s.core c
  let recs := k.overflow ++ k.deque
  if recs.isEmpty then s
  else
    let ts := (List.range 384).filter (fun t => t != c && recs.any (fun r => stealableBy r (classOf t)) && s.idle t &&
      !s.agenda.any (isSteal t))
    { s with agenda := s.agenda ++ ts.map (fun t => .stealAttempt t 0) }

/-- A core with an empty context looks for work (R298): its dispatch is an event of free latency (R473). -/
def wakeCore (s : State) (c : Nat) : State :=
  alertThieves ((List.range 8).foldl (fun t x =>
    if (t.thr c x).status = .empty ∧ !t.agenda.any (isDispatch c x) then t.later (.dispatch c x) else t) s) c

/-- A record has entered the core's deque or a context has freed: a back-off ends and the core chooses again (R301). -/
def rouseCore (s : State) (c : Nat) : State :=
  wakeCore (s.modCore c (fun k => { k with steal := { k.steal with backoff := none } })) c

/-! ### Gang blocks (R241) -/

/-- The aligned block of a core for a shape: leader first, row-major. -/
def gangBlock (core shape : Nat) : List Nat :=
  let d := dieOf core
  let r := rowOf core
  let c := 2 * (colOf core / 2)
  if shape = 1 then [coreAt d r c, coreAt d r (c + 1)]
  else
    let q := 2 * (r / 2)
    [coreAt d q c, coreAt d q (c + 1), coreAt d (q + 1) c, coreAt d (q + 1) (c + 1)]

/-- The core's deque, or a record queue of its die, holds a gang record. -/
def gangWaits (s : State) (l : Nat) : Bool :=
  let gang := fun (r : TaskRec) => (wordAt r.words 4).toNat / 2048 % 4 != 0
  (s.core l).deque.any gang || (s.core l).overflow.any gang ||
    s.queues.any (fun e => e.2.records && e.1 % 4 == dieOf l && e.2.items.any (fun i => gang i.task))

/-- Leaders of the blocks of a core look again for a gang record (R300). -/
def wakeLeaders (s : State) (c : Nat) : State :=
  (([1, 2].map (fun sh => (gangBlock c sh).headD c)).filter (fun l => l != c && s.coreUp l && gangWaits s l)).foldl wakeCore s

/-! ### Freeing a context (R219, R220, R279, R308) -/

/-- An emptied context has no task, gang, binding, loop buffer, reservation, batch or interrupt 16 or 17, and waits for nothing; its
registers stand until the next dispatch resets them (R42, R272, R308). -/
def Ctx.emptied (t : Ctx) : Ctx :=
  let e : Ctx := {}
  { e with pc := t.pc, x := t.x, v := t.v, full := t.full, vlen := t.vlen, cls := t.cls, clusters := t.clusters, dev := t.dev,
           reclSince := t.reclSince, reentry := t.reentry, ended := t.ended,
           std := { t.std with mip := t.std.mip &&& ~~~(0x30000#64) } }

/-- Ends a gate claim of the context (R304). -/
def dropClaim (s : State) (c x : Nat) : State :=
  s.modCore c (fun k => { k with gate := { k.gate with claim :=
    match k.gate.claim with
    | some (y, n) => if y = x then none else some (y, n)
    | none => none } })

/-- Frees the context of hart (c, x): it is empty, its clusters are free, and the core chooses again. -/
def freeContext (s : State) (c x : Nat) : State :=
  let s1 := dropClaim s c x
  let s2 := (s1.modThr c x Ctx.emptied).modCore c (fun k => { k with portBusy := k.portBusy.filter (fun p => !(p.1 == c && p.2.1 == x)) })
  wakeLeaders (rouseCore s2 c) c

/-! ### Fault records and handler tasks (R311, R312, Tables 11-6, 11-7) -/

def faultWords (s : State) (c x : Nat) (r : TaskRec) (area : Nat) (e : Exc) (epc : Word) (atDispatch : Bool) : List Word :=
  let w0 := atDispatch.toNat * (1 <<< 35) + x * (1 <<< 32) + c * 65536 + e.cause
  let cause : List Word :=
    if e.cause = 25 then (List.range 4).map (fun i => BitVec.ofNat 64 (e.words.getD i 0))
    else if e.cause = 28 ∨ e.cause = 49 then
      [BitVec.ofNat 64 e.tval, (s.node c (e.tval % 128)).statusWord, 0, 0]
    else [BitVec.ofNat 64 e.tval, 0, 0, 0]
  [BitVec.ofNat 64 w0, BitVec.ofNat 64 r.handle, epc, BitVec.ofNat 64 (area + 512)] ++ cause

/-- The handler task's record (R312): priority and column class of the faulted record, class C1. -/
def handlerRec (s : State) (r : TaskRec) (area : Nat) : TaskRec :=
  let w4 := (wordAt r.words 4).toNat
  { words := [wordAt r.words 7, BitVec.ofNat 64 (area + 448), wordAt r.words 2, 0,
              BitVec.ofNat 64 (w4 % 64 + w4 / 256 % 4 * 256), 0, 0, 0],
    asid := r.asid, sup := false, since := s.now }

/-- Marks the task of hart (c, x) faulted, frees its context and spawns its handler at the bottom of the deque. -/
def faultTask (s : State) (c x : Nat) (r : TaskRec) (area : Nat) : State :=
  let h := handlerRec s r area
  let p := pendingRec s c x r area false
  let s1 := { s with faulted := s.faulted ++ [{ task := p, core := c }] }
  rouseCore (pushBottom (freeContext s1 c x) c h) c

/-- The causes that are redirected to a task's fault handler (R311). -/
def redirected (cause : Nat) : Bool :=
  cause == 0 || cause == 2 || (4 ≤ cause && cause ≤ 7) || (24 ≤ cause && cause ≤ 30) || cause == 46 || cause == 49 || cause == 50

/-- Redirection of an exception of hart (c, x) (R311): none where it fails and the exception traps instead. -/
def redirect (s : State) (c x : Nat) (r : TaskRec) (e : Exc) (epc : Word) (atDispatch : Bool) : Res (Option State) :=
  let a := allocArea s c x
  if a.1 = 0 ∨ !dequeRoom s c then .done none
  else if (s.thr c x).busyVector then .wait
  else
    let go := (saveTask a.2 c x r a.1 epc).bind (fun s1 =>
      storeWords s1 c x (taskXlat s1 r) (a.1 + 448) (faultWords s1 c x r a.1 e epc atDispatch))
    match go with
    | .done s2 => .done (some (faultTask s2 c x { r with area := a.1 } a.1))
    | .trap _ => .done none
    | .wait => .wait

/-! ### Taking an exception or an interrupt (R73, R211, R213) -/

/-- Whether a word is a custom-0, custom-1 or custom-2 instruction, whose synchronous exceptions are vector traps (R213). -/
def isVectorWord (w : BitVec 32) : Bool :=
  let o := w.toNat % 128
  o == 0x0B || o == 0x2B || o == 0x5B

/-- The handler bank at entry into a handler for a vector trap (R213). -/
def DevCsr.bankTrap (d : DevCsr) : DevCsr :=
  { d with hvtype := d.vtype, hvgrant := d.vgrant.zeroExtend 64, hvstart := d.vstart.zeroExtend 64,
           hvLost := d.hvLost || d.hvValid, hvValid := true }

/-- What any trap does to the thread's transient state: the reservation is lost (R346), the loop buffer is suspended (R123),
and a waiting barrier, gang join or margin request is given up. -/
def Ctx.leaveInstr (t : Ctx) : Ctx :=
  { t with resv := none, loop := { t.loop with suspended := t.loop.active }, rc := 0, barWait := none, mgnWait := false,
           joining := none, wfi := false, charged := false, replayAt := none, midway := false, raised := none, ended := t.ended + 1 }

def privCode : Priv → Nat
  | .U => 0 | .S => 1 | .M => 3

def privOf (n : Nat) : Priv := match n % 4 with | 0 => .U | 1 => .S | _ => .M

def putBit (w : Word) (i : Nat) (b : Bool) : Word :=
  if b then w ||| (1 <<< i) else w &&& ~~~(1#64 <<< i)

/-- A field of two bits of mstatus. -/
def putMpp (w : Word) (p : Priv) : Word :=
  BitVec.ofNat 64 (w.toNat / 8192 * 8192 + privCode p * 2048 + w.toNat % 2048)

/-- Entry into the machine handler: mepc, mcause, mtval, the mstatus stack and the pc. -/
def StdCsr.enterM (d : StdCsr) (cause tval epc : Word) (from' : Priv) : StdCsr :=
  let ms := putBit (putBit d.mstatus 7 (d.mstatus.getLsbD 3)) 3 false
  { d with mepc := epc, mcause := cause, mtval := tval, mstatus := putMpp ms from' }

/-- Entry into the supervisor handler. -/
def StdCsr.enterS (d : StdCsr) (cause tval epc : Word) (from' : Priv) : StdCsr :=
  let ms := putBit (putBit d.mstatus 5 (d.mstatus.getLsbD 1)) 1 false
  { d with sepc := epc, scause := cause, stval := tval, mstatus := putBit ms 8 (from' != .U) }

/-- The handler's address: the base of a trap-vector register; vectored mode adds four times an interrupt's number. -/
def vectorPc (tvec : Word) (cause : Nat) (interrupt : Bool) : Word :=
  let base := tvec.toNat / 4 * 4
  BitVec.ofNat 64 (if interrupt && tvec.toNat % 4 == 1 then base + 4 * cause else base)

/-- Entry into a handler at machine or supervisor privilege. -/
def Ctx.enter (t : Ctx) (toM interrupt : Bool) (cause : Nat) (tval epc : Word) : Ctx :=
  let code := BitVec.ofNat 64 (cause + if interrupt then 1 <<< 63 else 0)
  if toM then
    { t with std := t.std.enterM code tval epc t.priv, priv := .M, pc := vectorPc t.std.mtvec cause interrupt }
  else
    { t with std := t.std.enterS code tval epc t.priv, priv := .S, pc := vectorPc t.std.stvec cause interrupt }

/-- An exception is taken in machine mode unless it is raised below it and delegated (R211); cause 48 always is. -/
def Ctx.excToM (t : Ctx) (cause : Nat) : Bool :=
  cause == 48 || t.priv == .M || !t.std.medeleg.getLsbD cause

/-- The page of uncorrectable data that an access met is queued for retirement (R337). -/
def retireFor (s : State) (e : Exc) : State :=
  match e.retire with
  | some p => s.retirePage p
  | none => s

/-- The exception traps in its own context: the page of uncorrectable data is queued (R337), the handler bank is filled for
a vector trap (R213), and the handler is entered. -/
def trapHere (s : State) (e : Exc) (epc : Word) : State :=
  let s1 := retireFor s e
  (dropClaim s1 s1.cur.1 s1.cur.2).modHart (fun t =>
    let t0 := if e.cause = 25 then { t with lastPrec := e.words } else t
    let t1 := if isVectorWord s.fetched then { t0 with dev := t0.dev.bankTrap } else t0
    t1.leaveInstr.enter (t.excToM e.cause) false e.cause (BitVec.ofNat 64 e.tval) epc)

/-- The exception of hart (c, x) waits for its redirection (R311); its gate claim ends (R304). -/
def holdRaised (s : State) (c x : Nat) (q : Raised) : State :=
  (dropClaim s c x).modThr c x (fun t => { t with raised := some q })

/-- Taking an exception raised by the instruction at epc: redirected to the task's fault handler where R311 says so, else
trapped. While a redirection waits, the exception stands. -/
def takeExceptionAt (s : State) (e : Exc) (epc : Word) : State :=
  let t := s.hart
  match t.task with
  | some r =>
    if t.priv = .U ∧ (wordAt r.words 7).toNat % (1 <<< 48) ≠ 0 ∧ redirected e.cause then
      match redirect s s.cur.1 s.cur.2 r e epc false with
      | .done (some s1) => retireFor s1 e
      | .done none => trapHere s e epc
      | _ => holdRaised s s.cur.1 s.cur.2 ⟨e, epc, s.fetched, false⟩
    else trapHere s e epc
  | none => trapHere s e epc

/-- The context enters the supervisor trap handler at a pc as from user privilege (R471). -/
def faultIntoSupervisor (s : State) (c x : Nat) (e : Exc) (epc : Word) : State :=
  (retireFor s e).modThr c x (fun t => { t.enter false false e.cause (BitVec.ofNat 64 e.tval) epc with raised := none })

/-- A fault at the first dispatch of a record to hart (c, x) (R471): redirected to the record's handler, else into the supervisor. -/
def dispatchFault (s : State) (c x : Nat) (r : TaskRec) (e : Exc) : State :=
  let epc := (s.thr c x).pc
  if (wordAt r.words 7).toNat % (1 <<< 48) ≠ 0 then
    match redirect s c x r e epc true with
    | .done (some s1) => retireFor s1 e
    | .wait => holdRaised s c x ⟨e, epc, 0, true⟩
    | _ => faultIntoSupervisor s c x e epc
  else faultIntoSupervisor s c x e epc

/-- A redirection that waited is tried again in the context's own cycle. -/
def retryRaised (s : State) (q : Raised) : State :=
  match q.dispatch, s.hart.task with
  | true, some r => dispatchFault s s.cur.1 s.cur.2 r q.exc
  | _, _ => takeExceptionAt { s with fetched := q.word } q.exc q.epc

/-- Taking an exception at the current pc. -/
def takeException (s : State) (e : Exc) : State := takeExceptionAt s e s.hart.pc

/-- Taking an interrupt between instructions. -/
def takeInterrupt (s : State) (cause : Nat) (toM : Bool) : State :=
  (dropClaim s s.cur.1 s.cur.2).modHart (fun t => t.leaveInstr.enter toM true cause 0 t.pc)

/-! ### Returning from an exception (R73, R215) -/

/-- R215: a valid handler bank is restored. -/
def Ctx.restoreBank (t : Ctx) : Ctx :=
  if !t.dev.hvValid then t
  else
    let bad := t.dev.hvtype.getLsbD 63 || !vtypeLegal (t.dev.hvtype.toNat % 16384)
    let t1 :=
      if bad then { t with dev := { t.dev with vtype := villValue, vgrant := 0 } }
      else
        let t2 := { t with dev := { t.dev with vtype := BitVec.ofNat 64 (t.dev.hvtype.toNat % 16384) } }
        { t2 with dev := { t2.dev with vgrant := BitVec.ofNat 16 (min (t.dev.hvgrant.toNat % 65536) t2.vlmax) } }
    { t1 with dev := { t1.dev with vstart := BitVec.ofNat 16 t.dev.hvstart.toNat, hvValid := false } }

/-- The pc at which the loop buffer goes on (R123). -/
def Loop.expectPc (l : Loop) : Word := l.base + BitVec.ofNat 64 (4 + 4 * l.pos)

/-- The body position an address names, for a buffer restored from a context block, whose header does not hold it (R124). -/
def Loop.posAt (l : Loop) (pc : Word) : Option Nat :=
  (List.range l.len).find? (fun p => pc == l.base + BitVec.ofNat 64 (4 + 4 * p))

/-- A return to the address of the suspended body instruction resumes the replay; any other deactivates it (R123). A restored
buffer, whose position stands past its body, resumes at the position the address names. -/
def Loop.returnTo (l : Loop) (pc : Word) : Loop :=
  if l.active && l.suspended then
    match (if l.pos < l.len then (if pc == l.expectPc then some l.pos else none) else l.posAt pc) with
    | some p => { l with suspended := false, pos := p }
    | none => { l with active := false, suspended := false }
  else l

/-- mret (machine privilege): restore the bank, the mode and the interrupt enable. -/
def Ctx.mret (t : Ctx) : Ctx :=
  let t1 := t.restoreBank
  let ms := t1.std.mstatus
  let p := privOf (ms.toNat / 2048)
  let ms1 := putMpp (putBit (putBit ms 3 (ms.getLsbD 7)) 7 true) .U
  let ms2 := if p == .M then ms1 else putBit ms1 17 false
  { t1 with std := { t1.std with mstatus := ms2 }, priv := p, pc := t1.std.mepc, loop := t1.loop.returnTo t1.std.mepc, rc := 0 }

/-- sret. -/
def Ctx.sret (t : Ctx) : Ctx :=
  let t1 := t.restoreBank
  let ms := t1.std.mstatus
  let p : Priv := if ms.getLsbD 8 then .S else .U
  let ms1 := putBit (putBit (putBit ms 1 (ms.getLsbD 5)) 5 true) 8 false
  { t1 with std := { t1.std with mstatus := putBit ms1 17 false }, priv := p, pc := t1.std.sepc,
            loop := t1.loop.returnTo t1.std.sepc, rc := 0 }

/-! ### How an instruction ends -/

/-- What the body of an instruction comes to. -/
inductive Body where
  | next (s : State)                    -- its effect, then the following instruction
  | jump (s : State) (pc : Word)        -- its effect, then the instruction at pc
  | stay (s : State)                    -- its effect, which sets the pc itself or leaves the context
  | trap (e : Exc) (s : State)          -- an exception, with the state it leaves
  | wait (s : State)                    -- unready: tried again in the next own cycle (R38)
  deriving DecidableEq, Repr

def Res.body {α : Type} (r : Res α) (s : State) (f : α → Body) : Body :=
  match r with
  | .done a => f a
  | .trap e => .trap e s
  | .wait => .wait s

def illegal (s : State) : Body :=
  .trap { cause := 2, tval := if s.fetched.toNat % 4 = 3 then s.fetched.toNat else s.fetched.toNat % 65536 } s

/-- Elements of the i0 row (R122). -/
def Loop.rows (l : Loop) : Nat := (List.range 5).foldl (fun a d => a * l.counts.getD (d + 1) 1) 1

/-- The loop buffer after its instruction at the current position has completed (R122). -/
def Loop.advance (l : Loop) (vgrant : Nat) : Loop :=
  if !(l.active && !l.suspended) then l
  else if l.pos + 1 < l.len then { l with pos := l.pos + 1 }
  else
    let j := l.j0 + vgrant
    if j < l.counts.getD 0 1 ∧ vgrant ≠ 0 then { l with pos := 0, j0 := j, iter := l.iter + 1 }
    else if l.row + 1 < l.rows then { l with pos := 0, j0 := 0, row := l.row + 1, iter := l.iter + 1 }
    else { l with active := false, iter := l.iter + 1 }

/-- The counts of a completed instruction: instret (unless inhibited), and no replays. -/
def Ctx.retired (t : Ctx) : Ctx :=
  { t with std := { t.std with instret := if t.std.mcountinhibit.getLsbD 2 then t.std.instret else t.std.instret + 1 },
           rc := 0, barWait := none, mgnWait := false, joining := none, charged := false, replayAt := none, midway := false,
           ended := t.ended + 1 }

end Sys2Proof.Machine
end

