-- ==== Sys2Proof/Machine/Cycle.lean ====
section
/-! DEFINITION. The core cycle around an instruction: which core and context is next (R38, R274), the passing of time,
interrupts (R73, R216, R241, R284, R309, R446), and fetching the instruction's bytes. Step.lean only calls these. -/
namespace Sys2Proof.Machine

/-- The core cycle that a core runs next: its own count, or the first cycle not in the past. -/
def State.nextCycle (s : State) (c : Nat) (k : Core) : Nat :=
  let p := Config.corePeriod (classOf c)
  max k.cycle ((s.now + p - 1) / p)

/-- A core with a context that may issue: live, not quarantined, some context not empty (R12, R449). -/
def Core.active (k : Core) : Bool := (List.range 8).any (fun x => (k.ctx x).status != .empty)

def State.runs (s : State) (c : Nat) (k : Core) : Bool := k.active && s.coreLive c && !k.quar.quar

/-- The earliest next core cycle: its tick, its core and its number. Ties go to the lower core id (log 4). -/
def State.nextCore (s : State) : Option (Nat × Nat × Nat) :=
  s.cores.foldl (fun best e =>
    if s.runs e.1 e.2 then
      let n := s.nextCycle e.1 e.2
      let at' := n * Config.corePeriod (classOf e.1)
      match best with
      | none => some (at', e.1, n)
      | some b => if at' < b.1 then some (at', e.1, n) else best
    else best) none

/-- The earliest due event. -/
def State.nextDue (s : State) : Option Nat :=
  s.timers.foldl (fun b e => match b with | none => some e.1 | some t => some (min t e.1)) none

/-- Time moves to a due event: every event due by then goes to the inbox, earliest first. -/
def State.wakeTimers (s : State) (at' : Nat) : State :=
  { s with now := max s.now at',
           inbox := s.inbox ++ (s.timers.filter (fun e => e.1 ≤ at')).map (·.2),
           timers := s.timers.filter (fun e => !(e.1 ≤ at')) }

/-- The dispatch gate after the drain of the first n core cycles, each drained once (R304). -/
def Gate.drainTo (g : Gate) (n : Nat) : Gate :=
  { g with level := g.level - (n - g.drained) * max 1 g.drain.toNat, drained := max g.drained n }

/-- The start of core cycle n of core c: time, the cycle count, the drain of this and of skipped cycles (R304). -/
def State.beginCycle (s : State) (at' c n : Nat) : State :=
  { s with now := at', cur := (c, n % 8) }.modCore c (fun k => { k with cycle := n + 1, gate := k.gate.drainTo (n + 1) })

/-- The context whose element group is replayed before core cycle n is run (R436). -/
def Core.replayDue (k : Core) (n : Nat) : Option Nat :=
  (List.range 8).find? (fun x => match (k.ctx x).replayAt with | some m => decide (m ≤ n) | none => false)

/-- The start of that replay, in the core cycle at a tick. -/
def State.beginReplay (s : State) (at' c x : Nat) : State :=
  { s with now := at', cur := (c, x) }.modThr c x (fun t => { t with replayAt := none })

/-- No timing event meets the core's next instruction. -/
def State.calm (s : State) : State :=
  if s.myCore.margin.late.isNone then s else s.modMyCore (fun k => { k with margin := { k.margin with late := none } })

/-- A cycle in which the running hart issues nothing: a gate claim of its context ends (R304), and so does the timing event that no
instruction meets. -/
def State.passCycle (s : State) : State := (dropClaim s s.cur.1 s.cur.2).calm

/-- A counting window of the core has ended since its last cycle (R438, R455). -/
def windowEnded (k : Core) (n : Nat) : Bool :=
  n / (1 <<< k.margin.n.toNat) != k.margin.win

/-! ### Interrupts -/

/-- The machine external interrupt stands on the service core while a quarantine report of its die is pending (R439). -/
def State.serviceCore (s : State) (die : Nat) : Option Nat := ((List.range 96).map (· + die * 96)).find? s.coreUp

def State.meip (s : State) (c : Nat) : Bool :=
  s.serviceCore (dieOf c) == some c &&
    s.cores.any (fun e => dieOf e.1 == dieOf c && e.2.quar.report && s.coreLive e.1)

/-- mip as read: the software bits, the external interrupt of the service core, and interrupts 16 and 17. -/
def State.mipOf (s : State) (c x : Nat) : Word :=
  let t := s.thr c x
  putBit t.std.mip 11 (t.std.mip.getLsbD 11 || s.meip c)

/-- Order in which pending interrupts are taken (the privileged architecture's, then 16). -/
def intOrder : List Nat := [11, 3, 7, 9, 1, 5, 16]

/-- The interrupt to take: its number and whether it goes to machine mode. -/
def State.interrupt (s : State) (c x : Nat) : Option (Nat × Bool) :=
  let t := s.thr c x
  let blocked := t.act.isSome || t.joinStatus.isSome || t.midway || t.raised.isSome || (match t.barWait with | some b => b.arrived || b.ends.isSome | none => false) || t.gang.any (fun g => g.pos != 0)
  if blocked then none
  else if t.reentryPend then some (17, false)
  else
    let pend := s.mipOf c x &&& t.std.mie
    let mOn := t.priv != .M || t.std.mstatus.getLsbD 3
    let sOn := t.priv == .U || (t.priv == .S && t.std.mstatus.getLsbD 1)
    match intOrder.find? (fun i => pend.getLsbD i && !t.std.mideleg.getLsbD i && mOn) with
    | some i => some (i, true)
    | none =>
      match intOrder.find? (fun i => pend.getLsbD i && t.std.mideleg.getLsbD i && sOn) with
      | some i => some (i, false)
      | none => none

/-- Some enabled interrupt is pending, whatever the global enables (wfi). -/
def State.intPending (s : State) (c x : Nat) : Bool := (s.mipOf c x &&& (s.thr c x).std.mie) != 0

/-- Taking interrupt i at the running hart; re-entry is cleared when taken (R446). -/
def State.serveInterrupt (s : State) (i : Nat) (toM : Bool) : State :=
  let s1 := takeInterrupt s i toM
  if i = 17 then s1.modHart (fun t => { t with reentryPend := false }) else s1

/-! ### Fetch -/

/-- The word at a physical address as the fetch reads it: it may miss the thread's own stores since its fence.i (Table 03-1). -/
def fetchAt (s : State) (pc : Word) (p : PAddr) : Res (BitVec 32 × State) :=
  match regionOf s p.pa with
  | .dram =>
    if p.cls = .io then .trap { cause := 1, tval := pc.toNat }
    else if s.ownedIn p.pa 4 then .wait
    else match s.badIn p.pa 4 with
    | some k => .trap { cause := 46, tval := pc.toNat, retire := some (k * 32 / 4096) }
    | none =>
      let r := (recallRead s none p.pa 4).readPlace s.cur.1 p 4 4 (fun w =>
        w.thread == some (s.threadOf s.cur.1 s.cur.2) && decide (s.hart.fetchSync ≤ w.seq))
      .done (BitVec.ofNat 32 r.1, r.2)
  | .host off =>
    if p.cls = .io ∨ !hostOpen s then .trap { cause := 1, tval := pc.toNat }
    else
      let r := hostLoad s off 4
      .done (BitVec.ofNat 32 r.1, r.2)
  | _ => .trap { cause := 1, tval := pc.toNat }

/-- The word at a pc. -/
def fetchFrom (s : State) (pc : Word) : Res (BitVec 32 × State) :=
  let t := s.hart.fetchXlat
  (translate s t .fetch pc.toNat).bind (fun p => fetchAt (s.noted s t .fetch pc.toNat) pc p)

/-- The word the running hart executes: an act in progress (R216), the loop buffer's captured word in a replay (R122), else the
word at the pc. -/
def fetchWord (s : State) : Res (BitVec 32 × State) :=
  let t := s.hart
  let captured := match t.act with
    | some w => some w.word
    | none => if t.loop.active && !t.loop.suspended then t.loop.words[t.loop.pos]? else none
  match captured with
  | some w => .done (w, s)
  | none => fetchFrom s t.pc

/-- A word that may stand in a body (R122, R216): no branch, jump, system instruction, custom-1 configuration or context instruction,
vldff or vldxff, and of custom-3 only vact, vact.s and ofence. -/
def bodyOk (w : BitVec 32) : Bool :=
  let n := w.toNat
  let op := n % 128
  let cls := n / 4096 % 8
  !(op == 0x63 || op == 0x6F || op == 0x67 || op == 0x73) &&
  !(op == 0x2B && (n / 16384 % 2 == 1 || (n / 8192 % 4 == 0 && (n / 536870912 == 4 || n / 536870912 == 5)))) &&
  !(op == 0x7B && !((cls == 3 && n / 33554432 == 0) || (cls == 4 && n / 2147483648 == 1)))

/-- In a replay whose body is fetched from memory, a word that may not stand in a body. -/
def State.bodyRefuses (s : State) (w : BitVec 32) : Bool :=
  let l := s.hart.loop
  l.active && !l.suspended && !bodyOk w

/-- The running hart's context issues nothing in this cycle: empty, held in a gang, or frozen by a droop (R277, R441). -/
def State.wasted (s : State) : Bool :=
  s.hart.status != .running || s.myCore.margin.frozen

end Sys2Proof.Machine
end

