-- ==== Sys2Proof/Machine/Flags.lean ====
section
/-! DEFINITION. Number formats and exact arithmetic (R46 to R66): exact values, decoding of every format, RoundTo and LFRound
with the flags they raise, and integer rounding. Values of elements are natural numbers below 2^width. -/
namespace Sys2Proof.Machine

/-! ### Flags of vfcsr (Table 01-9) as bits of a number -/

def flNV : Nat := 8
def flDZ : Nat := 16
def flOF : Nat := 32
def flUF : Nat := 64
def flNX : Nat := 128
def flPX : Nat := 256

/-! ### Integers (R46) -/

def toInt (w v : Nat) : Int := if v % (1 <<< w) < 1 <<< (w - 1) then (v % (1 <<< w) : Nat) else ((v % (1 <<< w) : Nat) : Int) - ((1 <<< w : Nat) : Int)
def ofInt (w : Nat) (v : Int) : Nat := (v % ((1 <<< w : Nat) : Int)).toNat
def intMax (w : Nat) (signed : Bool) : Int := if signed then ((1 <<< (w - 1) : Nat) : Int) - 1 else ((1 <<< w : Nat) : Int) - 1
def intMin (w : Nat) (signed : Bool) : Int := if signed then -((1 <<< (w - 1) : Nat) : Int) else 0
def clampInt (w : Nat) (signed : Bool) (v : Int) : Int := max (intMin w signed) (min (intMax w signed) v)

/-! ### Exact values -/

/-- A positive real: n/d × 2^e, or its square root. -/
structure Mag where
  n : Nat
  d : Nat
  e : Int
  root : Bool := false
  deriving DecidableEq, Repr

/-- An exact value: NaN (signalling or quiet), an infinity, a signed zero, or a signed positive magnitude. -/
inductive Ev where
  | nan (signalling : Bool)
  | inf (neg : Bool)
  | zero (neg : Bool)
  | fin (neg : Bool) (m : Mag)
  deriving DecidableEq, Repr

/-- n/d × 2^e as a fraction of naturals. -/
def ratio (n d : Nat) (e : Int) : Nat × Nat := if 0 ≤ e then (n <<< e.toNat, d) else (n, d <<< (-e).toNat)

/-- floor(log2) of n/d × 2^e. -/
def ratLog2 (n d : Nat) (e : Int) : Int :=
  let g : Int := (Nat.log2 n : Int) - (Nat.log2 d : Int)
  let r := ratio n d (-g)
  (if r.2 ≤ r.1 then g else g - 1) + e

/-- floor(log2) of a magnitude. -/
def Mag.log2 (m : Mag) : Int := let l := ratLog2 m.n m.d m.e; if m.root then Int.fdiv l 2 else l

/-- Integer square root by bisection over bits. -/
def isqrtBits (v : Nat) : Nat → Nat → Nat
  | 0, acc => acc
  | b + 1, acc =>
    let t := acc + 1 <<< b
    isqrtBits v b (if t * t ≤ v then t else acc)

def isqrt (v : Nat) : Nat := isqrtBits v (Nat.log2 v / 2 + 1) 0

/-- Where a magnitude stands between two multiples of a quantum. -/
inductive Rest where | exact | below | half | above
  deriving DecidableEq, Repr

/-- The number of whole quanta 2^qe in a magnitude, and what is left against half a quantum. -/
def Mag.floorAt (m : Mag) (qe : Int) : Nat × Rest :=
  if m.root then
    let r := ratio m.n m.d (m.e - 2 * qe)
    let f := isqrt (r.1 / r.2)
    let mid := (2 * f + 1) * (2 * f + 1) * r.2
    (f, if f * f * r.2 = r.1 then .exact
        else if 4 * r.1 < mid then .below else if 4 * r.1 = mid then .half else .above)
  else
    let r := ratio m.n m.d (m.e - qe)
    let f := r.1 / r.2
    let rem := r.1 % r.2
    (f, if rem = 0 then .exact else if 2 * rem < r.2 then .below else if 2 * rem = r.2 then .half else .above)

/-- The multiple of the quantum that a rounding mode chooses (R48), and whether it is inexact. Codes 6 and 7 are refused
before. -/
def chooseQ (rm : Nat) (neg : Bool) (f : Nat) (r : Rest) : Nat × Bool :=
  if r = .exact then (f, false)
  else
    let up := f + 1
    (match rm with
     | 0 => match r with
       | .below => f
       | .half => if f % 2 = 0 then f else up
       | _ => up
     | 1 => f
     | 2 => if neg then up else f
     | 3 => if neg then f else up
     | 4 => if r = .below then f else up
     | _ => if f % 2 = 1 then f else up, true)

def roundMag (m : Mag) (qe : Int) (rm : Nat) (neg : Bool) : Nat × Bool :=
  let p := m.floorAt qe
  chooseQ rm neg p.1 p.2

/-! ### Exact arithmetic -/

def Ev.isNan : Ev → Bool
  | .nan _ => true
  | _ => false

def Ev.sigNan : Ev → Bool
  | .nan s => s
  | _ => false

def Ev.neg : Ev → Ev
  | .nan s => .nan s
  | .inf n => .inf !n
  | .zero n => .zero !n
  | .fin n m => .fin (!n) m

def Ev.isNeg : Ev → Bool
  | .nan _ => false
  | .inf n => n
  | .zero n => n
  | .fin n _ => n

/-- A signed fraction n/d × 2^e as an exact value; an exact zero takes the sign given. -/
def Ev.ofFrac (n : Int) (d : Nat) (e : Int) (zneg : Bool) : Ev :=
  if n = 0 then .zero zneg else .fin (decide (n < 0)) { n := n.natAbs, d := d, e := e }

/-- The signed numerator of a finite value over 2^e and a denominator. -/
def Mag.signed (m : Mag) (neg : Bool) : Int := if neg then -(m.n : Int) else (m.n : Int)

/-- Sum of two rational magnitudes with signs; an exact zero takes the sign given. -/
def addFin (n1 : Bool) (m1 : Mag) (n2 : Bool) (m2 : Mag) (zneg : Bool) : Ev :=
  let e := min m1.e m2.e
  let a := m1.signed n1 * ((1 <<< (m1.e - e).toNat : Nat) : Int) * m2.d
  let b := m2.signed n2 * ((1 <<< (m2.e - e).toNat : Nat) : Int) * m1.d
  Ev.ofFrac (a + b) (m1.d * m2.d) e zneg

/-- The sum of two exact values and whether it is invalid (R52). The sign of an exact zero follows the rounding mode as IEEE
754 gives. -/
def Ev.add (rm : Nat) (a b : Ev) : Ev × Bool :=
  match a, b with
  | .nan s, .nan t => (.nan false, s || t)
  | .nan s, _ => (.nan false, s)
  | _, .nan t => (.nan false, t)
  | .inf n, .inf k => if n = k then (.inf n, false) else (.nan false, true)
  | .inf n, _ => (.inf n, false)
  | _, .inf k => (.inf k, false)
  | .zero n, .zero k => (.zero (if n = k then n else rm == 2), false)
  | .zero _, .fin k m => (.fin k m, false)
  | .fin n m, .zero _ => (.fin n m, false)
  | .fin n m, .fin k l => (addFin n m k l (rm == 2), false)

def Ev.mul (a b : Ev) : Ev × Bool :=
  match a, b with
  | .nan s, .nan t => (.nan false, s || t)
  | .nan s, _ => (.nan false, s)
  | _, .nan t => (.nan false, t)
  | .inf _, .zero _ => (.nan false, true)
  | .zero _, .inf _ => (.nan false, true)
  | .inf n, y => (.inf (n != y.isNeg), false)
  | x, .inf k => (.inf (x.isNeg != k), false)
  | .zero n, y => (.zero (n != y.isNeg), false)
  | x, .zero k => (.zero (x.isNeg != k), false)
  | .fin n m, .fin k l => (.fin (n != k) { n := m.n * l.n, d := m.d * l.d, e := m.e + l.e }, false)

/-- The quotient and the flags it raises itself: NV where invalid, DZ for a finite non-zero over zero. -/
def Ev.div (a b : Ev) : Ev × Nat :=
  match a, b with
  | .nan s, .nan t => (.nan false, if s || t then flNV else 0)
  | .nan s, _ => (.nan false, if s then flNV else 0)
  | _, .nan t => (.nan false, if t then flNV else 0)
  | .inf _, .inf _ => (.nan false, flNV)
  | .zero _, .zero _ => (.nan false, flNV)
  | .inf n, y => (.inf (n != y.isNeg), 0)
  | x, .inf k => (.zero (x.isNeg != k), 0)
  | .zero n, y => (.zero (n != y.isNeg), 0)
  | .fin n _, .zero k => (.inf (n != k), flDZ)
  | .fin n m, .fin k l => (.fin (n != k) { n := m.n * l.d, d := m.d * l.n, e := m.e - l.e }, 0)

/-- The square root: invalid below −0. -/
def Ev.sqrt (a : Ev) : Ev × Bool :=
  match a with
  | .nan s => (.nan false, s)
  | .zero n => (.zero n, false)
  | .inf false => (.inf false, false)
  | .inf true => (.nan false, true)
  | .fin true _ => (.nan false, true)
  | .fin false m => (.fin false { m with root := true }, false)

/-- a × b + c (R52: 0 × ∞ is invalid whatever c is). -/
def Ev.fma (rm : Nat) (a b c : Ev) : Ev × Bool :=
  let p := a.mul b
  let r := p.1.add rm c
  (r.1, p.2 || c.sigNan || r.2)

/-- Order of two values that are not NaN: less, equal (zeros of both signs are equal). -/
def magLt (m l : Mag) : Bool :=
  let e := min m.e l.e
  decide (m.n * (1 <<< (m.e - e).toNat) * l.d < l.n * (1 <<< (l.e - e).toNat) * m.d)

def Ev.lt (a b : Ev) : Bool :=
  match a, b with
  | .nan _, _ => false
  | _, .nan _ => false
  | .inf n, .inf k => n && !k
  | .inf n, _ => n
  | _, .inf k => !k
  | .zero _, .zero _ => false
  | .zero _, .fin k _ => !k
  | .fin n _, .zero _ => n
  | .fin n m, .fin k l =>
    if n && !k then true
    else if !n && k then false
    else if n then magLt l m else magLt m l

def Ev.eq (a b : Ev) : Bool := !a.isNan && !b.isNan && !a.lt b && !b.lt a

/-! ### Floating formats (Tables 02-2, 02-3) -/

inductive FFmt where | fp64 | fp32 | fp16 | bf16 | e4m3 | e5m2 | e2m1
  deriving DecidableEq, Repr

def FFmt.width : FFmt → Nat
  | .fp64 => 64 | .fp32 => 32 | .fp16 => 16 | .bf16 => 16 | .e4m3 => 8 | .e5m2 => 8 | .e2m1 => 4

/-- Significand bits including the leading one. -/
def FFmt.p : FFmt → Nat
  | .fp64 => 53 | .fp32 => 24 | .fp16 => 11 | .bf16 => 8 | .e4m3 => 4 | .e5m2 => 3 | .e2m1 => 2

def FFmt.emin : FFmt → Int
  | .fp64 => -1022 | .fp32 => -126 | .fp16 => -14 | .bf16 => -126 | .e4m3 => -6 | .e5m2 => -14 | .e2m1 => 0

/-- The code of the largest finite value, without sign. -/
def FFmt.maxCode : FFmt → Nat
  | .fp64 => 0x7FEFFFFFFFFFFFFF | .fp32 => 0x7F7FFFFF | .fp16 => 0x7BFF | .bf16 => 0x7F7F
  | .e4m3 => 0x7E | .e5m2 => 0x7B | .e2m1 => 7

/-- The code of +∞ where the format has one. -/
def FFmt.infCode : FFmt → Nat
  | .fp64 => 0x7FF0000000000000 | .fp32 => 0x7F800000 | .fp16 => 0x7C00 | .bf16 => 0x7F80
  | .e4m3 => 0x7F | .e5m2 => 0x7C | .e2m1 => 7

def FFmt.hasInf : FFmt → Bool
  | .e4m3 => false
  | .e2m1 => false
  | _ => true

def FFmt.nanCode : FFmt → Nat
  | .fp64 => 0x7FF8000000000000 | .fp32 => 0x7FC00000 | .fp16 => 0x7E00 | .bf16 => 0x7FC0
  | .e4m3 => 0x7F | .e5m2 => 0x7E | .e2m1 => 0

def FFmt.signBit (f : FFmt) : Nat := 1 <<< (f.width - 1)

/-- The value of a code (R51 to R53). E2M1's special code 0b1000 reads as +0 here; blocks with a special byte decode it
themselves (R56). -/
def FFmt.decode (f : FFmt) (code : Nat) : Ev :=
  let c := code % (1 <<< f.width)
  let neg := decide (f.signBit ≤ c)
  let m := c % f.signBit
  let fb := f.p - 1
  let ex := m >>> fb
  let fr := m % (1 <<< fb)
  if f = .e2m1 ∧ c = 8 then .zero false
  else if f = .e4m3 ∧ m = 0x7F then .nan false
  else if f.hasInf ∧ m = f.infCode then .inf neg
  else if f.hasInf ∧ f.infCode < m then .nan (decide (fr < 1 <<< (fb - 1)))
  else if m = 0 then .zero neg
  else if ex = 0 then .fin neg { n := fr, d := 1, e := f.emin - fb }
  else .fin neg { n := (1 <<< fb) + fr, d := 1, e := f.emin - fb + (ex - 1 : Nat) }

def FFmt.withSign (f : FFmt) (neg : Bool) (code : Nat) : Nat :=
  if f = .e2m1 ∧ code = 0 then 0 else if neg then code + f.signBit else code

/-- Overflow (R54): the code of ±∞ or ±max as the mode and Sat() give, without flags. -/
def overflowCode (f : FFmt) (neg : Bool) (rm : Nat) (sat : Bool) : Nat :=
  let toInf := match rm with
    | 0 => true | 4 => true | 2 => neg | 3 => !neg | _ => false
  if f = .e2m1 then f.withSign neg 7
  else if sat ∧ (f = .fp16 ∨ f = .bf16 ∨ f = .e5m2 ∨ f = .e4m3) then f.withSign neg f.maxCode
  else if toInf then (if f = .e4m3 then 0x7F else f.withSign neg f.infCode)
  else f.withSign neg f.maxCode

/-- RoundTo for a floating format (R49): the code and the flags raised. -/
def roundTo (f : FFmt) (v : Ev) (rm : Nat) (sat : Bool) : Nat × Nat :=
  match v with
  | .nan s => if f = .e2m1 then (0, flNV) else (f.nanCode, if s then flNV else 0)
  | .inf neg =>
    match f with
    | .e2m1 => (f.withSign neg 7, flNX)
    | .e4m3 => if sat then (f.withSign neg f.maxCode, flNX) else (0x7F, flNV)
    | _ => (f.withSign neg f.infCode, 0)
  | .zero neg => (f.withSign neg 0, 0)
  | .fin neg m =>
    let e := m.log2
    let p : Int := f.p
    let qe := max e f.emin - p + 1
    let r := roundMag m qe rm neg
    let code := r.1 + (qe - (f.emin - p + 1)).toNat * (1 <<< (f.p - 1))
    if f.maxCode < code then (overflowCode f neg rm sat, flOF + flNX)
    else
      let u := roundMag m (e - p + 1) rm neg
      let tiny := decide ((Nat.log2 u.1 : Int) + (e - p + 1) < f.emin)
      (f.withSign neg code, if r.2 then (if tiny then flNX + flUF else flNX) else 0)

/-- RoundInt (R47): the integer a mode chooses for an exact value, and whether it is inexact. -/
def roundInt (v : Ev) (rm : Nat) : Int × Bool :=
  match v with
  | .fin neg m =>
    let r := roundMag m 0 rm neg
    (if neg then -(r.1 : Int) else (r.1 : Int), r.2)
  | _ => (0, false)

/-- RoundTo for an integer format (R49): the element and the flags. -/
def roundToInt (w : Nat) (signed : Bool) (v : Ev) (rm : Nat) : Nat × Nat :=
  match v with
  | .nan _ => (ofInt w (intMax w signed), flNV)
  | .inf neg => (ofInt w (if neg then intMin w signed else intMax w signed), flNV)
  | .zero _ => (0, 0)
  | .fin _ _ =>
    let r := roundInt v rm
    let c := clampInt w signed r.1
    if c ≠ r.1 then (ofInt w c, flNV) else (ofInt w c, if r.2 then flNX else 0)

/-- A saturating or fixed-point integer result (R47): rounded by vfcsr.rm and clamped, without flags. -/
def satRound (w : Nat) (signed : Bool) (n : Int) (d : Nat) (rm : Nat) : Nat :=
  ofInt w (clampInt w signed (roundInt (Ev.ofFrac n d 0 false) rm).1)

def Ev.ofInt (v : Int) : Ev := Ev.ofFrac v 1 0 false

/-! ### Long floats (R60 to R65) -/

def lfBias : Int := 134217727
def lfEMax : Nat := 0x0FFFFFFF

/-- k(P) (R62). -/
def kOfP (p : Nat) : Nat := if p ≤ 32 then 0 else (p - 32 + 63) / 64

/-- The significand of an element: h and its head's k limbs, limbs beyond the window read as zero. -/
def lfSig (elem window : Nat) : Nat → Nat → Nat
  | 0, _ => 0
  | n + 1, i =>
    -- limb i (1-based) of k = n + i - 1 limbs
    (if i ≤ window then (elem >>> (64 * i)) % (1 <<< 64) else 0) <<< (64 * n) + lfSig elem window n (i + 1)

/-- The value of a long-float element in a window (R60, R61, R65). -/
def lfDecode (elem window : Nat) : Ev :=
  let head := elem % (1 <<< 64)
  let neg := decide (1 <<< 63 ≤ head)
  let k := head / (1 <<< 60) % 8
  let ex := head / (1 <<< 32) % (1 <<< 28)
  let h := head % (1 <<< 32)
  let sig := h <<< (64 * k) + lfSig elem window k 1
  if ex = 0 then .zero neg
  else if ex = lfEMax then (if sig = 0 then .inf neg else .nan (!(bitOfNat h 30)))
  else if sig = 0 then .zero neg
  else .fin neg { n := sig, d := 1, e := (ex : Int) - lfBias - 31 - 64 * k }
where
  bitOfNat (n i : Nat) : Bool := n / (1 <<< i) % 2 == 1

/-- The limbs of a significand of 32 + 64k bits below its top 32, most significant first from bit 64 up. -/
def lfLimbs (sig : Nat) : Nat → Nat → Nat
  | 0, _ => 0
  | n + 1, i => ((sig >>> (64 * n)) % (1 <<< 64)) <<< (64 * i) + lfLimbs sig n (i + 1)

/-- An element from its parts. -/
def lfEncode (neg : Bool) (k ex sig : Nat) : Nat :=
  (if neg then 1 <<< 63 else 0) + k * (1 <<< 60) + ex * (1 <<< 32) + (sig >>> (64 * k)) % (1 <<< 32) + lfLimbs sig k 1

def lfNan (k : Nat) : Nat := lfEncode false k lfEMax (0x40000000 <<< (64 * k))
def lfInf (k : Nat) (neg : Bool) : Nat := lfEncode neg k lfEMax 0
def lfZero (k : Nat) (neg : Bool) : Nat := lfEncode neg k 0 0

/-- LFRound (R63): the element of length k(P), the flags, and whether the rounding is inexact (R64). -/
def lfRound (v : Ev) (p rm : Nat) : Nat × Nat × Bool :=
  let kk := kOfP p
  match v with
  | .nan _ => (lfNan kk, 0, false)
  | .inf neg => (lfInf kk neg, 0, false)
  | .zero neg => (lfZero kk neg, 0, false)
  | .fin neg m =>
    let e := m.log2
    let r := roundMag m (e - p + 1) rm neg
    -- a carry out of P bits moves the exponent
    let carry := decide (1 <<< p ≤ r.1)
    let q := if carry then r.1 / 2 else r.1
    let er := if carry then e + 1 else e
    let bits := 32 + 64 * kk
    if 134217728 ≤ er then
      let toInf := match rm with
        | 0 => true | 4 => true | 2 => neg | 3 => !neg | _ => false
      (if toInf then lfInf kk neg
       else lfEncode neg kk (lfEMax - 1) (((1 <<< p) - 1) <<< (bits - p)), flOF + flNX, true)
    else if er < -134217726 then (lfZero kk neg, flUF + flNX, true)
    else (lfEncode neg kk (er + lfBias).toNat (q <<< (bits - p)), if r.2 then flNX else 0, r.2)

/-! ### Scale bytes and blocks (R55 to R57) -/

/-- The factor of an E8M0 scale byte; none for 0xFF. -/
def scaleExp (e : Nat) : Option Int := if e = 255 then none else some ((e : Int) - 127)

def Ev.scale (v : Ev) (e : Int) : Ev :=
  match v with
  | .fin n m => .fin n { m with e := m.e + e }
  | x => x

/-- Decodes an element of a scaled block under a scale pair (R56): scale byte in [7:0], special byte in [15:8].
DESIGN CHOICE (log 36): under scale 0xFF an element is NaN by the scale alone, so no signalling NaN is met there. -/
def decodeScaled (f : FFmt) (code pair : Nat) : Ev :=
  match scaleExp (pair % 256) with
  | none => .nan false
  | some e =>
    if f = .e2m1 ∧ code % 16 = 8 then
      let sp := pair / 256 % 256
      match FFmt.e4m3.decode sp with
      | .zero _ => .zero false
      | x => x.scale e
    else (f.decode code).scale e

end Sys2Proof.Machine
end

