-- ==== Sys2Proof/Machine/Streams.lean ====
section
/-! DEFINITION. Bound registers (R114 to R121): points of a nest, chunks, refills, consumption by reads, emission by writes,
channels between neighbouring cores. -/
namespace Sys2Proof.Machine

/-! ### Nests (R99, R114) -/

def Nest.total (n : Nest) : Nat := (List.range 6).foldl (fun a d => a * n.counts.getD d 1) 1

def Nest.c0 (n : Nest) : Nat := n.counts.getD 0 1

/-- The byte offset of point j, i0 varying fastest. -/
def Nest.offsetFrom (n : Nest) : Nat → Nat → Nat → Int
  | 0, _, _ => 0
  | f + 1, d, j =>
    let c := max 1 (n.counts.getD d 1)
    ((j % c : Nat) : Int) * n.strides.getD d 0 + n.offsetFrom f (d + 1) (j / c)

def Nest.offset (n : Nest) (j : Nat) : Int := n.offsetFrom 6 0 j

/-- The address of point j from a base, modulo 2^64. -/
def Nest.addr (n : Nest) (base j : Nat) : Nat := (((base : Int) + n.offset j) % ((1 <<< 64 : Nat) : Int)).toNat

/-- The base of a memory binding. DESIGN CHOICE (log 36): its 48 bits are extended with zeros. -/
def Binding.base (b : Binding) : Nat := b.word0.toNat % (1 <<< 48)
def Binding.pointAddr (b : Binding) (j : Nat) : Nat := b.nest.addr b.base j

/-- Points left in the current i0 row. -/
def Binding.rowLeft (b : Binding) : Nat := max 1 b.nest.c0 - b.pos % max 1 b.nest.c0

/-- The loop buffer runs on the binding's own nest (R116). -/
def Ctx.ownLoop (t : Ctx) (b : Binding) : Bool := t.loop.active && !t.loop.suspended && t.loop.nestReg == b.nestReg

/-- The length of the binding's next chunk: min(vgrant, points left in the row), in a loop on its own nest the iteration's
points (R116). -/
def Ctx.chunkLen (t : Ctx) (b : Binding) : Nat :=
  if t.ownLoop b then min t.dev.vgrant.toNat (t.loop.counts.getD 0 1 - t.loop.j0) else min t.dev.vgrant.toNat b.rowLeft

/-- Neighbour of a core in a direction on its die: 0 east, 1 west, 2 south, 3 north (Table 04-4). -/
def neighbour (core dir : Nat) : Option Nat :=
  let r := rowOf core; let c := colOf core; let d := dieOf core
  match dir with
  | 0 => if c + 1 < 8 then some (coreAt d r (c + 1)) else none
  | 1 => if 0 < c then some (coreAt d r (c - 1)) else none
  | 2 => if r + 1 < 12 then some (coreAt d (r + 1) c) else none
  | _ => if 0 < r then some (coreAt d (r - 1) c) else none

def opposite (dir : Nat) : Nat := match dir with | 0 => 1 | 1 => 0 | 2 => 3 | _ => 2

/-- The context of core c that holds the channel binding (kind, dir, chan), and the register. -/
def holderOf (s : State) (c kind dir chan : Nat) : Option (Nat × Nat) :=
  (List.range 8).findSome? (fun x =>
    ((s.thr c x).binds.find? (fun b => b.kind == kind && b.dir == dir && b.chan == chan)).map (fun b => (x, b.reg)))

/-! ### Faults (R121, Table 04-5) -/

def boundFault (reg reason : Nat) : Exc := { cause := 30, tval := reg % 32 + reason * 256 }

/-! ### Refills (R117) -/

/-- Reads the elements of points j … j+n−1 into consecutive slots of the descriptor's width, each with any value its place has held
since the previous chunk was consumed. Addresses are translated in u; device-class memory raises cause 30, reason 5. -/
def readPoints (u s : State) (c x : Nat) (b : Binding) : Nat → Nat → Res (Nat × State)
  | 0, _ => .done (0, s)
  | n + 1, j =>
    let t := (u.thr c x).dataXlat
    let va := b.pointAddr j
    let size := b.ew / 8
    if va % size ≠ 0 then .trap { cause := 4, tval := va }
    else (translate u t .load va).bind (fun p =>
      if p.cls = .io then .trap (boundFault b.reg 5)
      else (loadAt (s.noted u t .load va) c x t va size p (fun w => decide (b.since ≤ w.seq))).bind (fun r =>
        (readPoints u r.2 c x b n (j + 1)).bind (fun q => .done (r.1 + q.1 <<< b.ew, q.2))))

/-- Starts the refill of a memory-in binding's next chunk: the register is empty until it lands. -/
def startRefill (s : State) (c x : Nat) (reg len : Nat) : State :=
  (s.modThr c x (fun t =>
    match t.binding reg with
    | some b => (t.setBinding { b with resident := none, refill := some len }).setFull reg false
    | none => t)).later (.boundRefillLand c x (BitVec.ofNat 5 reg))

/-- The chunk of a memory-in binding stands in its register. -/
def fillChunk (s : State) (c x : Nat) (b : Binding) (len v : Nat) : State :=
  (s.modThr c x (fun t => (t.setBinding { b with refill := none, resident := some len }).setFull b.reg true)).setVAt c x b.reg v

/-- A refill lands: its elements are read; one that would fault leaves no chunk, and the consuming read carries the fault. -/
def landRefill (s : State) (c x reg : Nat) : State :=
  match (s.thr c x).binding reg with
  | some b =>
    match b.refill with
    | some len =>
      match readPoints s s c x b len b.pos with
      | .done r => fillChunk r.2 c x b len r.1
      | .trap _ => s.modThr c x (fun t => (t.setBinding { b with refill := none, resident := none }).setFull reg true)
      | .wait => s.later (.boundRefillLand c x (BitVec.ofNat 5 reg))
    | none => s
  | none => s

/-- Deposits the oldest staged chunk of a channel-in into its empty register (R119); elements at or above VLMAX are dropped. -/
def depositChunk (s : State) (c x reg : Nat) : State :=
  let t := s.thr c x
  match t.binding reg with
  | some b =>
    match b.staged with
    | ch :: rest =>
      if b.kind = 2 ∧ !t.isFull reg then
        let keep := min ch.len (min t.vlmax (t.vlen / b.ew))
        (s.setThr c x ((t.setBinding { b with staged := rest, resident := some keep }).setFull reg true)).setVAt c x reg
          (lowBits ch.data (keep * b.ew))
      else s
    | [] => s
  | none => s

/-! ### Consumption by a read (R116) -/

/-- Moves a binding past a chunk of len points: the end flag at the last point; the next refill or deposit. -/
def advanceInput (s : State) (c x : Nat) (b : Binding) (len : Nat) : State :=
  let pos := b.pos + len
  let ended := decide (b.nest.total ≤ pos)
  let b1 := { b with pos := pos, ended := ended, resident := none, iterPos := none, since := s.past.length }
  let s1 := s.modThr c x (fun t => t.setBinding b1)
  if ended then (s1.modThr c x (fun t => t.setFull b.reg true)).setVAt c x b.reg 0
  else if b.kind = 0 then startRefill s1 c x b.reg ((s1.thr c x).chunkLen b1)
  else
    let s2 := s1.modThr c x (fun t => t.setFull b.reg false)
    if b1.staged.isEmpty then s2 else s2.later (.channelChunkDeposit c x (BitVec.ofNat 5 b.reg))

/-- The read of a bound register by an instruction that completes: an ended stream or an output consumes nothing; in a loop on
its own nest the chunk stays for the iteration; otherwise the chunk is consumed. -/
def consume (s : State) (reg : Nat) : State :=
  let c := s.cur.1; let x := s.cur.2
  let t := s.thr c x
  match t.binding reg with
  | some b =>
    if !b.isInput || b.ended then s
    else if t.ownLoop b then s.setThr c x (t.setBinding { b with iterPos := some t.loop.iter })
    else advanceInput s c x b (t.chunkLen b)
  | none => s

/-- What a read of a bound register meets before the instruction: ready, unready (its chunk is not there yet), or a fault. The
answer carries the state: a chunk of another length is discarded and refetched (R117). -/
inductive Ready where
  | ok (s : State)
  | fault (e : Exc)
  | notYet (s : State)

def readyInput (s : State) (b : Binding) : Ready :=
  let c := s.cur.1; let x := s.cur.2
  let t := s.thr c x
  let len := t.chunkLen b
  if b.isChannel && b.savedOn.any (· != c) then .fault (boundFault b.reg 6)
  else if !b.isInput || b.ended then .ok s
  else if t.vlen / b.ew < len then .fault (boundFault b.reg 7)
  else if b.kind = 2 then .ok s
  else match b.resident with
  | some n =>
    if n = len || (t.ownLoop b && b.iterPos == some t.loop.iter) then .ok s else .notYet (startRefill s c x b.reg len)
  | none =>
    match readPoints s s c x b len b.pos with
    | .done r => .ok (fillChunk r.2 c x b len r.1)
    | .trap e => .fault e
    | .wait => .notYet s

/-! ### Emission by a write (R116, R118, R119) -/

/-- The places of the points of a memory-out chunk, every address of the chunk translated in the state of the writing instruction:
for each active point its slot, address and place. -/
def outPlaces (s : State) (b : Binding) (active : Nat → Bool) : Nat → Nat → Res (List (Nat × Nat × PAddr))
  | 0, _ => .done []
  | n + 1, j =>
    let va := b.pointAddr (b.pos + j)
    if active j ∧ va % (b.ew / 8) ≠ 0 then .trap { cause := 6, tval := va }
    else (translate s s.hart.dataXlat .store va).bind (fun p =>
      (outPlaces s b active n (j + 1)).bind (fun r => .done (if active j then (j, va, p) :: r else r)))

/-- The stores of a memory-out chunk in element order, as those of a vst issued at the writing instruction (R118). -/
def storePlaces (s : State) (b : Binding) (v : Nat) : List (Nat × Nat × PAddr) → Res State
  | [] => .done s
  | (j, va, p) :: rest =>
    let t := s.hart.dataXlat
    (storeAt (s.noted s t .store va) s.cur.1 s.cur.2 t va (b.ew / 8) (lowBits (v >>> (j * b.ew)) b.ew) p).bind (fun s1 =>
      storePlaces s1 b v rest)

/-- Emits a chunk of v to memory: a fault of any of its addresses or stores comes before all of them. -/
def emitStores (s : State) (b : Binding) (active : Nat → Bool) (len v : Nat) : Res State :=
  (outPlaces s b active len 0).bind (storePlaces s b v)

/-- Whether a write to a bound register may go ahead (R116, R118, R119). -/
def readyOutput (s : State) (b : Binding) (active : Nat → Bool) : Ready :=
  let c := s.cur.1
  let t := s.hart
  let len := t.chunkLen b
  if b.isInput then .fault (boundFault b.reg 1)
  else if b.isChannel && b.savedOn.any (· != c) then .fault (boundFault b.reg 6)
  else if b.ended then .ok s
  else if t.vlen / b.ew < len then .fault (boundFault b.reg 7)
  else if b.kind = 1 then
    match emitStores s b active len 0 with
    | .done _ => .ok s
    | .trap e => .fault e
    | .wait => .notYet s
  else
    match neighbour c b.dir with
    | none => .fault (boundFault b.reg 4)
    | some peer =>
      match holderOf s peer 2 (opposite b.dir) b.chan with
      | none => .notYet s
      | some (x, r) =>
        match (s.thr peer x).binding r with
        | none => .notYet s
        | some pb =>
          let again := t.ownLoop b && b.iterPos == some t.loop.iter
          if again || pb.staged.length + (if pb.resident.isSome then 1 else 0) < 4 then .ok s else .notYet s

/-- A chunk sent again in one iteration replaces the one sent before, where that stands: staged last, or in the register (R116). -/
def Binding.resend (b : Binding) (ch : Chunk) : Binding :=
  if b.staged.isEmpty then b else { b with staged := b.staged.dropLast ++ [ch] }

/-- Sends a chunk to the channel-in bound at register r of context y of a neighbouring core. -/
def sendChunk (s : State) (peer y r : Nat) (ch : Chunk) (again : Bool) : State :=
  let q := s.thr peer y
  match q.binding r with
  | none => s
  | some pb =>
    if !again then
      (s.setThr peer y (q.setBinding { pb with staged := pb.staged ++ [ch] })).later (.channelChunkDeposit peer y (BitVec.ofNat 5 r))
    else if pb.staged.isEmpty ∧ pb.resident.isSome then
      s.setVAt peer y r (lowBits ch.data (min ch.len (min q.vlmax (q.vlen / pb.ew)) * pb.ew))
    else s.setThr peer y (q.setBinding (pb.resend ch))

/-- The write of a bound output by an instruction that completes: its chunk is stored or sent, and the position advances. -/
def emit (s : State) (reg : Nat) (active : Nat → Bool) : State :=
  let c := s.cur.1; let x := s.cur.2
  let t := s.hart
  match t.binding reg with
  | some b =>
    if b.isInput || b.ended then s
    else
      let len := t.chunkLen b
      let v := s.getV reg
      let again := t.ownLoop b && b.iterPos == some t.loop.iter
      let s1 :=
        if b.kind = 1 then
          match emitStores s b active len v with
          | .done s' => s'
          | _ => s
        else
          match neighbour c b.dir with
          | none => s
          | some peer =>
            match holderOf s peer 2 (opposite b.dir) b.chan with
            | none => s
            | some (y, r) => sendChunk s peer y r { len := len, data := lowBits v (len * b.ew) } again
      let pos := b.pos + len
      if t.ownLoop b then s1.modThr c x (fun q => q.setBinding { b with iterPos := some t.loop.iter })
      else s1.modThr c x (fun q => q.setBinding { b with pos := pos, ended := decide (b.nest.total ≤ pos) })
  | none => s

/-! ### The end of a loop iteration (R116) -/

/-- Every binding touched in the iteration that has just ended moves on by its points. -/
def endIteration (s : State) (iter len : Nat) : State :=
  let c := s.cur.1; let x := s.cur.2
  (s.thr c x).binds.foldl (fun u b =>
    if b.iterPos == some iter then
      (if b.isInput then advanceInput u c x b len
       else
         let pos := b.pos + len
         u.modThr c x (fun q => q.setBinding { b with pos := pos, iterPos := none, ended := decide (b.nest.total ≤ pos) }))
    else u) s

/-! ### Loads landing (R37) -/

/-- Writes the low len bits of register r of hart (c, x). -/
def State.landV (s : State) (c x r len w : Nat) : State :=
  let old := s.rawV c x r
  scatterV s x r (s.thr c x).ownBits (old / (1 <<< len) * (1 <<< len) + lowBits w len) (s.slicesOf c x)

def landRegs (s : State) (c x : Nat) (l : Landing) : Nat → State
  | 0 => s
  | n + 1 =>
    let s1 := (landRegs s c x l n).landV c x (l.vd + n) l.vlen (l.val >>> (n * l.vlen))
    s1.modThr c x (fun t => t.setFull (l.vd + n) true)

/-- The oldest value in flight for register vd of hart (c, x) lands: its registers are written and become full. -/
def landGroup (s : State) (c x vd : Nat) : State :=
  match (s.thr c x).landing.find? (fun l => l.vd == vd) with
  | none => s
  | some l => landRegs (s.modThr c x (fun t => { t with landing := t.landing.erase l })) c x l l.count

/-! ### The end of an instruction -/

/-- Points of the loop iteration under way (R122). -/
def Loop.points (l : Loop) (vgrant : Nat) : Nat := min vgrant (l.counts.getD 0 1 - l.j0)

/-- The pc after an instruction completes: in the loop buffer the body's next instruction (R122), and at the end of an iteration
every binding touched in it moves on (R116). -/
def State.nextPc (s : State) : State :=
  let t := s.hart
  if t.loop.active && !t.loop.suspended then
    let vg := t.dev.vgrant.toNat
    let l := t.loop.advance vg
    let s1 := s.setHart (if l.active then { t with loop := l, pc := l.expectPc } else { t with loop := l, pc := t.pc + 4 })
    if t.loop.pos + 1 < t.loop.len then s1 else endIteration s1 t.loop.iter (t.loop.points vg)
  else s.setHart { t with pc := t.pc + 4 }

/-- The outcome of an instruction whose body comes to b. -/
def finish (b : Body) : Outcome :=
  match b with
  | .next s => .next (s.nextPc.modHart Ctx.retired)
  | .jump s pc => .next (s.modHart (fun t => { t.retired with pc := pc }))
  | .stay s => .next s
  | .trap e s => .next (takeException s e)
  | .wait s => .next s

end Sys2Proof.Machine
end

