-- ==== Sys2Proof/Machine/Operands.lean ====
section
/-! DEFINITION. The operands and the frame of vector instructions: element classes and the common frame (R30 to R32, R137),
second sources (R127), register-group rules (R129), what must hold before an instruction runs (R33, R37, R75, R116, R121), the
dispatch gate (R303, R304), and the shared wrapper of every charged instruction. -/
namespace Sys2Proof.Machine

/-! ### Shapes and frames -/

/-- How the elements of a register group lie: VLEN, the group size, the element width, and the long-float window (R27, R28). -/
structure Shape where
  vlen : Nat
  g : Nat
  ew : Nat
  lf : Bool
  k : Nat
  deriving DecidableEq, Repr

def Ctx.shape (t : Ctx) : Shape := { vlen := t.vlen, g := t.dev.grp, ew := t.dev.ew, lf := t.dev.isLf, k := t.dev.k }
def State.shape (s : State) : Shape := s.hart.shape

/-- VLMAX of the shape (R27). -/
def Shape.n (sh : Shape) : Nat := vlmaxAt sh.vlen sh.g sh.ew
def Shape.get (sh : Shape) (v i : Nat) : Nat := readElem sh.vlen sh.g sh.ew sh.lf v i
def Shape.zero (sh : Shape) : Nat := zeroElem sh.lf sh.k

/-- What classifies the elements of an instruction (R30). -/
structure Frame where
  vstart : Nat
  vgrant : Nat
  masked : Bool
  ma : Bool
  ta : Bool
  mask : Nat
  deriving DecidableEq, Repr

def Ctx.frameOf (t : Ctx) (m : Bool) (mask : Nat) : Frame :=
  { vstart := t.dev.vstart.toNat, vgrant := t.dev.vgrant.toNat, masked := m, ma := t.dev.ma, ta := t.dev.ta, mask := mask }
def State.frame (s : State) (m : Bool) : Frame := s.hart.frameOf m (s.getV 0)

/-- Active(i) (R32). -/
def Frame.on (fr : Frame) (i : Nat) : Bool :=
  decide (fr.vstart ≤ i) && decide (i < fr.vgrant) && (!fr.masked || bitOf fr.mask i)

/-- Nothing is left to do (R30): no element of any class is written. -/
def Frame.idle (fr : Frame) : Bool := decide (0 < fr.vstart) && decide (fr.vgrant ≤ fr.vstart)

/-- The value of position i after the instruction, from its old value, the result and the zero of its width (R32). -/
def Frame.pick (fr : Frame) (i old : Nat) (res : Nat → Nat) (z : Nat) : Nat :=
  if i < fr.vstart then old
  else if i < fr.vgrant then
    (if !fr.masked || bitOf fr.mask i then res i else if fr.ma then z else old)
  else if fr.ta then z else old

/-- The number whose n fields of w bits hold f 0 … f (n−1). -/
def assemble (w : Nat) (f : Nat → Nat) : Nat → Nat
  | 0 => 0
  | n + 1 => assemble w f n + lowBits (f n) w <<< (w * n)

/-- A 64-bit word of a long-float group after an instruction: a word of an element, or a word that is no element's and follows
the tail policy (R28). -/
def lfGroupWord (sh : Shape) (ta : Bool) (old : Nat) (elem : Nat → Nat) (q : Nat) : Nat :=
  let bit := q * 64
  let slice := bit % sh.vlen / 512
  let off := bit / sh.vlen * 512 + bit % 512
  let per := perSlice sh.g sh.ew
  let e := off / sh.ew
  if e < per then elem (slice * per + e) >>> (off % sh.ew)
  else if ta then 0 else old >>> bit

/-- The group whose elements hold elem 0 … elem (VLMAX−1). -/
def writeGroup (sh : Shape) (ta : Bool) (old : Nat) (elem : Nat → Nat) : Nat :=
  if sh.lf then assemble 64 (lfGroupWord sh ta old elem) (sh.g * sh.vlen / 64)
  else assemble sh.ew elem sh.n

/-- The destination group after an instruction that follows the common frame (R32). -/
def writeFrame (sh : Shape) (fr : Frame) (old : Nat) (res : Nat → Nat) : Nat :=
  if fr.idle then old else writeGroup sh fr.ta old (fun i => fr.pick i (sh.get old i) res sh.zero)

/-- A mask destination after an instruction: bit i per element, bits from vgrant to VLEN−1 follow the tail policy (R137). -/
def writeMask (vlen : Nat) (fr : Frame) (old : Nat) (res : Nat → Bool) : Nat :=
  if fr.idle then old
  else assemble 1 (fun i => fr.pick i (bitOf old i).toNat (fun j => (res j).toNat) 0) vlen

/-- The flags raised by the active elements (R50). -/
def flagsOver (fr : Frame) (f : Nat → Nat) : Nat :=
  (List.range fr.vgrant).foldl (fun a i => if fr.on i then a ||| f i else a) 0

/-- The number of active elements, N of R303. -/
def Frame.count (fr : Frame) : Nat := (List.range fr.vgrant).foldl (fun a i => if fr.on i then a + 1 else a) 0

def DevCsr.raise (d : DevCsr) (fl : Nat) : DevCsr := { d with vfcsr := d.vfcsr ||| BitVec.ofNat 10 fl }
def Ctx.raise (t : Ctx) (fl : Nat) : Ctx := { t with dev := t.dev.raise fl }
def DevCsr.rm (d : DevCsr) : Nat := d.vfcsr.toNat % 8
def DevCsr.sat (d : DevCsr) : Bool := d.vfcsr.getLsbD 9

/-! ### Tags (Table 01-5) -/

def intTag (d : DevCsr) : Bool :=
  match d.ewCode with
  | 0 => d.tag == 1 | 1 => d.tag == 0 | 2 => d.tag == 0 | 3 => d.tag == 0 | 4 => d.tag == 0 | _ => false

/-- The floating format of a width in bits and a tag, E2M1 and the eight-bit formats among them. -/
def fmtOf (ew tag : Nat) : Option FFmt :=
  match ew, tag with
  | 4, 0 => some .e2m1 | 8, 1 => some .e4m3 | 8, 2 => some .e5m2 | 16, 1 => some .fp16 | 16, 2 => some .bf16
  | 32, 1 => some .fp32 | 64, 1 => some .fp64 | _, _ => none

/-- The FP tags of R128. -/
def FFmt.isFP : FFmt → Bool
  | .fp64 => true | .fp32 => true | .fp16 => true | .bf16 => true | _ => false

/-- The format of vtype, none for an integer tag or long floats. -/
def DevCsr.fmt (d : DevCsr) : Option FFmt := if d.isLf then none else fmtOf d.ew d.tag
def fpTag (d : DevCsr) : Bool := match d.fmt with | some f => f.isFP | none => false
/-- The format of vtype where an instruction accepts FP tags only. -/
def DevCsr.fp (d : DevCsr) : FFmt := d.fmt.getD .fp64

/-! ### Second sources (R127) -/

def sext5 (i : Reg) (w : Nat) : Nat := lowBits (i.signExtend 64).toNat w + (if i.toNat ≥ 16 ∧ 64 < w then (1 <<< w) - (1 <<< 64) else 0)

/-- op1 of element i. -/
def op1 (s : State) (sh : Shape) (src : Src) : Nat → Nat :=
  match src with
  | .vv r => let v := s.getGroup r.toNat sh.g; fun i => sh.get v i
  | .vx r => let w := lowBits (s.xr r).toNat sh.ew; fun _ => w
  | .vi i => let w := sext5 i sh.ew; fun _ => w
  | .vf r => let w := lowBits (s.xr r).toNat sh.ew; fun _ => w

/-- The group a source reads: none for a scalar or an immediate. -/
def srcGroup (src : Src) (n : Nat) : List (Nat × Nat) :=
  match src with
  | .vv r => [(r.toNat, n)]
  | _ => []

def srcIsV : Src → Bool
  | .vv _ => true
  | _ => false

/-! ### Register groups (R27, R129) -/

/-- A group starts at a register number divisible by its size. -/
def grpOk (g : Nat × Nat) : Bool := decide (g.1 % g.2 = 0)
def grpMeet (a b : Nat × Nat) : Bool := decide (a.1 < b.1 + b.2) && decide (b.1 < a.1 + a.2)

/-- What an instruction states about itself before it runs. -/
structure VInfo where
  ok : Bool := true                  -- widths, tags and other conditions of its entry
  masked : Bool := false
  maskDst : Bool := false            -- the destination is a mask
  overMask : Bool := false           -- masked, it may still name a group with v0 (R77 is of VA instructions only, log 34)
  apart : Bool := false              -- the destination may meet no source (R129, last item)
  zeroStart : Bool := false          -- R130
  rounds : Bool := false             -- it rounds by vfcsr.rm
  vill : Bool := false               -- it runs under vtype.vill
  srcs : List (Nat × Nat) := []      -- register groups read
  dst : List (Nat × Nat) := []       -- register groups written
  n : Nat := 0                       -- elements a masked instruction classifies (R29)
  load : Bool := false               -- a load, vldr or vacc.x (R119)
  plain : Bool := false              -- a bound source faults (R113)
  charge : Nat := 0                  -- R303
  active : Nat → Bool := fun _ => true

/-- A destination may meet a source only by coinciding with a group of its own size; a mask destination only a mask, or any
source when G = 1. -/
def VInfo.pairOk (i : VInfo) (d c : Nat × Nat) : Bool :=
  !grpMeet d c || (!i.apart && (d == c || (i.maskDst && c.2 == 1)))

def VInfo.meetsV0 (i : VInfo) : Bool := i.dst.any (fun d => d.1 == 0)

/-- The conditions under which an instruction is legal in a state. -/
def VInfo.legal (s : State) (i : VInfo) : Bool :=
  let d := s.hart.dev
  (i.vill || !d.vill) && i.ok &&
  (!i.masked || (decide (i.n ≤ s.hart.vlen) && (!i.meetsV0 || i.overMask || (i.maskDst && !i.apart)))) &&
  i.srcs.all grpOk && i.dst.all grpOk && i.dst.all (fun a => i.srcs.all (i.pairOk a)) &&
  (!i.zeroStart || d.vstart == 0) && (!i.rounds || decide (d.rm < 6))

def VInfo.reads (i : VInfo) : List (Nat × Nat) := if i.masked then (0, 1) :: i.srcs else i.srcs

/-! ### Empty registers (R37) -/

/-- The first empty register among groups that has, or lacks, its trap bit. -/
def Ctx.emptyIn (t : Ctx) (trap : Bool) (gs : List (Nat × Nat)) : Option Nat :=
  gs.findSome? (fun g => ((List.range g.2).map (· + g.1)).find? (fun r =>
    !t.isFull r && (t.dev.vetrap.getLsbD (r % 32) == trap)))

def Ctx.anyEmpty (t : Ctx) (gs : List (Nat × Nat)) : Bool :=
  gs.any (fun g => (t.firstEmpty g.1 g.2).isSome)

/-! ### Bound registers (R116, R119, R121) -/

/-- The first bound register of a group. -/
def Ctx.boundIn (t : Ctx) (g : Nat × Nat) : Option Nat :=
  ((List.range g.2).map (· + g.1)).find? (fun r => (t.binding r).isSome)

def boundGroup (t : Ctx) (gs : List (Nat × Nat)) : Option Nat :=
  gs.findSome? (fun g => if 1 < g.2 then t.boundIn g else none)

/-- The bound registers read, each once. -/
def Ctx.boundReads (t : Ctx) (gs : List (Nat × Nat)) : List Nat :=
  (gs.filterMap (fun g => if g.2 = 1 then t.boundIn g else none)).eraseDups

def readySources (s : State) : List Nat → Ready
  | [] => .ok s
  | r :: rs =>
    match s.hart.binding r with
    | none => readySources s rs
    | some b =>
      match readyInput s b with
      | .ok s1 => readySources s1 rs
      | other => other

/-- The bound registers written, each once. -/
def Ctx.boundWrites (t : Ctx) (gs : List (Nat × Nat)) : List Nat := (gs.filterMap t.boundIn).eraseDups

def readyDests (s : State) (i : VInfo) : List Nat → Ready
  | [] => .ok s
  | r :: rs =>
    match s.hart.binding r with
    | none => readyDests s i rs
    | some b =>
      match (if i.load then Ready.fault (boundFault r 1) else readyOutput s b i.active) with
      | .ok s1 => readyDests s1 i rs
      | other => other

/-- Everything the bound registers of an instruction ask for before it runs. -/
def readyBound (s : State) (i : VInfo) : Ready :=
  if s.hart.binds.isEmpty then .ok s
  else match boundGroup s.hart (i.reads ++ i.dst) with
  | some r => .fault (boundFault r 8)
  | none =>
    match (if i.plain then s.hart.boundReads i.srcs else []) with
    | r :: _ => .fault (boundFault r 1)
    | [] =>
    match readySources s (s.hart.boundReads i.reads) with
    | .ok s1 => readyDests s1 i (s1.hart.boundWrites i.dst)
    | other => other

/-! ### The dispatch gate (R303, R304) -/

/-- charge = ceil(N × EW / 64) × weight (R303). -/
def chargeFor (n ew weight : Nat) : Nat := (n * ew + 63) / 64 * weight

/-- The charge a claim of another context adds. -/
def Gate.others (g : Gate) (x : Nat) : Nat :=
  match g.claim with
  | some (y, n) => if y = x then 0 else n
  | none => 0

def Gate.claimedBy (g : Gate) (x : Nat) : Bool :=
  match g.claim with
  | some (y, _) => y == x
  | none => false

/-- The test of R304. -/
def Gate.passes (g : Gate) (x charge : Nat) : Bool :=
  decide (g.level + charge + g.others x ≤ 256 * g.cap.toNat) ||
    (decide (g.level = 0) && (g.claim.isNone || g.claimedBy x))

def Gate.charged (g : Gate) (x charge : Nat) : Gate :=
  { g with level := g.level + charge, claim := if g.claimedBy x then none else g.claim }

/-- A refusal places a claim where none exists, and is counted (R304, GATEREF). -/
def Gate.refuse (g : Gate) (x charge : Nat) : Gate :=
  { g with refused := g.refused + 1, claim := if g.claim.isNone then some (x, charge) else g.claim }

def State.modGate (s : State) (f : Gate → Gate) : State := s.modMyCore (fun k => { k with gate := f k.gate })

/-- Unready for another reason than the gate: a claim of this context ends (R304). -/
def waitUnready (s : State) : Body := .wait (dropClaim s s.cur.1 s.cur.2)

/-! ### The wrapper -/

/-- After an instruction: bound sources move on at the grant it ran with, a bound destination emits, and a write to an output
whose stream has ended is discarded (R116). -/
def closeBound (s0 s : State) (i : VInfo) : State :=
  if s0.hart.binds.isEmpty then s
  else
    let vg := s.hart.dev.vgrant
    let grant := fun (u : State) g => u.modHart (fun t => { t with dev := { t.dev with vgrant := g } })
    let s1 := (s0.hart.boundReads i.reads).foldl consume (grant s s0.hart.dev.vgrant)
    grant ((s0.hart.boundWrites i.dst).foldl (fun u r =>
      match s0.hart.binding r with
      | some b => if b.ended then u.setV r (s0.getV r) else emit u r i.active
      | none => u) s1) vg

def Ctx.zeroStart (t : Ctx) : Ctx := { t with dev := { t.dev with vstart := 0 } }

def closeVec (s0 : State) (i : VInfo) (b : Body) : Body :=
  match b with
  | .next s => .next (closeBound s0 (s.modHart Ctx.zeroStart) i)
  | other => other

/-- The instruction is unready for an empty register: a destination, or a source without its trap bit (R37, R38). -/
def Ctx.unreadyFor (t : Ctx) (i : VInfo) : Bool := t.anyEmpty i.dst || (t.emptyIn false i.reads).isSome

/-- The gate lets an instruction of the running hart issue: a replay is not tested again (R303, R436). -/
def State.gateOpen (s : State) (charge : Nat) : Bool := s.hart.charged || s.myCore.gate.passes s.cur.2 charge

/-- The charge, once per instruction (R303). -/
def State.chargeGate (s : State) (charge : Nat) : State :=
  if s.hart.charged then s else s.modGate (fun g => g.charged s.cur.2 charge)

/-- A charged instruction: legality, empty registers, bound registers, a check of its own, the dispatch gate, then its effect. -/
def vecChecked (s : State) (i : VInfo) (check : State → Option Exc) (f : State → Body) : Body :=
  if !i.legal s then illegal s
  else if s.hart.unreadyFor i then waitUnready s
  else match s.hart.emptyIn true i.reads with
  | some r => .trap { cause := 24, tval := r % 32 } s
  | none =>
    match readyBound s i with
    | .fault e => .trap e s
    | .notYet s1 => waitUnready s1
    | .ok s1 =>
      match check s1 with
      | some e => .trap e s1
      | none =>
        if s1.gateOpen i.charge then
          let s2 := s1.chargeGate i.charge
          match closeVec s2 i (f s2) with
          | .wait s3 => waitUnready (s3.modGate (fun _ => s1.myCore.gate))
          | done => done
        else .wait (s1.modGate (fun g => g.refuse s1.cur.2 i.charge))

/-- A charged instruction without a check of its own. -/
def vec (s : State) (i : VInfo) (f : State → Body) : Body := vecChecked s i (fun _ => none) f

/-! ### Elementwise instructions (R127) -/

/-- Writes a destination group through the common frame with the flags of the active elements. -/
def writeElems (s : State) (sh : Shape) (m : Bool) (vd : Reg) (res : Nat → Nat × Nat) : State :=
  let fr := s.frame m
  let s1 := s.setGroup vd.toNat sh.g (writeFrame sh fr (s.getGroup vd.toNat sh.g) (fun i => (res i).1))
  s1.modHart (fun t => t.raise (flagsOver fr (fun i => (res i).2)))

/-- Writes a mask destination with the flags of the active elements. -/
def writeMaskElems (s : State) (m : Bool) (vd : Reg) (res : Nat → Bool × Nat) : State :=
  let fr := s.frame m
  let s1 := s.setV vd.toNat (writeMask s.hart.vlen fr (s.getV vd.toNat) (fun i => (res i).1))
  s1.modHart (fun t => t.raise (flagsOver fr (fun i => (res i).2)))

/-- The information of an instruction with G registers of vtype's width in every group. -/
def infoB (s : State) (ok : Bool) (weight : Nat) (o : OpB) : VInfo :=
  let sh := s.shape
  { ok := ok, masked := o.m, n := sh.n, srcs := (o.vs2.toNat, sh.g) :: srcGroup o.src sh.g, dst := [(o.vd.toNat, sh.g)],
    charge := chargeFor (s.frame o.m).count sh.ew weight, active := (s.frame o.m).on }

def infoU (s : State) (ok : Bool) (weight : Nat) (o : OpU) : VInfo :=
  let sh := s.shape
  { ok := ok, masked := o.m, n := sh.n, srcs := [(o.vs2.toNat, sh.g)], dst := [(o.vd.toNat, sh.g)],
    charge := chargeFor (s.frame o.m).count sh.ew weight, active := (s.frame o.m).on }

/-- What an element function sees: the width, the rounding mode, and vtype's format. -/
structure ElemEnv where
  w : Nat
  rm : Nat
  fmt : FFmt
  deriving DecidableEq, Repr

def State.elemEnv (s : State) : ElemEnv := { w := s.hart.dev.ew, rm := s.hart.dev.rm, fmt := s.hart.dev.fp }

/-- Result(i) = f(vs2[i], op1, vd[i]) over the common frame. -/
def elemB (s : State) (o : OpB) (f : ElemEnv → Nat → Nat → Nat → Nat × Nat) : Body :=
  let sh := s.shape
  let a := s.getGroup o.vs2.toNat sh.g
  let c := s.getGroup o.vd.toNat sh.g
  let b := op1 s sh o.src
  let e := s.elemEnv
  .next (writeElems s sh o.m o.vd (fun i => f e (sh.get a i) (b i) (sh.get c i)))

/-- Result(i) = f(vs2[i]). -/
def elemU (s : State) (o : OpU) (f : ElemEnv → Nat → Nat × Nat) : Body :=
  let sh := s.shape
  let a := s.getGroup o.vs2.toNat sh.g
  let e := s.elemEnv
  .next (writeElems s sh o.m o.vd (fun i => f e (sh.get a i)))

/-! ### Loads in flight (R37) -/

/-- Leaves a group of n registers at vd empty until the load's completion event lands a value in it. -/
def State.fly (s : State) (vd n val : Nat) : State :=
  let l : Landing := { vd := vd, count := n, vlen := s.hart.vlen, val := val }
  (s.modHart (fun t => { t with landing := t.landing ++ [l] }.setFullGroup vd false n)).later
    (.vectorLoadComplete s.cur.1 s.cur.2 (BitVec.ofNat 5 vd))

/-! ### Gang segments (R131) -/

/-- Members of the running hart's gang, 1 outside one. -/
def State.members (s : State) : Nat := (s.slicesOf s.cur.1 s.cur.2).length
/-- Elements per member, VLMAX / s (R131). DESIGN CHOICE (log 36): where VLMAX is below s, so that the quotient is 0, a segment has one
element; elements above s segments belong to no member. -/
def State.seg (s : State) : Nat := max 1 (s.shape.n / max 1 s.members)
/-- The grant of member m's segment. -/
def segGrant (vgrant seg m : Nat) : Nat := min seg (vgrant - m * seg)

end Sys2Proof.Machine
end

