-- ==== Sys2Proof/Machine/VInt.lean ====
section
/-! DEFINITION. Custom-0 groups 0 and 1: integer arithmetic, logic, shifts, saturation, vmerge and vmv (R132 to R136). -/
namespace Sys2Proof.Machine

/-! ### Element functions (Tables 05-2, 05-3) -/

def sdivElem (w a b : Nat) : Nat :=
  if b = 0 then (1 <<< w) - 1 else ofInt w (Int.tdiv (toInt w a) (toInt w b))
def udivElem (w a b : Nat) : Nat := if b = 0 then (1 <<< w) - 1 else a / b
def sremElem (w a b : Nat) : Nat := if b = 0 then a else ofInt w (Int.tmod (toInt w a) (toInt w b))
def uremElem (a b : Nat) : Nat := if b = 0 then a else a % b
def sminElem (w a b : Nat) : Nat := if toInt w a ≤ toInt w b then a else b
def smaxElem (w a b : Nat) : Nat := if toInt w a ≤ toInt w b then b else a

/-- The shift amount: the low log2(EW) bits (R134). -/
def shamt (w b : Nat) : Nat := b % w

/-- Leading zeros of an element of w bits. -/
def clzElem (w a : Nat) : Nat := if a = 0 then w else w - 1 - Nat.log2 a

def popElem : Nat → Nat → Nat
  | 0, _ => 0
  | n + 1, a => a % 2 + popElem n (a / 2)

/-- Flags are never raised by these groups. -/
def quiet (v : Nat) : Nat × Nat := (v, 0)

/-- A group 0 or 1 instruction with two sources. DESIGN CHOICE (log 36): saturating adds and subtracts and vnclip form integers and do
not count as rounding, so vfcsr.rm 6 and 7 do not make them illegal. -/
def intB (o : OpB) (weight : Nat) (f : ElemEnv → Nat → Nat → Nat) (s : State) : Outcome :=
  finish (vec s (infoB s (intTag s.hart.dev) weight o) (fun u => elemB u o (fun e a b _ => quiet (f e a b))))

/-- The accumulating forms read vd as a third source (R133). -/
def withThird (i : VInfo) : VInfo := { i with srcs := i.srcs ++ i.dst }

def intAcc (o : OpB) (f : ElemEnv → Nat → Nat → Nat → Nat) (s : State) : Outcome :=
  finish (vec s (withThird (infoB s (intTag s.hart.dev) 3 o)) (fun u => elemB u o (fun e a b c => quiet (f e a b c))))

def intU (o : OpU) (f : ElemEnv → Nat → Nat) (s : State) : Outcome :=
  finish (vec s (infoU s (intTag s.hart.dev) 1 o) (fun u => elemU u o (fun e a => quiet (f e a))))

/-! ### Group 0 (R132, R133) -/

/-- vadd -/
def execVadd (o : OpB) (s : State) : Outcome := intB o 1 (fun e a b => lowBits (a + b) e.w) s
/-- vsub -/
def execVsub (o : OpB) (s : State) : Outcome := intB o 1 (fun e a b => ofInt e.w ((a : Int) - b)) s
/-- vrsub -/
def execVrsub (o : OpB) (s : State) : Outcome := intB o 1 (fun e a b => ofInt e.w ((b : Int) - a)) s
/-- vmul -/
def execVmul (o : OpB) (s : State) : Outcome := intB o 3 (fun e a b => lowBits (a * b) e.w) s
/-- vmulh -/
def execVmulh (o : OpB) (s : State) : Outcome :=
  intB o 3 (fun e a b => ofInt e.w (Int.fdiv (toInt e.w a * toInt e.w b) ((1 <<< e.w : Nat) : Int))) s
/-- vmulhu -/
def execVmulhu (o : OpB) (s : State) : Outcome := intB o 3 (fun e a b => (a * b) >>> e.w) s
/-- vmacc -/
def execVmacc (o : OpB) (s : State) : Outcome := intAcc o (fun e a b c => lowBits (c + a * b) e.w) s
/-- vnmsac -/
def execVnmsac (o : OpB) (s : State) : Outcome := intAcc o (fun e a b c => ofInt e.w ((c : Int) - a * b)) s
/-- vdiv -/
def execVdiv (o : OpB) (s : State) : Outcome := intB o 4 (fun e a b => sdivElem e.w a b) s
/-- vdivu -/
def execVdivu (o : OpB) (s : State) : Outcome := intB o 4 (fun e a b => udivElem e.w a b) s
/-- vrem -/
def execVrem (o : OpB) (s : State) : Outcome := intB o 4 (fun e a b => sremElem e.w a b) s
/-- vremu -/
def execVremu (o : OpB) (s : State) : Outcome := intB o 4 (fun _ a b => uremElem a b) s
/-- vmin -/
def execVmin (o : OpB) (s : State) : Outcome := intB o 1 (fun e a b => sminElem e.w a b) s
/-- vminu -/
def execVminu (o : OpB) (s : State) : Outcome := intB o 1 (fun _ a b => min a b) s
/-- vmax -/
def execVmax (o : OpB) (s : State) : Outcome := intB o 1 (fun e a b => smaxElem e.w a b) s
/-- vmaxu -/
def execVmaxu (o : OpB) (s : State) : Outcome := intB o 1 (fun _ a b => max a b) s

/-! ### Group 1 (R134, R135) -/

/-- vand -/
def execVand (o : OpB) (s : State) : Outcome := intB o 1 (fun _ a b => Nat.land a b) s
/-- vor -/
def execVor (o : OpB) (s : State) : Outcome := intB o 1 (fun _ a b => Nat.lor a b) s
/-- vxor -/
def execVxor (o : OpB) (s : State) : Outcome := intB o 1 (fun _ a b => Nat.xor a b) s
/-- vsll -/
def execVsll (o : OpB) (s : State) : Outcome := intB o 1 (fun e a b => lowBits (a <<< shamt e.w b) e.w) s
/-- vsrl -/
def execVsrl (o : OpB) (s : State) : Outcome := intB o 1 (fun e a b => a >>> shamt e.w b) s
/-- vsra -/
def execVsra (o : OpB) (s : State) : Outcome :=
  intB o 1 (fun e a b => ofInt e.w (Int.fdiv (toInt e.w a) ((1 <<< shamt e.w b : Nat) : Int))) s
/-- vsadd -/
def execVsadd (o : OpB) (s : State) : Outcome :=
  intB o 1 (fun e a b => ofInt e.w (clampInt e.w true (toInt e.w a + toInt e.w b))) s
/-- vsaddu -/
def execVsaddu (o : OpB) (s : State) : Outcome :=
  intB o 1 (fun e a b => ofInt e.w (clampInt e.w false ((a : Int) + b))) s
/-- vssub -/
def execVssub (o : OpB) (s : State) : Outcome :=
  intB o 1 (fun e a b => ofInt e.w (clampInt e.w true (toInt e.w a - toInt e.w b))) s
/-- vssubu -/
def execVssubu (o : OpB) (s : State) : Outcome :=
  intB o 1 (fun e a b => ofInt e.w (clampInt e.w false ((a : Int) - b))) s

/-- vsmul's conditions. -/
def smulInfo (s : State) (o : OpB) : VInfo := { infoB s (intTag s.hart.dev) 3 o with rounds := true }

/-- vsmul rounds by vfcsr.rm (R134). -/
def execVsmul (o : OpB) (s : State) : Outcome :=
  finish (vec s (smulInfo s o) (fun u => elemB u o (fun e a b _ =>
    quiet (satRound e.w true (toInt e.w a * toInt e.w b) (1 <<< (e.w - 1)) e.rm))))

/-- vclz -/
def execVclz (o : OpU) (s : State) : Outcome := intU o (fun e a => clzElem e.w a) s
/-- vcpop -/
def execVcpop (o : OpU) (s : State) : Outcome := intU o (fun e a => popElem e.w a) s
/-- vabsd -/
def execVabsd (o : OpB) (s : State) : Outcome := intB o 1 (fun e a b => (toInt e.w a - toInt e.w b).natAbs) s

/-! ### vmerge and vmv (R136) -/

/-- vmerge's conditions and charge. -/
def mergeInfo (s : State) (o : OpB) : VInfo :=
  { infoB s (srcIsV o.src || !s.hart.dev.isLf) 1 o with
    charge := chargeFor (s.frame true).count s.shape.ew 1, active := (s.frame false).on }

/-- vmerge: every element from vstart to vgrant is written, by v0's bit with op1 or vs2; vtype.ma has no effect. -/
def execVmerge (o : OpB) (s : State) : Outcome :=
  finish (vec s (mergeInfo s o) (fun u =>
    let sh := u.shape
    let a := u.getGroup o.vs2.toNat sh.g
    let b := op1 u sh o.src
    let m := u.getV 0
    .next (writeElems u sh false o.vd (fun j => quiet (if bitOf m j then b j else sh.get a j)))))

/-- vmv's conditions and charge. -/
def moveInfo (s : State) (o : OpD) : VInfo :=
  let sh := s.shape
  { ok := srcIsV o.src || !s.hart.dev.isLf, n := sh.n, srcs := srcGroup o.src sh.g, dst := [(o.vd.toNat, sh.g)],
    charge := chargeFor (s.frame false).count sh.ew 1, active := (s.frame false).on }

/-- vmv: never masked. -/
def execVmv (o : OpD) (s : State) : Outcome :=
  finish (vec s (moveInfo s o) (fun u =>
    let b := op1 u u.shape o.src
    .next (writeElems u u.shape false o.vd (fun j => quiet (b j)))))

end Sys2Proof.Machine
end

