-- ==== Sys2Proof/Machine/VMask.lean ====
section
/-! DEFINITION. Custom-0 groups 2 and 3: compares, mask logic, viota, vid, and moves between masks and x registers
(R137 to R143). -/
namespace Sys2Proof.Machine

/-! ### Compares (R138, R139) -/

/-- A compare: a mask destination of one register from two sources of G registers. -/
def infoCmp (s : State) (ok : Bool) (weight : Nat) (o : OpB) : VInfo :=
  { infoB s ok weight o with maskDst := true, dst := [(o.vd.toNat, 1)] }

def cmpB (s : State) (o : OpB) (f : ElemEnv → Nat → Nat → Bool × Nat) : Body :=
  let sh := s.shape
  let a := s.getGroup o.vs2.toNat sh.g
  let b := op1 s sh o.src
  let e := s.elemEnv
  .next (writeMaskElems s o.m o.vd (fun i => f e (sh.get a i) (b i)))

def intCmp (o : OpB) (f : Nat → Nat → Nat → Bool) (s : State) : Outcome :=
  finish (vec s (infoCmp s (intTag s.hart.dev) 1 o) (fun u => cmpB u o (fun e a b => (f e.w a b, 0))))

/-- vmseq -/
def execVmseq (o : OpB) (s : State) : Outcome := intCmp o (fun _ a b => a == b) s
/-- vmsne -/
def execVmsne (o : OpB) (s : State) : Outcome := intCmp o (fun _ a b => a != b) s
/-- vmslt -/
def execVmslt (o : OpB) (s : State) : Outcome := intCmp o (fun w a b => decide (toInt w a < toInt w b)) s
/-- vmsltu -/
def execVmsltu (o : OpB) (s : State) : Outcome := intCmp o (fun _ a b => decide (a < b)) s
/-- vmsle -/
def execVmsle (o : OpB) (s : State) : Outcome := intCmp o (fun w a b => decide (toInt w a ≤ toInt w b)) s
/-- vmsleu -/
def execVmsleu (o : OpB) (s : State) : Outcome := intCmp o (fun _ a b => decide (a ≤ b)) s
/-- vmsgt -/
def execVmsgt (o : OpB) (s : State) : Outcome := intCmp o (fun w a b => decide (toInt w b < toInt w a)) s
/-- vmsgtu -/
def execVmsgtu (o : OpB) (s : State) : Outcome := intCmp o (fun _ a b => decide (b < a)) s

/-- Table 05-4: a relation, the answer for a NaN operand, and whether every NaN raises NV. -/
def fpCmp (o : OpB) (rel : Ev → Ev → Bool) (nanGives anyNan : Bool) (s : State) : Outcome :=
  finish (vec s (infoCmp s (fpTag s.hart.dev) 2 o) (fun u => cmpB u o (fun e a b =>
    let x := e.fmt.decode a
    let y := e.fmt.decode b
    if x.isNan || y.isNan then (nanGives, if anyNan || x.sigNan || y.sigNan then flNV else 0) else (rel x y, 0))))

/-- vmfeq -/
def execVmfeq (o : OpB) (s : State) : Outcome := fpCmp o Ev.eq false false s
/-- vmfne -/
def execVmfne (o : OpB) (s : State) : Outcome := fpCmp o (fun x y => !x.eq y) true false s
/-- vmflt -/
def execVmflt (o : OpB) (s : State) : Outcome := fpCmp o Ev.lt false true s
/-- vmfle -/
def execVmfle (o : OpB) (s : State) : Outcome := fpCmp o (fun x y => !y.lt x) false true s
/-- vmfgt -/
def execVmfgt (o : OpB) (s : State) : Outcome := fpCmp o (fun x y => y.lt x) false true s
/-- vmfge -/
def execVmfge (o : OpB) (s : State) : Outcome := fpCmp o (fun x y => !x.lt y) false true s

/-! ### Mask logic (R140) -/

def srcReg : Src → Reg
  | .vv r => r | .vx r => r | .vi r => r | .vf r => r

/-- Every operand is one mask register, at every legal vtype. -/
def logicInfo (s : State) (o : OpB) : VInfo :=
  let fr := s.frame false
  { maskDst := true, srcs := [(o.vs2.toNat, 1), ((srcReg o.src).toNat, 1)], dst := [(o.vd.toNat, 1)],
    charge := chargeFor fr.count s.shape.ew 1, active := fr.on }

def maskLogic (o : OpB) (f : Bool → Bool → Bool) (s : State) : Outcome :=
  finish (vec s (logicInfo s o) (fun u =>
    let a := u.getV o.vs2.toNat
    let b := u.getV (srcReg o.src).toNat
    .next (writeMaskElems u false o.vd (fun i => (f (bitOf a i) (bitOf b i), 0)))))

/-- vmand -/
def execVmand (o : OpB) (s : State) : Outcome := maskLogic o (fun a b => a && b) s
/-- vmor -/
def execVmor (o : OpB) (s : State) : Outcome := maskLogic o (fun a b => a || b) s
/-- vmxor -/
def execVmxor (o : OpB) (s : State) : Outcome := maskLogic o (fun a b => a != b) s
/-- vmandn -/
def execVmandn (o : OpB) (s : State) : Outcome := maskLogic o (fun a b => a && !b) s

/-! ### vmsbf, vmsif, vmsof (R141, R131) -/

/-- The lowest i from a start, over n positions, that satisfies p. -/
def firstFrom (p : Nat → Bool) : Nat → Nat → Option Nat
  | 0, _ => none
  | n + 1, i => if p i then some i else firstFrom p n (i + 1)

/-- Within the segment of position i, f of R141 as an absolute position: the lowest active set bit, or the end of the segment's
grant. -/
def segFirst (fr : Frame) (seg : Nat) (v i : Nat) : Nat :=
  let base := i / seg * seg
  let n := min seg (fr.vgrant - base)
  (firstFrom (fun j => fr.on j && bitOf v j) n base).getD (base + n)

def firstInfo (s : State) (o : OpU) : VInfo :=
  let fr := s.frame o.m
  { masked := o.m, n := s.shape.n, maskDst := true, apart := true, zeroStart := true, srcs := [(o.vs2.toNat, 1)],
    dst := [(o.vd.toNat, 1)], charge := chargeFor fr.count s.shape.ew 1, active := fr.on }

def maskFirst (o : OpU) (f : Nat → Nat → Bool) (s : State) : Outcome :=
  finish (vec s (firstInfo s o) (fun u =>
    let v := u.getV o.vs2.toNat
    let fr := u.frame o.m
    let seg := u.seg
    .next (writeMaskElems u o.m o.vd (fun i => (f i (segFirst fr seg v i), 0)))))

/-- vmsbf -/
def execVmsbf (o : OpU) (s : State) : Outcome := maskFirst o (fun i f => decide (i < f)) s
/-- vmsif -/
def execVmsif (o : OpU) (s : State) : Outcome := maskFirst o (fun i f => decide (i ≤ f)) s
/-- vmsof -/
def execVmsof (o : OpU) (s : State) : Outcome := maskFirst o (fun i f => decide (i = f)) s

/-! ### viota, vid (R142) -/

/-- viota and vid accept integer tags at ew 1 to 4. -/
def iotaOk (d : DevCsr) : Bool := intTag d && d.ewCode != 0

/-- The number of positions from a base, over n, that satisfy p. -/
def countFrom (p : Nat → Bool) : Nat → Nat → Nat
  | 0, _ => 0
  | n + 1, i => (p i).toNat + countFrom p n (i + 1)

def iotaInfo (s : State) (o : OpU) : VInfo :=
  { infoU s (iotaOk s.hart.dev) 1 o with srcs := [(o.vs2.toNat, 1)], apart := true, zeroStart := true }

/-- viota: counts are local to each segment. -/
def execViota (o : OpU) (s : State) : Outcome :=
  finish (vec s (iotaInfo s o) (fun u =>
    let v := u.getV o.vs2.toNat
    let m := u.getV 0
    let seg := u.seg
    .next (writeElems u u.shape o.m o.vd (fun j =>
      let base := j / seg * seg
      quiet (countFrom (fun q => bitOf v q && (!o.m || bitOf m q)) (j - base) base)))))

def vidInfo (s : State) (o : OpZ) : VInfo :=
  let sh := s.shape
  let fr := s.frame o.m
  { ok := iotaOk s.hart.dev, masked := o.m, n := sh.n, dst := [(o.vd.toNat, sh.g)], charge := chargeFor fr.count sh.ew 1,
    active := fr.on }

/-- vid: indices are local to each segment (R142; log 17). -/
def execVid (o : OpZ) (s : State) : Outcome :=
  finish (vec s (vidInfo s o) (fun u =>
    let seg := u.seg
    .next (writeElems u u.shape o.m o.vd (fun j => quiet (lowBits (j % seg) u.shape.ew)))))

/-! ### Masks and x registers (R143) -/

def maskXInfo (s : State) (o : OpXR) : VInfo :=
  { masked := o.m, n := s.shape.n, srcs := [(o.vs2.toNat, 1)], charge := chargeFor (s.frame o.m).count s.shape.ew 1 }

def maskToX (o : OpXR) (f : State → Frame → Nat → Word) (s : State) : Outcome :=
  finish (vec s (maskXInfo s o) (fun u =>
    .next (u.setX o.rd (f u (u.frame o.m) (u.getV o.vs2.toNat)))))

/-- vmcnt counts over the whole vector. -/
def execVmcnt (o : OpXR) (s : State) : Outcome :=
  maskToX o (fun _ fr v => BitVec.ofNat 64 (countFrom (fun i => fr.on i && bitOf v i) fr.vgrant 0)) s

/-- vmfirst: the lowest active set bit, or all ones. -/
def execVmfirst (o : OpXR) (s : State) : Outcome :=
  maskToX o (fun _ fr v =>
    match firstFrom (fun i => fr.on i && bitOf v i) fr.vgrant 0 with
    | some i => BitVec.ofNat 64 i
    | none => BitVec.allOnes 64) s

/-- vmtox: bits 0 to 63, zero from vgrant on; in a gang, those of the leader's elements (R131). -/
def execVmtox (o : OpXR) (s : State) : Outcome :=
  maskToX o (fun u fr v => BitVec.ofNat 64 (lowBits v (min 64 (min u.seg (min fr.vgrant u.hart.vlen))))) s

def fromxInfo (s : State) (o : OpD) : VInfo :=
  let fr := s.frame false
  { maskDst := true, dst := [(o.vd.toNat, 1)], charge := chargeFor fr.count s.shape.ew 1, active := fr.on }

/-- vmfromx: in a gang, the bits of the other members' elements stay (R131). -/
def execVmfromx (o : OpD) (s : State) : Outcome :=
  finish (vec s (fromxInfo s o)
    (fun u =>
      let w := (u.xr (srcReg o.src)).toNat
      let old := u.getV o.vd.toNat
      let seg := u.seg
      .next (writeMaskElems u false o.vd (fun i => (if i < seg then decide (i < 64) && bitOf w i else bitOf old i, 0)))))

end Sys2Proof.Machine
end

