-- ==== Sys2Proof/Machine/VFloat.lean ====
section
/-! DEFINITION. Custom-0 groups 4 and 5: floating-point arithmetic (R144 to R147), conversions and width changes
(R148 to R150). -/
namespace Sys2Proof.Machine

/-! ### Group 4 (R144 to R147) -/

/-- The conditions of a rounding floating-point instruction; the fused forms read vd as a third source. -/
def fpInfo (s : State) (o : OpB) (weight : Nat) (third : Bool) : VInfo :=
  let i := { infoB s (fpTag s.hart.dev) weight o with rounds := true }
  if third then withThird i else i

/-- A rounding floating-point instruction: RoundTo(fmt, exact, vfcsr.rm) with the flags of the exact operation. -/
def fpB (o : OpB) (weight : Nat) (f : ElemEnv → Ev → Ev → Ev → Ev × Nat) (third : Bool) (s : State) : Outcome :=
  finish (vec s (fpInfo s o weight third) (fun u => elemB u o (fun e a b c =>
    let r := f e (e.fmt.decode a) (e.fmt.decode b) (e.fmt.decode c)
    let q := roundTo e.fmt r.1 e.rm false
    (q.1, r.2 ||| q.2))))

def nvIf (p : Ev × Bool) : Ev × Nat := (p.1, if p.2 then flNV else 0)

/-- vfadd -/
def execVfadd (o : OpB) (s : State) : Outcome := fpB o 2 (fun e a b _ => nvIf (a.add e.rm b)) false s
/-- vfsub -/
def execVfsub (o : OpB) (s : State) : Outcome := fpB o 2 (fun e a b _ => nvIf (a.add e.rm b.neg)) false s
/-- vfmul -/
def execVfmul (o : OpB) (s : State) : Outcome := fpB o 3 (fun _ a b _ => nvIf (a.mul b)) false s
/-- vfdiv -/
def execVfdiv (o : OpB) (s : State) : Outcome := fpB o 4 (fun _ a b _ => a.div b) false s
/-- vfmadd -/
def execVfmadd (o : OpB) (s : State) : Outcome := fpB o 3 (fun e a b c => nvIf (Ev.fma e.rm a b c)) true s
/-- vfnmadd -/
def execVfnmadd (o : OpB) (s : State) : Outcome := fpB o 3 (fun e a b c => nvIf (Ev.fma e.rm a.neg b c.neg)) true s
/-- vfmsub -/
def execVfmsub (o : OpB) (s : State) : Outcome := fpB o 3 (fun e a b c => nvIf (Ev.fma e.rm a b c.neg)) true s
/-- vfnmsub -/
def execVfnmsub (o : OpB) (s : State) : Outcome := fpB o 3 (fun e a b c => nvIf (Ev.fma e.rm a.neg b c)) true s

def sqrtInfo (s : State) (o : OpU) : VInfo := { infoU s (fpTag s.hart.dev) 4 o with rounds := true }

/-- vfsqrt -/
def execVfsqrt (o : OpU) (s : State) : Outcome :=
  finish (vec s (sqrtInfo s o) (fun u => elemU u o (fun e a =>
    let r := nvIf (e.fmt.decode a).sqrt
    let q := roundTo e.fmt r.1 e.rm false
    (q.1, r.2 ||| q.2))))

/-- R145: the smaller or larger of two patterns, −0 below +0, never rounded. -/
def minMax (f : FFmt) (wantMax : Bool) (a b : Nat) : Nat × Nat :=
  let x := f.decode a
  let y := f.decode b
  let fl := if x.sigNan || y.sigNan then flNV else 0
  let aLess := x.lt y || (!y.lt x && x.isNeg && !y.isNeg)
  if x.isNan && y.isNan then (f.nanCode, fl)
  else if x.isNan then (b, fl)
  else if y.isNan then (a, fl)
  else (if aLess == wantMax then b else a, fl)

def fpRaw (o : OpB) (weight : Nat) (f : ElemEnv → Nat → Nat → Nat × Nat) (s : State) : Outcome :=
  finish (vec s (infoB s (fpTag s.hart.dev) weight o) (fun u => elemB u o (fun e a b _ => f e a b)))

/-- vfmin -/
def execVfmin (o : OpB) (s : State) : Outcome := fpRaw o 2 (fun e a b => minMax e.fmt false a b) s
/-- vfmax -/
def execVfmax (o : OpB) (s : State) : Outcome := fpRaw o 2 (fun e a b => minMax e.fmt true a b) s

/-- The bits of a with a sign bit (R146). -/
def withSignBit (w a : Nat) (sign : Bool) : Nat := a % (1 <<< (w - 1)) + (if sign then 1 <<< (w - 1) else 0)

/-- vfsgnj -/
def execVfsgnj (o : OpB) (s : State) : Outcome :=
  fpRaw o 2 (fun e a b => quiet (withSignBit e.w a (bitOf b (e.w - 1)))) s
/-- vfsgnjn -/
def execVfsgnjn (o : OpB) (s : State) : Outcome :=
  fpRaw o 2 (fun e a b => quiet (withSignBit e.w a (!bitOf b (e.w - 1)))) s
/-- vfsgnjx -/
def execVfsgnjx (o : OpB) (s : State) : Outcome :=
  fpRaw o 2 (fun e a b => quiet (withSignBit e.w a (bitOf a (e.w - 1) != bitOf b (e.w - 1)))) s

/-- Trunc8: a magnitude truncated to 8 significant bits, with no exponent limit (R147). -/
def trunc8 (m : Mag) : Mag :=
  let q := m.log2 - 7
  { n := (m.floorAt q).1, d := 1, e := q }

/-- vfrece of a value: the flags and the code. -/
def recipElem (f : FFmt) (a : Ev) : Nat × Nat :=
  match a with
  | .nan s => (f.nanCode, if s then flNV else 0)
  | .zero n => (f.withSign n f.infCode, flDZ)
  | .inf n => (f.withSign n 0, 0)
  | .fin n m => roundTo f (.fin n (trunc8 { n := m.d, d := m.n, e := -m.e })) 1 false

/-- vfrsqe of a value. -/
def rsqrtElem (f : FFmt) (a : Ev) : Nat × Nat :=
  match a with
  | .nan s => (f.nanCode, if s then flNV else 0)
  | .zero n => (f.withSign n f.infCode, flDZ)
  | .inf false => (0, 0)
  | .inf true => (f.nanCode, flNV)
  | .fin true _ => (f.nanCode, flNV)
  | .fin false m => roundTo f (.fin false (trunc8 { n := m.d, d := m.n, e := -m.e, root := true })) 1 false

def fpEst (o : OpU) (f : FFmt → Ev → Nat × Nat) (s : State) : Outcome :=
  finish (vec s (infoU s (fpTag s.hart.dev) 4 o) (fun u => elemU u o (fun e a => f e.fmt (e.fmt.decode a))))

/-- vfrece -/
def execVfrece (o : OpU) (s : State) : Outcome := fpEst o recipElem s
/-- vfrsqe -/
def execVfrsqe (o : OpU) (s : State) : Outcome := fpEst o rsqrtElem s

/-! ### Group 5 (R148 to R150) -/

/-- Registers of a destination of width ewd from G registers at ew (R148): max(1, F × G). -/
def dstRegs (g ew ewd : Nat) : Nat := max 1 (g * ewd / ew)

/-- A conversion: source G registers at EW, destination at another width in its own group; any overlap is illegal where the
widths differ. -/
def convertInfo (s : State) (vd vs2 : Reg) (m ok : Bool) (ewd weight : Nat) (rounds : Bool) : VInfo :=
  let sh := s.shape
  let fr := s.frame m
  { ok := ok && decide (sh.g * ewd / sh.ew ≤ 8), masked := m, n := sh.n, rounds := rounds, srcs := [(vs2.toNat, sh.g)],
    dst := [(vd.toNat, dstRegs sh.g sh.ew ewd)], apart := ewd != sh.ew, charge := chargeFor fr.count (max sh.ew ewd) weight,
    active := fr.on }

/-- The shape of a conversion's destination. -/
def convertShape (sh : Shape) (ewd : Nat) : Shape :=
  { vlen := sh.vlen, g := dstRegs sh.g sh.ew ewd, ew := ewd, lf := false, k := 0 }

def convert (vd vs2 : Reg) (m : Bool) (ok : Bool) (ewd weight : Nat) (rounds : Bool)
    (f : ElemEnv → Nat → Nat × Nat) (s : State) : Outcome :=
  let sh := s.shape
  finish (vec s (convertInfo s vd vs2 m ok ewd weight rounds) (fun u =>
    let a := u.getGroup vs2.toNat sh.g
    let e := u.elemEnv
    .next (writeElems u (convertShape sh ewd) m vd (fun i => f e (sh.get a i)))))

/-- The format a selector names at a width, and whether it is an FP tag, or at 8 bits E4M3 or E5M2. -/
def selFmt (ewd sel : Nat) : Option FFmt := if ewd = 4 then none else fmtOf ewd sel

def selIsInt (ewd sel : Nat) : Bool :=
  match ewd with
  | 4 => sel == 1
  | _ => sel == 0

/-- Integer sources of the conversions: INT8 to INT64. -/
def cvtIntSrc (d : DevCsr) : Bool := intTag d && d.ewCode != 0
/-- Floating sources: E4M3, E5M2 and the FP tags. -/
def cvtFpSrc (d : DevCsr) : Bool :=
  match d.fmt with
  | some .e2m1 => false
  | some _ => true
  | none => false

def fromInt (o : OpS) (signed : Bool) (s : State) : Outcome :=
  let d := s.hart.dev
  let dst := selFmt d.ew o.sel.toNat
  let sat := d.sat
  convert o.vd o.vs2 o.m (cvtIntSrc d && dst.isSome) d.ew 2 true
    (fun e a => roundTo (dst.getD .fp64) (Ev.ofInt (if signed then toInt e.w a else a)) e.rm sat) s

/-- vfcvt.f.x -/
def execVfcvtFX (o : OpS) (s : State) : Outcome := fromInt o true s
/-- vfcvt.f.xu -/
def execVfcvtFXu (o : OpS) (s : State) : Outcome := fromInt o false s

def toIntFmt (o : OpS) (signed : Bool) (s : State) : Outcome :=
  let d := s.hart.dev
  convert o.vd o.vs2 o.m (cvtFpSrc d && selIsInt d.ew o.sel.toNat) d.ew 2 true
    (fun e a => roundToInt e.w signed (e.fmt.decode a) e.rm) s

/-- vfcvt.x.f -/
def execVfcvtXF (o : OpS) (s : State) : Outcome := toIntFmt o true s
/-- vfcvt.xu.f -/
def execVfcvtXuF (o : OpS) (s : State) : Outcome := toIntFmt o false s

/-- The pairs of vfwid in Table 05-6; vfnar takes them the other way. -/
def widens (a b : Option FFmt) : Bool :=
  match a, b with
  | some .e4m3, some .fp16 => true | some .e4m3, some .bf16 => true
  | some .e5m2, some .fp16 => true | some .e5m2, some .bf16 => true
  | some .fp16, some .fp32 => true | some .bf16, some .fp32 => true
  | some .fp32, some .fp64 => true
  | _, _ => false

/-- vfwid: exact; NV only for a signalling NaN (R149). -/
def execVfwid (o : OpS) (s : State) : Outcome :=
  let d := s.hart.dev
  let dst := selFmt (2 * d.ew) o.sel.toNat
  convert o.vd o.vs2 o.m (widens d.fmt dst) (2 * d.ew) 2 false
    (fun e a => roundTo (dst.getD .fp64) (e.fmt.decode a) 0 false) s

/-- vfnar -/
def execVfnar (o : OpS) (s : State) : Outcome :=
  let d := s.hart.dev
  let dst := selFmt (d.ew / 2) o.sel.toNat
  let sat := d.sat
  convert o.vd o.vs2 o.m (widens dst d.fmt) (d.ew / 2) 2 true
    (fun e a => roundTo (dst.getD .fp64) (e.fmt.decode a) e.rm sat) s

/-- vsext and vzext: INT4 to INT32, result at most 64 bits. -/
def extendOk (d : DevCsr) (sel : Nat) : Bool := intTag d && d.ewCode != 4 && decide (d.ew <<< sel ≤ 64)

/-- vsext -/
def execVsext (o : OpS) (s : State) : Outcome :=
  let d := s.hart.dev
  let ewd := d.ew <<< o.sel.toNat
  convert o.vd o.vs2 o.m (extendOk d o.sel.toNat) ewd 1 false (fun e a => quiet (ofInt ewd (toInt e.w a))) s

/-- vzext -/
def execVzext (o : OpS) (s : State) : Outcome :=
  let d := s.hart.dev
  convert o.vd o.vs2 o.m (extendOk d o.sel.toNat) (d.ew <<< o.sel.toNat) 1 false (fun _ a => quiet a) s

/-- vnclip: clamped to the signed EW/2 range. DESIGN CHOICE (log 36): it forms an integer and is not among the instructions that round,
so vfcsr.rm 6 and 7 do not make it illegal. -/
def execVnclip (o : OpU) (s : State) : Outcome :=
  let d := s.hart.dev
  convert o.vd o.vs2 o.m (cvtIntSrc d) (d.ew / 2) 1 false
    (fun e a => quiet (ofInt (e.w / 2) (clampInt (e.w / 2) true (toInt e.w a)))) s

/-- The class bit of a pattern (R150). -/
def classBit (f : FFmt) (a : Nat) : Nat :=
  match f.decode a with
  | .inf true => 0
  | .inf false => 7
  | .zero true => 3
  | .zero false => 4
  | .nan true => 8
  | .nan false => 9
  | .fin n m =>
    let sub := decide (m.log2 < f.emin)
    if n then (if sub then 2 else 1) else (if sub then 5 else 6)

/-- vfclass -/
def execVfclass (o : OpU) (s : State) : Outcome :=
  convert o.vd o.vs2 o.m (fpTag s.hart.dev) s.hart.dev.ew 2 false (fun e a => quiet (1 <<< classBit e.fmt a)) s

/-- vfcvt.bf.f -/
def execVfcvtBfF (o : OpU) (s : State) : Outcome :=
  let sat := s.hart.dev.sat
  convert o.vd o.vs2 o.m (s.hart.dev.fmt == some .fp16) 16 2 true (fun e a => roundTo .bf16 (e.fmt.decode a) e.rm sat) s

/-- vfcvt.f.bf -/
def execVfcvtFBf (o : OpU) (s : State) : Outcome :=
  let sat := s.hart.dev.sat
  convert o.vd o.vs2 o.m (s.hart.dev.fmt == some .bf16) 16 2 true (fun e a => roundTo .fp16 (e.fmt.decode a) e.rm sat) s

end Sys2Proof.Machine
end

