-- ==== Sys2Proof/Machine/VPerm.lean ====
section
/-! DEFINITION. Custom-0 groups 6 and 7: slides, gathers, compression, reductions, scans, scalar moves and the gang-spanning
instructions (R151 to R161). -/
namespace Sys2Proof.Machine

/-! ### Slides (R151, R152) -/

/-- Fill(j) (Table 01-7). -/
def fillElem (sh : Shape) (vfill : Word) (j : Nat) : Nat :=
  if sh.lf then vfill.toNat / (1 <<< 63) * (1 <<< 63) + sh.k * (1 <<< 60) + vfill.toNat % (1 <<< 60)
  else lowBits (vfill.toNat >>> (j * sh.ew % 64)) sh.ew

/-- The offset of a slide: x[rs1], or imm5 sign-extended, read unsigned. -/
def slideOff (s : State) (src : Src) : Nat :=
  match src with
  | .vx r => (s.xr r).toNat
  | .vi i => (i.signExtend 64).toNat
  | .vf r => (s.xr r).toNat
  | .vv _ => 0

/-- A group 6 instruction: no source may meet the destination and vstart must be 0. -/
def infoPerm (s : State) (ok : Bool) (o : OpB) : VInfo :=
  { infoB s ok 1 o with apart := true, zeroStart := true }

/-- Writes Result from the segment base, the local index and the segment's grant (R131). -/
def segElems (u : State) (o : OpB) (f : Shape → Nat → Nat → Nat → Nat → Nat → Nat) : Body :=
  let sh := u.shape
  let a := u.getGroup o.vs2.toNat sh.g
  let seg := u.seg
  let vg := u.hart.dev.vgrant.toNat
  .next (writeElems u sh o.m o.vd (fun i =>
    quiet (f sh a (i / seg * seg) (i % seg) (segGrant vg seg (i / seg)) i)))

/-- vslideup -/
def execVslideup (o : OpB) (s : State) : Outcome :=
  finish (vec s (infoPerm s true o) (fun u =>
    let off := slideOff u o.src
    let fill := u.hart.dev.vfill
    segElems u o (fun sh a base p _ _ => if p < off then fillElem sh fill p else sh.get a (base + p - off))))

/-- vslidedn -/
def execVslidedn (o : OpB) (s : State) : Outcome :=
  finish (vec s (infoPerm s true o) (fun u =>
    let off := slideOff u o.src
    let fill := u.hart.dev.vfill
    segElems u o (fun sh a base p n _ => if p + off < n then sh.get a (base + p + off) else fillElem sh fill p)))

/-- vslide1up -/
def execVslide1up (o : OpB) (s : State) : Outcome :=
  finish (vec s (infoPerm s (!s.hart.dev.isLf) o) (fun u =>
    let x := op1 u u.shape o.src 0
    segElems u o (fun sh a base p _ _ => if p = 0 then x else sh.get a (base + p - 1))))

/-- vslide1dn -/
def execVslide1dn (o : OpB) (s : State) : Outcome :=
  finish (vec s (infoPerm s (!s.hart.dev.isLf) o) (fun u =>
    let x := op1 u u.shape o.src 0
    segElems u o (fun sh a base p n _ => if p + 1 < n then sh.get a (base + p + 1) else x)))

/-! ### Gathers and compression (R153, R154) -/

/-- vrgather -/
def execVrgather (o : OpB) (s : State) : Outcome :=
  finish (vec s (infoPerm s (!srcIsV o.src || !s.hart.dev.isLf) o) (fun u =>
    let b := op1 u u.shape o.src
    let seg := u.seg
    segElems u o (fun sh a base _ _ i => if b i < seg then sh.get a (base + b i) else sh.zero)))

/-- The positions below n whose mask bit (from base) is set, in order. -/
def selected (mask base n : Nat) : List Nat := (List.range n).filter (fun j => bitOf mask (base + j))

def compressInfo (s : State) (o : OpB) : VInfo :=
  { infoPerm s true o with srcs := [(o.vs2.toNat, s.shape.g), ((srcReg o.src).toNat, 1)] }

/-- vcompress: per segment, the selected elements are packed from its first position; the rest follow vtype.ta. -/
def execVcompress (o : OpB) (s : State) : Outcome :=
  finish (vec s (compressInfo s o) (fun u =>
    let sh := u.shape
    let a := u.getGroup o.vs2.toNat sh.g
    let mask := u.getV (srcReg o.src).toNat
    let seg := u.seg
    let vg := u.hart.dev.vgrant.toNat
    let ta := u.hart.dev.ta
    let old := u.getGroup o.vd.toNat sh.g
    let picks := (List.range u.members).map (fun m => selected mask (m * seg) (segGrant vg seg m))
    .next (u.setGroup o.vd.toNat sh.g (writeGroup sh ta old (fun i =>
      match (picks.getD (i / seg) [])[i % seg]? with
      | some j => sh.get a (i / seg * seg + j)
      | none => if ta then sh.zero else sh.get old i)))))

/-! ### Reductions (R155, R156, R70) -/

/-- Combines two operands of a reduction or scan: the value and the flags. -/
abbrev Comb := Nat → Nat → Nat × Nat

/-- An absent operand passes the other through. -/
def addOpt (f : Comb) (a b : Option Nat) : Option Nat × Nat :=
  match a, b with
  | some x, some y => let r := f x y; (some r.1, r.2)
  | some x, none => (some x, 0)
  | none, y => (y, 0)

/-- Folds a list from an accumulator. -/
def foldComb (f : Comb) (acc : Nat × Nat) (l : List Nat) : Nat × Nat :=
  l.foldl (fun p x => let r := f p.1 x; (r.1, p.2 ||| r.2)) acc

/-- One level of the pairwise tree. -/
def pairUp (f : Comb) : List (Option Nat) → List (Option Nat) × Nat
  | a :: b :: r =>
    let q := addOpt f a b
    let t := pairUp f r
    (q.1 :: t.1, q.2 ||| t.2)
  | l => (l, 0)

/-- The fixed pairwise tree of R70, at most n levels. -/
def treeComb (f : Comb) : Nat → List (Option Nat) → Option Nat × Nat
  | 0, l => (l.headD none, 0)
  | n + 1, l =>
    if l.length ≤ 1 then (l.headD none, 0)
    else
      let q := pairUp f l
      let t := treeComb f n q.1
      (t.1, q.2 ||| t.2)

/-- A reduction in element order from vs1's element. -/
def reduceSeq (f : Comb) (init : Nat) (l : List (Option Nat)) : Nat × Nat := foldComb f (init, 0) (l.filterMap id)

/-- vfredt: the tree, then vs1's element first operand of the last addition. -/
def reduceTree (f : Comb) (init : Nat) (l : List (Option Nat)) : Nat × Nat :=
  let t := treeComb f 16 l
  match t.1 with
  | none => (init, t.2)
  | some y => let r := f init y; (r.1, t.2 ||| r.2)

/-- The active elements of a segment, absent where inactive. -/
def segActive (sh : Shape) (fr : Frame) (a seg m : Nat) : List (Option Nat) :=
  (List.range (segGrant fr.vgrant seg m)).map (fun p =>
    if fr.on (m * seg + p) then some (sh.get a (m * seg + p)) else none)

def reduceInfo (s : State) (o : OpB) (ok : Bool) (weight : Nat) (rounds : Bool) : VInfo :=
  { infoB s ok weight o with zeroStart := true, rounds := rounds }

/-- A reduction: the fold of each segment with vs1's element at its first position; the other elements are tail. -/
def reduce (o : OpB) (ok : Bool) (weight : Nat) (rounds : Bool)
    (f : ElemEnv → Nat → List (Option Nat) → Nat × Nat) (s : State) : Outcome :=
  finish (vec s (reduceInfo s o ok weight rounds) (fun u =>
    let sh := u.shape
    let fr := u.frame o.m
    let a := u.getGroup o.vs2.toNat sh.g
    let b := u.getGroup (srcReg o.src).toNat sh.g
    let old := u.getGroup o.vd.toNat sh.g
    let seg := u.seg
    let e := u.elemEnv
    let folds := (List.range u.members).map (fun m => f e (sh.get b (m * seg)) (segActive sh fr a seg m))
    let u1 := u.setGroup o.vd.toNat sh.g (writeGroup sh fr.ta old (fun i =>
      if i % seg = 0 then (folds.getD (i / seg) (0, 0)).1 else if fr.ta then sh.zero else sh.get old i))
    .next (u1.modHart (fun t => t.raise (folds.foldl (fun x p => x ||| p.2) 0)))))

def intComb (w : Nat) (sel : Nat) : Comb :=
  fun a b => quiet (match sel with
    | 0 => lowBits (a + b) w
    | 1 => sminElem w a b
    | 2 => smaxElem w a b
    | 3 => Nat.land a b
    | _ => Nat.lor a b)

/-- Add of R70, and the comparisons of R145. -/
def fpComb (f : FFmt) (rm : Nat) (sel : Nat) : Comb :=
  fun a b => match sel with
    | 0 =>
      let r := (f.decode a).add rm (f.decode b)
      let q := roundTo f r.1 rm false
      (q.1, (if r.2 then flNV else 0) ||| q.2)
    | 1 => minMax f false a b
    | _ => minMax f true a b

def intReduce (o : OpB) (sel : Nat) (s : State) : Outcome :=
  reduce o (intTag s.hart.dev) 1 false (fun e init l => reduceSeq (intComb e.w sel) init l) s

/-- vredsum -/
def execVredsum (o : OpB) (s : State) : Outcome := intReduce o 0 s
/-- vredmin -/
def execVredmin (o : OpB) (s : State) : Outcome := intReduce o 1 s
/-- vredmax -/
def execVredmax (o : OpB) (s : State) : Outcome := intReduce o 2 s
/-- vredand -/
def execVredand (o : OpB) (s : State) : Outcome := intReduce o 3 s
/-- vredor -/
def execVredor (o : OpB) (s : State) : Outcome := intReduce o 4 s
/-- vfredo -/
def execVfredo (o : OpB) (s : State) : Outcome :=
  reduce o (fpTag s.hart.dev) 2 true (fun e init l => reduceSeq (fpComb e.fmt e.rm 0) init l) s
/-- vfredt -/
def execVfredt (o : OpB) (s : State) : Outcome :=
  reduce o (fpTag s.hart.dev) 2 true (fun e init l => reduceTree (fpComb e.fmt e.rm 0) init l) s
/-- vfredmin -/
def execVfredmin (o : OpB) (s : State) : Outcome :=
  reduce o (fpTag s.hart.dev) 2 false (fun e init l => reduceSeq (fpComb e.fmt e.rm 1) init l) s
/-- vfredmax -/
def execVfredmax (o : OpB) (s : State) : Outcome :=
  reduce o (fpTag s.hart.dev) 2 false (fun e init l => reduceSeq (fpComb e.fmt e.rm 2) init l) s

/-! ### Scans (R157, R71) -/

/-- One step of the Hillis-Steele order at distance d. -/
def scanStep (f : Comb) (d : Nat) (l : List (Option Nat)) : List (Option Nat) × Nat :=
  let r := List.zipWith (addOpt f) (List.replicate d none ++ l) l
  (r.map (·.1), r.foldl (fun x p => x ||| p.2) 0)

/-- The steps at distances d, 2d, … below the length, at most n of them. -/
def scanComb (f : Comb) : Nat → Nat → List (Option Nat) → List (Option Nat) × Nat
  | 0, _, l => (l, 0)
  | n + 1, d, l =>
    if l.length ≤ d then (l, 0)
    else
      let q := scanStep f d l
      let t := scanComb f n (2 * d) q.1
      (t.1, q.2 ||| t.2)

def scanInfo (s : State) (o : OpS) : VInfo :=
  let d := s.hart.dev
  let isF := fpTag d
  { infoU s ((intTag d && d.ewCode != 0) || isF) (if isF then 2 else 1) ⟨o.vd, o.vs2, o.m⟩ with
    apart := true, zeroStart := true, rounds := isF && o.sel.toNat == 0 }

/-- vscan -/
def execVscan (o : OpS) (s : State) : Outcome :=
  let isF := fpTag s.hart.dev
  let sel := o.sel.toNat
  finish (vec s (scanInfo s o) (fun u =>
    let sh := u.shape
    let fr := u.frame o.m
    let a := u.getGroup o.vs2.toNat sh.g
    let seg := u.seg
    let e := u.elemEnv
    let f : Comb := if isF then fpComb e.fmt e.rm sel else intComb e.w sel
    let ys := (List.range u.members).map (fun m => scanComb f 16 1 (segActive sh fr a seg m))
    let u1 := writeElems u sh o.m o.vd (fun i =>
      quiet ((((ys.getD (i / seg) ([], 0)).1.getD (i % seg) none).getD sh.zero)))
    .next (u1.modHart (fun t => t.raise (ys.foldl (fun x p => x ||| p.2) 0)))))

/-! ### Group 7 (R158 to R161) -/

def xsInfo (s : State) (o : OpXR) : VInfo :=
  let sh := s.shape
  { zeroStart := true, n := sh.n, srcs := [(o.vs2.toNat, sh.g)], charge := chargeFor (s.frame false).count sh.ew 1 }

/-- vmv.x.s: integer tags sign-extend, others zero-extend; under long floats the head. DESIGN CHOICE (log 36): E4M3 and E5M2, of which
R158 does not speak, zero-extend. -/
def execVmvXS (o : OpXR) (s : State) : Outcome :=
  finish (vec s (xsInfo s o) (fun u =>
    let w := if u.shape.lf then 64 else u.shape.ew
    let v := lowBits (u.getGroup o.vs2.toNat u.shape.g) w
    .next (u.setX o.rd (BitVec.ofNat 64 (if intTag u.hart.dev then ofInt 64 (toInt w v) else v)))))

def sxInfo (s : State) (o : OpD) : VInfo :=
  let sh := s.shape
  { ok := !sh.lf, zeroStart := true, n := sh.n, dst := [(o.vd.toNat, sh.g)],
    charge := chargeFor (s.frame false).count sh.ew 1, active := fun j => j == 0 && s.hart.dev.vgrant != 0 }

/-- vmv.s.x: element 0 only, if vgrant > 0. -/
def execVmvSX (o : OpD) (s : State) : Outcome :=
  finish (vec s (sxInfo s o) (fun u =>
    if u.hart.dev.vgrant = 0 then .next u
    else .next (u.setGroup o.vd.toNat u.shape.g
      (setBits (u.getGroup o.vd.toNat u.shape.g) 0 u.shape.ew (u.xr (srcReg o.src)).toNat))))

/-- vgperm: any element of the whole vector by index. -/
def execVgperm (o : OpB) (s : State) : Outcome :=
  finish (vec s (infoPerm s (!s.hart.dev.isLf) o) (fun u =>
    let b := op1 u u.shape o.src
    segElems u o (fun sh a _ _ _ i => if b i < sh.n then sh.get a (b i) else sh.zero)))

/-- The fold of one position over the members (R160). -/
def crossFold (f : Comb) (sh : Shape) (fr : Frame) (a seg members p : Nat) : Option Nat × Nat :=
  (List.range members).foldl (fun acc m =>
    let q := m * seg + p
    let r := addOpt f acc.1 (if fr.on q then some (sh.get a q) else none)
    (r.1, acc.2 ||| r.2)) (none, 0)

def gredInfo (s : State) (o : OpS) : VInfo :=
  let d := s.hart.dev
  let isF := fpTag d
  let sel := o.sel.toNat
  { infoU s (intTag d || (isF && decide (sel ≤ 2))) (if isF then 2 else 1) ⟨o.vd, o.vs2, o.m⟩ with
    zeroStart := true, rounds := isF && sel == 0 && decide (1 < s.members) }

/-- vgred -/
def execVgred (o : OpS) (s : State) : Outcome :=
  let isF := fpTag s.hart.dev
  let sel := o.sel.toNat
  finish (vec s (gredInfo s o) (fun u =>
    let sh := u.shape
    let fr := u.frame o.m
    let a := u.getGroup o.vs2.toNat sh.g
    let seg := u.seg
    let e := u.elemEnv
    let f : Comb := if isF then fpComb e.fmt e.rm sel else intComb e.w sel
    .next (writeElems u sh o.m o.vd (fun i =>
      let r := crossFold f sh fr a seg u.members (i % seg)
      (r.1.getD sh.zero, r.2)))))

/-- vgbcast -/
def execVgbcast (o : OpB) (s : State) : Outcome :=
  finish (vec s (infoPerm s true o) (fun u =>
    let src := op1 u u.shape o.src 0 % max 1 u.members
    let seg := u.seg
    segElems u o (fun sh a _ p _ _ => sh.get a (src * seg + p))))

end Sys2Proof.Machine
end

