-- ==== Sys2Proof/Machine/Narrow.lean ====
section
/-! DEFINITION. Custom-2 group 0: block-scaled quantisation, dequantisation and dot products (R163 to R170, R72). -/
namespace Sys2Proof.Machine

/-! ### Blocks and scale groups (R163) -/

def DevCsr.blk (d : DevCsr) : Nat := d.fmta.toNat / 256 % 256
/-- fmta.blk is 0, 16, 32 or 64. -/
def blkOk (d : DevCsr) : Bool := d.blk == 0 || d.blk == 16 || d.blk == 32 || d.blk == 64
/-- The working block length: 32 where unscaled. -/
def DevCsr.bl (d : DevCsr) : Nat := if d.blk = 0 then 32 else d.blk

/-- Registers of the scale group of n elements. -/
def scaleRegs (vlen bl n : Nat) : Nat := max 1 ((16 * n + bl * vlen - 1) / (bl * vlen))

/-- Pair b of a scale group, or the unscaled pair (scale 127, special byte 0). -/
def pairOf (unscaled : Bool) (v b : Nat) : Nat := if unscaled then 127 else lowBits (v >>> (16 * b)) 16

/-- Tags the quantising and the dequantising instructions accept (Table 06-1). -/
def quantSrc (d : DevCsr) : Bool :=
  match d.fmt with
  | some .fp16 => true | some .bf16 => true | some .fp32 => true | _ => false
def narrowSrc (d : DevCsr) : Bool :=
  match d.fmt with
  | some .e4m3 => true | some .e5m2 => true | some .e2m1 => true | _ => false

/-! ### vsclmk (R165) -/

/-- The absolute difference of two finite values as an exact value. -/
def absDiff (a b : Ev) : Ev :=
  match (a.add 0 b.neg).1 with
  | .fin _ m => .fin false m
  | .zero _ => .zero false
  | x => x

def Ev.magLog2 : Ev → Option Int
  | .fin _ m => some m.log2
  | _ => none

/-- floor(log2(amax)) over a list; none where every value is zero. -/
def maxLog2 (xs : List Ev) : Option Int :=
  xs.foldl (fun b x => match b, x.magLog2 with
    | none, y => y
    | some p, none => some p
    | some p, some q => some (max p q)) none

/-- The value with the largest error against its quantised value, the first on a tie, with that error. -/
def worst (rm : Nat) (ys : List Ev) : Option (Ev × Ev) :=
  ys.foldl (fun b y =>
    let err := absDiff y (FFmt.e2m1.decode (roundTo .e2m1 y rm false).1)
    match b with
    | none => some (y, err)
    | some p => if p.2.lt err then some (y, err) else b) none

/-- The pair of one block (R165). -/
def makePair (target : FFmt) (emax : Int) (rm : Nat) (xs : List Ev) : Nat :=
  if xs.any (fun x => match x with | .nan _ => true | .inf _ => true | _ => false) then 0xFF
  else
    let e : Int := match maxLog2 xs with
      | none => 127
      | some l => max 0 (min 254 (l - emax + 127))
    let sp : Nat :=
      if target = .e2m1 then
        match worst rm (xs.map (fun x => x.scale (127 - e))) with
        | some (y, .fin _ _) => (roundTo .e4m3 y rm true).1
        | _ => 0
      else 0
    sp * 256 + e.toNat

/-- The target of vsclmk (Table 03-14): the format and its emax. -/
def sclTarget (d : DevCsr) : Option (FFmt × Int) :=
  match d.fmta.toNat % 256 with
  | 0x02 => some (.e4m3, 8)
  | 0x03 => some (.e5m2, 15)
  | 0x04 => some (.e2m1, 2)
  | _ => none

/-- Writes n pairs from the bottom of a scale group; the rest follow vtype.ta. -/
def writePairs (vlen regs n : Nat) (ta : Bool) (old : Nat) (f : Nat → Nat) : Nat :=
  assemble 16 (fun p => if p < n then f p else if ta then 0 else old >>> (16 * p)) (regs * vlen / 16)

/-- Registers of the scale group of vtype's elements. -/
def State.scaleGroup (s : State) : Nat := scaleRegs s.shape.vlen s.hart.dev.bl s.shape.n

def sclmkInfo (s : State) (o : OpU) : VInfo :=
  let d := s.hart.dev
  let sh := s.shape
  { ok := blkOk d && d.blk != 0 && quantSrc d && (sclTarget d).isSome, apart := true, zeroStart := true,
    rounds := sclTarget d == some (.e2m1, 2), n := sh.n, srcs := [(o.vs2.toNat, sh.g)], dst := [(o.vd.toNat, s.scaleGroup)],
    charge := chargeFor (s.frame false).count sh.ew 4 }

/-- vsclmk -/
def execVsclmk (o : OpU) (s : State) : Outcome :=
  let d := s.hart.dev
  let sh := s.shape
  let gs := s.scaleGroup
  let tgt := sclTarget d
  finish (vec s (sclmkInfo s o) (fun u =>
    let a := u.getGroup o.vs2.toNat sh.g
    let bl := d.bl
    let vg := u.hart.dev.vgrant.toNat
    let t := tgt.getD (.e4m3, 8)
    let x := fun i => d.fp.decode (sh.get a i)
    let block := fun b => (List.range (min bl (vg - b * bl))).map (fun j => x (b * bl + j))
    let u1 := u.setGroup o.vd.toNat gs (writePairs sh.vlen gs ((vg + bl - 1) / bl) d.ta (u.getGroup o.vd.toNat gs)
      (fun b => makePair t.1 t.2 d.rm (block b)))
    .next (u1.modHart (fun h => h.raise (if (List.range vg).any (fun i => (x i).sigNan) then flNV else 0)))))

def pksclInfo (s : State) (o : OpB) : VInfo :=
  let sh := s.shape
  { ok := blkOk s.hart.dev && !sh.lf, zeroStart := true, n := sh.n, srcs := [(o.vs2.toNat, 1), ((srcReg o.src).toNat, 1)],
    dst := [(o.vd.toNat, 1)], charge := chargeFor (s.frame false).count sh.ew 4 }

/-- vpkscl (R166) -/
def execVpkscl (o : OpB) (s : State) : Outcome :=
  let d := s.hart.dev
  let sh := s.shape
  let n := (sh.n + d.bl - 1) / d.bl
  let vs1 := (srcReg o.src).toNat
  finish (vec s (pksclInfo s o) (fun u =>
    let a := u.getV o.vs2.toNat
    let b := u.getV vs1
    .next (u.setV o.vd.toNat (writePairs sh.vlen 1 (2 * n) d.ta (u.getV o.vd.toNat)
      (fun p => if p < n then a >>> (16 * p) else b >>> (16 * (p - n)))))))

/-! ### Quantising (R167) -/

/-- One quantised element under a pair: the code and the flags. -/
def quantElem (f : FFmt) (special : Bool) (rm : Nat) (sat : Bool) (x : Ev) (pair : Nat) : Nat × Nat :=
  match scaleExp (pair % 256) with
  | none => (if f = .e2m1 then 0 else f.nanCode, 0)
  | some e =>
    let y := x.scale (-e)
    let r := roundTo f y rm sat
    let sv := FFmt.e4m3.decode (pair / 256 % 256)
    match y, sv with
    | .nan _, _ => r
    | .inf _, _ => r
    | _, .fin _ _ =>
      let dS := absDiff y sv
      if f = .e2m1 ∧ special ∧ dS.lt (absDiff y (f.decode r.1)) then
        (8, match dS with | .fin _ _ => flNX | _ => 0)
      else r
    | _, _ => r

def quantInfo (s : State) (o : OpB) (f : FFmt) : VInfo :=
  let d := s.hart.dev
  let sh := s.shape
  let gs := s.scaleGroup
  let vs1 := (srcReg o.src).toNat
  let fr := s.frame o.m
  { ok := blkOk d && quantSrc d && !grpMeet (o.vs2.toNat, sh.g) (vs1, gs), masked := o.m, apart := true, rounds := true, n := sh.n,
    srcs := [(o.vs2.toNat, sh.g), (vs1, gs)], dst := [(o.vd.toNat, dstRegs sh.g sh.ew f.width)],
    charge := chargeFor fr.count sh.ew 4, active := fr.on }

def quantise (o : OpB) (f : FFmt) (s : State) : Outcome :=
  let d := s.hart.dev
  let sh := s.shape
  let gs := s.scaleGroup
  let vs1 := (srcReg o.src).toNat
  finish (vec s (quantInfo s o f) (fun u =>
    let a := u.getGroup o.vs2.toNat sh.g
    let sc := u.getGroup vs1 gs
    .next (writeElems u (convertShape sh f.width) o.m o.vd (fun i =>
      quantElem f (d.blk != 0) d.rm d.sat (d.fp.decode (sh.get a i)) (pairOf (d.blk == 0) sc (i / d.bl))))))

/-- vq.e4m3 -/
def execVqE4m3 (o : OpB) (s : State) : Outcome := quantise o .e4m3 s
/-- vq.e5m2 -/
def execVqE5m2 (o : OpB) (s : State) : Outcome := quantise o .e5m2 s
/-- vq.e2m1 -/
def execVqE2m1 (o : OpB) (s : State) : Outcome := quantise o .e2m1 s

def dequantInfo (s : State) (o : OpB) : VInfo :=
  let d := s.hart.dev
  let sh := s.shape
  let gd := dstRegs sh.g sh.ew 32
  let gs := s.scaleGroup
  let vs1 := (srcReg o.src).toNat
  let fr := s.frame o.m
  { ok := blkOk d && narrowSrc d && decide (gd ≤ 8) && !grpMeet (o.vs2.toNat, sh.g) (vs1, gs), masked := o.m, apart := true,
    rounds := true, n := sh.n, srcs := [(o.vs2.toNat, sh.g), (vs1, gs)], dst := [(o.vd.toNat, gd)],
    charge := chargeFor fr.count 32 4, active := fr.on }

/-- vdq (R168) -/
def execVdq (o : OpB) (s : State) : Outcome :=
  let d := s.hart.dev
  let sh := s.shape
  let gs := s.scaleGroup
  let vs1 := (srcReg o.src).toNat
  finish (vec s (dequantInfo s o) (fun u =>
    let a := u.getGroup o.vs2.toNat sh.g
    let sc := u.getGroup vs1 gs
    .next (writeElems u (convertShape sh 32) o.m o.vd (fun i =>
      roundTo .fp32 (decodeScaled d.fp (sh.get a i) (pairOf (d.blk == 0) sc (i / d.bl))) d.rm false))))

/-! ### Dot products (R169, R170, R72) -/

/-- The value of an element without its block's scale: 0b1000 gives S. -/
def unscaledValue (f : FFmt) (code pair : Nat) : Ev := decodeScaled f code (pair / 256 * 256 + 127)

/-- The exact sum of products onto a first value, and whether NV is raised (R52). -/
def sumOnto (rm : Nat) (first : Ev × Bool) (terms : List (Ev × Ev)) : Ev × Bool :=
  terms.foldl (fun acc p =>
    let q := p.1.mul p.2
    let r := acc.1.add rm q.1
    (r.1, acc.2 || q.2 || r.2)) first

/-- The exact sum of a block's products, from d := 0 as R169 has it. DESIGN CHOICE (log 36): the blocks of R68 start so too, so that a
block whose products are all -0 sums to +0. -/
def blockSum (rm : Nat) (terms : List (Ev × Ev)) : Ev × Bool := sumOnto rm (.zero false, false) terms

/-- The exact sum of a run's products, whose zeros keep the sign that IEEE 754 gives their sum (R67). -/
def runSum (terms : List (Ev × Ev)) : Ev × Bool :=
  match terms with
  | [] => (.zero false, false)
  | p :: ps => sumOnto 0 (p.1.mul p.2) ps

/-- One block of the accumulation: the new accumulator code and its flags. A signalling NaN in the accumulator raises NV in any case
(R52). -/
def blockStep (rm : Nat) (pa pb : Nat) (terms : List (Ev × Ev)) (acc : Nat × Nat) : Nat × Nat :=
  let d := blockSum rm terms
  let nan := (FFmt.fp32.nanCode, acc.2 ||| (if d.2 || (FFmt.fp32.decode acc.1).sigNan then flNV else 0))
  match scaleExp (pa % 256), scaleExp (pb % 256) with
  | some ea, some eb =>
    if d.1.isNan then nan
    else
      let r := (FFmt.fp32.decode acc.1).add rm (d.1.scale (ea + eb))
      let q := roundTo .fp32 r.1 rm false
      (q.1, acc.2 ||| (if d.2 || r.2 then flNV else 0) ||| q.2)
  | _, _ => nan

/-- The loop of R169 over the blocks below a grant: element values and pairs by index. -/
def dotLoop (rm bl vgrant : Nat) (f : FFmt) (on : Nat → Bool) (a b : Nat → Nat) (pa pb : Nat → Nat) (acc : Nat) : Nat × Nat :=
  (List.range ((vgrant + bl - 1) / bl)).foldl (fun st blk =>
    let ix := ((List.range (min bl (vgrant - blk * bl))).map (· + blk * bl)).filter on
    blockStep rm (pa blk) (pb blk)
      (ix.map (fun i => (unscaledValue f (a i) (pa blk), unscaledValue f (b i) (pb blk)))) st) (acc, 0)

/-- Neither scale group meets a data group, and both end at v31 at the latest. -/
def sclGroupsOk (data scl : List (Nat × Nat)) : Bool :=
  scl.all (fun g => decide (g.1 + g.2 ≤ 32) && data.all (fun d => !grpMeet g d))

/-- DESIGN CHOICE (log 36): vd, which vmxdot and vmxmm read and write, counts as a destination only, so an empty one is waited for and
a bound one is only written. -/
def mxdotInfo (s : State) (o : OpB) : VInfo :=
  let d := s.hart.dev
  let sh := s.shape
  let gs := s.scaleGroup
  let vs1 := (srcReg o.src).toNat
  let vs2 := o.vs2.toNat
  let data := [(vs2, sh.g), (vs1, sh.g)]
  let scl := [(vs2 + sh.g, gs), (vs1 + sh.g, gs)]
  { ok := blkOk d && narrowSrc d && s.hart.gang.isNone && sclGroupsOk data scl, masked := o.m, apart := true, zeroStart := true,
    rounds := true, n := sh.n, srcs := data ++ scl, dst := [(o.vd.toNat, 1)],
    charge := chargeFor (s.frame o.m).count (max 32 sh.ew) 4, active := fun j => j == 0 }

/-- vmxdot -/
def execVmxdot (o : OpB) (s : State) : Outcome :=
  let d := s.hart.dev
  let sh := s.shape
  let gs := s.scaleGroup
  let vs1 := (srcReg o.src).toNat
  let vs2 := o.vs2.toNat
  finish (vec s (mxdotInfo s o) (fun u =>
    let a := u.getGroup vs2 sh.g
    let b := u.getGroup vs1 sh.g
    let sa := u.getGroup (vs2 + sh.g) gs
    let sb := u.getGroup (vs1 + sh.g) gs
    let un := d.blk == 0
    let fr := u.frame o.m
    let old := u.getV o.vd.toNat
    let r := dotLoop d.rm d.bl fr.vgrant d.fp fr.on (sh.get a) (sh.get b) (pairOf un sa) (pairOf un sb) (lowBits old 32)
    let u1 := u.setV o.vd.toNat (assemble 32 (fun i => if i = 0 then r.1 else if d.ta then 0 else old >>> (32 * i)) (sh.vlen / 32))
    .next (u1.modHart (fun h => h.raise r.2))))

/-- The least power of two of registers of VLEN bits that hold a number of bits. -/
def regsFor (vlen bits : Nat) : Nat :=
  if bits ≤ vlen then 1 else if bits ≤ 2 * vlen then 2 else if bits ≤ 4 * vlen then 4 else 8

/-- The grant of vmxmm rounded up to whole blocks, and its rows (R170). -/
def mxmmK (d : DevCsr) : Nat := (d.vgrant.toNat + d.bl - 1) / d.bl * d.bl
def mxmmRows (s : State) : Nat :=
  if mxmmK s.hart.dev = 0 then 0 else 8 * s.shape.vlen / (s.shape.ew * mxmmK s.hart.dev)

def mxmmInfo (s : State) (o : OpB) : VInfo :=
  let d := s.hart.dev
  let sh := s.shape
  let vs1 := (srcReg o.src).toNat
  let vs2 := o.vs2.toNat
  let data := [(vs2, 8), (vs1, sh.g)]
  let scl := [(vs2 + 8, scaleRegs sh.vlen d.bl (8 * sh.vlen / sh.ew)), (vs1 + sh.g, s.scaleGroup)]
  { ok := blkOk d && narrowSrc d && s.hart.gang.isNone && sclGroupsOk data scl, apart := true, zeroStart := true, rounds := true,
    n := sh.n, srcs := data ++ scl, dst := [(o.vd.toNat, regsFor sh.vlen (32 * mxmmRows s))],
    charge := chargeFor (8 * (s.frame false).count) (max 32 sh.ew) 4 }

/-- vmxmm -/
def execVmxmm (o : OpB) (s : State) : Outcome :=
  let d := s.hart.dev
  let sh := s.shape
  let bl := d.bl
  let vg := d.vgrant.toNat
  let kk := mxmmK d
  let rows := mxmmRows s
  let gd := regsFor sh.vlen (32 * rows)
  let gsa := scaleRegs sh.vlen bl (8 * sh.vlen / sh.ew)
  let gsb := s.scaleGroup
  let vs1 := (srcReg o.src).toNat
  let vs2 := o.vs2.toNat
  finish (vec s (mxmmInfo s o) (fun u =>
    if vg = 0 then .next u
    else
      let ash : Shape := { sh with g := 8 }
      let a := u.getGroup vs2 8
      let b := u.getGroup vs1 sh.g
      let sa := u.getGroup (vs2 + 8) gsa
      let sb := u.getGroup (vs1 + sh.g) gsb
      let un := d.blk == 0
      let old := u.getGroup o.vd.toNat gd
      let row := fun r => dotLoop d.rm bl vg d.fp (fun _ => true) (fun i => ash.get a (r * kk + i)) (sh.get b)
        (fun q => pairOf un sa (r * kk / bl + q)) (pairOf un sb) (lowBits (old >>> (32 * r)) 32)
      let outs := (List.range rows).map row
      let u1 := u.setGroup o.vd.toNat gd (assemble 32 (fun r =>
        if r < rows then (outs.getD r (0, 0)).1 else if d.ta then 0 else old >>> (32 * r)) (gd * sh.vlen / 32))
      .next (u1.modHart (fun h => h.raise (outs.foldl (fun x p => x ||| p.2) 0)))))

end Sys2Proof.Machine
end

