-- ==== Sys2Proof/Machine/LongFloat.lean ====
section
/-! DEFINITION. Custom-2 group 2: long floats (R177 to R182, R60 to R66). -/
namespace Sys2Proof.Machine

def DevCsr.prec (d : DevCsr) : Nat := d.vprecP.toNat

/-- What every long-float instruction asks for: ew = 5 and a legal vprec.rm (R177). -/
def lfOk (d : DevCsr) : Bool := d.isLf && decide (d.vprecRm.toNat < 6)
/-- A long-float result fits the window (R65, R177). -/
def lfFits (d : DevCsr) : Bool := decide (kOfP d.prec ≤ d.k)

/-- One long-float result before rounding: the exact value and the flags of the operation. -/
abbrev LfExact := Ev × Nat

/-- The element written for a result of length k(P) in a window: the unused limbs follow the tail policy (R65). -/
def lfStored (d : DevCsr) (old r : Nat) : Nat :=
  let used := 64 * (kOfP d.prec + 1)
  r + (if d.ta then 0 else old >>> used <<< used)

/-- The least P from 8 to 480 at which a value is exact, 0 when there is none (Table 06-6). -/
def needFor (rm : Nat) (v : Ev) : Nat := (((List.range 473).map (· + 8)).find? (fun p => !(lfRound v p rm).2.2)).getD 0

/-- Fault-record words 4 to 7 of cause 25 (Table 06-6). -/
def precWords (s : State) (i : Nat) (v : Ev) : List Nat :=
  let d := s.hart.dev
  let need := needFor d.vprecRm.toNat v
  let kneed := if need = 0 then 0 else kOfP need
  [kneed * (1 <<< 25) + need * 65536 + i % 65536, (vprecWord d).toNat, s.fetched.toNat, d.vtype.toNat]

/-- Writes long-float results over the common frame. With vprec.X = 1 the first active element whose rounding is inexact stops the
instruction there with cause 25 (R64). -/
def lfWrite (s : State) (m : Bool) (vd : Reg) (f : Nat → LfExact) : Body :=
  let sh := s.shape
  let d := s.hart.dev
  let fr := s.frame m
  let rm := d.vprecRm.toNat
  let old := s.getGroup vd.toNat sh.g
  let res := fun i => lfStored d (sh.get old i) (lfRound (f i).1 d.prec rm).1
  let fl := fun i => (f i).2 ||| (lfRound (f i).1 d.prec rm).2.1
  let stop := if d.vprecX then
      (List.range fr.vgrant).find? (fun i => fr.on i && (lfRound (f i).1 d.prec rm).2.2)
    else none
  match stop with
  | none =>
    let s1 := s.setGroup vd.toNat sh.g (writeFrame sh fr old res)
    .next (s1.modHart (fun t => t.raise (flagsOver fr fl)))
  | some i =>
    let s1 := s.setGroup vd.toNat sh.g
      (writeGroup sh false old (fun j => if j < i then fr.pick j (sh.get old j) res sh.zero else sh.get old j))
    .trap { cause := 25, tval := i, words := precWords s i (f i).1 }
      (s1.modHart (fun t =>
        let t1 := t.raise (flagsOver { fr with vgrant := i } fl ||| flPX)
        { t1 with dev := { t1.dev with vstart := BitVec.ofNat 16 i } }))

def lfInfoB (s : State) (weight : Nat) (o : OpB) : VInfo := infoB s (lfOk s.hart.dev && lfFits s.hart.dev) weight o

/-- An instruction of two long-float sources. -/
def lfB (o : OpB) (weight : Nat) (third : Bool) (f : Nat → Ev → Ev → Ev → LfExact) (s : State) : Outcome :=
  finish (vec s (if third then withThird (lfInfoB s weight o) else lfInfoB s weight o) (fun u =>
    let sh := u.shape
    let rm := u.hart.dev.vprecRm.toNat
    let a := u.getGroup o.vs2.toNat sh.g
    let b := u.getGroup (srcReg o.src).toNat sh.g
    let c := u.getGroup o.vd.toNat sh.g
    lfWrite u o.m o.vd (fun i =>
      f rm (lfDecode (sh.get a i) sh.k) (lfDecode (sh.get b i) sh.k) (lfDecode (sh.get c i) sh.k))))

def lfInfoU (s : State) (weight : Nat) (o : OpU) : VInfo := infoU s (lfOk s.hart.dev && lfFits s.hart.dev) weight o

def lfU (o : OpU) (weight : Nat) (f : Ev → LfExact) (s : State) : Outcome :=
  finish (vec s (lfInfoU s weight o) (fun u =>
    let sh := u.shape
    let a := u.getGroup o.vs2.toNat sh.g
    lfWrite u o.m o.vd (fun i => f (lfDecode (sh.get a i) sh.k))))

/-! ### Arithmetic (Table 06-5) -/

/-- lf.add -/
def execLfAdd (o : OpB) (s : State) : Outcome := lfB o 3 false (fun rm a b _ => nvIf (a.add rm b)) s
/-- lf.sub -/
def execLfSub (o : OpB) (s : State) : Outcome := lfB o 3 false (fun rm a b _ => nvIf (a.add rm b.neg)) s
/-- lf.mul -/
def execLfMul (o : OpB) (s : State) : Outcome := lfB o 3 false (fun _ a b _ => nvIf (a.mul b)) s
/-- lf.fma -/
def execLfFma (o : OpB) (s : State) : Outcome := lfB o 3 true (fun rm a b c => nvIf (Ev.fma rm a b c)) s
/-- lf.div -/
def execLfDiv (o : OpB) (s : State) : Outcome := lfB o 4 false (fun _ a b _ => a.div b) s
/-- lf.sqrt -/
def execLfSqrt (o : OpU) (s : State) : Outcome := lfU o 4 (fun a => nvIf a.sqrt) s

/-- A value as it is; a signalling NaN raises NV. -/
def asIs (a : Ev) : LfExact := (a, if a.sigNan then flNV else 0)

/-- lf.rnd -/
def execLfRnd (o : OpU) (s : State) : Outcome := lfU o 3 asIs s

/-- Trailing zero bits of a number, at most n. -/
def trailing : Nat → Nat → Nat
  | 0, _ => 0
  | n + 1, v => if v % 2 = 1 then 0 else 1 + trailing n (v / 2)

/-- The number of significand bits from the leading bit to the lowest set bit. -/
def lfBits (a : Ev) : Nat :=
  match a with
  | .fin _ m => Nat.log2 m.n - trailing (Nat.log2 m.n) m.n + 1
  | _ => 0

/-- lf.len -/
def execLfLen (o : OpU) (s : State) : Outcome :=
  lfU o 3 (fun a => (Ev.ofInt (lfBits a), if a.sigNan then flNV else 0)) s

/-- |a| with a sign; a NaN stays a NaN. -/
def withSign (a : Ev) (neg : Bool) : Ev :=
  match a with
  | .nan q => .nan q
  | .inf _ => .inf neg
  | .zero _ => .zero neg
  | .fin _ m => .fin neg m

/-- lf.sgnj: b supplies only its sign bit. -/
def execLfSgnj (o : OpB) (s : State) : Outcome :=
  finish (vec s (lfInfoB s 3 o) (fun u =>
    let sh := u.shape
    let a := u.getGroup o.vs2.toNat sh.g
    let b := u.getGroup (srcReg o.src).toNat sh.g
    lfWrite u o.m o.vd (fun i => asIs (withSign (lfDecode (sh.get a i) sh.k) (bitOf (sh.get b i) 63)))))

/-! ### Conversions (R179) -/

def lfSelFmt (sel : Nat) : FFmt := match sel with | 0 => .fp16 | 1 => .bf16 | 2 => .fp32 | _ => .fp64

/-- The G-register group of fixed-width elements beside a long-float group. -/
def sideShape (sh : Shape) (w : Nat) : Shape := { vlen := sh.vlen, g := sh.g, ew := w, lf := false, k := 0 }

def lfFromInfo (s : State) (o : OpS) : VInfo := { lfInfoU s 3 ⟨o.vd, o.vs2, o.m⟩ with apart := true }

def lfFrom (o : OpS) (w : Nat) (f : Nat → Ev) (s : State) : Outcome :=
  finish (vec s (lfFromInfo s o) (fun u =>
    let sh := sideShape u.shape w
    let a := u.getGroup o.vs2.toNat sh.g
    lfWrite u o.m o.vd (fun i => asIs (f (sh.get a i)))))

/-- lf.fromf -/
def execLfFromf (o : OpS) (s : State) : Outcome :=
  let f := lfSelFmt o.sel.toNat
  lfFrom o f.width (fun c => f.decode c) s

/-- lf.fromx -/
def execLfFromx (o : OpS) (s : State) : Outcome :=
  lfFrom o 64 (fun c => Ev.ofInt (if o.sel = 0 then toInt 64 c else c)) s

def lfToInfo (s : State) (o : OpS) : VInfo := { infoU s (lfOk s.hart.dev) 3 ⟨o.vd, o.vs2, o.m⟩ with apart := true }

def lfTo (o : OpS) (w : Nat) (f : Nat → Ev → Nat × Nat) (s : State) : Outcome :=
  finish (vec s (lfToInfo s o) (fun u =>
    let sh := u.shape
    let a := u.getGroup o.vs2.toNat sh.g
    let rm := u.hart.dev.vprecRm.toNat
    .next (writeElems u (sideShape sh w) o.m o.vd (fun i => f rm (lfDecode (sh.get a i) sh.k)))))

/-- lf.tof: to FP16 or BF16 a narrowing conversion. -/
def execLfTof (o : OpS) (s : State) : Outcome :=
  let f := lfSelFmt o.sel.toNat
  let sat := s.hart.dev.sat && f.width == 16
  lfTo o f.width (fun rm a => roundTo f a rm sat) s

/-- lf.tox -/
def execLfTox (o : OpS) (s : State) : Outcome := lfTo o 64 (fun rm a => roundToInt 64 (o.sel == 0) a rm) s

/-! ### Compares (R180) -/

def lfCompare (o : OpB) (rel : Ev → Ev → Bool) (nanGives anyNan : Bool) (s : State) : Outcome :=
  finish (vec s (infoCmp s (lfOk s.hart.dev) 3 o) (fun u =>
    let k := u.shape.k
    cmpB u o (fun _ a b =>
      let x := lfDecode a k
      let y := lfDecode b k
      if x.isNan || y.isNan then (nanGives, if anyNan || x.sigNan || y.sigNan then flNV else 0) else (rel x y, 0))))

/-- lf.cmp.lt -/
def execLfCmpLt (o : OpB) (s : State) : Outcome := lfCompare o Ev.lt false true s
/-- lf.cmp.le -/
def execLfCmpLe (o : OpB) (s : State) : Outcome := lfCompare o (fun x y => !y.lt x) false true s
/-- lf.cmp.eq -/
def execLfCmpEq (o : OpB) (s : State) : Outcome := lfCompare o Ev.eq false false s
/-- lf.cmp.un -/
def execLfCmpUn (o : OpB) (s : State) : Outcome := lfCompare o (fun _ _ => false) true false s

end Sys2Proof.Machine
end

