-- ==== Sys2Proof/Machine/Engine.lean ====
section
/-! DEFINITION. The engines of a core (chapter 07): command fields, the acceptance checks of Table 07-3, the dependence graph, leave,
completion and faults. -/
namespace Sys2Proof.Machine

/-! ### Command fields (Table 03-13) -/

def bitsAt (w : Word) (lo n : Nat) : Nat := w.toNat / (1 <<< lo) % (1 <<< n)

def Node.cmdKind (n : Node) : Nat := bitsAt n.w0 0 6
def Node.id (n : Node) : Nat := bitsAt n.w0 6 7
def Node.succA (n : Node) : Nat := bitsAt n.w0 13 7
def Node.succB (n : Node) : Nat := bitsAt n.w0 20 7
def Node.predCount (n : Node) : Nat := bitsAt n.w0 27 6
def Node.batchTag (n : Node) : Nat := bitsAt n.w0 33 3
def Node.notify (n : Node) : Bool := n.w0.getLsbD 36
def Node.fmtByte (n : Node) : Nat := bitsAt n.w0 37 8

/-- The floating format of a format byte (Table 03-14). -/
def byteFmt (b : Nat) : Option FFmt :=
  match b with
  | 2 => some .e4m3 | 3 => some .e5m2 | 4 => some .e2m1 | 6 => some .fp16 | 7 => some .bf16 | 9 => some .fp32
  | 11 => some .fp64 | _ => none

/-- Element bytes of a format byte in the copy kinds (R202). -/
def byteSize (b : Nat) : Option Nat :=
  match b with
  | 0 => some 1 | 1 => some 1 | 2 => some 1 | 3 => some 1 | 6 => some 2 | 7 => some 2 | 8 => some 2 | 9 => some 4 | 10 => some 4
  | 11 => some 8 | 12 => some 8 | _ => none

/-- Formats that add: INT8 to INT64, FP16, BF16, FP32, FP64 (R202). -/
def byteAdds (b : Nat) : Bool := b == 1 || (6 ≤ b && b ≤ 12)

/-! ### kmma fields (Table 07-6) -/

def Node.mmaN (n : Node) : Nat := bitsAt n.w0 52 8 + 1
def Node.mmaM (n : Node) : Nat := bitsAt n.w0 45 7 + 1
def Node.mmaTransB (n : Node) : Bool := n.w0.getLsbD 62
def Node.mmaTransA (n : Node) : Bool := n.w0.getLsbD 61
def Node.mmaZero (n : Node) : Bool := n.w0.getLsbD 60
def Node.mmaLda (n : Node) : Nat := bitsAt n.w1 48 16
def Node.mmaLdb (n : Node) : Nat := bitsAt n.w2 48 16
def Node.mmaSofs (n : Node) : Nat := bitsAt n.w3 56 8
def Node.mmaSpr (n : Node) : Nat := bitsAt n.w3 48 8
def Node.mmaGang (n : Node) : Bool := n.w3.getLsbD 46
def Node.mmaFmtB (n : Node) : Nat := let b := bitsAt n.w3 38 8; if b = 0 then n.fmtByte else b
def Node.mmaRow0 (n : Node) : Nat := bitsAt n.w3 31 7
def Node.mmaAccCol (n : Node) : Nat := bitsAt n.w3 23 8
def Node.mmaAccRow (n : Node) : Nat := bitsAt n.w3 16 7
def Node.mmaK (n : Node) : Nat := bitsAt n.w3 0 16 + 1
def Node.base1 (n : Node) : Nat := bitsAt n.w1 0 48
def Node.base2 (n : Node) : Nat := bitsAt n.w2 0 48

/-- Bytes of an operand element of a kmma that its base aligns to. -/
def mmaAlign (b : Nat) : Nat := match b with | 6 => 2 | 7 => 2 | _ => 1

def mmaNarrow (b : Nat) : Bool := b == 2 || b == 3 || b == 4
def mmaFormat (b : Nat) : Bool := b == 1 || mmaNarrow b || b == 6 || b == 7

/-! ### Copy fields (Tables 07-7 to 07-11) -/

def Node.count40 (n : Node) : Nat := bitsAt n.w3 0 40
def Node.useDstNest (n : Node) : Bool := n.w0.getLsbD 56
def Node.dstNestReg (n : Node) : Nat := bitsAt n.w0 51 5
def Node.useSrcNest (n : Node) : Bool := n.w0.getLsbD 50
def Node.srcNestReg (n : Node) : Nat := bitsAt n.w0 45 5
def Node.elemBytes (n : Node) : Nat := (byteSize n.fmtByte).getD 1
def Node.idxBytes (n : Node) : Nat := if n.w0.getLsbD 61 then 8 else 4
def Node.rowLen (n : Node) : Nat := bitsAt n.w0 45 16 + 1
def Node.rowCount (n : Node) : Nat := bitsAt n.w3 48 16 + 1
def Node.idxBase (n : Node) : Nat := bitsAt n.w3 0 48
def Node.collBar (n : Node) : Nat := bitsAt n.w0 50 6
def Node.collScope (n : Node) : Nat := bitsAt n.w0 48 2
def Node.collOp (n : Node) : Nat := bitsAt n.w0 45 3
def Node.collRoot (n : Node) : Nat := bitsAt n.w3 40 9
def Node.diskQp (n : Node) : Nat := bitsAt n.w0 45 8
def Node.diskNs (n : Node) : Nat := bitsAt n.w3 16 32
def Node.diskBlocks (n : Node) : Nat := bitsAt n.w3 0 16 + 1

/-- Bytes of a participant's source and destination in a kcoll of p participants (R205). -/
def Node.collSrcCount (n : Node) (p : Nat) : Nat := if n.collOp = 3 then p * n.count40 else n.count40
def Node.collDstCount (n : Node) (p : Nat) : Nat := if n.collOp = 2 then p * n.count40 else n.count40

/-! ### Acceptance (Table 07-3) -/

def bytesMeet (a n b m : Nat) : Bool := decide (a < b + m) && decide (b < a + n)

/-- The participants of a kcoll, by rank (R205). -/
def collMembers (s : State) (c x scope bar : Nat) : List Nat :=
  match scope with
  | 0 => (match (s.thr c x).gang with | some g => g.members | none => [c])
  | 1 => ((SMap.get {} (s.die (dieOf c)).barriers bar : Barrier).members) |> sortBy (fun a b => decide (a ≤ b))
  | _ => ((SMap.get {} s.devBarriers bar : Barrier).members) |> sortBy (fun a b => decide (a ≤ b))

/-- The format byte, or the format shadow, is accepted by the kind. -/
def fmtAccepted (d : DevCsr) (n : Node) : Bool :=
  let f := n.fmtByte
  match n.cmdKind with
  | 1 =>
    let g := n.mmaFmtB
    mmaFormat f && mmaFormat g && (f == g || ((f == 2 || f == 3) && (g == 2 || g == 3))) &&
      (!mmaNarrow f || d.blk == 0 || d.blk == 32)
  | 2 => (byteSize f).isSome
  | 5 => (byteSize f).isSome
  | 6 => byteAdds f
  | 7 => if n.collOp = 0 ∨ n.collOp = 3 then byteAdds f else (byteSize f).isSome
  | _ => f == 0

/-- The bits the kind's field map marks reserved are zero. -/
def reservedClear (n : Node) : Bool :=
  match n.cmdKind with
  | 1 => !n.w0.getLsbD 63 && !n.w3.getLsbD 47
  | 2 => bitsAt n.w0 57 7 == 0 && bitsAt n.w3 40 24 == 0
  | 3 => bitsAt n.w0 62 2 == 0
  | 4 => bitsAt n.w0 62 2 == 0
  | 5 => bitsAt n.w0 57 7 == 0 && bitsAt n.w0 45 6 == 0 && bitsAt n.w3 40 24 == 0
  | 6 => bitsAt n.w0 57 7 == 0 && bitsAt n.w3 40 24 == 0
  | 7 => bitsAt n.w0 56 8 == 0 && bitsAt n.w3 49 15 == 0
  | 8 => bitsAt n.w0 53 11 == 0 && bitsAt n.w3 48 16 == 0
  | 9 => bitsAt n.w0 50 14 == 0 && bitsAt n.w1 48 16 == 0 && n.w2 == 0 && n.w3 == 0
  | _ => bitsAt n.w0 50 14 == 0 && n.w3 == 0

/-- Every field in range, bases aligned, counts non-zero, no refused overlap. -/
def fieldsInRange (s : State) (c x : Nat) (n : Node) : Bool :=
  let sz := n.elemBytes
  match n.cmdKind with
  | 1 =>
    let f := n.fmtByte
    let g := n.mmaFmtB
    decide (n.mmaN ≤ 192) && decide (1 ≤ n.mmaLda) && decide (1 ≤ n.mmaLdb) &&
      decide (n.base1 % mmaAlign f = 0) && decide (n.base2 % mmaAlign g = 0) &&
      (f != 4 || n.mmaLda % 2 == 0) && (g != 4 || n.mmaLdb % 2 == 0) &&
      (mmaNarrow f || (n.mmaSpr == 0 && n.mmaSofs == 0)) && decide (n.mmaRow0 < n.mmaM) &&
      decide (n.mmaAccCol + n.mmaN ≤ 192) && decide (n.mmaAccRow + n.mmaM ≤ 128)
  | 5 => n.count40 != 0 && (n.useDstNest || n.base1 % sz == 0)
  | 7 =>
    let p := (collMembers s c x n.collScope n.collBar).length
    n.count40 != 0 && decide (n.collScope < 3) && decide (n.collOp < 4) &&
      (match n.collScope with | 0 => n.collBar == 0 | 1 => true | _ => decide (n.collBar < 16)) &&
      decide (n.base1 % sz = 0) && decide (n.base2 % sz = 0) && decide (n.collRoot < p) &&
      !bytesMeet n.base1 (n.collSrcCount p * sz) n.base2 (n.collDstCount p * sz)
  | 8 =>
    match s.host.nvme.find? (fun e => e.1 == n.diskQp) with
    | some (_, q) => decide (n.base1 % (1 <<< q.log2Block) = 0)
    | none => false
  | 9 => n.base1 % 32 == 0
  | 10 =>
    let op := bitsAt n.w0 45 2
    decide (bitsAt n.w0 47 3 < 6) && op != 3 && (if op = 2 then n.base1 % 4 == 0 else n.base1 % 8 == 0)
  | 3 => n.idxBase % n.idxBytes == 0
  | 4 => n.idxBase % n.idxBytes == 0
  | _ =>
    n.count40 != 0 && (n.useSrcNest || n.base1 % sz == 0) && (n.useDstNest || n.base2 % sz == 0) &&
      (n.useSrcNest || n.useDstNest || !bytesMeet n.base1 (n.count40 * sz) n.base2 (n.count40 * sz))

/-- The kind or form is allowed here: gang forms from the leader with no graph, a collective inside its membership, a remote
command that is a bare kmma. -/
def formAllowed (s : State) (c x : Nat) (n : Node) (remote : Bool) : Bool :=
  let bare := n.predCount == 0 && n.succA == 127 && n.succB == 127
  let leads := (s.thr c x).gang.any (fun g => g.pos == 0)
  (!remote || (n.cmdKind == 1 && bare && !n.mmaGang)) &&
  (match n.cmdKind with
   | 1 => !n.mmaGang || (leads && bare)
   | 7 => if n.collScope = 0 then leads else (collMembers s c x n.collScope n.collBar).contains c
   | _ => true)

def idsOk (n : Node) : Bool :=
  let ok (x : Nat) : Bool := (decide (x < 96) || x == 127) && x != n.id
  decide (n.id < 96) && ok n.succA && ok n.succB

/-- The acceptance status: the first failing row of Table 07-3. -/
def acceptCode (s : State) (c x : Nat) (d : DevCsr) (n : Node) (remote : Bool) : Nat :=
  let old := s.node c n.id
  if n.cmdKind = 0 ∨ 10 < n.cmdKind then 1
  else if !idsOk n then 2
  else if old.st = .waiting ∨ old.st = .running ∨ old.st = .stalled then 3
  else if !fmtAccepted d n then 4
  else if !reservedClear n then 5
  else if !fieldsInRange s c x n then 6
  else if !formAllowed s c x n remote then 7
  else 0

/-- The copy kinds (R183). -/
def copyKind (k : Nat) : Bool := 2 ≤ k && k ≤ 8
def copiesInFlight (k : Core) : Nat := (k.nodes.filter (fun e => e.2.inFlight && copyKind e.2.kind)).length

/-! ### Completion rings (R189, R424) -/

/-- The device reads a 64-bit word that the host or software keeps for it; of uncorrectable data it gets a free value, and the page is
queued (R338, log 36). -/
def devWord (s : State) (a : Nat) : Nat × State :=
  match s.badIn a 8 with
  | some k => let d := (s.retirePage (k * 32 / 4096)).draw; (d.1.toNat, d.2)
  | none => (s.peek a 8, recallRead s none a 8)

/-- Appends the node's entry to its core's ring when its command asks for it. -/
def ringAppend (s : State) (c n : Nat) : State :=
  let nd := s.node c n
  let r := (s.core c).ring
  if !nd.notify || r.base = 0 then s
  else
    let head := devWord s r.headAt
    let tail := devWord head.2 r.tailAt
    if r.t - head.1 % (1 <<< 63) = 1 <<< r.log2 then
      tail.2.storePhys none none r.tailAt 8 (lowBits tail.1 63 + (1 <<< 63))
    else
      let at' := r.base + 16 * (r.t % (1 <<< r.log2))
      let hi := n % 128 + nd.ctx % 8 * 256 + c * 65536
      let s1 := (tail.2.storePhys none none at' 8 nd.statusWord.toNat).storePhys none none (at' + 8) 8 hi
      let keep := tail.1 / (1 <<< 63) * (1 <<< 63)
      (s1.storePhys none none r.tailAt 8 (keep + (r.t + 1) % (1 <<< 63))).modCore c (fun k =>
        { k with ring := { k.ring with t := k.ring.t + 1 } })

/-! ### Leave (R306) -/

/-- The core whose matrix unit runs a command: a remote command's target. -/
def Node.runsOn (nd : Node) (c : Nat) : Nat := match nd.remote with | some (t, _) => t | none => c

/-- The commands a leave request counts as. -/
def Node.leaveCost (nd : Node) : Nat := if nd.kind = 1 then max 1 nd.members.length else 1

/-- The event that runs a command of a kind on. -/
def kindEvent (kind c n : Nat) : Event :=
  match kind with
  | 1 => .kmma c n | 2 => .kcopy c n | 3 => .kgath c n | 4 => .kscat c n | 5 => .kfill c n | 6 => .kred c n
  | 7 => .kcoll c n | 8 => .kdisk c n | 9 => .knest c n | _ => .ksig c n

/-- A request ends its wait for leave: it leaves the queue, and a wait of a slice cycle or more is counted in telemetry (Table 22-1). -/
def endAsking (s : State) (die c n : Nat) : State :=
  let nd := s.node c n
  let waited := (s.now - nd.leaveSince) / Config.slicePeriod
  let s1 := s.modDie die (fun d => { d with power := { d.power with asking := d.power.asking.filter (fun e => e != (c, n)) } })
  (if waited = 0 then s1 else s1.modCore (nd.runsOn c) (fun k =>
    { k with lvdef := k.lvdef + 1, lvwait := k.lvwait + BitVec.ofNat 64 waited })).modNode c n (fun m => { m with leave := false })

/-- Grants leave to a request: it counts as held, and the command starts. -/
def grantLeave (s : State) (die c n : Nat) : State :=
  let nd := s.node c n
  (((endAsking s die c n).modDie die (fun d => { d with power := { d.power with held := d.power.held + nd.leaveCost } })).modNode c n
    (fun m => { m with holdsLeave := true })).later (kindEvent nd.kind c n)

/-- Admits waiting requests in arrival order up to the running limit. -/
def admitLeave (s : State) (die : Nat) : Nat → State
  | 0 => s
  | f + 1 =>
    let p := (s.die die).power
    match p.asking with
    | [] => s
    | (c, n) :: _ =>
      if p.held + (s.node c n).leaveCost ≤ p.limit then admitLeave (grantLeave s die c n) die f else s

def State.admitAll (s : State) (die : Nat) : State := admitLeave s die (s.die die).power.asking.length

/-- A command asks its die's power controller for leave; at the wait limit it is admitted beyond the running limit. -/
def askLeave (s : State) (c n : Nat) : State :=
  let die := dieOf ((s.node c n).runsOn c)
  let s1 := s.modNode c n (fun m => { m with leave := true, leaveSince := s.now })
  let s2 := s1.modDie die (fun d => { d with power := { d.power with asking := d.power.asking ++ [(c, n)] } })
  (s2.after (sliceTicks (s2.die die).power.wait.toNat) (.leaveWaitExpire die c n)).admitAll die

/-- Gives leave back, or withdraws the request; those behind it may be admitted. -/
def releaseLeave (s : State) (c n : Nat) : State :=
  let nd := s.node c n
  let die := dieOf (nd.runsOn c)
  if nd.holdsLeave then
    ((s.modNode c n (fun m => { m with holdsLeave := false })).modDie die (fun d =>
      { d with power := { d.power with held := d.power.held - nd.leaveCost } })).admitAll die
  else if nd.leave then (endAsking s die c n).admitAll die
  else s

/-! ### Engine accesses (R186) -/

/-- The answer of an engine access: a value, a page fault for the kernel, or a fault status with the page of uncorrectable data. -/
inductive Eng (α : Type) where
  | ok (a : α)
  | page (va : Nat)
  | bad (code : Nat) (page : Option Nat := none)
  deriving DecidableEq, Repr

def Eng.bind {α β : Type} : Eng α → (α → Eng β) → Eng β
  | .ok a, f => f a
  | .page v, _ => .page v
  | .bad c p, _ => .bad c p

/-- The translation of a command's accesses on core c: its captured space, at the privilege it was submitted at, through the core's
matrix load-pipe TLB or L1 TLB (log 18). -/
def Node.xlat (nd : Node) (c : Nat) : Xlat :=
  { satp := nd.satp, priv := if nd.sup then .S else .U, sum := true, tlb := some (c, nd.kind == 1), stash := false }

/-- A 48-bit address of a command as a virtual address (R186, R313). -/
def engVa (satp : Word) (a : Nat) : Nat :=
  let x := a % (1 <<< 48)
  if satp.toNat / (1 <<< 60) = 0 then x
  else if x < 1 <<< 47 then x else x + ((1 <<< 64) - (1 <<< 48))

/-- Translates an access of a command; device-class memory is status 0x13, an unreadable table entry 0x11, a closed host window 0x10
(R186, R417). -/
def engPlace (s : State) (nd : Node) (c : Nat) (acc : Acc) (a : Nat) (device : Bool) : Eng (PAddr × State) :=
  let va := engVa nd.satp a
  match translate s (nd.xlat c) acc va with
  | .done p =>
    if p.cls = .io ∧ !device then .bad 0x13
    else match regionOf s p.pa with
    | .host _ => if hostOpen s then .ok (p, s.noted s (nd.xlat c) acc va) else .bad 0x10
    | _ => .ok (p, s.noted s (nd.xlat c) acc va)
  | .trap e => if e.cause = 46 then .bad 0x11 e.retire else if e.cause = acc.pageCause then .page va else .bad 0x10
  | .wait => .bad 0x10

/-- An xfence orders a command's accesses after it at its scope (R350, R355): the command was accepted after it and lies in its scope.
Acceptance after it in time stands for acceptance ordered after it (log 6). -/
def Node.follows (nd : Node) (r : Reach) : Bool :=
  let on := [nd.home, nd.runsOn nd.home]
  decide (r.tick ≤ nd.accepted) &&
    (match r.scope with
     | 0 => r.thread == nd.thread
     | 1 | 2 => r.thread == nd.thread || on.any r.cores.contains
     | 3 => on.any (fun c => r.cores.any (fun d => dieOf c == dieOf d))
     | _ => true)

/-- A write that a command's reads may miss (R357, R360): a thread's, unless a fence into E of its own thread or an xfence orders it
before the command; another agent's, unless it was performed before the command's launch (log 6). -/
def Node.misses (nd : Node) (w : Past) : Bool :=
  match w.thread with
  | some t => !((t == nd.thread && decide (w.seq < if w.act then nd.fenceA else nd.fenceW)) || w.reach.any nd.follows)
  | none => decide (nd.launched ≤ w.seq)

/-- A command's read of n bytes that lie in one line, u at a time, by core c. -/
def engReadPiece (s : State) (nd : Node) (c a n u : Nat) : Eng (Nat × State) :=
  (engPlace s nd c .load a false).bind (fun p =>
    match regionOf s p.1.pa with
    | .dram =>
      match s.badIn p.1.pa n with
      | some k => .bad 0x11 (some (k * 32 / 4096))
      | none => .ok ((recallRead p.2 none p.1.pa n).readPlace c p.1 n u nd.misses)
    | .host off => .ok (hostLoad p.2 off n)
    | _ => .bad 0x10)

/-- The pieces of n bytes at a that lie in one 128-byte line each: offset and length. -/
def linePieces (a n : Nat) : Nat → Nat → List (Nat × Nat)
  | 0, _ => []
  | f + 1, off =>
    if n ≤ off then []
    else
      let len := min (n - off) (128 - (a + off) % 128)
      (off, len) :: linePieces a n f (off + len)

def piecesOf (a n : Nat) : List (Nat × Nat) := linePieces a n (n / 128 + 2) 0

def engReadPieces (s : State) (nd : Node) (c a u : Nat) : List (Nat × Nat) → Eng (Nat × State)
  | [] => .ok (0, s)
  | (off, len) :: rest =>
    (engReadPiece s nd c (a + off) len u).bind (fun r =>
      (engReadPieces r.2 nd c a u rest).bind (fun q => .ok (r.1 <<< (8 * off) + q.1, q.2)))

/-- A command's read of n bytes at a, u at a time, by core c. -/
def engRead (s : State) (nd : Node) (c a n u : Nat) : Eng (Nat × State) := engReadPieces s nd c a u (piecesOf a n)

/-- Performs a write of n bytes at a physical place by a command, or by the device. -/
def engWrite (s : State) (by' : Option Node) (pa n v : Nat) : State :=
  match regionOf s pa with
  | .dram => s.storePhys none none pa n v (eng := by'.map (fun nd => (nd.serial, nd.asid)))
  | .host off => hostStore s off n v
  | _ => s

/-! ### Stops and faults (R186, R188, R193 to R195) -/

/-- Hands a page fault to the kernel, which resolves or declines it (log 18). -/
def pageStop (s : State) (c n : Nat) : State :=
  let ch := s.choose 2
  ((ch.2.modNode c n (fun m => { m with pageStop := true })).notify (.enginePageFault c n)).later
    (.enginePageFaultResolved c n (ch.1 == 0))

/-- A command meets a fault: a page fault goes to the kernel, any other status faults the command, and a page of uncorrectable data is
queued (R337). -/
def engStop (s : State) (c n : Nat) : Eng Unit → State
  | .ok _ => s
  | .page _ => pageStop s c n
  | .bad code page =>
    let s1 := match page with | some p => s.retirePage p | none => s
    { s1 with inbox := s1.inbox ++ [.commandFault c n (BitVec.ofNat 8 code)] }

/-- Every waiting successor of a faulted or stalled node stalls (R188). -/
def Core.stallOnce (k : Core) : Core :=
  { k with nodes := k.nodes.map (fun e =>
      if e.2.st == .waiting && k.nodes.any (fun f => (f.2.st == .faulted || f.2.st == .stalled) && (f.2.succA == e.1 || f.2.succB == e.1))
      then (e.1, { e.2 with st := .stalled }) else e) }

/-- The same, transitively: a chain has at most 96 nodes. -/
def Core.stallAll (k : Core) : Core := (List.range 96).foldl (fun q _ => q.stallOnce) k

/-- Records in the issuing thread's mrowp the node and first unfinished row of a kmma (R195), wherever that thread runs. -/
def setMrowp (s : State) (c n : Nat) : State :=
  let nd := s.node c n
  let row := max nd.progress nd.mmaRow0
  if nd.kind ≠ 1 then s
  else
    s.mapCtxs (fun d x t =>
      if s.threadOf d x = nd.thread then { t with dev := { t.dev with mrowp := BitVec.ofNat 16 (32768 + n % 128 * 256 + row % 256) } }
      else t)

/-- Clears mrowp in every thread of the core whose mrowp names a node (R195). -/
def clearMrowp (k : Core) (n : Nat) : Core :=
  { k with ctxs := Vector.ofFn (fun (i : Fin 8) =>
      let t := k.ctxs[i]
      let m := t.dev.mrowp.toNat
      if 32768 ≤ m ∧ m / 256 % 128 = n then { t with dev := { t.dev with mrowp := 0 } } else t) }

/-- The command that matches the kcoll of an index at a participant: its node. -/
def collNode (k : Core) (scope bar idx : Nat) : Option (Nat × Node) :=
  k.nodes.find? (fun e => e.2.inFlight && e.2.kind == 7 && e.2.collScope == scope && e.2.collBar == bar && e.2.collIdx == idx)

/-- The command of participant p that matches a kcoll: in a gang the leader's stands for every member's (log 37). -/
def collPeer (s : State) (nd : Node) (p : Nat) : Option (Nat × Node) :=
  collNode (s.core (if nd.collScope = 0 then nd.members.headD p else p)) nd.collScope nd.collBar nd.collIdx

/-- The name of the (scope, barrier) pair of a kcoll. -/
def Node.collKey (nd : Node) : Nat := nd.collScope * 64 + nd.collBar

/-- The faulted state of a node: what it still owned is released, nothing of its window is written, its successors stall. -/
def markFaulted (s : State) (c n code detail : Nat) : State :=
  let nd := s.node c n
  let p := if nd.kind = 1 then max nd.progress nd.mmaRow0 else if nd.kind = 7 then 0 else nd.progress
  let s1 := s.modNode c n (fun m =>
    { m with st := .faulted, status := code, detail := detail, progress := p, owned := [], pend := [], pageStop := false,
             stopping := false, writing := false })
  ringAppend (setMrowp (s1.modCore c Core.stallAll) c n) c n

/-- Every other participant of a faulted kcoll faults with 0x15, the detail naming the rank; one whose command is yet to run faults
when it does (R205). -/
def faultPeers (s : State) (c : Nat) (nd : Node) (rank : Nat) : State :=
  if nd.collScope = 0 then s
  else (nd.members.filter (· != c)).foldl (fun u p =>
    match collPeer u nd p with
    | some (m, v) =>
      if v.st = .running then releaseLeave (markFaulted u p m 0x15 rank) p m
      else if v.st = .faulted then u
      else u.modCore p (fun k => { k with collBad := (nd.collKey, nd.collIdx, rank) :: k.collBad })
    | none => u.modCore p (fun k => { k with collBad := (nd.collKey, nd.collIdx, rank) :: k.collBad })) s

/-- A command faults with a status (R194, R195). A remote command's fault goes back to its proxy node. -/
def faultCommand (s : State) (c n code detail : Nat) : State :=
  let nd := s.node c n
  match nd.remote with
  | some (t, _) =>
    let s1 := releaseLeave s c n
    let s2 := s1.modCore t (fun k => { k with remotes := k.remotes.filter (fun r => !(r.core == c && r.node == n)) })
    (s2.modNode c n (fun m => { m with sent := false, pageStop := false })).later
      (.remoteCompletion c n (BitVec.ofNat 8 code) (max nd.progress nd.mmaRow0))
  | none =>
    let s1 := releaseLeave (markFaulted s c n code detail) c n
    if nd.kind = 7 then faultPeers s1 c nd nd.rank else s1

end Sys2Proof.Machine
end

