-- ==== Sys2Proof/Machine/EngineRun.lean ====
section
/-! DEFINITION. Running commands: launch (R187), ownership windows (R361), copies, fills, gathers and scatters (R203, R204), kred,
kcoll (R205), knest (R207), ksig (R208), kmma (R196 to R201), completion, and their events. -/
namespace Sys2Proof.Machine

/-! ### Units and their places (R195, R203, R204) -/

/-- Units of a command with ownership windows. -/
def Node.units (s : State) (nd : Node) : Nat :=
  match nd.kind with
  | 3 => nd.rowCount
  | 4 => nd.rowCount
  | 7 => nd.collDstCount nd.members.length
  | 8 => nd.diskBlocks
  | _ => let _ := s; nd.count40

/-- The address of element j of a stream; a misaligned nest point is status 0x12. -/
def streamAddr (useNest : Bool) (nest : Nest) (base size j : Nat) : Eng Nat :=
  if useNest then
    let a := nest.addr base j
    if a % size = 0 then .ok a else .bad 0x12
  else .ok (base + j * size)

/-- An address of a row or index beyond 48 bits faults with 0x10 (R204). -/
def rowAddr (base i len : Nat) : Eng Nat :=
  let a := base + i * len
  if a + len ≤ 1 <<< 48 then .ok a else .bad 0x10

/-- Row j's index of a gather or scatter, read unsigned. -/
def readIndex (s : State) (nd : Node) (c j : Nat) : Eng (Nat × State) :=
  (rowAddr nd.idxBase j nd.idxBytes).bind (fun a => engRead s nd c a nd.idxBytes nd.idxBytes)

/-- Bytes of a kdisk block. -/
def diskBlock (s : State) (nd : Node) : Nat :=
  match s.host.nvme.find? (fun e => e.1 == nd.diskQp) with
  | some (_, q) => 1 <<< q.log2Block
  | none => 512

/-- Where unit j is written. -/
def unitDst (s : State) (nd : Node) (c j : Nat) : Eng (Nat × State) :=
  match nd.kind with
  | 2 => (streamAddr nd.useDstNest nd.dstNest nd.base2 nd.elemBytes j).bind (fun a => .ok (a, s))
  | 3 => (rowAddr nd.base2 j nd.rowLen).bind (fun a => .ok (a, s))
  | 4 => (readIndex s nd c j).bind (fun r => (rowAddr nd.base2 r.1 nd.rowLen).bind (fun a => .ok (a, r.2)))
  | 5 => (streamAddr nd.useDstNest nd.dstNest nd.base1 nd.elemBytes j).bind (fun a => .ok (a, s))
  | 8 => .ok (nd.base1 + j * diskBlock s nd, s)
  | _ => .ok (nd.base2 + j * nd.elemBytes, s)

/-- Bytes of a unit. -/
def unitBytes (s : State) (nd : Node) : Nat :=
  match nd.kind with
  | 3 => nd.rowLen
  | 4 => nd.rowLen
  | 8 => diskBlock s nd
  | _ => nd.elemBytes

/-- The physical pieces of unit j, without their values. -/
def placePieces (s : State) (nd : Node) (c j a : Nat) : List (Nat × Nat) → Eng (List EngWrite × State)
  | [] => .ok ([], s)
  | (off, len) :: rest =>
    (engPlace s nd c .store (a + off) false).bind (fun p =>
      (placePieces p.2 nd c j a rest).bind (fun l =>
        .ok ({ unit := j, off := off, pa := p.1.pa, len := len, val := 0 } :: l.1, l.2)))

def unitPieces (s : State) (nd : Node) (c j : Nat) : Eng (List EngWrite × State) :=
  (unitDst s nd c j).bind (fun d => placePieces d.2 nd c j d.1 (piecesOf d.1 (unitBytes s nd)))

/-- A window being formed: its pieces by unit, latest first, its end, and what stopped it (R361). -/
structure Window where
  pieces : List (List EngWrite)
  last : Nat
  stop : Eng Unit
  deriving DecidableEq, Repr

/-- The window from unit lo: pieces of consecutive units of at most 4 MiB. -/
def windowFrom (nd : Node) (c : Nat) : Nat → State → Nat → Nat → List (List EngWrite) → Window × State
  | 0, s, lo, _, acc => (⟨acc, lo, .ok ()⟩, s)
  | f + 1, s, lo, bytes, acc =>
    match unitPieces s nd c lo with
    | .ok ps =>
      let b := bytes + (ps.1.foldl (fun a p => a + p.len) 0)
      if 4194304 < b ∧ bytes ≠ 0 then (⟨acc, lo, .ok ()⟩, s) else windowFrom nd c f ps.2 (lo + 1) b (ps.1 :: acc)
    | .page v => (⟨acc, lo, .page v⟩, s)
    | .bad x p => (⟨acc, lo, .bad x p⟩, s)

/-- The lines of device memory a list of writes touches, each once. -/
def linesOf (s : State) (l : List EngWrite) : List Nat :=
  ((l.filter (fun w => regionOf s w.pa == .dram)).map (fun w => lineOf w.pa)).eraseDups

/-- Taking a line is a write for reservations and stash copies (R361). -/
def takeLine (s : State) (line : Nat) : State :=
  recallWrite (killReservations s none (line * 128) 128) none (line * 128) 128

/-- Takes the next window of a command: from its first unit not yet written. A window of no unit stops the command. -/
def takeWindow (s : State) (c n : Nat) : State :=
  let nd := s.node c n
  let lo := nd.winEnd
  let w := windowFrom nd c (nd.units s - lo) s lo 0 []
  if w.1.last = lo ∧ lo < nd.units s then engStop w.2 c n w.1.stop
  else
    let ps := w.1.pieces.reverse.flatten
    let lines := linesOf w.2 ps
    let s1 := lines.foldl takeLine w.2
    (s1.modNode c n (fun m => { m with winLo := lo, winEnd := w.1.last, fetched := lo, pend := ps, owned := lines, writing := false }))

/-! ### Launch (R187, R203, R207) -/

/-- A nest has at least as many points as the command's count. -/
def nestsLongEnough (nd : Node) : Bool :=
  (!nd.useDstNest || decide (nd.count40 ≤ nd.dstNest.total)) &&
  (nd.kind == 5 || !nd.useSrcNest || decide (nd.count40 ≤ nd.srcNest.total))

/-- The engines launch nothing of the contexts a snapshot in progress masks (R443). -/
def launchHeld (k : Core) (nd : Node) : Bool := !k.snap.done && bitOf k.snap.mask nd.ctx

/-- A command launches: D(n) is 0, its nests are copied, and it starts by kind. -/
def launchNode (s : State) (c n : Nat) : State :=
  let k := s.core c
  let nest := fun r => (SMap.get {} k.nests r : Nest)
  let s1 := s.modNode c n (fun m =>
    { m with st := .running, dcount := 0, launched := s.past.length, srcNest := nest m.srcNestReg, dstNest := nest m.dstNestReg })
  let nd := s1.node c n
  match nd.kind with
  | 1 => (match nd.remote with
          | some (t, cap) => (s1.modNode c n (fun m => { m with sent := true })).later (.remoteCommandArrive c n t cap)
          | none => askLeave s1 c n)
  | 6 => if nestsLongEnough nd then s1.later (.kred c n) else engStop s1 c n (.bad 0x14)
  | 7 => askLeave (takeWindow s1 c n) c n
  | 9 => s1.later (.knest c n)
  | 10 => s1.later (.ksig c n)
  | 2 => if nestsLongEnough nd then (takeWindow s1 c n).later (.kcopy c n) else engStop s1 c n (.bad 0x14)
  | 5 => if nestsLongEnough nd then (takeWindow s1 c n).later (.kfill c n) else engStop s1 c n (.bad 0x14)
  | k => (takeWindow s1 c n).later (kindEvent k c n)

/-- A waiting command whose counter has reached its predecessor count launches (R187). -/
def tryLaunch (s : State) (c n : Nat) : State :=
  let nd := s.node c n
  if nd.st = .waiting ∧ nd.preds ≤ nd.dcount ∧ !launchHeld (s.core c) nd then launchNode s c n else s

/-- COMMAND_LAUNCH -/
def execCommandLaunch (core node : Nat) (s : State) : Outcome := .next (tryLaunch s core node)

/-- When no node of the core is faulted any longer, stalled nodes wait again, and those whose counter is full launch (R188). -/
def unstall (s : State) (c : Nat) : State :=
  let k := s.core c
  if k.nodes.any (fun e => e.2.st == .faulted) then s
  else
    let ids := (k.nodes.filter (fun e => e.2.st == .stalled)).map (·.1)
    let s1 := ids.foldl (fun u m => u.modNode c m (fun v => { v with st := .waiting })) s
    ids.foldl (fun u m => tryLaunch u c m) s1

/-! ### Completion (R187) -/

/-- Adds 1 to a successor's counter and launches it where that suffices. -/
def decrement (s : State) (c m : Nat) : State :=
  if m < 96 then tryLaunch (s.modNode c m (fun v => { v with dcount := v.dcount + 1 })) c m else s

/-- Node n completes: it is free, its lines are released, its ring entry is written, its successors are counted. -/
def completeNode (s : State) (c n : Nat) : State :=
  let s1 := s.modNode c n (fun m =>
    { m with st := .free, status := 0, detail := 0, owned := [], pend := [], stopping := false, leave := false })
  let nd := s1.node c n
  decrement (decrement (ringAppend s1 c n) c nd.succA) c nd.succB

/-- Every other participant of a kcoll has read all sources (R205). -/
def collAllRead (s : State) (nd : Node) : Bool :=
  nd.members.all (fun p =>
    match collPeer s nd p with
    | some (_, v) => v.read
    | none => true)

/-- COMMAND_COMPLETE: a remote command's completion goes back to its proxy; a kcoll first waits for the other participants. -/
def execCommandComplete (core node : Nat) (s : State) : Outcome :=
  let nd := s.node core node
  if nd.st ≠ .running ∨ nd.pageStop then .next s
  else if nd.kind = 7 ∧ !collAllRead s nd then .next (s.later (.commandComplete core node))
  else match nd.remote with
  | some (t, _) =>
    let s1 := (releaseLeave s core node).modCore t (fun k =>
      { k with remotes := k.remotes.filter (fun r => !(r.core == core && r.node == node)) })
    .next ((s1.modNode core node (fun m => { m with sent := false })).later (.remoteCompletion core node 0 nd.progress))
  | none => .next (completeNode (releaseLeave s core node) core node)

/-- COMMAND_FAULT -/
def execCommandFault (core node : Nat) (status : BitVec 8) (s : State) : Outcome :=
  if (s.node core node).st = .running then .next (faultCommand s core node status.toNat 0) else .next s

/-- A running command whose page fault the kernel resolved goes on where it stopped. -/
def resumeNode (s : State) (c n : Nat) : State :=
  let nd := s.node c n
  match nd.kind with
  | 1 => s.later (.kmmaRowFinish c n)
  | 6 => s.later (.kred c n)
  | 9 => s.later (.knest c n)
  | 10 => s.later (.ksig c n)
  | k => if nd.pend.isEmpty then s.later (.ownershipWindowTake c n) else s.later (kindEvent k c n)

/-- ENGINE_PAGE_FAULT_RESOLVED: resumes, or faults with 0x10 where the kernel declined. -/
def execEnginePageFaultResolved (core node : Nat) (ok : Bool) (s : State) : Outcome :=
  let nd := s.node core node
  if nd.st ≠ .running ∨ !nd.pageStop then .next s
  else if ok then .next (resumeNode (s.modNode core node (fun m => { m with pageStop := false })) core node)
  else .next (faultCommand s core node 0x10 0)

/-! ### Reading units (R203 to R205, R363) -/

/-- The sum of two elements of a format byte: integers wrap, floats round to nearest even. -/
def addBytes (f a b : Nat) : Nat :=
  match byteFmt f with
  | some ff => (roundTo ff ((ff.decode a).add 0 (ff.decode b)).1 0 false).1
  | none => lowBits (a + b) (8 * (byteSize f).getD 1)

/-- Element j of rank r's source of a kcoll. -/
def readPeer (s : State) (nd : Node) (p j : Nat) : Eng (Nat × State) :=
  match collPeer s nd p with
  | some (_, v) => engRead s v p (v.base1 + j * v.elemBytes) v.elemBytes v.elemBytes
  | none => .bad 0x15

/-- Sums element j over the participants in rank order. -/
def sumPeers (s : State) (nd : Node) (j : Nat) (acc : Option Nat) : List Nat → Eng (Nat × State)
  | [] => .ok (acc.getD 0, s)
  | p :: rest =>
    (readPeer s nd p j).bind (fun r =>
      sumPeers r.2 nd j (some (match acc with | none => r.1 | some a => addBytes nd.fmtByte a r.1)) rest)

/-- The value of destination element j of a kcoll (R205). -/
def collValue (s : State) (nd : Node) (j : Nat) : Eng (Nat × State) :=
  match nd.collOp with
  | 0 => sumPeers s nd j none nd.members
  | 1 => readPeer s nd (nd.members.getD nd.collRoot 0) j
  | 2 => readPeer s nd (nd.members.getD (j / max 1 nd.count40) 0) (j % max 1 nd.count40)
  | _ => sumPeers s nd (nd.rank * nd.count40 + j) none nd.members

/-- The bytes of unit j. -/
def unitValue (s : State) (nd : Node) (c j : Nat) : Eng (Nat × State) :=
  match nd.kind with
  | 2 => (streamAddr nd.useSrcNest nd.srcNest nd.base1 nd.elemBytes j).bind (fun a => engRead s nd c a nd.elemBytes nd.elemBytes)
  | 3 => (readIndex s nd c j).bind (fun r =>
      (rowAddr nd.base1 r.1 nd.rowLen).bind (fun a => engRead r.2 nd c a nd.rowLen 1))
  | 4 => (rowAddr nd.base1 j nd.rowLen).bind (fun a => engRead s nd c a nd.rowLen 1)
  | 5 => .ok (lowBits nd.w2.toNat (8 * nd.elemBytes), s)
  | _ => collValue s nd j

/-- Gives the pieces of unit j their values. -/
def fillUnit (l : List EngWrite) (j v : Nat) : List EngWrite :=
  l.map (fun w => if w.unit = j then { w with val := lowBits (v >>> (8 * w.off)) (8 * w.len) } else w)

/-- Some writes of a list cover sector k wholly between them. -/
def coversSector (l : List EngWrite) (k : Nat) : Bool :=
  (List.range 32).all (fun i => l.any (fun v => decide (v.pa ≤ k * 32 + i) && decide (k * 32 + i < v.pa + v.len)))

/-- The first unit of a window that would write an uncorrectable sector in part, and the sector's page (R337). -/
def badUnit (s : State) (l : List EngWrite) : Option (Nat × Nat) :=
  l.findSome? (fun w =>
    (s.bad.find? (fun k => decide (k * 32 < w.pa + w.len) && decide (w.pa < k * 32 + 32) && !coversSector l k)).map
      (fun k => (w.unit, k * 32 / 4096)))

/-- The window ends before unit j, whose lines are given back; with no unit left the command stops. -/
def cutWindow (s : State) (c n j : Nat) (why : Eng Unit) : State :=
  let nd := s.node c n
  let keep := nd.pend.filter (fun w => decide (w.unit < j))
  let s1 := s.modNode c n (fun m => { m with winEnd := j, fetched := j, pend := keep, owned := linesOf s keep })
  if j = nd.winLo then engStop s1 c n why else s1.later (.engineLineWrite c n)

/-- Reads the next units of the window. -/
def readUnits (s : State) (c n : Nat) : Nat → State
  | 0 => s.later (kindEvent (s.node c n).kind c n)
  | f + 1 =>
    let nd := s.node c n
    if nd.winEnd ≤ nd.fetched then
      match badUnit s nd.pend with
      | some (j, page) => cutWindow s c n j (.bad 0x11 (some page))
      | none => s.later (.engineLineWrite c n)
    else
      match unitValue s nd c nd.fetched with
      | .ok r =>
        readUnits (r.2.modNode c n (fun m => { m with pend := fillUnit m.pend m.fetched r.1, fetched := m.fetched + 1 })) c n f
      | .page v => cutWindow s c n nd.fetched (.page v)
      | .bad code p => cutWindow s c n nd.fetched (.bad code p)

/-- A command that may run on: running, not stopped on a page fault, and not stopping for a snapshot (R443). -/
def Node.goes (nd : Node) : Bool := nd.st == .running && !nd.pageStop && (!nd.stopping || nd.writing)

/-- Runs a copying command on: it reads a free number of the next units of its window (R363). -/
def copyStep (c n kind : Nat) (s : State) : State :=
  let nd := s.node c n
  if !nd.goes || nd.kind ≠ kind || nd.pend.isEmpty then s
  else
    let ch := s.choose (nd.winEnd - nd.fetched + 1)
    readUnits ch.2 c n (ch.1 + 1)

/-- KCOPY -/
def execKcopy (core node : Nat) (s : State) : Outcome := .next (copyStep core node 2 s)
/-- KGATH -/
def execKgath (core node : Nat) (s : State) : Outcome := .next (copyStep core node 3 s)
/-- KSCAT -/
def execKscat (core node : Nat) (s : State) : Outcome := .next (copyStep core node 4 s)
/-- KFILL -/
def execKfill (core node : Nat) (s : State) : Outcome := .next (copyStep core node 5 s)

/-- What a command does when its window is written: the next window, or its completion. -/
def windowDone (s : State) (c n : Nat) : State :=
  let nd := s.node c n
  if nd.units s ≤ nd.winEnd then
    (s.modNode c n (fun m => { m with read := true })).later (.commandComplete c n)
  else s.later (.ownershipWindowTake c n)

/-- OWNERSHIP_WINDOW_TAKE -/
def execOwnershipWindowTake (core node : Nat) (s : State) : Outcome :=
  let nd := s.node core node
  if !nd.goes || !nd.pend.isEmpty || nd.units s ≤ nd.winEnd then .next s
  else
    let s1 := takeWindow s core node
    if (s1.node core node).pend.isEmpty then .next s1 else .next (s1.later (kindEvent nd.kind core node))

/-- The lowest unit with a write still to make. -/
def firstPending (l : List EngWrite) (d : Nat) : Nat := l.foldl (fun a w => min a w.unit) d

/-- Writes one line of the window in full, replacing the sectors it covers (R337), releases it, and moves the progress on (R361). -/
def writeLine (s : State) (c n line : Nat) : State :=
  let nd := s.node c n
  let mine := nd.pend.filter (fun w => decide (lineOf w.pa = line))
  let rest := nd.pend.filter (fun w => !decide (lineOf w.pa = line))
  let s1 := mine.foldl (fun u w => engWrite u (some nd) w.pa w.len w.val)
    (s.modNode c n (fun m => { m with owned := m.owned.filter (fun l => l != line) }))
  { s1 with bad := s1.bad.filter (fun k => !coversSector mine k) }.modNode c n (fun m =>
    { m with pend := rest, progress := if nd.kind = 7 then 0 else firstPending rest m.winEnd, writing := !rest.isEmpty })

/-- ENGINE_LINE_WRITE -/
def execEngineLineWrite (core node : Nat) (s : State) : Outcome :=
  let nd := s.node core node
  if !nd.goes || nd.fetched < nd.winEnd || nd.pend.isEmpty then .next s
  else
    let lines := (nd.pend.map (fun w => lineOf w.pa)).eraseDups
    let ch := s.choose lines.length
    let s1 := writeLine ch.2 core node (lines.getD ch.1 0)
    if (s1.node core node).pend.isEmpty then .next (windowDone s1 core node)
    else .next (s1.later (.engineLineWrite core node))

/-! ### kred (R203) -/

/-- A command's atomic update of n bytes at a place of device memory or the host window (R345). -/
def engUpdate (s : State) (nd : Node) (pa n : Nat) (f : Nat → Nat) : Eng State :=
  match regionOf s pa with
  | .dram =>
    match s.badIn pa n with
    | some k => .bad 0x11 (some (k * 32 / 4096))
    | none => .ok (engWrite (recallRead s none pa n) (some nd) pa n (f (s.peek pa n)))
  | .host off => let r := hostLoad s off n; .ok (hostStore r.2 off n (f r.1))
  | _ => .bad 0x10

/-- One element update at its home slice. -/
def redElement (s : State) (nd : Node) (c j : Nat) : Eng State :=
  (streamAddr nd.useSrcNest nd.srcNest nd.base1 nd.elemBytes j).bind (fun a =>
    (engRead s nd c a nd.elemBytes nd.elemBytes).bind (fun r =>
      (streamAddr nd.useDstNest nd.dstNest nd.base2 nd.elemBytes j).bind (fun b =>
        (engPlace r.2 nd c .store b false).bind (fun p =>
          (engUpdate p.2 nd p.1.pa nd.elemBytes (fun old => addBytes nd.fmtByte old r.1))))))

/-- KRED: the next element; the last one completes the command. -/
def execKred (core node : Nat) (s : State) : Outcome :=
  let nd := s.node core node
  if nd.kind ≠ 6 ∨ nd.st ≠ .running ∨ nd.pageStop then .next s
  else match redElement s nd core nd.progress with
  | .ok s1 =>
    let s2 := s1.modNode core node (fun m => { m with progress := m.progress + 1 })
    .next (if nd.progress + 1 < nd.count40 then s2.later (.kred core node) else s2.later (.commandComplete core node))
  | .page v => .next (engStop s core node (.page v))
  | .bad c p => .next (engStop s core node (.bad c p))

/-! ### kcoll (R205) -/

/-- A kcoll's command differs from another participant's (R205). -/
def collDiffers (nd v : Node) : Bool :=
  v.collOp != nd.collOp || v.count40 != nd.count40 || v.fmtByte != nd.fmtByte || v.collRoot != nd.collRoot

/-- The rank of a participant that has faulted, else of one whose command differs (R205). -/
def collBroken (s : State) (c : Nat) (nd : Node) : Option Nat :=
  let peers := (List.zip (List.range nd.members.length) nd.members).filterMap (fun e => (collPeer s nd e.2).map (fun p => (e.1, p.2)))
  match (s.core c).collBad.find? (fun e => e.1 == nd.collKey && e.2.1 == nd.collIdx) with
  | some (_, _, r) => some r
  | none =>
    match peers.find? (fun e => e.2.st == .faulted) with
    | some e => some e.1
    | none => (peers.find? (fun e => collDiffers nd e.2)).map (·.1)

/-- Every participant has issued its command, and each that has not completed runs with leave. -/
def collReady (s : State) (nd : Node) : Bool :=
  nd.members.all (fun p =>
    match collPeer s nd p with
    | some (_, v) => v.st == .running && v.holdsLeave
    | none => decide (nd.collIdx < SMap.get 0 (s.core p).colls nd.collKey))

/-- Every participant of a kcoll faults with 0x15 and a rank. -/
def collFault (s : State) (c n rank : Nat) : State :=
  let nd := s.node c n
  let s1 := s.modCore c (fun k => { k with collBad := k.collBad.filter (fun e => !(e.1 == nd.collKey && e.2.1 == nd.collIdx)) })
  faultPeers (releaseLeave (markFaulted s1 c n 0x15 rank) c n) c nd rank

/-- KCOLL: waits for its participants, then reads the elements of its window. -/
def execKcoll (core node : Nat) (s : State) : Outcome :=
  let nd := s.node core node
  if !nd.goes || nd.kind ≠ 7 || nd.leave || nd.pend.isEmpty then .next s
  else match collBroken s core nd with
  | some r => .next (collFault s core node r)
  | none => if collReady s nd then .next (copyStep core node 7 s) else .next (s.later (.kcoll core node))

/-! ### knest (R207) -/

/-- A nest image (R99). -/
def nestOfImage (v : Nat) : Nest := Nest.ofBits v

/-- KNEST: loads the register and completes; an image with a zero count faults with 0x17. -/
def execKnest (core node : Nat) (s : State) : Outcome :=
  let nd := s.node core node
  if nd.kind ≠ 9 ∨ nd.st ≠ .running ∨ nd.pageStop then .next s
  else match engRead s nd core nd.base1 32 8 with
  | .ok r =>
    let nest := nestOfImage r.1
    if nest.counts.any (· == 0) then .next (engStop r.2 core node (.bad 0x17))
    else .next (completeNode (r.2.modCore core (fun k => { k with nests := k.nests.put nd.srcNestReg nest })) core node)
  | .page v => .next (engStop s core node (.page v))
  | .bad c p => .next (engStop s core node (.bad c p))

/-! ### ksig (R208) -/

/-- The write of a ksig at its place; none while a full doorbell makes it wait (R418). It acts on a register block with the privilege of the
thread that submitted it (log 18). -/
def sigWrite (s : State) (c : Nat) (nd : Node) (p : PAddr) : Eng (Option State) :=
  let op := bitsAt nd.w0 45 2
  let n := if op = 2 then 4 else 8
  let v := fun old => if op = 1 then lowBits (old + nd.w2.toNat) 64 else lowBits nd.w2.toNat (8 * n)
  match regionOf s p.pa with
  | .block core off =>
    let priv : Priv := if nd.sup then .S else .U
    if n ≠ 8 then .bad 0x10
    else
      let old := if op = 1 then (match blockLoad s c nd.ctx priv core off with | .done r => r.1.toNat | _ => 0) else 0
      match blockStore s c nd.ctx priv core off (BitVec.ofNat 64 (v old)) with
      | .done s1 => .ok (some s1)
      | .trap _ => .bad 0x10
      | .wait => .ok none
  | .dram =>
    if op = 1 then (engUpdate s nd p.pa n v).bind (fun u => .ok (some u))
    else match s.badPartly p.pa n with
      | some k => .bad 0x11 (some (k * 32 / 4096))
      | none => .ok (some (engWrite s (some nd) p.pa n (v 0)))
  | _ => if op = 1 then (engUpdate s nd p.pa n v).bind (fun u => .ok (some u)) else .ok (some (engWrite s (some nd) p.pa n (v 0)))

/-- KSIG: one write, then completion. -/
def execKsig (core node : Nat) (s : State) : Outcome :=
  let nd := s.node core node
  if nd.kind ≠ 10 ∨ nd.st ≠ .running ∨ nd.pageStop then .next s
  else match (engPlace s nd core .store nd.base1 true).bind (fun p => sigWrite p.2 core nd p.1) with
  | .ok (some s1) => .next (completeNode s1 core node)
  | .ok none => .next (s.later (.ksig core node))
  | .page v => .next (engStop s core node (.page v))
  | .bad c p => .next (engStop s core node (.bad c p))

/-! ### kmma (R196 to R201, R67 to R69) -/

/-- Reads element e of an operand at a base by core c: a nibble under E2M1. -/
def readOperand (s : State) (nd : Node) (c fmt base e : Nat) : Eng (Nat × State) :=
  if fmt = 4 then
    (engRead s nd c (base + e / 2) 1 1).bind (fun r => .ok (r.1 / (1 <<< (4 * (e % 2))) % 16, r.2))
  else
    let n := (byteSize fmt).getD 1
    engRead s nd c (base + e * n) n n

/-- Reads a run of operands by index. -/
def readOperands (s : State) (nd : Node) (c fmt base : Nat) (ix : Nat → Nat) : Nat → Nat → Eng (List Nat × State)
  | 0, _ => .ok ([], s)
  | n + 1, t =>
    (readOperand s nd c fmt base (ix t)).bind (fun r =>
      (readOperands r.2 nd c fmt base ix n (t + 1)).bind (fun q => .ok (r.1 :: q.1, q.2)))

/-- Reads the scale pairs of a row or column; unscaled operands have the pair 127. -/
def readPairs (s : State) (nd : Node) (c : Nat) (scaled : Bool) (base : Nat) : Nat → Nat → Eng (List Nat × State)
  | 0, _ => .ok ([], s)
  | n + 1, b =>
    if scaled then
      (engRead s nd c (base + 2 * b) 2 2).bind (fun r =>
        (readPairs r.2 nd c scaled base n (b + 1)).bind (fun q => .ok (r.1 :: q.1, q.2)))
    else (readPairs s nd c scaled base n (b + 1)).bind (fun q => .ok (127 :: q.1, q.2))

/-- Runs of 8 added one at a time (R67). -/
def runs8 (f : FFmt) : Nat → List (Nat × Nat) → Nat → Nat
  | 0, _, cell => cell
  | n + 1, l, cell =>
    match l with
    | [] => cell
    | _ =>
      let run := runSum ((l.take 8).map (fun p => (f.decode p.1, f.decode p.2)))
      runs8 f n (l.drop 8) (roundTo .fp32 ((FFmt.fp32.decode cell).add 0 run.1).1 0 false).1

/-- Blocks of 32 with their scale pairs (R68). -/
def runs32 (fa fb : FFmt) : List Nat → List Nat → List (Nat × Nat) → Nat → Nat
  | pa :: pas, pb :: pbs, l, cell =>
    match l with
    | [] => cell
    | _ =>
      let terms := (l.take 32).map (fun p => (unscaledValue fa p.1 pa, unscaledValue fb p.2 pb))
      runs32 fa fb pas pbs (l.drop 32) (blockStep 0 pa pb terms (cell, 0)).1
  | _, _, _, cell => cell

/-- One accumulator cell (R67, R68, R69). -/
def mmaCell (fa fb : Nat) (cell : Nat) (as bs pas pbs : List Nat) : Nat :=
  if fa = 1 then
    ofInt 32 ((List.zip as bs).foldl (fun acc p => acc + toInt 8 p.1 * toInt 8 p.2) (toInt 32 cell))
  else if mmaNarrow fa then
    runs32 ((byteFmt fa).getD .e4m3) ((byteFmt fb).getD .e4m3) pas pbs (List.zip as bs) cell
  else runs8 ((byteFmt fa).getD .fp16) as.length (List.zip as bs) cell

/-- The gang position of a member: row and column of its tile. -/
def gangTile (members pos : Nat) : Nat × Nat := if members = 4 then (pos / 2, pos % 2) else (0, pos)

/-- An operand row or column with its scale pairs. -/
abbrev MmaLine := List Nat × List Nat

def Node.mmaBlocks (nd : Node) : Nat := (nd.mmaK + 31) / 32
def Node.mmaScaled (nd : Node) : Bool := mmaNarrow nd.fmtByte && nd.fmta.toNat / 256 % 256 == 32

/-- Row rr of A, read by core c. -/
def readRowA (s : State) (nd : Node) (c rr : Nat) : Eng (MmaLine × State) :=
  (readOperands s nd c nd.fmtByte nd.base1
    (fun t => if nd.mmaTransA then t * nd.mmaLda + rr else rr * nd.mmaLda + t) nd.mmaK 0).bind (fun a =>
    (readPairs a.2 nd c nd.mmaScaled (nd.sclpa.toNat + 2 * (rr * nd.mmaSpr + nd.mmaSofs)) nd.mmaBlocks 0).bind (fun p =>
      .ok ((a.1, p.1), p.2)))

/-- Column cc of B, read by core c. -/
def readColB (s : State) (nd : Node) (c cc : Nat) : Eng (MmaLine × State) :=
  (readOperands s nd c nd.mmaFmtB nd.base2
    (fun t => if nd.mmaTransB then cc * nd.mmaLdb + t else t * nd.mmaLdb + cc) nd.mmaK 0).bind (fun b =>
    (readPairs b.2 nd c nd.mmaScaled (nd.sclpb.toNat + 2 * (cc * nd.mmaSpr + nd.mmaSofs)) nd.mmaBlocks 0).bind (fun p =>
      .ok ((b.1, p.1), p.2)))

/-- The cells that a row event forms at a member, by cell, and the columns of B they used. -/
abbrev MmaRow := List (Nat × Nat) × List MmaLine

/-- The cells of columns col … of one row at a member: its row of A is read once for each group of 48 columns, and each column of B
once for each group of 32 rows, held in between (R363). -/
def mmaCols (s : State) (nd : Node) (core row : Nat) (tile : Nat × Nat) (held : List MmaLine) (a : MmaLine) :
    Nat → Nat → Eng (MmaRow × State)
  | 0, _ => .ok (([], []), s)
  | f + 1, c =>
    (if c % 48 = 0 then readRowA s nd core (tile.1 * nd.mmaM + row) else .ok (a, s)).bind (fun ra =>
      (match held[c]? with
        | some b => Eng.ok (b, ra.2)
        | none => readColB ra.2 nd core (tile.2 * nd.mmaN + c)).bind (fun rb =>
        let ix := 192 * (nd.mmaAccRow + row) + nd.mmaAccCol + c
        let old := if nd.mmaZero then 0 else (SMap.get 0 (s.core core).acc ix : BitVec 32).toNat
        let v := mmaCell nd.fmtByte nd.mmaFmtB old ra.1.1 rb.1.1 ra.1.2 rb.1.2
        (mmaCols rb.2 nd core row tile held ra.1 f (c + 1)).bind (fun q => .ok (((ix, v) :: q.1.1, rb.1 :: q.1.2), q.2))))

/-- The rows of every member, computed before any is written: a fault in one stops all (R200). -/
def mmaRows (s : State) (nd : Node) (row total : Nat) : List Nat → Nat → Eng (List (Nat × MmaRow) × State)
  | [], _ => .ok ([], s)
  | m :: rest, pos =>
    let held := if nd.heldGroup = some (row / 32) then nd.held.getD pos [] else []
    (mmaCols s nd m row (gangTile total pos) held ([], []) nd.mmaN 0).bind (fun r =>
      (mmaRows r.2 nd row total rest (pos + 1)).bind (fun q => .ok ((m, r.1) :: q.1, q.2)))

/-- The cores whose accumulators a kmma of core c writes. -/
def Node.accCores (nd : Node) (c : Nat) : List Nat := if nd.members.isEmpty then [nd.runsOn c] else nd.members

/-- A row write: the cells of one row, holding the port for 4 cycles of the core's clock (R176). -/
def writeCells (s : State) (core : Nat) (cells : List (Nat × Nat)) : State :=
  s.modCore core (fun k =>
    { k with acc := cells.foldl (fun a e => SMap.set 0 a e.1 (BitVec.ofNat 32 e.2)) k.acc,
             portHold := s.now + 4 * Config.corePeriod (classOf core) })

/-- The factor f of R201. -/
def mmaRate (fmt : Nat) : Nat := match fmt with | 4 => 4 | 6 => 1 | 7 => 1 | _ => 2

/-- Cycles a kmma takes at least (R201). -/
def mmaCycles (nd : Node) : Nat :=
  (nd.mmaM + 31) / 32 * ((nd.mmaN + 47) / 48) * ((nd.mmaK + mmaRate nd.fmtByte - 1) / mmaRate nd.fmtByte)

/-- KMMA: admitted, the command starts on the matrix unit; a remote one behind the target's earlier commands (R209). -/
def execKmma (core node : Nat) (s : State) : Outcome :=
  let nd := s.node core node
  if nd.kind ≠ 1 ∨ nd.st ≠ .running ∨ !nd.holdsLeave ∨ nd.stopping then .next s
  else
    let t := nd.runsOn core
    .next ((s.modNode core node (fun m =>
      { m with minEnd := s.now + mmaCycles nd * Config.corePeriod (classOf t) })).later (.kmmaRowFinish core node))

/-- An earlier command of the target's matrix unit still runs ahead of a remote command (R209). -/
def behindOthers (s : State) (core node : Nat) : Bool :=
  match (s.node core node).remote with
  | none => false
  | some (t, _) =>
    let k := s.core t
    match k.remotes with
    | r :: _ =>
      !(r.core == core && r.node == node) || k.nodes.any (fun e => e.2.st == .running && r.ahead.contains e.2.serial)
    | [] => false

/-- The ticks until the accumulator ports of a list of cores are free: of a row write under way, or of a vacc.x that waits (R176). -/
def portFree (s : State) (l : List Nat) : Option Nat :=
  let hold := l.foldl (fun a c => max a (s.core c).portHold) 0
  if s.now < hold then some (hold - s.now)
  else if l.any (fun c => !(s.core c).portBusy.isEmpty) then some Config.slicePeriod else none

/-- KMMA_ROW_FINISH: the next row's cells are formed and written together. -/
def execKmmaRowFinish (core node : Nat) (s : State) : Outcome :=
  let nd := s.node core node
  let row := max nd.progress nd.mmaRow0
  if nd.kind ≠ 1 ∨ !nd.goes ∨ !nd.holdsLeave ∨ nd.mmaM ≤ row then .next s
  else if behindOthers s core node then .next (s.later (.kmmaRowFinish core node))
  else
    let cores := nd.accCores core
    match portFree s cores with
    | some d => .next (s.after d (.kmmaRowFinish core node))
    | none =>
    match mmaRows s nd row cores.length cores 0 with
    | .ok r =>
      let s1 := r.1.foldl (fun u e => writeCells u e.1 e.2.1) r.2
      let s2 := s1.modNode core node (fun m =>
        { m with progress := row + 1, heldGroup := some (row / 32), held := r.1.map (fun e => e.2.2) })
      .next (if row + 1 < nd.mmaM then s2.later (.kmmaRowFinish core node)
             else s2.after (nd.minEnd - s2.now) (.commandComplete core node))
    | .page v => .next (engStop s core node (.page v))
    | .bad c p => .next (engStop s core node (.bad c p))

/-! ### Leave events (R306) -/

/-- LEAVE_ADMIT -/
def execLeaveAdmit (die : Nat) (s : State) : Outcome := .next (s.admitAll die)

/-- LEAVE_WAIT_EXPIRE: a request that has waited the limit is admitted beyond the running limit. -/
def execLeaveWaitExpire (die core node : Nat) (s : State) : Outcome :=
  let nd := s.node core node
  if (s.die die).power.asking.contains (core, node) ∧
      nd.leaveSince + sliceTicks (s.die die).power.wait.toNat ≤ s.now then .next (grantLeave s die core node)
  else .next s

end Sys2Proof.Machine
end

