-- ==== Sys2Proof/Machine/Vacc.lean ====
section
/-! DEFINITION. The accumulator from a thread: vacc.x, vacc.i, vacc.z and the port (R171 to R176). -/
namespace Sys2Proof.Machine

/-- The cell of element i, numbered 192 × row + column; none outside the accumulator (Table 06-3). -/
def accCell (w i : Nat) : Option Nat :=
  let row := w % 128
  let col := w / 256 % 256
  let rc := if bitOf w 16 then (row + i, col) else (row, col + i)
  if rc.1 < 128 ∧ rc.2 < 192 then some (192 * rc.1 + rc.2) else none

/-- A kmma's node id and row range, where it writes the accumulator of a core. -/
def Node.mmaSpan (nd : Node) : Nat × Nat × Nat := (nd.id, nd.mmaAccRow, nd.mmaM)

/-- The kmmas in flight on a core's matrix unit: its own, a gang's, and those sent to it that it has not refused, from their acceptance
on, also while they wait or stand stopped on a fault (R175). -/
def busyMmas (s : State) (core : Nat) : List (Nat × Nat × Nat) :=
  (s.cores.map (fun e => (e.2.nodes.filter (fun p =>
      p.2.inFlight && p.2.kind == 1 &&
      (match p.2.remote with
       | none => if p.2.members.isEmpty then e.1 == core else p.2.members.contains core
       | some (t, _) => t == core && !(p.2.st == .faulted && decide (0x20 ≤ p.2.status) && decide (p.2.status ≤ 0x23))))).map
    (fun p => p.2.mmaSpan))).flatten

/-- Cause 26 for a row: the lowest node id among the commands that cover it. -/
def busyAt (l : List (Nat × Nat × Nat)) (row : Nat) : Option Nat :=
  (l.filter (fun e => decide (e.2.1 ≤ row) && decide (row < e.2.1 + e.2.2))).foldl
    (fun b e => match b with | none => some e.1 | some n => some (min n e.1)) none

/-- The check of R175 over a set of rows of each member. -/
def accBusy (rows : Nat → Nat → Bool) (s : State) : Option Exc :=
  let ms := s.slicesOf s.cur.1 s.cur.2
  (List.range 128).findSome? (fun row =>
    let l := ((List.zip (List.range ms.length) ms).filter (fun p => rows p.1 row)).map (fun p => busyMmas s p.2)
    (busyAt l.flatten row).map (fun n => { cause := 26, tval := row + n % 128 * 256 }))

/-- The rows an element run touches at member m (R131, R175). -/
def elemRows (s : State) (w : Nat) (m row : Nat) : Bool :=
  let d := s.hart.dev
  (List.range s.seg).any (fun j =>
    let i := m * s.seg + j
    decide (d.vstart.toNat ≤ i) && decide (i < d.vgrant.toNat) && (accCell w j).any (fun c => c / 192 == row))

/-- Member and cell of element i. -/
def memberCell (s : State) (w i : Nat) : Nat × Option Nat :=
  let ms := s.slicesOf s.cur.1 s.cur.2
  (ms.getD (i / s.seg) s.cur.1, accCell w (i % s.seg))

/-- The vtype values of R172. -/
def accType (d : DevCsr) : Bool :=
  (intTag d && (d.ew == 8 || d.ew == 16 || d.ew == 32)) ||
  (match d.fmt with
   | some .fp32 => true | some .fp16 => true | some .bf16 => true | some .e4m3 => true | some .e5m2 => true | _ => false)

/-- The narrowing FP formats, which round on the way out. -/
def accNarrowFp (d : DevCsr) : Bool := match d.fmt with | some .fp32 => false | some _ => true | none => false

/-- Result(i) from the 32 cell bits, with its flags (R172). -/
def accOut (d : DevCsr) (cell : Nat) : Nat × Nat :=
  match d.fmt with
  | some .fp32 => (cell, 0)
  | some f => roundTo f (FFmt.fp32.decode cell) d.rm d.sat
  | none => (ofInt d.ew (clampInt d.ew true (toInt 32 cell)), 0)

/-- The widened value of an element, with its flags (R173). -/
def accIn (d : DevCsr) (v : Nat) : Nat × Nat :=
  match d.fmt with
  | some .fp32 => (v, 0)
  | some f =>
    let x := f.decode v
    if x.isNan then (FFmt.fp32.nanCode, if x.sigNan then flNV else 0) else ((roundTo .fp32 x 0 false).1, 0)
  | none => (ofInt 32 (toInt d.ew v), 0)

/-- The cell after vacc.i with add = 1 (R173). -/
def accSum (d : DevCsr) (cell v : Nat) : Nat × Nat :=
  match d.fmt with
  | some _ =>
    let r := (FFmt.fp32.decode cell).add d.rm (FFmt.fp32.decode v)
    let q := roundTo .fp32 r.1 d.rm false
    (q.1, q.2 ||| (if r.2 then flNV else 0))
  | none => (lowBits (cell + v) 32, 0)

/-- The port of the core, or in a gang of some member, is taken: a row write holds it, or a vacc waits for it (R176). -/
def portTaken (s : State) : Bool := (portFree s (s.slicesOf s.cur.1 s.cur.2)).isSome

def accXInfo (s : State) (o : OpD) : VInfo :=
  let d := s.hart.dev
  let sh := s.shape
  let fr := s.frame false
  { ok := accType d, rounds := accNarrowFp d, n := sh.n, dst := [(o.vd.toNat, sh.g)], load := true,
    charge := chargeFor fr.count (max 32 sh.ew) 1, active := fr.on }

/-- vacc.x -/
def execVaccX (o : OpD) (s : State) : Outcome :=
  let d := s.hart.dev
  let sh := s.shape
  let w := (s.xr (srcReg o.src)).toNat
  finish (vecChecked s (accXInfo s o) (accBusy (elemRows s w)) (fun u =>
    let res := fun i =>
      match memberCell u w i with
      | (m, some c) => accOut d (SMap.get 0 (u.core m).acc c : BitVec 32).toNat
      | (_, none) => (0, 0)
    let u1 := writeElems u sh false o.vd res
    if portTaken u then
      let land : Landing := { vd := o.vd.toNat, count := sh.g, vlen := sh.vlen, val := u1.getGroup o.vd.toNat sh.g }
      let u2 := u1.setGroup o.vd.toNat sh.g (u.getGroup o.vd.toNat sh.g)
      let u3 := u2.modHart (fun t => { t with landing := t.landing ++ [land] }.setFullGroup o.vd.toNat false sh.g)
      let q := (u.cur.1, u.cur.2, o.vd.toNat)
      .next (((u.slicesOf u.cur.1 u.cur.2).foldl (fun a m => a.modCore m (fun k => { k with portBusy := k.portBusy ++ [q] })) u3).later
        (.vaccPerform u.cur.1))
    else .next u1))

/-- Writes elements to cells, one after another. -/
def accWrites (d : DevCsr) (w : Nat) (add : Bool) (val : Nat → Nat) : State → List Nat → State
  | s, [] => s
  | s, i :: rest =>
    match memberCell s w i with
    | (m, some c) =>
      let v := accIn d (val i)
      let old := (SMap.get 0 (s.core m).acc c : BitVec 32).toNat
      let r := if add then accSum d old v.1 else (v.1, 0)
      let s1 := s.modCore m (fun k => { k with acc := SMap.set 0 k.acc c (BitVec.ofNat 32 r.1) })
      accWrites d w add val (s1.modHart (fun t => t.raise (v.2 ||| r.2))) rest
    | (_, none) =>
      accWrites d w add val (s.modHart (fun t => t.raise (accIn d (val i)).2)) rest

def accIInfo (s : State) (vs2 : Reg) (w : Nat) : VInfo :=
  let d := s.hart.dev
  let sh := s.shape
  { ok := accType d, rounds := bitOf w 17 && d.fmt.isSome, n := sh.n, srcs := [(vs2.toNat, sh.g)],
    charge := chargeFor (s.frame false).count (max 32 sh.ew) 1 }

/-- vacc.i -/
def execVaccI (vs2 rs1 : Reg) (s : State) : Outcome :=
  let d := s.hart.dev
  let sh := s.shape
  let w := (s.xr rs1).toNat
  let add := bitOf w 17
  let fr := s.frame false
  finish (vecChecked s (accIInfo s vs2 w) (accBusy (elemRows s w)) (fun u =>
    let a := u.getGroup vs2.toNat sh.g
    .next (accWrites d w add (sh.get a) u ((List.range fr.vgrant).filter fr.on))))

/-- Zeroes rows of a core's accumulator. -/
def zeroRows (k : Core) (row cnt : Nat) : Core :=
  { k with acc := k.acc.filter (fun e => !(decide (192 * row ≤ e.1) && decide (e.1 < 192 * (row + cnt)))) }

def accZInfo (w : Nat) : VInfo := { charge := chargeFor (192 * (w / (1 <<< 24) % 128 + 1)) 32 1 }

/-- vacc.z -/
def execVaccZ (rs1 : Reg) (s : State) : Outcome :=
  let w := (s.xr rs1).toNat
  let row := w % 128
  let cnt := w / (1 <<< 24) % 128 + 1
  finish (vecChecked s (accZInfo w)
    (accBusy (fun _ r => decide (row ≤ r) && decide (r < row + cnt))) (fun u =>
      .next ((u.slicesOf u.cur.1 u.cur.2).foldl (fun q m => q.modCore m (fun k => zeroRows k row cnt)) u)))

/-- The cores whose ports a waiting vacc.x needs. -/
def portCores (s : State) (q : Nat × Nat × Nat) : List Nat :=
  (s.cores.filter (fun e => e.2.portBusy.contains q)).map (·.1)

/-- VACC_PERFORM: the oldest vacc.x that waits on the core's port fills its register, once every port it needs is free of a row write
and it is first at each. -/
def execVaccPerform (core : Nat) (s : State) : Outcome :=
  match (s.core core).portBusy with
  | [] => .next s
  | q :: _ =>
    let l := portCores s q
    let hold := l.foldl (fun a c => max a (s.core c).portHold) 0
    if s.now < hold then .next (s.after (hold - s.now) (.vaccPerform core))
    else if l.all (fun c => (s.core c).portBusy.head? == some q) then
      let s1 := l.foldl (fun u c => u.modCore c (fun k => { k with portBusy := k.portBusy.erase q })) (landGroup s q.1 q.2.1 q.2.2)
      .next (if (s1.core core).portBusy.isEmpty then s1 else s1.later (.vaccPerform core))
    else .next (s.later (.vaccPerform core))

end Sys2Proof.Machine
end

