-- ==== Sys2Proof/Machine/Crypto.lean ====
section
/-! DEFINITION. SHAKE256 (FIPS 202), which the capability check of R209 and the digests of R433 name (log 12). Its state is five sheets
of five 64-bit words; messages and outputs are little-endian numbers. -/
namespace Sys2Proof.Machine

/-- The permutation's state: word y of sheet x. -/
abbrev Sheets := List (List Word)

def sheetWord (a : Sheets) (x y : Nat) : Word := (a.getD (x % 5) []).getD (y % 5) 0
def sheetsOf (f : Nat → Nat → Word) : Sheets := (List.range 5).map (fun x => (List.range 5).map (f x))

/-- The feedback register over x^8 + x^6 + x^5 + x^4 + 1 after t steps from 1. -/
def feedback : Nat → Nat
  | 0 => 1
  | t + 1 => let d := 2 * feedback t; if d < 256 then d else Nat.xor d 0x171

/-- What round r adds to word (0, 0): bit 2^j − 1 for each j below 7 whose register output 7r + j is 1. -/
def roundTweak (r : Nat) : Word :=
  BitVec.ofNat 64 ((List.range 7).foldl (fun v j => v + feedback (7 * r + j) % 2 * (1 <<< ((1 <<< j) - 1))) 0)

/-- The t-th place of the walk from (1, 0) in which every word but (0, 0) moves. -/
def walkPlace : Nat → Nat × Nat
  | 0 => (1, 0)
  | t + 1 => let p := walkPlace t; (p.2, (2 * p.1 + 3 * p.2) % 5)

/-- Every word takes the parities of the sheet before and, turned by one, the sheet after. -/
def spread (a : Sheets) : Sheets :=
  let par := fun x => (a.getD (x % 5) []).foldl (· ^^^ ·) 0
  let mixed := (List.range 5).map (fun x => par (x + 4) ^^^ (par (x + 1)).rotateLeft 1)
  sheetsOf (fun x y => sheetWord a x y ^^^ mixed.getD x 0)

/-- The word at each place of the walk moves to the next, turned by the t-th triangular number. -/
def turnWords (a : Sheets) : Sheets :=
  (List.range 24).foldl (fun b t =>
    let p := walkPlace t
    let q := walkPlace (t + 1)
    b.set q.1 ((b.getD q.1 []).set q.2 ((sheetWord a p.1 p.2).rotateLeft ((t + 1) * (t + 2) / 2 % 64)))) a

/-- One round. -/
def shakeRound (a : Sheets) (r : Nat) : Sheets :=
  let b := turnWords (spread a)
  sheetsOf (fun x y =>
    sheetWord b x y ^^^ (~~~sheetWord b (x + 1) y &&& sheetWord b (x + 2) y) ^^^ (if x = 0 ∧ y = 0 then roundTweak r else 0))

def shakePermute (a : Sheets) : Sheets := (List.range 24).foldl shakeRound a

/-- Bytes of a message that a permutation takes. -/
def shakeRate : Nat := 136

/-- Adds a block, a number of 136 bytes, to the first 17 words. -/
def absorb (a : Sheets) (block : Nat) : Sheets :=
  sheetsOf (fun x y => sheetWord a x y ^^^ (if x + 5 * y < 17 then BitVec.ofNat 64 (block >>> (64 * (x + 5 * y))) else 0))

/-- The first 17 words as a number. -/
def outBlock (a : Sheets) : Nat :=
  (List.range 17).foldl (fun v i => v + (sheetWord a (i % 5) (i / 5)).toNat <<< (64 * i)) 0

/-- Output blocks, as many as asked. -/
def squeeze : Nat → Sheets → Nat
  | 0, _ => 0
  | n + 1, a => outBlock a + squeeze n (shakePermute a) <<< (8 * shakeRate)

/-- The first out bytes of SHAKE256 of the message of len bytes whose number is m. -/
def shake256 (m len out : Nat) : Nat :=
  let blocks := len / shakeRate + 1
  let padded := lowBits m (8 * len) + 0x1F <<< (8 * len) + 0x80 <<< (8 * (shakeRate * blocks - 1))
  let full := (List.range blocks).foldl (fun a i => shakePermute (absorb a (padded >>> (8 * shakeRate * i)))) (sheetsOf (fun _ _ => 0))
  lowBits (squeeze (out / shakeRate + 1) full) (8 * out)

/-- A list of bytes as a number, the first lowest. -/
def ofBytes : List (BitVec 8) → Nat
  | [] => 0
  | b :: l => b.toNat + 256 * ofBytes l

/-- The check field of a capability under a key (R209, Table 07-12). -/
def capCheck (key : List (BitVec 8)) (cap : Word) : Nat :=
  shake256 (ofBytes key + cap.toNat % (1 <<< 48) <<< (8 * key.length)) (key.length + 8) 2

end Sys2Proof.Machine
end

