-- ==== Sys2Proof/Machine/EngInstr.lean ====
section
/-! DEFINITION. The engine instructions ecmd, ecommit, ewait, ewaitn, epoll (R184 to R193), commands for another core (R209), and
storage reads (R206, R425). -/
namespace Sys2Proof.Machine

/-! ### ecmd (R185, R186) -/

/-- The command word in bits [255:0]. -/
def cmdWords (v : Nat) : Node :=
  { w0 := BitVec.ofNat 64 v, w1 := BitVec.ofNat 64 (v >>> 64), w2 := BitVec.ofNat 64 (v >>> 128), w3 := BitVec.ofNat 64 (v >>> 192) }

/-- The participants an accepted command remembers: of a kcoll, of a gang kmma. -/
def cmdMembers (s : State) (c x : Nat) (n : Node) : List Nat :=
  if n.cmdKind = 7 then collMembers s c x n.collScope n.collBar
  else if n.cmdKind = 1 ∧ n.mmaGang then (match (s.thr c x).gang with | some g => g.members | none => [])
  else []

/-- The node of an accepted command, with what it captures (R186). Its identity is its core's count of accepted commands, so that it
names no command of another core. -/
def acceptedNode (s : State) (c x : Nat) (n : Node) (cap : Option Word) : Node :=
  let t := s.thr c x
  let k := s.core c
  let old := k.node n.id
  let ms := cmdMembers s c x n
  { n with
    st := .waiting, kind := n.cmdKind, dcount := old.dcount, preds := n.predCount,
    asid := asidOf t.std.satp, satp := t.std.satp, ctx := x, serial := 384 * k.serial + c,
    thread := s.threadOf c x, home := c, accepted := s.now, fenceW := t.fenceW, fenceA := t.fenceA, sup := t.priv != .U,
    fmta := t.dev.fmta, fmtb := t.dev.fmtb, sclpa := t.dev.sclpa, sclpb := t.dev.sclpb,
    members := ms, rank := (ms.idxOf? c).getD 0,
    collIdx := if n.cmdKind = 7 then SMap.get 0 k.colls n.collKey else 0,
    remote := cap.map (fun w => (w.toNat % 65536, w)) }

/-- Adds a serial number to a batch's list. -/
def addToBatch (l : List (List Nat)) (b ser : Nat) : List (List Nat) := l.set b (l.getD b [] ++ [ser])

/-- Accepts a command: its node, the batch it joins, mrowp cleared, its launch where D(n) suffices, else its stall behind a fault
(R187, R188, R195). -/
def acceptCmd (s : State) (c x : Nat) (n : Node) (cap : Option Word) : State :=
  let nd := acceptedNode s c x n cap
  let id := n.id
  let wasFaulted := (s.node c id).st == .faulted
  let s1 := s.modCore c (fun k =>
    let k1 := (clearMrowp k id).setNode id nd
    { k1 with serial := k.serial + 1,
              colls := if nd.kind = 7 then k.colls.put nd.collKey (nd.collIdx + 1) else k.colls })
  let s2 := s1.modThr c x (fun t => { t with batchOpen := addToBatch t.batchOpen nd.batchTag nd.serial })
  let s3 := if wasFaulted then unstall s2 c else s2
  (tryLaunch s3 c id).modCore c Core.stallAll

/-- ecmd -/
def execEcmd (rd vs1 rs2 : Reg) (s : State) : Outcome :=
  let info : VInfo := { srcs := [(vs1.toNat, 1)] }
  let t := s.hart
  finish (match t.emptyIn true info.srcs with
  | some r => .trap { cause := 24, tval := r % 32 } s
  | none =>
    if t.anyEmpty info.srcs then .wait s
    else match readyBound s info with
    | .fault e => .trap e s
    | .notYet s1 => .wait s1
    | .ok u =>
      let n := cmdWords (lowBits (u.getV vs1.toNat) 256)
      let c := u.cur.1
      let x := u.cur.2
      let remote := rs2 != 0
      let code := acceptCode u c x u.hart.dev n remote
      if code ≠ 0 then .next ((closeBound u u info).setX rd (BitVec.ofNat 64 code))
      else if copyKind n.cmdKind ∧ 64 ≤ copiesInFlight u.myCore then .wait u
      else
        let cap := if remote then some (u.xr rs2) else none
        .next (acceptCmd ((closeBound u u info).setX rd 0) c x n cap))

/-! ### ecommit, ewait, ewaitn, epoll (R190 to R193) -/

/-- ecommit -/
def execEcommit (b : BitVec 3) (s : State) : Outcome :=
  finish (.next (s.modHart (fun t => { t with batchSet := t.batchSet.set b.toNat (t.batchOpen.getD b.toNat []) })))

/-- The command of a serial number, while it is in flight. -/
def Core.bySerial (k : Core) (ser : Nat) : Option (Nat × Node) := k.nodes.find? (fun e => e.2.inFlight && e.2.serial == ser)

/-- The stalled nodes behind a list of nodes, transitively. -/
def stalledBehind (k : Core) : Nat → List Nat → List Nat → List Nat
  | 0, _, seen => seen
  | f + 1, l, seen =>
    match l with
    | [] => seen
    | n :: rest =>
      let nd := k.node n
      let more := [nd.succA, nd.succB].filter (fun m => decide (m < 96) && ((k.node m).st == .stalled) && !seen.contains m)
      stalledBehind k f (rest ++ more) (seen ++ more)

/-- The lowest faulted node that is in a list or stalls a member of it (R193); where the fault behind a stall has been replaced, the
lowest faulted node, which keeps the stall up (R188; log 38). -/
def blame (k : Core) (l : List Nat) : Option Nat :=
  let faulted := (List.range 96).filter (fun n => (k.node n).st == .faulted)
  match faulted.find? (fun n => l.contains n || (stalledBehind k 200 [n] []).any (fun m => l.contains m)) with
  | some n => some n
  | none => faulted.head?

/-- The exception of R193 for a faulted node. -/
def cmdFault (k : Core) (n : Nat) : Exc :=
  let nd := k.node n
  { cause := if 0x20 ≤ nd.status ∧ nd.status ≤ 0x23 then 49 else 28,
    tval := n % 128 + nd.status % 256 * 256 + nd.detail % 65536 * 65536 }

/-- ewait -/
def execEwait (b : BitVec 3) (s : State) : Outcome :=
  let k := s.myCore
  let left := (s.hart.batchSet.getD b.toNat []).filterMap k.bySerial
  finish (if left.isEmpty then .next s
    else if left.all (fun e => e.2.st == .faulted || e.2.st == .stalled) then
      match blame k (left.map (·.1)) with
      | some n => .trap (cmdFault k n) s
      | none => .wait s
    else .wait s)

/-- ewaitn -/
def execEwaitn (rs1 : Reg) (s : State) : Outcome :=
  let k := s.myCore
  let n := (s.xr rs1).toNat
  finish (if 95 < n then .next s
    else match (k.node n).st with
    | .free => .next s
    | .waiting => .wait s
    | .running => .wait s
    | _ => match blame k [n] with
      | some f => .trap (cmdFault k f) s
      | none => .wait s)

/-- epoll -/
def execEpoll (o : OpDS) (s : State) : Outcome :=
  let n := (s.xr o.rs1).toNat
  finish (.next (s.setX o.d (if 95 < n then 15 else (s.myCore.node n).statusWord)))

/-! ### Commands for another core (R209, R422) -/

/-- The rows of a command are granted by the rights, and no reserved right bit is set. -/
def rowsGranted (rights row m : Nat) : Bool :=
  bitOf rights 0 && rights / 8 == 0 && (List.range m).all (fun i => bitOf rights (if row + i < 64 then 1 else 2))

/-- The target's answer to a remote command: 0, or the refusal of Table 07-5; a generation that is not the target's is refused first,
whatever the key now is (R422). -/
def remoteCheck (s : State) (nd : Node) (target : Nat) (cap : Word) : Nat :=
  let k := s.core target
  if !s.coreUp target then 0x21
  else if bitsAt cap 40 8 ≠ k.capGen.toNat then 0x22
  else if capCheck k.capKey cap ≠ bitsAt cap 48 16 then 0x20
  else if bitsAt cap 16 16 ≠ nd.asid then 0x22
  else if !rowsGranted (bitsAt cap 32 8) nd.mmaAccRow nd.mmaM then 0x23
  else 0

/-- REMOTE_COMMAND_ARRIVE: the target refuses, or queues the command behind its matrix unit's earlier ones. -/
def execRemoteCommandArrive (core node target : Nat) (cap : Word) (s : State) : Outcome :=
  let nd := s.node core node
  if nd.st ≠ .running ∨ !nd.sent ∨ nd.leave ∨ nd.holdsLeave then .next s
  else match remoteCheck s nd target cap with
  | 0 =>
    let s1 := s.modCore target (fun k =>
      { k with remotes := k.remotes ++ [⟨core, node,
          (k.nodes.filter (fun e => e.2.kind == 1 && e.2.st == .running && e.2.remote.isNone)).map (fun e => e.2.serial)⟩] })
    .next (askLeave s1 core node)
  | code =>
    .next ((s.modNode core node (fun m => { m with sent := false })).later (.remoteCompletion core node (BitVec.ofNat 8 code) 0))

/-- REMOTE_COMPLETION: the proxy node completes, or faults with what the target reports. -/
def execRemoteCompletion (core node : Nat) (status : BitVec 8) (progress : Nat) (s : State) : Outcome :=
  let nd := s.node core node
  if nd.st ≠ .running ∨ nd.remote.isNone ∨ nd.sent then .next s
  else
    let s1 := s.modNode core node (fun m => { m with progress := progress })
    if status = 0 then .next (completeNode s1 core node) else .next (markFaulted s1 core node status.toNat 0)

/-! ### kdisk (R206, R425) -/

/-- The 4 KiB pages of a transfer after the first, as the drive sees them. -/
def prpPages (s : State) (nd : Node) (va len : Nat) : Nat → List Nat
  | 0 => []
  | n + 1 =>
    let rest := prpPages s nd va len n
    let a := va / 4096 * 4096 + 4096 * (n + 1)
    if a < va + len then
      match engPlace s nd nd.home .store a false with
      | .ok p => rest ++ [(Config.bar4Base.toNat + p.1.pa) % (1 <<< 64)]
      | _ => rest
    else rest

/-- Bytes of the page that maps an address; without translation nothing bounds a transfer. -/
def pageSpan (s : State) (t : Xlat) (va : Nat) : Nat :=
  if t.bare then 1 <<< 48
  else match walk s .store va 4 (t.satp.toNat % (1 <<< 44) * 4096) with
  | .done (pte, lvl, _) => 1 <<< pageSizeOf pte lvl
  | _ => 4096

/-- Blocks that one NVMe command carries: as many as fit the largest transfer and the page of the destination's mapping; a block that
fits neither goes in a command of its own, since a drive reads whole blocks (log 14). -/
def diskChunk (s : State) (q : NvmePair) (nd : Node) (j : Nat) : Nat :=
  let bs := 1 <<< q.log2Block
  let va := engVa nd.satp (nd.base1 + j * bs)
  let span := pageSpan s (nd.xlat nd.home) va
  let room := min (1 <<< q.log2Xfer) (span - va % span)
  max 1 (min (nd.winEnd - j) (room / bs))

/-- Where the PRP list of a slot lies. -/
def prpListAt (q : NvmePair) (slot : Nat) : Nat := (q.cq + 16 * q.entries + 4095) / 4096 * 4096 + 4096 * slot

/-- Writes one NVMe Read command into a submission slot (the queue-entry layout of NVM Express, log 14). -/
def writeSqEntry (s : State) (q : NvmePair) (nd : Node) (slot j n : Nat) : State :=
  let bs := 1 <<< q.log2Block
  let va := nd.base1 + j * bs
  let first := match engPlace s nd nd.home .store va false with | .ok p => (Config.bar4Base.toNat + p.1.pa) % (1 <<< 64) | _ => 0
  let pages := prpPages s nd va (n * bs) (n * bs / 4096 + 1)
  let listAt := prpListAt q slot
  let s1 := if pages.length ≤ 1 then s else
    (List.zip (List.range pages.length) pages).foldl (fun u e => u.storePhys none none (listAt + 8 * e.1) 8 e.2) s
  let prp2 := match pages with
    | [] => 0
    | [p] => p
    | _ => (Config.bar4Base.toNat + listAt) % (1 <<< 64)
  let lba := nd.w2.toNat + j
  s1.storePhys none none (q.sq + 64 * slot) 64
    (0x02 + slot % 65536 * 65536 + nd.diskNs * (1 <<< 32) + first * (1 <<< 192) + prp2 * (1 <<< 256) +
     lba % (1 <<< 64) * (1 <<< 320) + (n - 1) % 65536 * (1 <<< 384))

/-- Rings one of the drive's doorbells in the host window. -/
def ringNvme (s : State) (at' v : Nat) : State := engWrite s none at' 4 v

/-- Every slot is in use. -/
def NvmePair.fullAt (q : NvmePair) : Bool :=
  decide (q.entries ≤ q.outstanding.length + 1) || q.outstanding.any (fun e => e.1 == q.tail)

/-- Submits one command for the next blocks of the window; the drive's answer is an event of free latency and status. -/
def submitRead (s : State) (c n : Nat) (qp : Nat) (q : NvmePair) : State :=
  let nd := s.node c n
  let slot := q.tail
  let cnt := diskChunk s q nd nd.fetched
  let s1 := writeSqEntry s q nd slot nd.fetched cnt
  let tail := (slot + 1) % max 1 q.entries
  let s2 := ringNvme s1 q.bell tail
  let q1 := { q with tail := tail, outstanding := q.outstanding ++ [(slot, c, n, nd.fetched, cnt)] }
  let s3 := { s2 with host := { s2.host with nvme := s2.host.nvme.put qp q1 } }
  let s4 := s3.modNode c n (fun m => { m with fetched := m.fetched + cnt, nvmeLeft := m.nvmeLeft ++ [slot], writing := true })
  let ch := s4.choose 32768
  ch.2.later (.nvmeCompletion qp slot (BitVec.ofNat 16 ch.1))

/-- KDISK: submits the next blocks of its window; waits while the queue is full. -/
def execKdisk (core node : Nat) (s : State) : Outcome :=
  let nd := s.node core node
  if !nd.goes || nd.kind ≠ 8 || nd.detail ≠ 0 || nd.winEnd ≤ nd.fetched then .next s
  else match s.host.nvme.find? (fun e => e.1 == nd.diskQp) with
  | none => .next s
  | some (_, q) =>
    if q.fullAt then .next (s.later (.kdisk core node))
    else
      let s1 := submitRead s core node nd.diskQp q
      .next (if (s1.node core node).fetched < nd.winEnd then s1.later (.kdisk core node) else s1)

/-- Writes drive data, free values, over pieces (log 14). -/
def landPieces (s : State) (nd : Node) : List EngWrite → State
  | [] => s
  | w :: rest =>
    let words := (w.len + 7) / 8
    let r := (List.range words).foldl (fun (a : Nat × State) i =>
      let d := a.2.draw
      (a.1 + d.1.toNat * (1 <<< (64 * i)), d.2)) (0, s)
    landPieces (engWrite r.2 (some nd) w.pa w.len (lowBits r.1 (8 * w.len))) nd rest

/-- The blocks of one command land, or, on an error, each of their pieces may hold drive data. -/
def landBlocks (s : State) (c n lo cnt : Nat) (ok : Bool) : State :=
  let nd := s.node c n
  let mine := nd.pend.filter (fun w => decide (lo ≤ w.unit) && decide (w.unit < lo + cnt))
  let rest := nd.pend.filter (fun w => !(decide (lo ≤ w.unit) && decide (w.unit < lo + cnt)))
  if ok then
    let s1 := s.modNode c n (fun m => { m with owned := m.owned.filter (fun l => rest.any (fun w => lineOf w.pa == l)) })
    let s2 := landPieces s1 nd mine
    s2.modNode c n (fun m => { m with pend := rest, progress := firstPending rest m.winEnd })
  else
    let ch := s.choose 2
    if ch.1 = 0 then ch.2 else landPieces ch.2 nd mine

/-- The completion entry the drive writes (the layout of NVM Express, log 14); the engine consumes it and rings the head. -/
def consumeCq (s : State) (qp : Nat) (q : NvmePair) (slot status : Nat) : State :=
  let d := s.draw
  let entry := d.1.toNat + q.tail % 65536 * (1 <<< 64) + q.nvmeId % 65536 * (1 <<< 80) + slot % 65536 * (1 <<< 96) +
    q.phase.toNat * (1 <<< 112) + status % 32768 * (1 <<< 113)
  let s1 := d.2.storePhys none none (q.cq + 16 * q.head) 16 entry
  let head := (q.head + 1) % max 1 q.entries
  let q1 := { q with head := head, phase := if head = 0 then !q.phase else q.phase,
                     outstanding := q.outstanding.filter (fun e => e.1 != slot) }
  ringNvme { s1 with host := { s1.host with nvme := s1.host.nvme.put qp q1 } } (q.bell + q.cqBell) head

/-- What a kdisk does when a command of its has come back: on an error it faults when nothing is outstanding; else the next
window or its completion. -/
def diskNext (s : State) (c n : Nat) : State :=
  let nd := s.node c n
  if !nd.nvmeLeft.isEmpty then s
  else if nd.detail ≠ 0 then faultCommand s c n 0x16 nd.detail
  else if nd.pend.isEmpty then windowDone (s.modNode c n (fun m => { m with writing := false })) c n
  else s

/-- NVME_COMPLETION -/
def execNvmeCompletion (qp cid : Nat) (status : BitVec 16) (s : State) : Outcome :=
  match s.host.nvme.find? (fun e => e.1 == qp) with
  | none => .next s
  | some (_, q) =>
    match q.outstanding.find? (fun e => e.1 == cid) with
    | none => .next s
    | some (_, c, n, lo, cnt) =>
      let s1 := consumeCq s qp q cid status.toNat
      let nd := s1.node c n
      if nd.kind ≠ 8 ∨ nd.st ≠ .running ∨ !nd.nvmeLeft.contains cid then .next s1
      else
        let s2 := landBlocks s1 c n lo cnt (status == 0)
        let s3 := s2.modNode c n (fun m =>
          { m with nvmeLeft := m.nvmeLeft.filter (fun x => x != cid),
                   detail := if status ≠ 0 ∧ m.detail = 0 then status.toNat else m.detail })
        .next (diskNext s3 c n)

end Sys2Proof.Machine
end

