-- ==== Sys2Proof/Machine/Bc7.lean ====
section
/-! DEFINITION. BC7 texels (R253: the published BC decoding rules; PRESUMED, log 11): the eight block modes, the partitions of one to
three subsets, endpoints, indices and rotation. A block is a number of 16 bytes, read from its lowest bit. -/
namespace Sys2Proof.Machine

/-- Subset of each texel, two bits each, in the 64 partitions into two subsets. -/
def bc7Two : List Nat :=
  [0x50505050, 0x40404040, 0x54545454, 0x54505040, 0x50404000, 0x55545450, 0x55545040, 0x54504000] ++
  [0x50400000, 0x55555450, 0x55544000, 0x54400000, 0x55555440, 0x55550000, 0x55555500, 0x55000000] ++
  [0x55150100, 0x00004054, 0x15010000, 0x00405054, 0x00004050, 0x15050100, 0x05010000, 0x40505054] ++
  [0x00404050, 0x05010100, 0x14141414, 0x05141450, 0x01155440, 0x00555500, 0x15014054, 0x05414150] ++
  [0x44444444, 0x55005500, 0x11441144, 0x05055050, 0x05500550, 0x11114444, 0x41144114, 0x44111144] ++
  [0x15055054, 0x01055040, 0x05041050, 0x05455150, 0x14414114, 0x50050550, 0x41411414, 0x00141400] ++
  [0x00041504, 0x00105410, 0x10541000, 0x04150400, 0x50410514, 0x41051450, 0x05415014, 0x14054150] ++
  [0x41050514, 0x41505014, 0x40011554, 0x54150140, 0x50505500, 0x00555050, 0x15151010, 0x54540404]
/-- The same in the 64 partitions into three subsets. -/
def bc7Three : List Nat :=
  [0xAA685050, 0x6A5A5040, 0x5A5A4200, 0x5450A0A8, 0xA5A50000, 0xA0A05050, 0x5555A0A0, 0x5A5A5050] ++
  [0xAA550000, 0xAA555500, 0xAAAA5500, 0x90909090, 0x94949494, 0xA4A4A4A4, 0xA9A59450, 0x2A0A4250] ++
  [0xA5945040, 0x0A425054, 0xA5A5A500, 0x55A0A0A0, 0xA8A85454, 0x6A6A4040, 0xA4A45000, 0x1A1A0500] ++
  [0x0050A4A4, 0xAAA59090, 0x14696914, 0x69691400, 0xA08585A0, 0xAA821414, 0x50A4A450, 0x6A5A0200] ++
  [0xA9A58000, 0x5090A0A8, 0xA8A09050, 0x24242424, 0x00AA5500, 0x24924924, 0x24499224, 0x50A50A50] ++
  [0x500AA550, 0xAAAA4444, 0x66660000, 0xA5A0A5A0, 0x50A050A0, 0x69286928, 0x44AAAA44, 0x66666600] ++
  [0xAA444444, 0x54A854A8, 0x95809580, 0x96969600, 0xA85454A8, 0x80959580, 0xAA141414, 0x96960000] ++
  [0xAAAA1414, 0xA05050A0, 0xA0A5A5A0, 0x96000000, 0x40804080, 0xA9A8A9A8, 0xAAAAAA44, 0x2A4A5254]
/-- The anchor of the second of two subsets. -/
def bc7Anchor2 : List Nat :=
  [15, 15, 15, 15, 15, 15, 15, 15, 15, 15, 15, 15, 15, 15, 15, 15] ++
  [15, 2, 8, 2, 2, 8, 8, 15, 2, 8, 2, 2, 8, 8, 2, 2] ++
  [15, 15, 6, 8, 2, 8, 15, 15, 2, 8, 2, 2, 2, 15, 15, 6] ++
  [6, 2, 6, 8, 15, 15, 2, 2, 15, 15, 15, 15, 15, 2, 2, 15]
/-- The anchor of the second of three subsets. -/
def bc7Anchor3 : List Nat :=
  [3, 3, 15, 15, 8, 3, 15, 15, 8, 8, 6, 6, 6, 5, 3, 3] ++
  [3, 3, 8, 15, 3, 3, 6, 10, 5, 8, 8, 6, 8, 5, 15, 15] ++
  [8, 15, 3, 5, 6, 10, 8, 15, 15, 3, 15, 5, 15, 15, 15, 15] ++
  [3, 15, 5, 5, 5, 8, 5, 10, 5, 10, 8, 13, 15, 12, 3, 3]
/-- The anchor of the third of three subsets. -/
def bc7Anchor4 : List Nat :=
  [15, 8, 8, 3, 15, 15, 3, 8, 15, 15, 15, 15, 15, 15, 15, 8] ++
  [15, 8, 15, 3, 15, 8, 15, 8, 3, 15, 6, 10, 15, 15, 10, 8] ++
  [15, 3, 15, 10, 10, 8, 9, 10, 6, 15, 8, 15, 3, 6, 6, 8] ++
  [15, 3, 15, 15, 15, 15, 15, 15, 15, 15, 15, 15, 3, 15, 15, 8]

/-- The parameters of a mode: subsets, partition, rotation and index-selection bits, colour and alpha bits of an endpoint, p-bits per
endpoint and per subset, bits of the first and of the second indices. -/
structure Bc7Mode where
  subsets : Nat
  part : Nat
  rot : Nat
  sel : Nat
  colour : Nat
  alpha : Nat
  pEnd : Nat
  pSub : Nat
  index : Nat
  index2 : Nat

def bc7Mode (m : Nat) : Bc7Mode :=
  match m with
  | 0 => ⟨3, 4, 0, 0, 4, 0, 1, 0, 3, 0⟩
  | 1 => ⟨2, 6, 0, 0, 6, 0, 0, 1, 3, 0⟩
  | 2 => ⟨3, 6, 0, 0, 5, 0, 0, 0, 2, 0⟩
  | 3 => ⟨2, 6, 0, 0, 7, 0, 1, 0, 2, 0⟩
  | 4 => ⟨1, 0, 2, 1, 5, 6, 0, 0, 2, 3⟩
  | 5 => ⟨1, 0, 2, 0, 7, 8, 0, 0, 2, 2⟩
  | 6 => ⟨1, 0, 0, 0, 7, 7, 1, 0, 4, 0⟩
  | _ => ⟨2, 6, 0, 0, 5, 5, 1, 0, 2, 0⟩

def fieldAt (v at' n : Nat) : Nat := v / (1 <<< at') % (1 <<< n)

/-- The subset of a texel. -/
def bc7Subset (m : Bc7Mode) (part p : Nat) : Nat :=
  match m.subsets with
  | 1 => 0
  | 2 => bc7Two.getD part 0 / (1 <<< (2 * p)) % 4
  | _ => bc7Three.getD part 0 / (1 <<< (2 * p)) % 4

/-- The texels whose index has one bit less: the anchor of each subset. -/
def bc7Anchors (m : Bc7Mode) (part : Nat) : List Nat :=
  match m.subsets with
  | 1 => [0]
  | 2 => [0, bc7Anchor2.getD part 0]
  | _ => [0, bc7Anchor3.getD part 0, bc7Anchor4.getD part 0]

/-- The index of texel p among indices of n bits from a bit on. -/
def bc7Index (v at' n : Nat) (anchors : List Nat) (p : Nat) : Nat :=
  let before := (anchors.filter (fun a => decide (a < p))).length
  fieldAt v (at' + n * p - before) (if anchors.contains p then n - 1 else n)

/-- Interpolation weights of indices of n bits, in 64ths. -/
def bc7Weight (n i : Nat) : Nat :=
  match n with
  | 2 => [0, 21, 43, 64].getD i 0
  | 3 => [0, 9, 18, 27, 37, 46, 55, 64].getD i 0
  | _ => [0, 4, 9, 13, 17, 21, 26, 30, 34, 38, 43, 47, 51, 55, 60, 64].getD i 0

/-- A field of n bits spread over eight. -/
def bc7Spread (v n : Nat) : Nat := v * (1 <<< (8 - n)) + v / (1 <<< (2 * n - 8))

def bc7Mix (w a b : Nat) : Nat := ((64 - w) * a + w * b + 32) / 64

/-- Swaps alpha with the channel that a rotation names. -/
def bc7Rotate (rot : Nat) (c : List Nat) : List Nat :=
  if rot = 0 then c else (c.set (rot - 1) (c.getD 3 0)).set 3 (c.getD (rot - 1) 0)

/-- The texel at index p of a block of a mode: red, green, blue and alpha. -/
def bc7OfMode (v mode p : Nat) : List Nat :=
  let m := bc7Mode mode
  let atRot := mode + 1 + m.part
  let part := fieldAt v (mode + 1) m.part
  let atEnd := atRot + m.rot + m.sel
  let ends := 2 * m.subsets
  let atP := atEnd + ends * (3 * m.colour + m.alpha)
  let atIx := atP + ends * m.pEnd + m.subsets * m.pSub
  let extra := m.pEnd + m.pSub
  let endpoint := fun (ch e : Nat) =>
    let n := if ch = 3 then m.alpha else m.colour
    let raw := fieldAt v (atEnd + ends * m.colour * ch + n * e) n
    let bit := fieldAt v (atP + if m.pEnd = 1 then e else e / 2) 1
    if n = 0 then 255
    else if extra = 0 then bc7Spread raw n else bc7Spread (2 * raw + bit) (n + 1)
  let anchors := bc7Anchors m part
  let one := (m.index, bc7Index v atIx m.index anchors p)
  let two := (m.index2, bc7Index v (atIx + 16 * m.index - m.subsets) m.index2 [0] p)
  let swapped := fieldAt v (atRot + m.rot) m.sel == 1
  let colour := if m.index2 = 0 then one else if swapped then two else one
  let alpha := if m.index2 = 0 then one else if swapped then one else two
  let e := 2 * bc7Subset m part p
  let mix := fun (ch : Nat) (ix : Nat × Nat) => bc7Mix (bc7Weight ix.1 ix.2) (endpoint ch e) (endpoint ch (e + 1))
  bc7Rotate (fieldAt v atRot m.rot) [mix 0 colour, mix 1 colour, mix 2 colour, mix 3 alpha]

/-- The texel at index p of a block; the reserved mode is all zero. -/
def bc7Texel (v p : Nat) : List Nat :=
  match (List.range 8).find? (bitOf v) with
  | some mode => bc7OfMode v mode (p % 16)
  | none => [0, 0, 0, 0]

end Sys2Proof.Machine
end

