-- ==== Sys2Proof/Machine/Graphics.lean ====
section
/-! DEFINITION. Custom-2 group 3: set-up and coverage, ray tests, texture filtering, blending, packing, reservoirs (R245 to
R259). -/
namespace Sys2Proof.Machine

/-! ### Bundles (R245) -/

/-- The registers of a bundle, each a group of its own. -/
def bundleRegs (r n : Nat) : List (Nat × Nat) := (List.range n).map (fun i => (r + i, 1))

def bundleFits (b : Nat × Nat) : Bool := decide (b.1 + b.2 ≤ 32)

/-- Bundles lie below v32, and the output meets an input only where it coincides with the one permitted. -/
def bundlesOk (out : Nat × Nat) (ins : List (Nat × Nat)) (same : Option (Nat × Nat)) : Bool :=
  bundleFits out && ins.all bundleFits && ins.all (fun b => !grpMeet out b || (some b == same && b == out))

def isType (d : DevCsr) (f : FFmt) : Bool := d.fmt == some f && d.grp == 1
def isInt64 (d : DevCsr) : Bool := intTag d && d.ew == 64 && d.grp == 1

/-- The information of a group 3 instruction. -/
def infoG (s : State) (ok : Bool) (weight ew : Nat) (m : Bool) (out : Nat × Nat) (ins : List (Nat × Nat))
    (same : Option (Nat × Nat)) : VInfo :=
  let fr := s.frame m
  { ok := ok && bundlesOk out ins same, masked := m, n := s.shape.n,
    srcs := (ins.map (fun b => bundleRegs b.1 b.2)).flatten, dst := bundleRegs out.1 out.2,
    charge := chargeFor fr.count ew weight, active := fr.on }

/-- Element i of register r + j of a bundle. -/
def State.bundle (s : State) (sh : Shape) (r i j : Nat) : Nat := sh.get (s.getV (r + j)) i

/-- Writes the registers of an output bundle through the frame: register j of element i takes res i j. -/
def writeBundle (s : State) (sh : Shape) (m : Bool) (vd n : Nat) (res : Nat → Nat → Nat) : State :=
  let fr := s.frame m
  (List.range n).foldl (fun u j =>
    u.setV (vd + j) (writeFrame sh fr (s.getV (vd + j)) (fun i => res i j))) s

/-! ### gsetup (R247) -/

def clampPos (v : Int) : Int := max (-16777215) (min 16777215 v)

/-- The ten set-up values of six positions. -/
def setupOf (p : List Int) : List Int :=
  let q := p.map clampPos
  let x := fun e => q.getD (2 * e) 0
  let y := fun e => q.getD (2 * e + 1) 0
  let es := [0, 1, 2]
  let nxt := fun e => (e + 1) % 3
  let a := es.map (fun e => y e - y (nxt e))
  let b := es.map (fun e => x (nxt e) - x e)
  let c := es.map (fun e => x e * y (nxt e) - x (nxt e) * y e)
  let area := c.foldl (· + ·) 0
  let f : Int := if p ≠ q then 4 else 0
  if area = 0 then [0, 0, 0, 0, 0, 0, -1, -1, -1, f + 1]
  else
    let sg : Int := if area < 0 then -1 else 1
    let bias := fun e => if 0 < sg * a.getD e 0 ∨ (a.getD e 0 = 0 ∧ 0 < sg * b.getD e 0) then 0 else (1 : Int)
    a.map (sg * ·) ++ b.map (sg * ·) ++ es.map (fun e => sg * c.getD e 0 - bias e) ++ [f + (if area < 0 then 2 else 0)]

def setupInfo (s : State) (o : OpU) : VInfo :=
  infoG s (isInt64 s.hart.dev) 4 64 o.m (o.vd.toNat, 10) [(o.vs2.toNat, 6)] none

/-- gsetup -/
def execGsetup (o : OpU) (s : State) : Outcome :=
  let sh := s.shape
  finish (vec s (setupInfo s o) (fun u =>
    let res := fun i =>
      let r := setupOf ((List.range 6).map (fun j => toInt 64 (u.bundle sh o.vs2.toNat i j)))
      fun j => ofInt 64 (r.getD j 0)
    .next (writeBundle u sh o.m o.vd.toNat 10 res)))

/-! ### gcov (R248) -/

/-- Table 09-2, in sixteenths of a pixel. -/
def samplePos (count ix : Nat) : Int × Int :=
  let t : List (Int × Int) := match count with
    | 0 => [(8, 8)]
    | 1 => [(5, 5), (11, 11)]
    | 2 => [(6, 2), (14, 6), (2, 10), (10, 14)]
    | _ => [(3, 1), (11, 3), (7, 5), (15, 7), (1, 9), (9, 11), (5, 13), (13, 15)]
  t.getD (ix % t.length) (8, 8)

/-- The coverage mask of a set-up at a tile. -/
def coverage (a b c : List Int) (w : Nat) : Nat :=
  let tx := w % 65536
  let ty := w / 65536 % 65536
  let sp := samplePos (w / (1 <<< 32) % 4) (w / (1 <<< 36) % 8)
  assemble 1 (fun k =>
    let x : Int := ((tx + k % 8 : Nat) : Int) * 256 + 16 * sp.1
    let y : Int := ((ty + k / 8 : Nat) : Int) * 256 + 16 * sp.2
    ([0, 1, 2].all (fun e => decide (0 ≤ a.getD e 0 * x + b.getD e 0 * y + c.getD e 0))).toNat) 64

def covInfo (s : State) (o : OpB) : VInfo :=
  infoG s (isInt64 s.hart.dev) 4 64 o.m (o.vd.toNat, 1) [(o.vs2.toNat, 9)] none

/-- gcov -/
def execGcov (o : OpB) (s : State) : Outcome :=
  let sh := s.shape
  let w := (s.xr (srcReg o.src)).toNat
  finish (vec s (covInfo s o) (fun u =>
    let v := fun i j => toInt 64 (u.bundle sh o.vs2.toNat i j)
    .next (writeBundle u sh o.m o.vd.toNat 1 (fun i _ =>
      coverage [v i 0, v i 1, v i 2] [v i 3, v i 4, v i 5] [v i 6, v i 7, v i 8] w))))

/-! ### Ray tests (R249 to R251) -/

def Ev.isInf : Ev → Bool
  | .inf _ => true
  | _ => false
def Ev.isZero : Ev → Bool
  | .zero _ => true
  | _ => false

def Ev.sub' (a b : Ev) : Ev := (a.add 0 b.neg).1
def Ev.sum (a b : Ev) : Ev := (a.add 0 b).1
def Ev.prod (a b : Ev) : Ev := (a.mul b).1
def Ev.le (a b : Ev) : Bool := !a.isNan && !b.isNan && !b.lt a
def Ev.minE (a b : Ev) : Ev := if b.lt a then b else a
def Ev.maxE (a b : Ev) : Ev := if a.lt b then b else a

/-- What a ray test comes to: a miss, a hit with its values, or no stated result (an indeterminate form of infinities). -/
inductive Hit where
  | miss
  | hit (vs : List Ev)
  | unstated
  deriving DecidableEq, Repr

/-- Near and far of one axis: none for a miss. -/
def slab (o i lo hi : Ev) : Option (Ev × Ev) :=
  if i.isInf then (if lo.le o && o.le hi then some (.inf true, .inf false) else none)
  else
    let a := (lo.sub' o).prod i
    let b := (hi.sub' o).prod i
    if a.isNan || b.isNan then some (.nan false, .nan false) else some (a.minE b, a.maxE b)

/-- gbox of one element: the ray's eleven fields and the box's six. -/
def boxHit (ray box : Nat → Ev) : Hit :=
  let read := [0, 1, 2, 6, 7, 8, 9, 10]
  if read.any (fun j => (ray j).isNan) || (List.range 6).any (fun j => (box j).isNan) then .miss
  else if (List.range 3).any (fun a => (box (a + 3)).lt (box a)) then .miss
  else
    let ax := (List.range 3).map (fun a => slab (ray a) (ray (6 + a)) (box a) (box (a + 3)))
    if ax.any Option.isNone then .miss
    else
      let ps := ax.filterMap id
      if ps.any (fun p => p.1.isNan) then .unstated
      else
        let tn := ps.foldl (fun t p => t.maxE p.1) (ray 9)
        let tf := ps.foldl (fun t p => t.minE p.2) (ray 10)
        if tn.le tf then .hit [tn, tf] else .miss

/-- A rounded value; the sign of an exact zero is not stated and is a free bit (log 5). -/
def freeZero (v : Ev) (rm free : Nat) : Nat :=
  if v.isZero then free % 2 * (1 <<< 31) else (roundTo .fp32 v rm false).1

/-- A free 32-bit value for field j of element i (log 5). -/
def State.freeAt (s : State) (i j : Nat) : Nat := (Config.freeWord (s.fresh + 4 * i + j)).toNat % (1 <<< 32)

/-- The draws of an instruction over n elements. -/
def State.drawn (s : State) (n : Nat) : State := { s with fresh := s.fresh + 4 * n }

def boxInfo (s : State) (o : OpB) : VInfo :=
  infoG s (isType s.hart.dev .fp32) 4 32 o.m (o.vd.toNat, 2) [(o.vs2.toNat, 11), ((srcReg o.src).toNat, 6)] none

/-- gbox -/
def execGbox (o : OpB) (s : State) : Outcome :=
  let sh := s.shape
  let ray := o.vs2.toNat
  let box := (srcReg o.src).toNat
  finish (vec s (boxInfo s o) (fun u =>
    let res := fun i =>
      let h := boxHit (fun j => FFmt.fp32.decode (u.bundle sh ray i j)) (fun j => FFmt.fp32.decode (u.bundle sh box i j))
      fun j => match h with
        | .hit vs => freeZero (vs.getD j (.zero false)) (if j = 0 then 2 else 3) (u.freeAt i j)
        | .miss => if j = 0 then 0x7F800000 else 0xFF800000
        | .unstated => u.freeAt i j
    .next ((writeBundle u sh o.m o.vd.toNat 2 res).drawn sh.n)))

def cross (a b : List Ev) : List Ev :=
  let g := fun (l : List Ev) j => l.getD (j % 3) (.zero false)
  (List.range 3).map (fun j => (g a (j + 1)).prod (g b (j + 2)) |>.sub' ((g a (j + 2)).prod (g b (j + 1))))

def dot (a b : List Ev) : Ev := (List.zip a b).foldl (fun s p => s.sum (p.1.prod p.2)) (.zero false)
def vsub3 (a b : List Ev) : List Ev := (List.zip a b).map (fun p => p.1.sub' p.2)

/-- gtri of one element (R251). -/
def triHit (ray tri : Nat → Ev) : Hit :=
  let fin := fun (v : Ev) => !v.isNan && !v.isInf
  let read := [0, 1, 2, 3, 4, 5, 9, 10]
  if !(read.all (fun j => fin (ray j)) && (List.range 9).all (fun j => fin (tri j))) then .miss
  else
    let o := [ray 0, ray 1, ray 2]
    let d := [ray 3, ray 4, ray 5]
    let v0 := [tri 0, tri 1, tri 2]
    let e1 := vsub3 [tri 3, tri 4, tri 5] v0
    let e2 := vsub3 [tri 6, tri 7, tri 8] v0
    let n := cross e1 e2
    let p := cross d e2
    let det := dot e1 p
    if d.all Ev.isZero || n.all Ev.isZero || det.isZero then .miss
    else
      let w := vsub3 o v0
      let q := cross w e1
      let u := (dot w p).div det |>.1
      let v := (dot d q).div det |>.1
      let t := (dot e2 q).div det |>.1
      let zero : Ev := .zero false
      if zero.le u && zero.le v && (u.sum v).le (Ev.ofInt 1) && (ray 9).le t && t.le (ray 10) then .hit [t, u, v] else .miss

def triInfo (s : State) (o : OpB) : VInfo :=
  infoG s (isType s.hart.dev .fp32) 4 32 o.m (o.vd.toNat, 3) [(o.vs2.toNat, 11), ((srcReg o.src).toNat, 9)] none

/-- gtri -/
def execGtri (o : OpB) (s : State) : Outcome :=
  let sh := s.shape
  let ray := o.vs2.toNat
  let tri := (srcReg o.src).toNat
  finish (vec s (triInfo s o) (fun u =>
    let res := fun i =>
      let h := triHit (fun j => FFmt.fp32.decode (u.bundle sh ray i j)) (fun j => FFmt.fp32.decode (u.bundle sh tri i j))
      fun j => match h with
        | .hit vs => freeZero (vs.getD j (.zero false)) 0 (u.freeAt i j)
        | .miss => if j = 0 then 0x7F800000 else 0
        | .unstated => u.freeAt i j
    .next ((writeBundle u sh o.m o.vd.toNat 3 res).drawn sh.n)))

/-! ### gtex (R252 to R254) -/

/-- A texture descriptor (Table 09-4). -/
structure Tex where
  base : Nat
  fmt : Nat
  lw : Nat
  lh : Nat
  lv : Nat
  filter : Nat
  au : Bool
  av : Bool
  deriving DecidableEq, Repr

def Tex.ofWords (w0 w1 : Nat) : Tex :=
  { base := w0 % (1 <<< 48), fmt := w1 % 16, lw := w1 / 16 % 16, lh := w1 / 256 % 16, lv := w1 / 4096 % 16,
    filter := w1 / 65536 % 4, au := bitOf w1 18, av := bitOf w1 19 }

/-- No reserved bit, no value unlisted, no more levels than the sizes allow, an aligned base (R252). -/
def Tex.ok (t : Tex) (ws : List Word) : Bool :=
  decide ((wordAt ws 0).toNat / (1 <<< 48) = 0) && decide ((wordAt ws 1).toNat / (1 <<< 20) = 0) &&
  (ws.drop 2).all (· == 0) && decide (t.fmt ≤ 6) && decide (t.lw ≤ 14) && decide (t.lh ≤ 14) && decide (t.filter ≤ 2) &&
  decide (t.lv ≤ max t.lw t.lh) && decide (t.base % 256 = 0)

def Tex.width (t : Tex) (l : Nat) : Nat := max 1 ((1 <<< t.lw) >>> l)
def Tex.height (t : Tex) (l : Nat) : Nat := max 1 ((1 <<< t.lh) >>> l)

/-- Bytes of a texel or block, and whether the format has blocks. -/
def Tex.unit (t : Tex) : Nat × Bool :=
  match t.fmt with
  | 0 => (4, false) | 1 => (8, false) | 2 => (8, true) | 3 => (16, true) | 4 => (8, true) | _ => (16, true)

def Tex.size (t : Tex) (l : Nat) : Nat :=
  if t.unit.2 then (t.width l + 3) / 4 * ((t.height l + 3) / 4) * t.unit.1 else t.width l * t.height l * t.unit.1

def Tex.levelAt (t : Tex) (l : Nat) : Nat :=
  (List.range l).foldl (fun a m => a + (t.size m + 255) / 256 * 256) t.base

/-- The address of the texel or block that holds texel (i, j) of a level. -/
def Tex.place (t : Tex) (l i j : Nat) : Nat :=
  if t.unit.2 then t.levelAt l + (j / 4 * ((t.width l + 3) / 4) + i / 4) * t.unit.1
  else t.levelAt l + (j * t.width l + i) * t.unit.1

def byteAt (v n : Nat) : Nat := v / (1 <<< (8 * n)) % 256

/-- A block channel that interpolation gives: an integer, or one of the two beside the exact quotient (log 11). -/
def bcMix (num den : Nat) : Nat :=
  if num % den = 0 then num / den else num / den + (Config.bcRoundsUp num den).toNat

/-- A 5-6-5 colour as 8-bit channels. -/
def rgb565 (c : Nat) : List Nat :=
  let r := c / 2048 % 32
  let g := c / 32 % 64
  let b := c % 32
  [r * 8 + r / 4, g * 4 + g / 16, b * 8 + b / 4]

/-- A BC1 colour block at position p (log 11): red, green, blue and whether the texel is transparent. -/
def bcColour (blk p : Nat) (four : Bool) : List Nat × Bool :=
  let c0 := blk % 65536
  let c1 := blk / 65536 % 65536
  let ix := blk / (1 <<< (32 + 2 * p)) % 4
  let a := rgb565 c0
  let b := rgb565 c1
  let mix := fun (x y d : Nat) => (List.zip a b).map (fun q => bcMix (x * q.1 + y * q.2) d)
  match ix with
  | 0 => (a, false)
  | 1 => (b, false)
  | 2 => if four || c1 < c0 then (mix 2 1 3, false) else (mix 1 1 2, false)
  | _ => if four || c1 < c0 then (mix 1 2 3, false) else ([0, 0, 0], true)

/-- The numerator and denominator of a BC4 block's channel at position p (log 11). -/
def bcAlpha (blk p : Nat) : Nat × Nat :=
  let a0 := blk % 256
  let a1 := blk / 256 % 256
  let ix := blk / (1 <<< (16 + 3 * p)) % 8
  match ix with
  | 0 => (a0, 1)
  | 1 => (a1, 1)
  | n =>
    if a1 < a0 then ((8 - n) * a0 + (n - 1) * a1, 7)
    else if n < 6 then ((6 - n) * a0 + (n - 1) * a1, 5)
    else if n = 6 then (0, 1) else (255, 1)

def unorm (n : Nat) : Ev := Ev.ofFrac n 255 0 false
def unormFrac (p : Nat × Nat) : Ev := Ev.ofFrac p.1 (255 * p.2) 0 false

/-- The four channels of a texel from its bytes, at position p of a block (R253). -/
def Tex.decode (t : Tex) (v p : Nat) : List Ev :=
  let one := unorm 255
  let zero := unorm 0
  match t.fmt with
  | 0 => (List.range 4).map (fun n => unorm (byteAt v n))
  | 1 => (List.range 4).map (fun n => FFmt.fp16.decode (v / (1 <<< (16 * n)) % 65536))
  | 2 =>
    let c := bcColour v p false
    c.1.map unorm ++ [if c.2 then zero else one]
  | 3 =>
    let a := bcAlpha (v % (1 <<< 64)) p
    (bcColour (v / (1 <<< 64)) p true).1.map unorm ++ [unorm (bcMix a.1 a.2)]
  | 4 => [unormFrac (bcAlpha v p), zero, zero, one]
  | 5 => [unormFrac (bcAlpha (v % (1 <<< 64)) p), unormFrac (bcAlpha (v / (1 <<< 64)) p), zero, one]
  | _ => (bc7Texel v p).map unorm

/-- floor of an exact finite value. -/
def Ev.floorI : Ev → Int
  | .fin neg m =>
    let r := m.floorAt 0
    if neg then (if r.2 = .exact then -(r.1 : Int) else -(r.1 : Int) - 1) else r.1
  | _ => 0

/-- A texel index under wrap or clamp. -/
def texIndex (clamp : Bool) (k : Int) (n : Nat) : Nat :=
  if clamp then (max 0 (min ((n : Int) - 1) k)).toNat else (k % (n : Int)).toNat

/-- The texels of a filter: weight, level, column, row; the weights' denominator. -/
def Tex.bilin (t : Tex) (u v : Ev) (scale l : Nat) : List (Nat × Nat × Nat × Nat) :=
  let w := t.width l
  let h := t.height l
  let half := Ev.ofFrac 1 2 0 false
  let s := ((u.prod (Ev.ofInt w)).sub' half)
  let r := ((v.prod (Ev.ofInt h)).sub' half)
  let i0 := s.floorI
  let j0 := r.floorI
  let fu := ((s.prod (Ev.ofInt 256)).floorI - 256 * i0).toNat
  let fv := ((r.prod (Ev.ofInt 256)).floorI - 256 * j0).toNat
  let col := fun (d : Int) => texIndex t.au (i0 + d) w
  let row := fun (d : Int) => texIndex t.av (j0 + d) h
  [(scale * ((256 - fu) * (256 - fv)), l, col 0, row 0), (scale * (fu * (256 - fv)), l, col 1, row 0),
   (scale * ((256 - fu) * fv), l, col 0, row 1), (scale * (fu * fv), l, col 1, row 1)]

def Tex.taps (t : Tex) (u v lam : Ev) : List (Nat × Nat × Nat × Nat) × Nat :=
  let lv := Ev.ofInt t.lv
  let lam' := (lam.maxE (.zero false)).minE lv
  let near := min ((lam'.sum (Ev.ofFrac 1 2 0 false)).floorI.toNat) t.lv
  match t.filter with
  | 0 =>
    ([(1, near, texIndex t.au (u.prod (Ev.ofInt (t.width near))).floorI (t.width near),
       texIndex t.av (v.prod (Ev.ofInt (t.height near))).floorI (t.height near))], 1)
  | 1 => (t.bilin u v 1 near, 65536)
  | _ =>
    let l0 := lam'.floorI.toNat
    let fl := ((lam'.prod (Ev.ofInt 256)).floorI - 256 * l0).toNat
    (t.bilin u v (256 - fl) l0 ++ t.bilin u v fl (min (l0 + 1) t.lv), 16777216)

/-- Fetches one texel by an ordinary load, its page translated in u (R333). -/
def Tex.fetch (u s : State) (t : Tex) (l i j : Nat) : Res (List Ev × State) :=
  let x := u.hart.dataXlat
  let va := t.place l i j
  (translate u x .load va).bind (fun p =>
    if p.cls = .io then .trap { cause := 5, tval := va }
    else (loadAt (s.noted u x .load va) s.cur.1 s.cur.2 x va t.unit.1 p).bind (fun r =>
      .done (t.decode r.1 (i % 4 + 4 * (j % 4)), r.2)))

/-- A channel under way: its exact value, and whether the sign of a zero is known. -/
structure Chan where
  val : Ev
  known : Bool

/-- Adds an exact value: a zero that two zeros of one sign make has that sign, another zero's sign is not stated (log 11). -/
def Chan.add (a : Option Chan) (v : Ev) : Option Chan :=
  match a with
  | none => some ⟨v, true⟩
  | some a =>
    let r := a.val.sum v
    if !r.isZero then some ⟨r, true⟩
    else if a.val.isZero && v.isZero && a.val.isNeg == v.isNeg then some ⟨v, a.known⟩
    else some ⟨r, false⟩

/-- The weighted sum of the taps' channels: texels of weight 0 are fetched and contribute nothing. -/
def Tex.sum (u s : State) (t : Tex) (acc : List (Option Chan)) : List (Nat × Nat × Nat × Nat) → Res (List (Option Chan) × State)
  | [] => .done (acc, s)
  | (w, l, i, j) :: rest =>
    (Tex.fetch u s t l i j).bind (fun r =>
      let acc' := if w = 0 then acc else (List.zip acc r.1).map (fun p => Chan.add p.1 (p.2.prod (Ev.ofInt w)))
      Tex.sum u r.2 t acc' rest)

/-- The four channels of one element as FP32 codes. -/
def Tex.sample (o s : State) (t : Tex) (i : Nat) (u v lam : Ev) : Res (List Nat × State) :=
  if u.isNan || v.isNan || lam.isNan || u.isInf || v.isInf then .done (List.replicate 4 FFmt.fp32.nanCode, s)
  else
    let tp := t.taps u v lam
    (Tex.sum o s t (List.replicate 4 none) tp.1).bind (fun r =>
      .done ((List.zip (List.range 4) r.1).map (fun p =>
        let ch := p.2.getD ⟨.zero false, true⟩
        let q := (ch.val.div (Ev.ofInt tp.2)).1
        if ch.known then (roundTo .fp32 q 0 false).1 else freeZero q 0 (o.freeAt i p.1)), r.2))

/-- The elements of a gtex in order, their pages translated in u: the colours so far, and what stopped it. -/
def texRun (u : State) (t : Tex) (get : Nat → Nat → Ev) :
    List Nat → State → List (Nat × List Nat) → List (Nat × List Nat) × State × Option (Nat × Res Unit)
  | [], s, acc => (acc, s, none)
  | i :: rest, s, acc =>
    match t.sample u s i (get i 0) (get i 1) (get i 2) with
    | .done r => texRun u t get rest r.2 ((i, r.1) :: acc)
    | .trap e => (acc, s, some (i, .trap e))
    | .wait => (acc, s, some (i, .wait))

/-- The registers of a colour bundle after the elements of a list have been written. -/
def texVal (u : State) (sh : Shape) (fr : Frame) (vd n : Nat) (cols : List (Nat × List Nat)) (upto : Option Nat) : Nat → Nat :=
  fun j =>
    let old := u.getV (vd + j)
    let res := fun i => ((cols.find? (fun e => e.1 == i)).map (fun e => e.2.getD j 0)).getD 0
    let _ := n
    match upto with
    | none => writeFrame sh fr old res
    | some k => writeGroup sh false old (fun i => if i < k then fr.pick i (sh.get old i) res 0 else sh.get old i)

def texInfo (s : State) (o : OpB) : VInfo :=
  { infoG s (isType s.hart.dev .fp32) 2 32 o.m (o.vd.toNat, 4) [(o.vs2.toNat, 3)] none with load := true }

/-- gtex -/
def execGtex (o : OpB) (s : State) : Outcome :=
  let sh := s.shape
  let at' := (s.xr (srcReg o.src)).toNat
  let fr := s.frame o.m
  finish (vec s (texInfo s o) (fun u =>
    let x := u.hart.dataXlat
    let bad : Body := .trap { cause := 5, tval := at' } u
    if at' % 64 ≠ 0 then bad
    else match translate u x .load at' with
    | .trap e => .trap e u
    | .wait => .wait u
    | .done p =>
      if p.cls = .io then bad
      else (loadWords u u.cur.1 u.cur.2 { x with stash := false } at' 8).body u (fun ws =>
        let t := Tex.ofWords (wordAt ws.1 0).toNat (wordAt ws.1 1).toNat
        if !t.ok ws.1 then bad
        else
          let get := fun i j => FFmt.fp32.decode (u.bundle sh o.vs2.toNat i j)
          let r := texRun u t get ((List.range fr.vgrant).filter fr.on) (ws.2.drawn sh.n) []
          let u1 := r.2.1
          match r.2.2 with
          | none =>
            let val := (List.range 4).foldl (fun a j => a + texVal u sh fr o.vd.toNat 4 r.1 none j <<< (j * sh.vlen)) 0
            .next (u1.fly o.vd.toNat 4 val)
          | some (_, .wait) => .wait u
          | some (i, .trap e) =>
            let u2 := (List.range 4).foldl (fun q j => q.setV (o.vd.toNat + j) (texVal u sh fr o.vd.toNat 4 r.1 (some i) j)) u1
            .trap e (u2.modHart (fun h => { h with dev := { h.dev with vstart := BitVec.ofNat 16 i } }))
          | some (_, .done _) => .next u1)))

/-! ### gblend and gpack (R255, R256) -/

/-- a·b + c·d as an exact value, and whether it is invalid. -/
def blendSum (rm : Nat) (a b c d : Ev) : Ev × Bool :=
  let p := a.mul b
  let q := c.mul d
  let r := p.1.add rm q.1
  (r.1, p.2 || q.2 || r.2)

/-- The four channels of a blend with their flags. -/
def blendElem (rm : Nat) (src dst : Nat → Ev) (mode : Bool) (j : Nat) : Nat × Nat :=
  let one := Ev.ofInt 1
  let as := src 3
  let inv := one.add rm as.neg
  let r :=
    if j = 3 then
      let q := (dst 3).mul inv.1
      let t := as.add rm q.1
      (t.1, inv.2 || q.2 || t.2)
    else if mode then
      let p := (src j).mul as
      let t := p.1.add rm (dst j)
      (t.1, p.2 || t.2)
    else
      let t := blendSum rm (src j) as (dst j) inv.1
      (t.1, t.2 || inv.2)
  let q := roundTo .fp16 r.1 rm false
  (q.1, q.2 ||| (if r.2 then flNV else 0))

def blendInfo (s : State) (o : OpB) : VInfo :=
  let ds := (srcReg o.src).toNat
  { infoG s (isType s.hart.dev .fp16) 3 16 o.m (o.vd.toNat, 4) [(o.vs2.toNat, 5), (ds, 4)] (some (ds, 4)) with rounds := true }

/-- gblend -/
def execGblend (o : OpB) (s : State) : Outcome :=
  let sh := s.shape
  let sr := o.vs2.toNat
  let ds := (srcReg o.src).toNat
  finish (vec s (blendInfo s o) (fun u =>
    let rm := u.hart.dev.rm
    let fr := u.frame o.m
    let el := fun i j => blendElem rm (fun k => FFmt.fp16.decode (u.bundle sh sr i k))
      (fun k => FFmt.fp16.decode (u.bundle sh ds i k)) (bitOf (u.bundle sh sr i 4) 0) j
    let u1 := writeBundle u sh o.m o.vd.toNat 4 (fun i j => (el i j).1)
    .next (u1.modHart (fun t => t.raise ((List.range 4).foldl (fun a j => a ||| flagsOver fr (fun i => (el i j).2)) 0)))))

/-- The byte of a channel (R256). -/
def packByte (v : Ev) : Nat :=
  if v.isNan || v.le (.zero false) then 0
  else if (Ev.ofInt 1).le v then 255
  else (roundInt (v.prod (Ev.ofInt 255)) 0).1.toNat

def packInfo (s : State) (o : OpU) : VInfo :=
  infoG s (isType s.hart.dev .fp16) 3 32 o.m (o.vd.toNat, 2) [(o.vs2.toNat, 4)] none

/-- gpack -/
def execGpack (o : OpU) (s : State) : Outcome :=
  let sh := s.shape
  let dsh : Shape := { vlen := sh.vlen, g := 2, ew := 32, lf := false, k := 0 }
  finish (vec s (packInfo s o) (fun u =>
    .next (writeElems u dsh o.m o.vd (fun i =>
      ((List.range 4).foldl (fun a j => a + packByte (FFmt.fp16.decode (u.bundle sh o.vs2.toNat i j)) * (1 <<< (8 * j))) 0, 0)))))

/-! ### Reservoirs (R257 to R259) -/

/-- u × wsum < w × 2^32, with u × ∞ as R257 gives. -/
def selects (u : Nat) (wsum w : Ev) : Bool :=
  let l := if u = 0 then Ev.zero false else (Ev.ofInt u).prod wsum
  if wsum.isNan then false else l.lt (w.prod (Ev.ofInt 4294967296))

def field (v lo n : Nat) : Nat := v / (1 <<< lo) % (1 <<< n)

/-- A record of its fields (Table 09-6). -/
def recordOf (flags : Nat) (bad valid : Bool) (count target wsum sample : Nat) : Nat :=
  sample + wsum * (1 <<< 32) + target * (1 <<< 64) + count * (1 <<< 96) + valid.toNat * (1 <<< 112) + bad.toNat * (1 <<< 113) +
    flags * (1 <<< 114)

/-- grsv.upd of one element. -/
def rsvUpd (cap rec cand u : Nat) : Nat :=
  let w := FFmt.fp32.decode (field cand 32 32)
  let wsum0 := field rec 32 32
  let bad := bitOf rec 113 || w.isNan || w.lt (.zero false)
  let count := min (field rec 96 16 + 1) cap
  if (Ev.zero false).lt w then
    let wsum := (roundTo .fp32 ((FFmt.fp32.decode wsum0).sum w) 0 false).1
    if selects u (FFmt.fp32.decode wsum) w then
      recordOf (field rec 114 14) bad true count (field cand 64 32) wsum (field cand 0 32)
    else recordOf (field rec 114 14) bad (bitOf rec 112) count (field rec 64 32) wsum (field rec 0 32)
  else recordOf (field rec 114 14) bad (bitOf rec 112) count (field rec 64 32) wsum0 (field rec 0 32)

/-- grsv.mrg of one element: b into a. -/
def rsvMrg (cap a b u : Nat) : Nat :=
  let wb := FFmt.fp32.decode (field b 32 32)
  let bad := bitOf a 113 || bitOf b 113
  let count := min (field a 96 16 + field b 96 16) cap
  if bitOf b 112 && (Ev.zero false).lt wb then
    let wsum := (roundTo .fp32 ((FFmt.fp32.decode (field a 32 32)).sum wb) 0 false).1
    if selects u (FFmt.fp32.decode wsum) wb then
      recordOf (field a 114 14) bad true count (field b 64 32) wsum (field b 0 32)
    else recordOf (field a 114 14) bad (bitOf a 112) count (field a 64 32) wsum (field a 0 32)
  else recordOf (field a 114 14) bad (bitOf a 112) count (field a 64 32) (field a 32 32) (field a 0 32)

def rsvInfo (s : State) (o : OpB) : VInfo :=
  withThird (infoG s (isInt64 s.hart.dev) 3 64 o.m (o.vd.toNat, 2) [(o.vs2.toNat, 2), ((srcReg o.src).toNat, 1)] none)

def reservoir (o : OpB) (f : Nat → Nat → Nat → Nat → Nat) (s : State) : Outcome :=
  let sh := s.shape
  let vd := o.vd.toNat
  let vs2 := o.vs2.toNat
  let vs1 := (srcReg o.src).toNat
  finish (vec s (rsvInfo s o) (fun u =>
    let two := fun r i => u.bundle sh r i 0 + u.bundle sh r i 1 * (1 <<< 64)
    let cap := u.hart.dev.rsvcap.toNat
    let res := fun i =>
      let r := f cap (two vd i) (two vs2 i) (lowBits (u.bundle sh vs1 i 0) 32)
      fun j => lowBits (r >>> (64 * j)) 64
    .next (writeBundle u sh o.m vd 2 res)))

/-- grsv.upd -/
def execGrsvUpd (o : OpB) (s : State) : Outcome := reservoir o rsvUpd s
/-- grsv.mrg -/
def execGrsvMrg (o : OpB) (s : State) : Outcome := reservoir o rsvMrg s

end Sys2Proof.Machine
end

