-- ==== Sys2Proof/Machine/Search.lean ====
section
/-! DEFINITION. Custom-2 group 4: segment distances and top-k lists (R260 to R263). -/
namespace Sys2Proof.Machine

/-! ### Segment distances (R260) -/

/-- One candidate's exact score and whether it is invalid. -/
def segScore (l2 : Bool) (terms : List (Ev × Ev)) : Ev × Bool :=
  let r := terms.foldl (fun (acc : Ev × Bool) p =>
    let t := if l2 then p.1.add 0 p.2.neg else (p.1, false)
    let q := if l2 then t.1.mul t.1 else p.1.mul p.2
    let a := acc.1.add 0 q.1
    (a.1, acc.2 || t.2 || q.2 || a.2 || p.1.sigNan || p.2.sigNan)) (.zero false, false)
  (if l2 then r.1.neg else r.1, r.2)

/-- The stored score; an exact zero gives +0, or −0 under RDN. -/
def segResult (rm : Nat) (v : Ev × Bool) : Nat × Nat :=
  let x := match v.1 with | .zero _ => Ev.zero (rm == 2) | y => y
  let q := roundTo .fp32 x rm false
  (q.1, q.2 ||| (if v.2 then flNV else 0))

/-- The candidates a segment instruction has room for, and the registers of their scores. -/
def segCount (s : State) : Nat := if s.hart.dev.vdsl.toNat = 0 then 0 else s.shape.n / s.hart.dev.vdsl.toNat
def segRegs (s : State) : Nat := regsFor s.shape.vlen (32 * segCount s)

def segInfo (s : State) (o : OpB) : VInfo :=
  let d := s.hart.dev
  let sh := s.shape
  let l := d.vdsl.toNat
  let vs1 := (srcReg o.src).toNat
  { ok := quantSrc d && s.hart.gang.isNone && decide (1 ≤ l) && decide (l ≤ sh.n) && decide (32 * segCount s ≤ 8 * sh.vlen),
    masked := o.m, apart := true, zeroStart := true, rounds := true, n := sh.n,
    srcs := [(o.vs2.toNat, sh.g), (vs1, sh.g)], dst := [(o.vd.toNat, segRegs s)],
    charge := chargeFor (s.frame o.m).count 32 4, active := fun _ => true }

def segment (o : OpB) (l2 : Bool) (s : State) : Outcome :=
  let d := s.hart.dev
  let sh := s.shape
  let l := d.vdsl.toNat
  let gd := segRegs s
  let vs1 := (srcReg o.src).toNat
  finish (vec s (segInfo s o) (fun u =>
    let a := u.getGroup o.vs2.toNat sh.g
    let b := u.getGroup vs1 sh.g
    let fr := u.frame o.m
    let cnt := fr.vgrant / l
    let q := fun i => d.fp.decode (sh.get b i)
    let x := fun i => d.fp.decode (sh.get a i)
    let score := fun c => segResult d.rm (segScore l2 ((List.range l).map (fun j => (x (c * l + j), q j))))
    let on := fun c => !o.m || bitOf fr.mask c
    let old := u.getGroup o.vd.toNat gd
    let u1 := u.setGroup o.vd.toNat gd (assemble 32 (fun c =>
      if c < cnt then (if on c then (score c).1 else if fr.ma then 0 else old >>> (32 * c))
      else if fr.ta then 0 else old >>> (32 * c)) (gd * sh.vlen / 32))
    .next (u1.modHart (fun t => t.raise ((List.range cnt).foldl (fun f c => if on c then f ||| (score c).2 else f) 0)))))

/-- vdseg.l2 -/
def execVdsegL2 (o : OpB) (s : State) : Outcome := segment o true s
/-- vdseg.ip -/
def execVdsegIp (o : OpB) (s : State) : Outcome := segment o false s

/-! ### Top-k lists (R261 to R263) -/

/-- Entry (score code, id) a ranks at or above b. -/
def ranksAbove (a b : Nat × Nat) : Bool :=
  let x := FFmt.fp32.decode a.1
  let y := FFmt.fp32.decode b.1
  y.lt x || (!x.lt y && decide (a.2 ≤ b.2))

def scoreNan (e : Nat × Nat) : Bool := (FFmt.fp32.decode e.1).isNan

/-- The list in a register pair. -/
def listOf (s : State) (r : Nat) : List (Nat × Nat) :=
  (List.range (s.hart.vlen / 32)).map (fun e => (lowBits (s.getV r >>> (32 * e)) 32, lowBits (s.getV (r + 1) >>> (32 * e)) 32))

/-- Writes the K highest entries of a list with candidates. A list that holds a NaN has no stated order: its entries become free
values (log 5). -/
def keepTop (u : State) (vd : Nat) (old cands : List (Nat × Nat)) (open' : Bool) : State :=
  let k := u.hart.vlen / 32
  let best := sortBy ranksAbove (old ++ cands.filter (fun e => !scoreNan e))
  let ent := fun e => if open' then (u.freeAt e 0, u.freeAt e 1) else best.getD e (0, 0)
  ((u.setV vd (assemble 32 (fun e => (ent e).1) k)).setV (vd + 1) (assemble 32 (fun e => (ent e).2) k)).drawn k

def topkInfo (s : State) (o : OpB) : VInfo :=
  let vd := o.vd.toNat
  let vs2 := o.vs2.toNat
  let vs1 := (srcReg o.src).toNat
  { ok := isType s.hart.dev .fp32 && s.hart.gang.isNone && !grpMeet (vd, 2) (vs2, 1) && !grpMeet (vd, 2) (vs1, 1),
    zeroStart := true, n := s.shape.n, srcs := [(vs2, 1), (vs1, 1), (vd, 2)], dst := [(vd, 2)],
    charge := chargeFor (s.frame false).count 32 2 }

/-- vtopk -/
def execVtopk (o : OpB) (s : State) : Outcome :=
  let sh := s.shape
  let vd := o.vd.toNat
  let vs2 := o.vs2.toNat
  let vs1 := (srcReg o.src).toNat
  finish (vec s (topkInfo s o) (fun u =>
    let vg := u.hart.dev.vgrant.toNat
    let cands := (List.range vg).map (fun i => (sh.get (u.getV vs2) i, sh.get (u.getV vs1) i))
    let old := listOf u vd
    .next (if vg = 0 then u else keepTop u vd old cands (old.any scoreNan))))

def mergeTopInfo (s : State) (o : OpU) : VInfo :=
  let vd := o.vd.toNat
  let vs2 := o.vs2.toNat
  { ok := isType s.hart.dev .fp32 && s.hart.gang.isNone && !grpMeet (vd, 2) (vs2, 2), zeroStart := true, n := s.shape.n,
    srcs := [(vs2, 2), (vd, 2)], dst := [(vd, 2)], charge := chargeFor (s.frame false).count 32 2 }

/-- vtopk.m -/
def execVtopkM (o : OpU) (s : State) : Outcome :=
  let vd := o.vd.toNat
  let vs2 := o.vs2.toNat
  finish (vec s (mergeTopInfo s o) (fun u =>
    let old := listOf u vd
    let more := listOf u vs2
    .next (keepTop u vd old more (old.any scoreNan || more.any scoreNan))))

end Sys2Proof.Machine
end

