-- ==== Sys2Proof/Machine/VMem.lean ====
section
/-! DEFINITION. Custom-1 loads and stores (R105 to R113). -/
namespace Sys2Proof.Machine

/-! ### Widths and addresses (R105, R106) -/

/-- How the elements of an access lie: the shape of the register group at the width in force, and whether they are nibbles. -/
structure MemShape where
  sh : Shape
  nib : Bool
  deriving DecidableEq, Repr

/-- The width in force (R105); .e takes vtype's. -/
def memShape (t : Ctx) (code : Nat) : MemShape :=
  let d := t.dev
  let mk := fun (w : Nat) (lf : Bool) => ({ vlen := t.vlen, g := d.grp, ew := w, lf := lf, k := d.k } : Shape)
  match code with
  | 4 => ⟨mk (64 * (d.k + 1)) true, false⟩
  | 5 => if d.isLf then ⟨mk d.ew true, false⟩ else ⟨mk d.ew false, d.ewCode == 0⟩
  | 6 => ⟨mk 4 false, true⟩
  | c => ⟨mk (8 <<< c) false, false⟩

/-- Bytes between elements in the unit modes. -/
def MemShape.size (m : MemShape) : Nat := m.sh.ew / 8

/-- Index width and registers of the index group (R106). -/
def MemShape.iw (m : MemShape) : Nat := if m.sh.ew ≤ 32 then 32 else 64
def MemShape.gi (m : MemShape) : Nat := regsFor m.sh.vlen (m.sh.n * m.iw)
def MemShape.giOk (m : MemShape) : Bool := decide (m.sh.n * m.iw ≤ 8 * m.sh.vlen)

/-- The three ways of forming addresses. -/
inductive MemMode where | unit | strided | indexed
  deriving DecidableEq, Repr

/-- Addr(i), modulo 2^64. -/
def memAddr (s : State) (m : MemShape) (mode : MemMode) (o : OpM) : Nat → Nat :=
  let base := (s.xr o.rs1).toNat
  match mode with
  | .unit => fun i => wrapAddr (base + (if m.nib then i / 2 else i * m.size))
  | .strided => fun i => wrapAddr (base + i * (s.xr o.idx).toNat)
  | .indexed =>
    let v := s.getGroup o.idx.toNat m.gi
    fun i => ofInt 64 ((base : Int) + toInt m.iw (v >>> (i * m.iw)))

/-- A misaligned element (R107). -/
def MemShape.misaligned (m : MemShape) (va : Nat) : Bool :=
  !m.nib && decide (va % (if m.sh.lf then 8 else max 1 m.size) ≠ 0)

/-! ### One element -/

/-- What an element's access comes to, and whether its translation named device-class memory. -/
structure ElemRes (α : Type) where
  res : Res α
  dev : Bool

def isDevice (s : State) (t : Xlat) (acc : Acc) (va : Nat) : Bool :=
  match translate s t acc va with
  | .done p => p.cls == .io
  | _ => false

/-- Read of element i at its address (R108), whose page was translated in u (R333). -/
def loadElem (u s : State) (m : MemShape) (va i : Nat) : ElemRes (Nat × State) :=
  let t := u.hart.dataXlat
  let c := s.cur.1
  let x := s.cur.2
  let dev := isDevice u t .load va
  if m.misaligned va then ⟨.trap { cause := 4, tval := va }, dev⟩
  else if m.nib && dev then ⟨.trap { cause := 5, tval := va }, true⟩
  else if m.nib then
    ⟨(loadFrom u s c x t va 1).bind (fun r => .done (r.1 / (1 <<< (4 * (i % 2))) % 16, r.2)), dev⟩
  else if m.sh.lf then
    ⟨(loadFrom u s c x t va 8).bind (fun r =>
      (loadWordsFrom u r.2 c x t (va + 8) (min (r.1 / (1 <<< 60) % 8) m.sh.k)).bind (fun q =>
        .done (r.1 + ofWords q.1 <<< 64, q.2))), dev⟩
  else ⟨loadFrom u s c x t va m.size, dev⟩

/-- The 64-bit words a long-float store writes: the head, with k no more than the window's, and its limbs (R108). -/
def lfWords (k v : Nat) : List Word :=
  let kh := min (v / (1 <<< 60) % 8) k
  let head := v / (1 <<< 63) % 2 * (1 <<< 63) + kh * (1 <<< 60) + v % (1 <<< 60)
  BitVec.ofNat 64 head :: toWords (v >>> 64) kh

/-- Write of element i at its address (R108), whose page was translated in u (R333). -/
def storeElem (u s : State) (m : MemShape) (va i v : Nat) : ElemRes State :=
  let t := u.hart.dataXlat
  let c := s.cur.1
  let x := s.cur.2
  let dev := isDevice u t .store va
  if m.misaligned va then ⟨.trap { cause := 6, tval := va }, dev⟩
  else if m.nib && dev then ⟨.trap { cause := 7, tval := va }, true⟩
  else if m.nib then
    ⟨(translate u t .store va).bind (fun p =>
      (loadAt (s.noted u t .store va) c x t va 1 p).bind (fun r => storeAt r.2 c x t va 1 (setBits r.1 (4 * (i % 2)) 4 v) p)), dev⟩
  else if m.sh.lf then ⟨storeWordsFrom u s c x t va (lfWords m.sh.k v), dev⟩
  else ⟨storeFrom u s c x t va m.size v, dev⟩

/-! ### Runs of elements -/

/-- Why a run stopped at an element. -/
inductive Stop where
  | fault (e : Exc) (dev : Bool)
  | unready
  deriving DecidableEq, Repr

/-- What a run of a load did: values by element, the state, where it stopped, and whether it touched device-class memory. -/
structure Run where
  vals : List (Nat × Nat) := []
  s : State
  stop : Option (Nat × Stop) := none
  touched : Bool := false

def loadRun (u : State) (m : MemShape) (addr : Nat → Nat) : List Nat → Run → Run
  | [], r => r
  | i :: rest, r =>
    let e := loadElem u r.s m (addr i) i
    match e.res with
    | .done v => loadRun u m addr rest { r with vals := (i, v.1) :: r.vals, s := v.2, touched := r.touched || e.dev }
    | .trap x => { r with stop := some (i, .fault x e.dev) }
    | .wait => { r with stop := some (i, .unready) }

def storeRun (u : State) (m : MemShape) (addr val : Nat → Nat) : List Nat → Run → Run
  | [], r => r
  | i :: rest, r =>
    let e := storeElem u r.s m (addr i) i (val i)
    match e.res with
    | .done s1 => storeRun u m addr val rest { r with s := s1, touched := r.touched || e.dev }
    | .trap x => { r with stop := some (i, .fault x e.dev) }
    | .wait => { r with stop := some (i, .unready) }

/-- After a store's fault, any subset of the elements above it that would not fault, in idempotent memory, may have been
performed (R109): each is a free choice (log 10). -/
def storeSubset (u : State) (m : MemShape) (addr val : Nat → Nat) : List Nat → State → State
  | [], s => s
  | i :: rest, s =>
    let ch := s.choose 2
    let e := storeElem u ch.2 m (addr i) i (val i)
    let s1 := match e.res with
      | .done s2 => if ch.1 = 1 ∧ !e.dev then s2 else ch.2
      | _ => ch.2
    storeSubset u m addr val rest s1

/-- The active elements below the grant and VLMAX at the width in force. -/
def activeElems (fr : Frame) (sh : Shape) : List Nat := (List.range (min fr.vgrant sh.n)).filter fr.on

def State.setVstart (s : State) (i : Nat) : State :=
  s.modHart (fun t => { t with dev := { t.dev with vstart := BitVec.ofNat 16 i } })

/-- An access that stops between its elements after one of device-class memory: no interrupt is taken until it ends (R112). -/
def State.between (s : State) : State := s.modHart (fun t => { t with midway := true })

def valAt (vals : List (Nat × Nat)) (i : Nat) : Nat := ((vals.find? (fun e => e.1 == i)).map (·.2)).getD 0

/-- The elements below i are complete, those at and above it untouched (R109). -/
def keepBelow (u s : State) (m : MemShape) (fr : Frame) (vd : Reg) (vals : List (Nat × Nat)) (i : Nat) : State :=
  let old := u.getGroup vd.toNat m.sh.g
  (s.setGroup vd.toNat m.sh.g (writeGroup m.sh false old (fun j =>
    if j < i then fr.pick j (m.sh.get old j) (valAt vals) m.sh.zero else m.sh.get old j))).setVstart i

/-- Truncate(i) (R110): the pointers fall back, the grant becomes i2. -/
def truncate (s : State) (i2 : Nat) : State :=
  let t := s.hart
  let pm := t.dev.ptrmap
  let vg := t.dev.vgrant.toNat
  let s1 := (List.range 4).foldl (fun u j =>
    if slotOn pm j then
      let r := slotReg pm j
      u.setX r (u.xr r - BitVec.ofNat 64 (advance (slotSize pm j) t.dev.k vg) + BitVec.ofNat 64 (advance (slotSize pm j) t.dev.k i2))
    else u) s
  s1.modHart (fun h => { h with dev := { h.dev with vgrant := BitVec.ofNat 16 i2 } })

/-- The effect of a load once it may run. -/
def loadBody (o : OpM) (mode : MemMode) (ff : Bool) (u : State) : Body :=
  let m := memShape u.hart o.width.toNat
  let fr := u.frame o.m
  let acts := activeElems fr m.sh
  let r := loadRun u m (memAddr u m mode o) acts { s := u }
  let vd := o.v.toNat
  let land := fun (s : State) (f : Frame) =>
    Body.next (s.fly vd m.sh.g (writeFrame m.sh f (u.getGroup vd m.sh.g) (valAt r.vals)))
  match r.stop with
  | none => land r.s fr
  | some (i, .unready) => if r.touched then .wait (keepBelow u r.s m fr o.v r.vals i).between else .wait u
  | some (i, .fault e dev) =>
    let p := acts.headD 0
    let i2 := if m.nib || nibbleSlot u.hart.dev.ptrmap then i - i % 2 else i
    if ff && decide (p < i) && !dev && decide (p < i2) then land (retireFor (truncate r.s i2) e) { fr with vgrant := i2 }
    else .trap e (keepBelow u r.s m fr o.v r.vals i)

/-- The information of a load or store. -/
def memInfo (s : State) (o : OpM) (mode : MemMode) (load : Bool) : VInfo :=
  let m := memShape s.hart o.width.toNat
  let fr := s.frame o.m
  let data := (o.v.toNat, m.sh.g)
  let ix := if mode = .indexed then [(o.idx.toNat, m.gi)] else []
  { ok := (mode == .unit || !m.nib) && (mode != .indexed || m.giOk) && ix.all (fun g => !grpMeet g data),
    masked := o.m, n := m.sh.n, srcs := if load then ix else data :: ix, dst := if load then [data] else [], load := load, overMask := true,
    charge := chargeFor fr.count m.sh.ew 2, active := fr.on }

def loadOp (o : OpM) (mode : MemMode) (ff : Bool) (s : State) : Outcome :=
  finish (vec s (memInfo s o mode true) (loadBody o mode ff))

/-- vld -/
def execVld (o : OpM) (s : State) : Outcome := loadOp o .unit false s
/-- vlds -/
def execVlds (o : OpM) (s : State) : Outcome := loadOp o .strided false s
/-- vldx -/
def execVldx (o : OpM) (s : State) : Outcome := loadOp o .indexed false s
/-- vldff -/
def execVldff (o : OpM) (s : State) : Outcome := loadOp o .unit true s
/-- vldxff -/
def execVldxff (o : OpM) (s : State) : Outcome := loadOp o .indexed true s

/-- The effect of a store once it may run: elements in increasing order (R111). -/
def storeBody (o : OpM) (mode : MemMode) (ordered : Bool) (u : State) : Body :=
  let m := memShape u.hart o.width.toNat
  let fr := u.frame o.m
  let acts := activeElems fr m.sh
  let a := u.getGroup o.v.toNat m.sh.g
  let addr := memAddr u m mode o
  let val := m.sh.get a
  let r := storeRun u m addr val acts { s := u }
  match r.stop with
  | none => .next r.s
  | some (i, .unready) => if r.touched then .wait (r.s.setVstart i).between else .wait u
  | some (i, .fault e _) =>
    let s1 := if ordered then r.s else storeSubset u m addr val (acts.filter (fun j => decide (i < j))) r.s
    .trap e (s1.setVstart i)

def storeOp (o : OpM) (mode : MemMode) (ordered : Bool) (s : State) : Outcome :=
  finish (vec s (memInfo s o mode false) (storeBody o mode ordered))

/-- vst -/
def execVst (o : OpM) (s : State) : Outcome := storeOp o .unit false s
/-- vsts -/
def execVsts (o : OpM) (s : State) : Outcome := storeOp o .strided false s
/-- vstx -/
def execVstx (o : OpM) (s : State) : Outcome := storeOp o .indexed false s
/-- vstxo -/
def execVstxo (o : OpM) (s : State) : Outcome := storeOp o .indexed true s

/-! ### vldr and vstr (R113) -/

/-- Words w to n − 1 read from a base, their pages translated in u: the words so far, the state, and where it stopped. -/
def readRun (u : State) (base : Nat) : List Nat → Run → Run
  | [], r => r
  | w :: rest, r =>
    let t := r.s.hart.dataXlat
    let va := wrapAddr (base + 8 * w)
    match loadFrom u r.s r.s.cur.1 r.s.cur.2 t va 8 with
    | .done v => readRun u base rest { r with vals := (w, v.1) :: r.vals, s := v.2, touched := r.touched || isDevice u t .load va }
    | .trap e => { r with stop := some (w, .fault e false) }
    | .wait => { r with stop := some (w, .unready) }

def writeRun (u : State) (base v : Nat) : List Nat → Run → Run
  | [], r => r
  | w :: rest, r =>
    let t := r.s.hart.dataXlat
    let va := wrapAddr (base + 8 * w)
    match storeFrom u r.s r.s.cur.1 r.s.cur.2 t va 8 (lowBits (v >>> (64 * w)) 64) with
    | .done s1 => writeRun u base v rest { r with s := s1, touched := r.touched || isDevice u t .store va }
    | .trap e => { r with stop := some (w, .fault e false) }
    | .wait => { r with stop := some (w, .unready) }

/-- The 64-bit words still to move. -/
def wordsFrom (s : State) : List Nat :=
  (List.range (s.hart.vlen / 64)).filter (fun w => decide (s.hart.dev.vstart.toNat ≤ w))

def vldrInfo (s : State) (o : OpDS) : VInfo :=
  { vill := true, dst := [(o.d.toNat, 1)], load := true, charge := chargeFor (s.hart.vlen / 64) 64 2 }
def vstrInfo (s : State) (o : OpDS) : VInfo :=
  { vill := true, srcs := [(o.d.toNat, 1)], plain := true, charge := chargeFor (s.hart.vlen / 64) 64 2 }

/-- vldr -/
def execVldr (o : OpDS) (s : State) : Outcome :=
  let base := (s.xr o.rs1).toNat
  finish (vec s (vldrInfo s o) (fun u =>
    if base % 64 ≠ 0 then .trap { cause := 4, tval := base } (u.setVstart 0)
    else
      let r := readRun u base (wordsFrom u) { s := u }
      let old := u.getV o.d.toNat
      let upto := fun k => assemble 64 (fun w =>
        if u.hart.dev.vstart.toNat ≤ w ∧ w < k then valAt r.vals w else old >>> (64 * w)) (u.hart.vlen / 64)
      match r.stop with
      | none => .next (r.s.fly o.d.toNat 1 (upto (u.hart.vlen / 64)))
      | some (w, .fault e _) => .trap e ((r.s.setV o.d.toNat (upto w)).setVstart w)
      | some (w, .unready) => if r.touched then .wait ((r.s.setV o.d.toNat (upto w)).setVstart w).between else .wait u))

/-- vstr -/
def execVstr (o : OpDS) (s : State) : Outcome :=
  let base := (s.xr o.rs1).toNat
  finish (vec s (vstrInfo s o) (fun u =>
    if base % 64 ≠ 0 then .trap { cause := 6, tval := base } (u.setVstart 0)
    else
      let r := writeRun u base (u.getV o.d.toNat) (wordsFrom u) { s := u }
      match r.stop with
      | none => .next r.s
      | some (w, .fault e _) => .trap e (r.s.setVstart w)
      | some (w, .unready) => if r.touched then .wait (r.s.setVstart w).between else .wait u))

/-- VECTOR_LOAD_COMPLETE: the last element of a load is written and its destination group becomes full (R37). -/
def execVectorLoadComplete (core ctx : Nat) (vd : Reg) (s : State) : Outcome := .next (landGroup s core ctx vd.toNat)
/-- BOUND_REFILL_LAND (R117) -/
def execBoundRefillLand (core ctx : Nat) (vd : Reg) (s : State) : Outcome := .next (landRefill s core ctx vd.toNat)
/-- CHANNEL_CHUNK_DEPOSIT (R119) -/
def execChannelChunkDeposit (core ctx : Nat) (vd : Reg) (s : State) : Outcome := .next (depositChunk s core ctx vd.toNat)

end Sys2Proof.Machine
end

