-- ==== Sys2Proof/Machine/VConfig.lean ====
section
/-! DEFINITION. Custom-1 configuration and context instructions: the strip grant (R34, R102), vcfg (R103), bindings (R114 to R121),
the loop buffer (R122, R123), saving and restoring the vector context (R124 to R126), and honouring a reclaim (R34, R243, R308). -/
namespace Sys2Proof.Machine

/-- The loop buffer is replaying. -/
def inBody (s : State) : Bool := s.hart.loop.active && !s.hart.loop.suspended

/-! ### Releasing clusters (R34, R243, R276, R308) -/

/-- The lowest n clusters of a set. -/
def lowestClusters (c : BitVec 4) (n : Nat) : BitVec 4 :=
  ((List.range 4).filter (fun i => c.getLsbD i)).take n |>.foldl (fun a i => a ||| (1#4 <<< i)) 0

/-- Every register of hart (c, x) at a length, before and after its slices move. -/
def regValues (s : State) (c x len : Nat) : List Nat := (List.range 32).map (fun r => lowBits (s.rawV c x r) len)

def putRegValues (s : State) (c x : Nat) (vals : List Nat) : State :=
  (List.zip (List.range 32) vals).foldl (fun u e => scatterV u x e.1 (u.thr c x).ownBits e.2 (u.slicesOf c x)) s

/-- A context's class and clusters after a reclaim to n clusters. -/
def Ctx.shrink (t : Ctx) (n : Nat) : Ctx :=
  if t.cls ≤ n then t else { t with cls := n, clusters := lowestClusters t.clusters n }

/-- The thread of hart (c, x) releases the clusters its pending reclaim asks for: its class falls, and interrupt 16 is withdrawn.
The freed clusters let each member core choose again. -/
def releaseReclaim (s : State) (c x : Nat) : State :=
  let n := reclClusters (s.thr c x).dev.reclClass
  let ms := s.slicesOf c x
  let vals := regValues s c x (s.thr c x).vlen
  let s1 := ms.foldl (fun u m => u.modThr m x (fun t => t.shrink n)) s
  let s2 := putRegValues s1 c x vals
  let s3 := s2.modThr c x (fun t =>
    { t with dev := { t.dev with reclPend := false }, std := { t.std with mip := putBit t.std.mip 16 false } })
  ms.foldl wakeCore s3

/-! ### vstrip (R34, R102) -/

/-- The pointer slots advance, in order and cumulatively. -/
def advancePointers (s : State) (g : Nat) : State :=
  let pm := s.hart.dev.ptrmap
  (List.range 4).foldl (fun u j =>
    if slotOn pm j then
      let r := slotReg pm j
      u.setX r (u.xr r + BitVec.ofNat 64 (advance (slotSize pm j) u.hart.dev.k g))
    else u) s

def State.setGrant (s : State) (g : Nat) : State :=
  s.modHart (fun t => { t with dev := { t.dev with vgrant := BitVec.ofNat 16 g } })

def State.setVlen (s : State) (l : Nat) : State := s.modHart (fun t => { t with vlen := l })

/-- vstrip and vstrip.k. DEDUCED (log 36): under vill the grant is 0, so no pointer moves (R33), and the rest of R34 stands. -/
def strip (o : OpDS) (keep : Bool) (s : State) : Body :=
  let t := s.hart
  let d := t.dev
  if inBody s || badSlot d.ptrmap then illegal s
  else
    let len := s.stripLen s.cur.1 s.cur.2 keep
    let g := if d.vill then 0 else grantFor (s.xr o.rs1).toNat (vlmaxAt len d.grp d.ew) (nibbleSlot d.ptrmap)
    let s1 := if len < t.vlen then zeroAbove s len else s
    let s2 := ((advancePointers (s1.setVlen len) g).setGrant g).setX o.d (BitVec.ofNat 64 g)
    .next (if !keep && d.reclPend then releaseReclaim s2 s2.cur.1 s2.cur.2 else s2)

/-- vstrip -/
def execVstrip (o : OpDS) (s : State) : Outcome := finish (strip o false s)
/-- vstrip.k -/
def execVstripK (o : OpDS) (s : State) : Outcome := finish (strip o true s)

/-! ### vcfg (R103) -/

def configure (rd : Reg) (v : Nat) (s : State) : Body :=
  if inBody s then illegal s
  else
    let s1 := s.modHart (fun t => t.writeVtype v)
    .next (s1.setX rd (s1.hart.dev.vgrant.zeroExtend 64))

/-- vcfg -/
def execVcfg (o : OpDS) (s : State) : Outcome := finish (configure o.d (s.xr o.rs1).toNat s)
/-- vcfgi -/
def execVcfgi (rd : Reg) (vt : BitVec 14) (s : State) : Outcome := finish (configure rd vt.toNat s)

/-! ### Bindings (R114, R115, R120) -/

/-- Removes the binding of a register: it keeps its contents as an ordinary full register. -/
def unbind (s : State) (reg : Nat) : State :=
  match s.hart.binding reg with
  | some _ => s.modHart (fun t => (t.dropBinding reg).setFull reg true)
  | none => s

/-- A descriptor with a reserved bit set, a misaligned base or an illegal width (R114, R115). -/
def descBad (w0 w1 w2 w3 : Word) : Bool :=
  let kind := w1.toNat % 4
  let wc := w1.toNat / 4 % 8
  decide (w0.toNat / (1 <<< 48) ≠ 0) || decide (w1.toNat / (1 <<< 15) ≠ 0) || w2 != 0 || w3 != 0 || decide (3 < wc) ||
    (decide (kind < 2) && decide (w0.toNat % (1 <<< wc) ≠ 0))

/-- The channel's peer is absent, or another context of the core holds the channel (R115). -/
def channelBad (s : State) (c x : Nat) (b : Binding) : Bool :=
  b.isChannel &&
  ((match neighbour c b.dir with | some p => !s.coreLive p | none => true) ||
   (List.range 8).any (fun y => decide (y ≠ x) &&
     (s.thr c y).binds.any (fun q => q.kind == b.kind && q.dir == b.dir && q.chan == b.chan)))

/-- A new binding takes effect (R115). -/
def bindNew (s : State) (b : Binding) : State :=
  let c := s.cur.1
  let x := s.cur.2
  let s1 := s.modHart (fun t => { t with binds := t.binds ++ [{ b with since := s.past.length }] }.setFull b.reg (!b.isInput))
  if b.kind = 0 then startRefill s1 c x b.reg (s1.hart.chunkLen b) else s1

/-- vbind; the descriptor is read past the stash (R327). DESIGN CHOICE (log 36): of the reasons of cause 30, 3 comes before 4 and 4
before 2. -/
def execVbind (o : OpDS) (s : State) : Outcome :=
  let reg := o.d.toNat
  let at' := (s.xr o.rs1).toNat
  finish (if inBody s || reg == 0 then illegal s
    else if s.hart.landing.any (fun l => decide (l.vd ≤ reg) && decide (reg < l.vd + l.count)) then .wait s
    else if at' % 8 ≠ 0 then .trap (boundFault reg 3) s
    else (loadWords s s.cur.1 s.cur.2 { s.hart.dataXlat with stash := false } at' 4).body s (fun r =>
      let w := wordAt r.1
      let b : Binding := { reg := reg, word0 := w 0, word1 := w 1,
                           nest := SMap.get {} r.2.myCore.nests ((w 1).toNat / 32 % 32) }
      if descBad (w 0) (w 1) (w 2) (w 3) then .trap (boundFault reg 3) s
      else if channelBad r.2 r.2.cur.1 r.2.cur.2 b then .trap (boundFault reg 4) s
      else
        let s1 := unbind r.2 reg
        if 8 ≤ s1.hart.binds.length then .trap (boundFault reg 2) s
        else .next (bindNew s1 b)))

/-- vunbind -/
def execVunbind (vd : Reg) (s : State) : Outcome :=
  finish (if inBody s then illegal s
    else if vd = 0 then .next ((s.hart.binds.map (fun b => b.reg)).foldl unbind s)
    else .next (unbind s vd.toNat))

/-- vbend -/
def execVbend (rd vd : Reg) (s : State) : Outcome :=
  finish (if inBody s then illegal s
    else .next (s.setX rd (match s.hart.binding vd.toNat with
      | some b => BitVec.ofNat 64 b.ended.toNat
      | none => 0)))

/-! ### The loop buffer (R122) -/

/-- The words of a body at a pc, as the fetch reads them. -/
def captureBody (s : State) (pc : Word) : Nat → Res (List (BitVec 32) × State)
  | 0 => .done ([], s)
  | n + 1 => (fetchFrom s pc).bind (fun w => (captureBody w.2 (pc + 4) n).bind (fun l => .done (w.1 :: l.1, l.2)))

/-- vnest -/
def execVnest (rs1 : Reg) (len1 : BitVec 4) (s : State) : Outcome :=
  let t := s.hart
  let r := (s.xr rs1).toNat
  let len := len1.toNat + 1
  finish (if inBody s || t.dev.vill || decide (31 < r) then illegal s
    else (captureBody s (t.pc + 4) len).body s (fun ws =>
      if !ws.1.all bodyOk then illegal s
      else if t.dev.vgrant = 0 then .jump ws.2 (t.pc + 4 + BitVec.ofNat 64 (4 * len))
      else
        let l : Loop := { active := true, base := t.pc, len := len, nestReg := r,
                          counts := (SMap.get {} s.myCore.nests r : Nest).counts, words := ws.1 }
        .jump (ws.2.modHart (fun h => { h with loop := l })) (t.pc + 4)))

/-! ### Saving and restoring the context (R124 to R126) -/

/-- After a fault of vctxs any part of the block may have been written (R125): word i is stored where bit i of m is set and its store
does not fault. -/
def storePart (u s : State) (c x : Nat) (t : Xlat) (m : Nat) : Nat → List Word → State
  | _, [] => s
  | va, w :: ws =>
    let s1 := if bitOf m 0 then (match storeFrom u s c x t (wrapAddr va) 8 w.toNat with | .done q => q | _ => s) else s
    storePart u s1 c x t (m / 2) (va + 8) ws

/-- vctxs; the part written before a fault is a free choice. -/
def execVctxs (rs1 : Reg) (s : State) : Outcome :=
  let at' := (s.xr rs1).toNat
  finish (if inBody s || s.hart.priv == .U then illegal s
    else if s.hart.busyVector then .wait s
    else if at' % 64 ≠ 0 then .trap { cause := 6, tval := at' } s
    else
      let c := s.cur.1
      let x := s.cur.2
      let t := s.hart.dataXlat
      match storeBlock s c x t at' with
      | .trap e =>
        let ch := s.choose (1 <<< (blockWords s c x).length)
        .trap e (storePart s ch.2 c x t ch.1 at' (blockWords s c x))
      | .done s1 => .next s1
      | .wait => .wait s)

/-- A binding record as read: its eight words, its staged chunks, and what the layout has no place for. -/
structure BindRec where
  words : List Word
  chunks : List Nat
  save : BindSave

/-- What is remembered for a record's place while its words still match, else what the device unpacks (log 16). -/
def recSave (s : State) (t : Xlat) (va : Nat) (ws : List Word) : BindSave :=
  let packed := wordAt ws 2 |>.toNat
  let hi := (wordAt ws 3).toNat
  let v := packed + hi * (1 <<< 64)
  let found : Option (Nat × BindSave) := match translate s t .load va with
    | .done p => s.nestSaves.find? (fun e => e.1 == p.pa && (Config.packNest e.2.nest.bits).toNat == v)
    | _ => none
  match found with
  | some e => e.2
  | none => ⟨Nest.ofBits (Config.unpackNest (BitVec.ofNat 128 v)), false⟩

/-- Reads nb binding records of a block whose registers have B bytes. -/
def readRecords (s : State) (c x : Nat) (t : Xlat) (va b : Nat) : Nat → Res (List BindRec × State)
  | 0 => .done ([], s)
  | n + 1 =>
    (loadWords s c x t va 8).bind (fun r =>
      let cnt := min 4 ((wordAt r.1 6).toNat % 8)
      (loadWords r.2 c x t (va + 64) (cnt * b / 8)).bind (fun q =>
        let chunks := (List.range cnt).map (fun i => ofWords ((q.1.drop (i * (b / 8))).take (b / 8)))
        (readRecords q.2 c x t (va + 64 + cnt * b) b n).bind (fun rest =>
          .done (⟨r.1, chunks, recSave s t va r.1⟩ :: rest.1, rest.2))))

/-- A block as read. -/
structure BlockData where
  head : List Word
  len : Nat
  regs : List Word
  recs : List BindRec

def blockLen (w0 : Word) : Nat := 512 <<< (w0.toNat / (1 <<< 32) % 16)
def blockVersion (w0 : Word) : Nat := w0.toNat / (1 <<< 40) % 256

/-- Reads the whole block at va: none where its version or its length is refused. -/
def readBlock (s : State) (c x : Nat) (t : Xlat) (va : Nat) : Res (Option BlockData × State) :=
  (loadWords s c x t va 16).bind (fun h =>
    let w0 := wordAt h.1 0
    let len := blockLen w0
    if blockVersion w0 ≠ 1 ∨ s.hwLen c x < len then .done (none, s)
    else (loadWords h.2 c x t (va + 128) (32 * (len / 64))).bind (fun r =>
      (readRecords r.2 c x t (va + 128 + 4 * len) (len / 8) (w0.toNat / (1 <<< 48) % 256)).bind (fun q =>
        .done (some ⟨h.1, len, r.1, q.1⟩, q.2))))

/-- A binding of a record (R126), with the completed iterations of the loop buffer and the writes performed so far: memory-in bindings
have no chunk yet; staged chunks come back. -/
def BindRec.binding (b : BindRec) (full : BitVec 32) (iter writes : Nat) : Binding :=
  let w := wordAt b.words
  let reg := (w 4).toNat % 32
  let kind := (w 1).toNat % 4
  let lens := (w 7).toNat
  let saved := (w 4).toNat / 65536 % 65536
  { reg := reg, word0 := w 0, word1 := w 1, nest := b.save.nest, iterPos := if b.save.touched then some iter else none, since := writes,
    savedOn := if 2 ≤ kind then some saved else none,
    pos := (w 5).toNat, ended := bitOf (w 4).toNat 8,
    resident := if kind = 2 ∧ full.getLsbD reg then some 0 else none,
    staged := (List.zip (List.range b.chunks.length) b.chunks).map (fun e =>
      ⟨lens / (1 <<< (16 * e.1)) % 65536, e.2⟩) }

/-- The loop buffer of a header: suspended until a return names a place in its body; its words are fetched again. -/
def restoredLoop (s : State) (c : Nat) (w10 w11 : Word) (vgrant : Nat) : Loop :=
  if !w10.getLsbD 63 then {}
  else
    let body := BitVec.signExtend 64 (BitVec.ofNat 48 w10.toNat)
    let r := w10.toNat / (1 <<< 52) % 32
    let counts := (SMap.get {} (s.core c).nests r : Nest).counts
    let len := w10.toNat / (1 <<< 48) % 16 + 1
    let per := max 1 ((counts.getD 0 1 + max 1 vgrant - 1) / max 1 vgrant)
    { active := true, suspended := true, base := body - 4, len := len, nestReg := r, counts := counts, words := [],
      j0 := w11.toNat % per * vgrant, row := w11.toNat / per, iter := w11.toNat, pos := len }

/-- The device CSRs a block restores. An illegal vtype becomes vill, as a write of it would. -/
def DevCsr.restore (d : DevCsr) (h : List Word) : DevCsr :=
  let w := wordAt h
  let vt := if (w 1).getLsbD 63 || !vtypeLegal ((w 1).toNat % 16384) then villValue else BitVec.ofNat 64 ((w 1).toNat % 16384)
  ({ d with vtype := vt, vgrant := BitVec.ofNat 16 (w 2).toNat, vstart := BitVec.ofNat 16 ((w 2).toNat / 65536),
            vfcsr := BitVec.ofNat 10 (w 4).toNat, vfill := w 5, ptrmap := BitVec.ofNat 32 (w 6).toNat,
            vetrap := BitVec.ofNat 32 (w 7).toNat, vdsl := BitVec.ofNat 16 (w 8).toNat,
            rsvcap := rsvcapOf ((w 8).toNat / 65536) }).writeVprec (w 3).toNat

/-- The registers of the block, with zeros above its length. -/
def putBlockRegs (s : State) (c x : Nat) (b : BlockData) : State :=
  putRegValues s c x ((List.range 32).map (fun r => ofWords ((b.regs.drop (r * (b.len / 64))).take (b.len / 64))))

/-- Restores hart (c, x) from a block (R126). -/
def applyBlock (s : State) (c x : Nat) (b : BlockData) : State :=
  let full := BitVec.ofNat 32 (wordAt b.head 9).toNat
  let binds := b.recs.map (fun r => r.binding full (wordAt b.head 11).toNat s.past.length)
  let s1 := s.modThr c x (fun t =>
    let t1 := { t with vlen := b.len, dev := t.dev.restore b.head, full := full, binds := binds, landing := [] }
    let vg := if t1.dev.vill then t1.dev.vgrant else BitVec.ofNat 16 (min t1.dev.vgrant.toNat t1.vlmax)
    { t1 with dev := { t1.dev with vgrant := vg },
              loop := restoredLoop s c (wordAt b.head 10) (wordAt b.head 11) vg.toNat })
  let s2 := putBlockRegs s1 c x b
  binds.foldl (fun u q =>
    if q.kind = 0 ∧ !q.ended then startRefill u c x q.reg ((u.thr c x).chunkLen q)
    else if q.kind = 2 ∧ !q.staged.isEmpty then u.later (.channelChunkDeposit c x (BitVec.ofNat 5 q.reg))
    else u) s2

/-- Uncorrectable data during the restore (R126): vtype is vill, the bindings and the loop buffer are dropped. -/
def spoilContext (s : State) (c x : Nat) : State :=
  s.modThr c x (fun t =>
    { t with dev := { t.dev with vtype := villValue }, binds := [], loop := {}, full := 0xFFFFFFFF })

/-- vctxl -/
def execVctxl (rs1 : Reg) (s : State) : Outcome :=
  let c := s.cur.1
  let x := s.cur.2
  finish (if inBody s || s.hart.priv == .U then illegal s
    else if !s.hart.landing.isEmpty then .wait s
    else match readBlock s c x s.hart.dataXlat (s.xr rs1).toNat with
    | .wait => .wait s
    | .trap e => if e.cause = 46 then .trap e (spoilContext s c x) else .trap e s
    | .done (none, _) => illegal s
    | .done (some b, s1) => .next (applyBlock s1 c x b))

end Sys2Proof.Machine
end

