-- ==== Sys2Proof/Machine/Csr.lean ====
section
/-! DEFINITION. CSRs: the standard ones (R73, log 15), the device's (R42, Tables 01-5 to 01-26), what a read gives and what a write
does, and the CSR instructions. -/
namespace Sys2Proof.Machine

/-! ### The supply (R439, R440) -/

/-- A context of the core waits in mgnsafe. -/
def Core.marginAsked (k : Core) : Bool := (List.range 8).any (fun x => (k.ctx x).mgnWait)

/-- The trim step the supply moves toward: guaranteed margin in a hold, an mgnsafe window or for a waiting mgnsafe, else the
trim. -/
def Core.marginTarget (k : Core) : Nat :=
  if k.margin.hold || k.margin.safe != 0 || k.marginAsked then 0 else k.margin.trim.toNat

/-- The regulator starts a step where the supply does not stand at its target (R440). -/
def armRegulator (s : State) (c : Nat) : State :=
  let m := (s.core c).margin
  if m.regPend || m.supply = (s.core c).marginTarget then s
  else (s.modCore c (fun k => { k with margin := { k.margin with regPend := true } })).after
    (sliceTicks Config.regulatorPeriod) (.regulatorStep c)

/-- A write of mgnctl (Table 01-26, R439): it ends a hold. -/
def writeMgnctl (s : State) (c : Nat) (v : Nat) : State :=
  armRegulator (s.modCore c (fun k => { k with margin := { k.margin with
    auto := bitOf v 20, limit := BitVec.ofNat 3 (v / 65536), floor := BitVec.ofNat 5 (v / 256), trim := BitVec.ofNat 5 v,
    hold := false } })) c

def writeMgnwin (s : State) (c : Nat) (v : Nat) : State :=
  s.modCore c (fun k =>
    let n := BitVec.ofNat 6 v
    { k with margin := { k.margin with quarth := BitVec.ofNat 16 (v / (1 <<< 32)), raiseth := BitVec.ofNat 16 (v / 65536), n := n,
                                       win := (k.cycle - 1) / (1 <<< n.toNat) } })

/-! ### Reclaim (R36) -/

/-- A write of vreclaim of hart (c, x) with a class. DEDUCED (log 36): a withdrawing write stores its class, and a release leaves the
class. -/
def writeReclaim (s : State) (c x cls : Nat) : State :=
  let t := s.thr c x
  if cls = 1 ∨ cls = 2 then
    let already := t.std.mip.getLsbD 16
    let s1 := s.modThr c x (fun h =>
      { h with dev := { h.dev with reclPend := true, reclClass := BitVec.ofNat 2 cls },
               reclSince := if already then h.reclSince else s.coreCycle c })
    if already then s1
    else s1.after (t.dev.vrclwait.toNat * Config.corePeriod (classOf c)) (.reclaimTimeout c x)
  else if t.dev.reclPend then
    wakeCore (s.modThr c x (fun h =>
      { h with dev := { h.dev with reclPend := false, reclClass := BitVec.ofNat 2 cls },
               std := { h.std with mip := putBit h.std.mip 16 false } })) c
  else s

/-- A write of vrclwait: the count of a pending reclaim, which runs from the latest vreclaim write, is tested against the new value. -/
def writeRclwait (s : State) (v : Nat) : State :=
  let s1 := s.modHart (fun t => { t with dev := { t.dev with vrclwait := BitVec.ofNat 24 v } })
  if s.hart.dev.reclPend ∧ !s.hart.std.mip.getLsbD 16 then
    s1.after ((s.hart.reclSince + v % (1 <<< 24)) * Config.corePeriod (classOf s.cur.1) - s.now) (.reclaimTimeout s.cur.1 s.cur.2)
  else s1

/-! ### Standard CSRs -/

def misaValue : Word := 0x8000000000141101
/-- The read-only length fields of mstatus: SXL = UXL = 64 bits. -/
def statusLens : Word := 0xA00000000
def mstatusMask : Word := 0x7E19AA
def sstatusMask : Word := 0xC0122
def medelegMask : Word := 0x640007F00B3FF
def midelegMask : Word := 0x10222
def mieMask : Word := 0x10AAA
def mipMask : Word := 0x222

/-- v in the mask's bits, old elsewhere. -/
def merge (mask old v : Word) : Word := (old &&& ~~~mask) ||| (v &&& mask)

/-- A write of mstatus through a mask: an MPP of 2 is not kept. -/
def writeStatus (mask old v : Word) : Word :=
  let w := merge mask old v
  if w.toNat / 2048 % 4 = 2 then BitVec.ofNat 64 (w.toNat / 8192 * 8192 + old.toNat / 2048 % 4 * 2048 + w.toNat % 2048) else w

/-- A trap vector keeps the modes direct and vectored. -/
def writeTvec (v : Word) : Word := v &&& ~~~2#64
def writeEpc (v : Word) : Word := v &&& ~~~3#64

/-- mcycle as the hart reads it. -/
def State.cycleCsr (s : State) : Word := BitVec.ofNat 64 (s.myCore.cycle - 1) + s.hart.std.cycleOff
def State.timeCsr (s : State) : Word := BitVec.ofNat 64 s.refCycle

/-- A counter is readable at the hart's privilege (Table 03-1). -/
def counterOpen (t : Ctx) (i : Nat) : Bool :=
  match t.priv with
  | .M => true
  | .S => t.std.mcounteren.getLsbD i
  | .U => t.std.mcounteren.getLsbD i && t.std.scounteren.getLsbD i

/-- The value of a standard CSR; none where there is none. -/
def stdCsr (s : State) (n : Nat) : Option Word :=
  let t := s.hart
  let d := t.std
  let mip := s.mipOf s.cur.1 s.cur.2
  match n with
  | 0x100 => some ((d.mstatus &&& sstatusMask) ||| 0x200000000)
  | 0x104 => some (d.mie &&& d.mideleg)
  | 0x105 => some d.stvec
  | 0x106 => some d.scounteren
  | 0x10A => some d.senvcfg
  | 0x140 => some d.sscratch
  | 0x141 => some d.sepc
  | 0x142 => some d.scause
  | 0x143 => some d.stval
  | 0x144 => some (mip &&& d.mideleg)
  | 0x180 => if t.priv == .S && d.mstatus.getLsbD 20 then none else some d.satp
  | 0x300 => some (d.mstatus ||| statusLens)
  | 0x301 => some misaValue
  | 0x302 => some d.medeleg
  | 0x303 => some d.mideleg
  | 0x304 => some d.mie
  | 0x305 => some d.mtvec
  | 0x306 => some d.mcounteren
  | 0x30A => some (d.menvcfg ||| 0x4000000000000000)
  | 0x320 => some d.mcountinhibit
  | 0x340 => some d.mscratch
  | 0x341 => some d.mepc
  | 0x342 => some d.mcause
  | 0x343 => some d.mtval
  | 0x344 => some mip
  | 0xB00 => some s.cycleCsr
  | 0xB02 => some d.instret
  | 0xC00 => if counterOpen t 0 then some s.cycleCsr else none
  | 0xC01 => if counterOpen t 1 then some s.timeCsr else none
  | 0xC02 => if counterOpen t 2 then some d.instret else none
  | 0xF11 => some 0
  | 0xF12 => some 0
  | 0xF13 => some 0
  | 0xF14 => some (BitVec.ofNat 64 (s.cur.1 * 8 + s.cur.2))
  | 0xF15 => some 0
  | _ =>
    -- event selectors, hardware counters and physical memory protection read zero (log 15)
    if 0x323 ≤ n ∧ n ≤ 0x33F then some 0
    else if 0xB03 ≤ n ∧ n ≤ 0xB1F then some 0
    else if 0x3A0 ≤ n ∧ n ≤ 0x3AF ∧ n % 2 = 0 then some 0
    else if 0x3B0 ≤ n ∧ n ≤ 0x3EF then some 0
    else none

/-- A write of satp (Table 03-1, R313): modes 0 and 9 only. -/
def writeSatp (d : StdCsr) (v : Word) : StdCsr :=
  let mode := v.toNat / (1 <<< 60)
  if mode = 0 ∨ mode = 9 then { d with satp := v } else d

/-- A write of a standard CSR. -/
def writeStd (s : State) (n : Nat) (v : Word) : State :=
  s.modHart (fun t =>
    let d := t.std
    { t with std := match n with
      | 0x100 => { d with mstatus := writeStatus sstatusMask d.mstatus v }
      | 0x104 => { d with mie := merge (d.mideleg &&& mieMask) d.mie v }
      | 0x105 => { d with stvec := writeTvec v }
      | 0x106 => { d with scounteren := v &&& 7 }
      | 0x10A => { d with senvcfg := v &&& 1 }
      | 0x140 => { d with sscratch := v }
      | 0x141 => { d with sepc := writeEpc v }
      | 0x142 => { d with scause := v }
      | 0x143 => { d with stval := v }
      | 0x144 => { d with mip := merge (d.mideleg &&& 2) d.mip v }
      | 0x180 => writeSatp d v
      | 0x300 => { d with mstatus := writeStatus mstatusMask d.mstatus v }
      | 0x302 => { d with medeleg := v &&& medelegMask }
      | 0x303 => { d with mideleg := v &&& midelegMask }
      | 0x304 => { d with mie := v &&& mieMask }
      | 0x305 => { d with mtvec := writeTvec v }
      | 0x306 => { d with mcounteren := v &&& 7 }
      | 0x30A => { d with menvcfg := v &&& 1 }
      | 0x320 => { d with mcountinhibit := v &&& 4 }
      | 0x340 => { d with mscratch := v }
      | 0x341 => { d with mepc := writeEpc v }
      | 0x342 => { d with mcause := v }
      | 0x343 => { d with mtval := v }
      | 0x344 => { d with mip := merge mipMask d.mip v }
      | 0xB00 => { d with cycleOff := v - BitVec.ofNat 64 (s.myCore.cycle - 1) }
      | 0xB02 => { d with instret := if d.mcountinhibit.getLsbD 2 then v else v - 1 }  -- the write takes the place of its own count
      | _ => d })

/-! ### Device CSRs (R42) -/

def vfeWord (t : Ctx) : Word := t.full.zeroExtend 64
def vbstatWord (t : Ctx) : Word := BitVec.ofNat 64 (boundMask t * (1 <<< 32) + endMask t)

/-- vmaxg: nmax for the current vtype and inputs, keep = 0 (Table 01-14). -/
def vmaxgWord (s : State) : Word :=
  let d := s.hart.dev
  if d.vill then 0 else BitVec.ofNat 64 (vlmaxAt (s.stripLen s.cur.1 s.cur.2 false) d.grp d.ew)

def mgnctlWord (m : Margin) : Word :=
  BitVec.ofNat 64 (m.auto.toNat * (1 <<< 20) + m.limit.toNat * 65536 + m.floor.toNat * 256 + m.trim.toNat)
def mgnstatWord (m : Margin) : Word :=
  BitVec.ofNat 64 (m.statQuar.toNat * (1 <<< 63) + m.hold.toNat * (1 <<< 62) + m.raises.toNat * (1 <<< 32) + m.events.toNat)
def mgnwinWord (m : Margin) : Word :=
  BitVec.ofNat 64 (m.quarth.toNat * (1 <<< 32) + m.raiseth.toNat * 65536 + m.n.toNat)
def pwrbktWord (g : Gate) : Word :=
  BitVec.ofNat 64 (g.cap.toNat * (1 <<< 48) + g.drain.toNat * (1 <<< 32) + g.level % (1 <<< 32))

/-- The value of a device CSR; none at the addresses R42 lists as unlisted. -/
def devCsr (s : State) (n : Nat) : Option Word :=
  let t := s.hart
  let d := t.dev
  let k := s.myCore
  match n with
  | 0x801 => some d.vtype
  | 0x802 => some (d.vstart.zeroExtend 64)
  | 0x803 => some d.vfill
  | 0x804 => some (vprecWord d)
  | 0x805 => some (d.vfcsr.zeroExtend 64)
  | 0x806 => some (d.vetrap.zeroExtend 64)
  | 0x807 => some (d.ptrmap.zeroExtend 64)
  | 0x808 => some (d.vdsl.zeroExtend 64)
  | 0x809 => some (d.rsvcap.zeroExtend 64)
  | 0xCC0 => some (d.vgrant.zeroExtend 64)
  | 0xCC1 => some (vmaxgWord s)
  | 0xCC2 => some (vfeWord t)
  | 0xCC3 => some (vbstatWord t)
  | 0xCC4 => some (d.fmta.zeroExtend 64)
  | 0xCC5 => some (d.fmtb.zeroExtend 64)
  | 0xCC6 => some (d.fmtc.zeroExtend 64)
  | 0xCC7 => some d.sclpa
  | 0xCC8 => some d.sclpb
  | 0xCC9 => some d.wid
  | 0xCCA => some (d.wfld.zeroExtend 64)
  | 0xCCB => some (d.mrowp.zeroExtend 64)
  | 0xCCC => some k.margin.tevcnt
  | 0x5C0 => some (d.vcap.zeroExtend 64)
  | 0x5C1 => some d.hvtype
  | 0x5C2 => some d.hvgrant
  | 0x5C3 => some d.hvstart
  | 0x5C4 => some (BitVec.ofNat 64 (d.hvValid.toNat * 2 + d.hvLost.toNat))
  | 0x5C5 => some d.actbase
  | 0x5C6 => some (BitVec.ofNat 64 (d.reclPend.toNat * 256 + d.reclClass.toNat))
  | 0x5C7 => some (d.vrclwait.zeroExtend 64)
  | 0x7C0 => some (mgnctlWord k.margin)
  | 0x7C1 => some (mgnstatWord k.margin)
  | 0x7C2 => some (mgnwinWord k.margin)
  | 0x7C3 => some (pwrbktWord k.gate)
  | 0x7C4 => some (BitVec.ofNat 64 (colclsOf s.cur.1))
  | 0x7C5 => some (quarst k.quar)
  | _ => none

/-- A field of the thread's device CSRs written plainly. -/
def writeDevField (d : DevCsr) (n : Nat) (v : Word) : DevCsr :=
  match n with
  | 0x802 => { d with vstart := BitVec.ofNat 16 v.toNat }
  | 0x803 => { d with vfill := v }
  | 0x804 => d.writeVprec v.toNat
  | 0x805 => { d with vfcsr := BitVec.ofNat 10 v.toNat }
  | 0x806 => { d with vetrap := BitVec.ofNat 32 v.toNat }
  | 0x807 => { d with ptrmap := BitVec.ofNat 32 v.toNat }
  | 0x808 => { d with vdsl := BitVec.ofNat 16 v.toNat }
  | 0x809 => { d with rsvcap := rsvcapOf v.toNat }
  | 0x5C0 => { d with vcap := BitVec.ofNat 4 v.toNat }
  | 0x5C1 => { d with hvtype := v }
  | 0x5C2 => { d with hvgrant := v }
  | 0x5C3 => { d with hvstart := v }
  | 0x5C4 => { d with hvValid := v.getLsbD 1, hvLost := d.hvLost && !v.getLsbD 0 }
  | 0x5C5 => { d with actbase := v &&& ~~~0xFFF#64 }
  | _ => d

/-- A write of a device CSR. -/
def writeDev (s : State) (n : Nat) (v : Word) : State :=
  let c := s.cur.1
  match n with
  | 0x801 => s.modHart (fun t => t.writeVtype v.toNat)
  | 0x5C6 => writeReclaim s c s.cur.2 (v.toNat % 4)
  | 0x5C7 => writeRclwait s v.toNat
  | 0x7C0 => writeMgnctl s c v.toNat
  | 0x7C1 => s.modCore c (fun k => { k with margin := { k.margin with statQuar := k.margin.statQuar && !v.getLsbD 63 } })
  | 0x7C2 => writeMgnwin s c v.toNat
  | 0x7C3 => s.modCore c (fun k => { k with gate := { k.gate with
      cap := BitVec.ofNat 16 (v.toNat / (1 <<< 48)), drain := BitVec.ofNat 16 (v.toNat / (1 <<< 32)) } })
  | 0x7C5 => s.modCore c (fun k => { k with quar := k.quar.write v })
  | _ => s.modHart (fun t => { t with dev := writeDevField t.dev n v })

/-! ### CSR instructions (Zicsr) -/

/-- The CSR's level is at most the hart's privilege. -/
def csrPrivOk (p : Priv) (n : Nat) : Bool := decide (n / 256 % 4 ≤ privCode p)

/-- Addresses of the device's CSRs. -/
def isDevCsr (n : Nat) : Bool :=
  (0x800 ≤ n && n ≤ 0x8FF) || (0xCC0 ≤ n && n ≤ 0xCFF) || (0x5C0 ≤ n && n ≤ 0x5FF) || (0x7C0 ≤ n && n ≤ 0x7FF)

/-- What a CSR instruction reads; none where it raises illegal instruction. -/
def csrValue (s : State) (n : Nat) : Option Word :=
  if csrPrivOk s.hart.priv n then (if isDevCsr n then devCsr s n else stdCsr s n) else none

def csrWrite (s : State) (n : Nat) (v : Word) : State := if isDevCsr n then writeDev s n v else writeStd s n v

/-- The operand of a CSR instruction. -/
def csrOperand (s : State) (o : OpCsr) : Word := if o.imm then o.src.zeroExtend 64 else s.xr o.src

def csrCombine (f : CsrFn) (old v : Word) : Word :=
  match f with
  | .rw => v
  | .rs => old ||| v
  | .rc => old &&& ~~~v

/-- A CSR instruction that writes: read, write, then rd. -/
def csrOp (o : OpCsr) (s : State) : Body :=
  let n := o.csr.toNat
  match csrValue s n with
  | none => illegal s
  | some old =>
    if 0xC00 ≤ n then illegal s
    else .next ((csrWrite s n (csrCombine o.fn old (csrOperand s o))).setX o.rd old)

/-- A CSR instruction that only reads. -/
def csrReadOp (csr : BitVec 12) (rd : Reg) (s : State) : Body :=
  match csrValue s csr.toNat with
  | none => illegal s
  | some old => .next (s.setX rd old)

end Sys2Proof.Machine
end

