-- ==== Sys2Proof/Machine/Base.lean ====
section
/-! DEFINITION. The standard base (R73, R74, Table 03-1; the semantics of RV64IMA and of the privileged architecture are log 15):
integer instructions, scalar accesses, LR, SC and AMOs, fences, and the system instructions. -/
namespace Sys2Proof.Machine

/-! ### Integer operations -/

/-- A number's low n bits as a two's-complement 64-bit word. -/
def signWord (n v : Nat) : Word := BitVec.ofInt 64 (toInt n v)

def imm12 (i : BitVec 12) : Word := i.signExtend 64

/-- Signed division as RV64M defines it, at a width. -/
def divS (n a b : Nat) : Int :=
  if toInt n b = 0 then -1 else (toInt n a).tdiv (toInt n b)
def remS (n a b : Nat) : Int :=
  if toInt n b = 0 then toInt n a else (toInt n a).tmod (toInt n b)
def divU (n a b : Nat) : Nat := if lowBits b n = 0 then (1 <<< n) - 1 else lowBits a n / lowBits b n
def remU (n a b : Nat) : Nat := if lowBits b n = 0 then lowBits a n else lowBits a n % lowBits b n

def regOp (op : RegOp) (a b : Word) : Word :=
  match op with
  | .add => a + b
  | .sub => a - b
  | .sll => a <<< (b.toNat % 64)
  | .slt => if a.slt b then 1 else 0
  | .sltu => if a.ult b then 1 else 0
  | .xor => a ^^^ b
  | .srl => a >>> (b.toNat % 64)
  | .sra => a.sshiftRight (b.toNat % 64)
  | .or => a ||| b
  | .and => a &&& b
  | .mul => a * b
  | .mulh => BitVec.ofInt 64 (a.toInt * b.toInt / 18446744073709551616)
  | .mulhsu => BitVec.ofInt 64 (a.toInt * b.toNat / 18446744073709551616)
  | .mulhu => BitVec.ofNat 64 (a.toNat * b.toNat / 18446744073709551616)
  | .div => BitVec.ofInt 64 (divS 64 a.toNat b.toNat)
  | .divu => BitVec.ofNat 64 (divU 64 a.toNat b.toNat)
  | .rem => BitVec.ofInt 64 (remS 64 a.toNat b.toNat)
  | .remu => BitVec.ofNat 64 (remU 64 a.toNat b.toNat)

def regOpW (op : RegOpW) (a b : Word) : Word :=
  let x := a.toNat
  let y := b.toNat
  match op with
  | .addw => signWord 32 (x + y)
  | .subw => signWord 32 (a - b).toNat
  | .sllw => signWord 32 (x <<< (y % 32))
  | .srlw => signWord 32 (lowBits x 32 >>> (y % 32))
  | .sraw => BitVec.ofInt 64 (toInt 32 x >>> (y % 32))
  | .mulw => signWord 32 (x * y)
  | .divw => signWord 32 (BitVec.ofInt 32 (divS 32 x y)).toNat
  | .divuw => signWord 32 (divU 32 x y)
  | .remw => signWord 32 (BitVec.ofInt 32 (remS 32 x y)).toNat
  | .remuw => signWord 32 (remU 32 x y)

def immOp (op : ImmOp) (a : Word) (i : BitVec 12) : Word :=
  let sh := i.toNat % 64
  match op with
  | .addi => a + imm12 i
  | .slti => if a.slt (imm12 i) then 1 else 0
  | .sltiu => if a.ult (imm12 i) then 1 else 0
  | .xori => a ^^^ imm12 i
  | .ori => a ||| imm12 i
  | .andi => a &&& imm12 i
  | .slli => a <<< sh
  | .srli => a >>> sh
  | .srai => a.sshiftRight sh

def immOpW (op : ImmOpW) (a : Word) (i : BitVec 12) : Word :=
  let sh := i.toNat % 32
  match op with
  | .addiw => signWord 32 (a + imm12 i).toNat
  | .slliw => signWord 32 (a.toNat <<< sh)
  | .srliw => signWord 32 (lowBits a.toNat 32 >>> sh)
  | .sraiw => BitVec.ofInt 64 (toInt 32 a.toNat >>> sh)

def brTaken (c : BrCond) (a b : Word) : Bool :=
  match c with
  | .eq => a == b
  | .ne => a != b
  | .lt => a.slt b
  | .ge => !a.slt b
  | .ltu => a.ult b
  | .geu => !a.ult b

/-- A jump to a target, linking in rd; a target that is no multiple of 4 raises cause 0 at the jump (Table 03-1). -/
def jumpTo (rd : Reg) (link target : Word) (s : State) : Body :=
  if target.toNat % 4 = 0 then .jump (s.setX rd link) target else .trap { cause := 0, tval := target.toNat } s

/-- The instructions of the row BASE_INSTRUCTION. -/
def baseOp (b : Base) (s : State) : Body :=
  let pc := s.hart.pc
  match b with
  | .lui rd imm => .next (s.setX rd ((imm ++ 0#12).signExtend 64))
  | .auipc rd imm => .next (s.setX rd (pc + (imm ++ 0#12).signExtend 64))
  | .jal rd imm => jumpTo rd (pc + 4) (pc + (imm ++ 0#1).signExtend 64) s
  | .jalr rd rs1 imm => jumpTo rd (pc + 4) ((s.xr rs1 + imm12 imm) &&& ~~~1#64) s
  | .branch c rs1 rs2 imm =>
    if brTaken c (s.xr rs1) (s.xr rs2) then jumpTo 0 0 (pc + (imm ++ 0#1).signExtend 64) s else .next s
  | .opImm op rd rs1 imm => .next (s.setX rd (immOp op (s.xr rs1) imm))
  | .opImmW op rd rs1 imm => .next (s.setX rd (immOpW op (s.xr rs1) imm))
  | .op op rd rs1 rs2 => .next (s.setX rd (regOp op (s.xr rs1) (s.xr rs2)))
  | .opW op rd rs1 rs2 => .next (s.setX rd (regOpW op (s.xr rs1) (s.xr rs2)))
  | .csrRead _ _ csr rd => csrReadOp csr rd s

/-- BASE_INSTRUCTION -/
def execBaseInstruction (b : Base) (s : State) : Outcome := finish (baseOp b s)

/-! ### Scalar loads and stores (Table 03-1) -/

def memBytes : MemW → Nat
  | .b => 1 | .h => 2 | .w => 4 | .d => 8

/-- The bytes lie in one 128-byte line. -/
def inLine (a n : Nat) : Bool := decide (a % 128 + n ≤ 128)

def loadValue (o : OpLoad) (v : Nat) : Word :=
  if o.unsigned then BitVec.ofNat 64 v else signWord (8 * memBytes o.width) v

def scalarLoad (o : OpLoad) (s : State) : Body :=
  let a := (s.xr o.rs1 + imm12 o.imm).toNat
  let n := memBytes o.width
  if !inLine a n then .trap { cause := 4, tval := a } s
  else (scalarRead s s.cur.1 s.cur.2 s.hart.dataXlat a n).body s (fun r => .next (r.2.setX o.rd (loadValue o r.1)))

def scalarStore (o : OpStore) (s : State) : Body :=
  let a := (s.xr o.rs1 + imm12 o.imm).toNat
  let n := memBytes o.width
  if !inLine a n then .trap { cause := 6, tval := a } s
  else (scalarWrite s s.cur.1 s.cur.2 s.hart.dataXlat a n (lowBits (s.xr o.rs2).toNat (8 * n))).body s (fun t => .next t)

/-- LOAD -/
def execLoad (o : OpLoad) (s : State) : Outcome := finish (scalarLoad o s)
/-- STORE -/
def execStore (o : OpStore) (s : State) : Outcome := finish (scalarStore o s)

/-! ### LR, SC, AMO (R345, R346, Table 12-3) -/

def amoBytes (o : OpAmo) : Nat := if o.wide then 8 else 4

/-- A read of n aligned bytes at a place for the running hart past its stash (R327): by LR, an AMO, or the device for its task. -/
def readPlace (s : State) (va n : Nat) (p : PAddr) (cause : Nat) : Res (Nat × State) :=
  match regionOf s p.pa with
  | .dram =>
    if s.blocked s.cur.1 s.cur.2 .R p.pa n then .wait
    else match s.badIn p.pa n with
    | some k => .trap { cause := 46, tval := va, retire := some (k * 32 / 4096) }
    | none => .done ((recallRead s none p.pa n).readPlace s.cur.1 p n n noMiss)
  | .host off => if hostOpen s then .done (hostLoad s off n) else .trap { cause := cause, tval := va }
  | _ => .trap { cause := cause, tval := va }

/-- A write of n aligned bytes at a place by SC or an AMO. -/
def writePlace (s : State) (va n v : Nat) (p : PAddr) : Res State :=
  match regionOf s p.pa with
  | .dram =>
    if s.blocked s.cur.1 s.cur.2 .W p.pa n then .wait
    else match s.badPartly p.pa n with
    | some k => .trap { cause := 46, tval := va, retire := some (k * 32 / 4096) }
    | none => .done (s.storePhys (some s.cur) none p.pa n v)
  | .host off => if hostOpen s then .done (hostStore s off n v) else .trap { cause := 7, tval := va }
  | _ => .trap { cause := 7, tval := va }

def lrOp (o : OpAmo) (s : State) : Body :=
  let a := (s.xr o.rs1).toNat
  if a % (amoBytes o) ≠ 0 then .trap { cause := 6, tval := a } s
  else ((translate s s.hart.dataXlat .load a).bind (fun p =>
    if p.cls = .io then .trap { cause := 5, tval := a }
    else (readPlace (s.noted s s.hart.dataXlat .load a) a (amoBytes o) p 5).bind (fun r => .done (p, r)))).body s (fun q =>
      .next ((q.2.2.modHart (fun t => { t with resv := some (lineOf q.1.pa) })).setX o.rd (signWord (8 * amoBytes o) q.2.1)))

/-- A place in the host window while it is closed: every access faults (R417). -/
def hostShut (s : State) (p : PAddr) : Bool :=
  match regionOf s p.pa with
  | .host _ => !hostOpen s
  | _ => false

def scOp (o : OpAmo) (s : State) : Body :=
  let a := (s.xr o.rs1).toNat
  let lost := fun (u : State) => u.modHart (fun t => { t with resv := none })
  if a % (amoBytes o) ≠ 0 then .trap { cause := 6, tval := a } s
  else (translate s s.hart.dataXlat .store a).body s (fun p =>
    if p.cls = .io ∨ hostShut s p then .trap { cause := 7, tval := a } s
    else if s.hart.resv = some (lineOf p.pa) then
      (writePlace (s.noted s s.hart.dataXlat .store a) a (amoBytes o) (lowBits (s.xr o.rs2).toNat (8 * amoBytes o)) p).body s (fun u => .next ((lost u).setX o.rd 0))
    else .next ((lost s).setX o.rd 1))

/-- What an AMO stores, at its width. -/
def amoValue (f : AmoOp) (n a b : Nat) : Nat :=
  match f with
  | .swap => b
  | .add => lowBits (a + b) n
  | .xor => Nat.xor a b
  | .and => Nat.land a b
  | .or => Nat.lor a b
  | .min => if toInt n a ≤ toInt n b then a else b
  | .max => if toInt n b ≤ toInt n a then a else b
  | .minu => min a b
  | .maxu => max a b

def amoOp (f : AmoOp) (o : OpAmo) (s : State) : Body :=
  let a := (s.xr o.rs1).toNat
  let n := amoBytes o
  if a % n ≠ 0 then .trap { cause := 6, tval := a } s
  else (translate s s.hart.dataXlat .store a).body s (fun p =>
    (readPlace (s.noted s s.hart.dataXlat .store a) a n p 7).body s (fun r =>
      (writePlace r.2 a n (amoValue f (8 * n) r.1 (lowBits (s.xr o.rs2).toNat (8 * n))) p).body s (fun u =>
        .next (u.setX o.rd (signWord (8 * n) r.1)))))

/-- LR -/
def execLr (o : OpAmo) (s : State) : Outcome := finish (lrOp o s)
/-- SC -/
def execSc (o : OpAmo) (s : State) : Outcome := finish (scOp o s)
/-- AMO -/
def execAmo (f : AmoOp) (o : OpAmo) (s : State) : Outcome := finish (amoOp f o s)

/-! ### Fences (R353, R354, R329) -/

/-- The dirty sectors of an ASID, or of all, in a core's stash. -/
def Core.dirtySectors (k : Core) (asid : Option Nat) : List Nat :=
  (k.sectors.filter (fun p => p.2.dirty && (match asid with | some a => p.2.asid == a | none => true))).map (fun p => p.2.sector)

/-- Every dirty sector of a core is written back and stays clean (R329). -/
def cleanStash (s : State) (c : Nat) : State :=
  (writeBack s ((s.core c).dirtySectors none)).modCore c (fun k => { k with sectors := k.sectors.map (fun p => (p.1, { p.2 with dirty := false })) })

/-- A fence at device or system scope whose predecessor set holds W writes the stash back. -/
def fenceOp (wide predW : Bool) (s : State) : Body := .next (if wide && predW then cleanStash s s.cur.1 else s)

/-- FENCE -/
def execFence (o : OpFence) (s : State) : Outcome := finish (fenceOp true (o.pred.getLsbD 0 || o.pred.getLsbD 2) s)
/-- FENCE_TSO -/
def execFenceTso (o : OpFence) (s : State) : Outcome := let _ := o; finish (fenceOp true true s)
/-- FENCE_I: the thread's later fetches miss none of its earlier stores. -/
def execFenceI (rd rs1 : Reg) (imm : BitVec 12) (s : State) : Outcome :=
  let _ := (rd, rs1, imm)
  finish (.next (s.modHart (fun t => { t with fetchSync := s.past.length })))

/-! ### sfence.vma (R334, R329) -/

/-- The fence of an ASID, or of every one, covers a node's translations. -/
def fences (asid : Option Nat) (nd : Node) : Bool :=
  nd.inFlight && (match asid with | some a => nd.asid == a | none => true)

/-- A window placed by removed translations and not yet being written is placed again; its values stay. -/
def replaceWindow (s : State) (c n : Nat) : State :=
  let nd := s.node c n
  let val := fun (w : EngWrite) => match nd.pend.find? (fun v => v.unit == w.unit && v.off == w.off) with | some v => v.val | none => 0
  let r := windowFrom nd c (nd.winEnd - nd.winLo) s nd.winLo 0 []
  let ps := r.1.pieces.reverse.flatten.map (fun w => { w with val := val w })
  let s1 := (linesOf s ps).foldl takeLine r.2
  let s2 := s1.modNode c n (fun m => { m with pend := ps, owned := linesOf s ps })
  match r.1.stop with
  | .ok _ => s2
  | why => cutWindow s2 c n r.1.last why

/-- Writes back and invalidates the sectors of an ASID, or all. -/
def dropStash (s : State) (c : Nat) (asid : Option Nat) : State :=
  (writeBack s ((s.core c).dirtySectors asid)).modCore c (fun k => { k with sectors := k.sectors.filter (fun p =>
    match asid with | some a => p.2.asid != a | none => false) })

/-- The nodes of the device a fence covers whose current window is placed. -/
def fencedWindows (s : State) (asid : Option Nat) : List (Nat × Nat × Node) :=
  (s.cores.map (fun e => (e.2.nodes.filter (fun p => fences asid p.2 && !p.2.pend.isEmpty)).map (fun p => (e.1, p.1, p.2)))).flatten

/-- A fence of an ASID, or of all, and of an address, or of all, names an entry; one of an ASID leaves global entries. -/
def TlbEntry.fenced (e : TlbEntry) (asid va : Option Nat) : Bool :=
  (match asid with | some a => e.asid == a && !e.isGlobal | none => true) &&
  (match va with | some v => e.base >>> e.size == v >>> e.size | none => true)

/-- The copies an sfence.vma leaves: no matching translation in any TLB of the device, no replica, no L1 line that a replica filled
(R321, R334). -/
def Copies.fenced (k : Copies) (asid va : Option Nat) : Copies :=
  { k with tlb := k.tlb.filter (fun e => !e.fenced asid va), replicas := [], l1 := k.l1.filter (fun e => !e.replica) }

/-- What sfence.vma performs (R334): it removes translations and copies, waits for the windows being written under a removed
translation, places the others again, and drops the stash sectors of the cores. -/
def fenceVma (s : State) (asid va : Option Nat) (cores : List Nat) : Res State :=
  let ws := fencedWindows s asid
  if ws.any (fun w => w.2.2.writing) then .wait
  else
    let s0 := { s with copies := s.copies.fenced asid va }
    let s1 := ws.foldl (fun u w => replaceWindow u w.1 w.2.1) s0
    .done (cores.foldl (fun u c => dropStash u c asid) s1)

/-- SFENCE_VMA -/
def execSfenceVma (rs1 rs2 : Reg) (s : State) : Outcome :=
  let t := s.hart
  finish (if t.priv == .U || (t.priv == .S && t.std.mstatus.getLsbD 20) then illegal s
    else (fenceVma s (if rs2 = 0 then none else some ((s.xr rs2).toNat % 65536)) (if rs1 = 0 then none else some (s.xr rs1).toNat)
      [s.cur.1]).body s (fun u => .next u))

/-! ### System instructions -/

/-- WFI -/
def execWfi (s : State) : Outcome :=
  let t := s.hart
  finish (if t.priv == .U || (t.priv == .S && t.std.mstatus.getLsbD 21) then illegal s
    else if s.intPending s.cur.1 s.cur.2 then .next (s.modHart (fun h => { h with wfi := false }))
    else .wait (s.modHart (fun h => { h with wfi := true })))

/-- ECALL -/
def execEcall (s : State) : Outcome := finish (.trap { cause := 8 + privCode s.hart.priv, tval := 0 } s)

/-- EBREAK: the trap value is 0 or the address of the instruction, as the device chooses (log 15). -/
def execEbreak (s : State) : Outcome :=
  let ch := s.choose 2
  finish (.trap { cause := 3, tval := if ch.1 = 0 then 0 else s.hart.pc.toNat } ch.2)

/-- MRET -/
def execMret (s : State) : Outcome :=
  finish (if s.hart.priv != .M then illegal s else .stay (s.modHart (fun t => t.retired.mret)))

/-! ### Completing a requested save (R445) -/

/-- The vector length a stored context block records, at its area. -/
def savedLength (s : State) (c x : Nat) (xl : Xlat) (area : Nat) : Nat :=
  match loadWords s c x xl (area + 512) 1 with
  | .done (w :: _, _) => 512 <<< (w.toNat / (1 <<< 32) % 8)
  | _ => (s.thr c x).vlen

/-- The exception that the supervisor handler was entered with, for a fault record: cause 25's words as the trap left them (R448). -/
def handledExc (s : State) : Exc × State :=
  let t := s.hart
  let cause := t.std.scause.toNat % 256
  if cause = 25 ∧ t.lastPrec = [] then
    let a := s.draw
    let b := a.2.draw
    let d := b.2.draw
    let e := d.2.draw
    ({ cause := cause, tval := t.std.stval.toNat, words := [a.1.toNat, b.1.toNat, d.1.toNat, e.1.toNat] }, e.2)
  else ({ cause := cause, tval := t.std.stval.toNat, words := t.lastPrec }, s)

/-- The stores of R445 step 1. -/
def saveRest (s : State) (c x : Nat) (xl : Xlat) (r : TaskRec) (area : Nat) : Res State :=
  let t := s.thr c x
  (storeWords s c x xl area (t.recordNow r).words).bind (fun s1 =>
    storeWords s1 c x xl (area + 320) (shadowWords t r))

/-- The sret of a context with a REQUEUE request: the save is completed and the context emptied; a faulting store is raised and
changes nothing; a full deque makes the instruction unready. -/
def completeSave (s : State) (r : TaskRec) (area : Nat) (fault hook : Bool) : Body :=
  let c := s.cur.1
  let x := s.cur.2
  let xl := taskXlat s r
  let toHandler := fault && (wordAt r.words 7).toNat % (1 <<< 48) != 0
  if !dequeRoom s c then .wait s
  else (saveRest s c x xl r area).body s (fun s1 =>
    if toHandler then
      let e := handledExc s1
      (storeWords e.2 c x xl (area + 448) (faultWords e.2 c x r area e.1 s.hart.std.sepc false)).body s (fun s2 =>
        .stay (faultTask s2 c x { r with area := area } area))
    else
      let p := { pendingRec s1 c x r area hook with savedLen := savedLength s1 c x xl area }
      .stay (rouseCore (pushTop (freeContext s1 c x) c p) c))

/-- SRET -/
def execSret (s : State) : Outcome :=
  let t := s.hart
  finish (if t.priv == .U || (t.priv == .S && t.std.mstatus.getLsbD 22) then illegal s
    else match t.requeue, t.task with
    | some (area, fault, hook), some r => completeSave s r area fault hook
    | _, _ => .stay (s.modHart (fun h => h.retired.sret)))

/-! ### Register writes that are CSR instructions -/

/-- VTYPE_WRITE -/
def execVtypeWrite (o : OpCsr) (s : State) : Outcome := finish (csrOp o s)
/-- VRECLAIM_WRITE -/
def execVreclaimWrite (o : OpCsr) (s : State) : Outcome := finish (csrOp o s)
/-- SATP_WRITE -/
def execSatpWrite (o : OpCsr) (s : State) : Outcome := finish (csrOp o s)
/-- MGNCTL_WRITE -/
def execMgnctlWrite (o : OpCsr) (s : State) : Outcome := finish (csrOp o s)

end Sys2Proof.Machine
end

