-- ==== Sys2Proof/Machine/Tasks.lean ====
section
/-! DEFINITION. Tasks, queues, turnstiles, pools and mwait (R217 to R228, R288 to R296). -/
namespace Sys2Proof.Machine

/-! ### Operands and faults (R217, Tables 08-1 to 08-3) -/

/-- Cause 50 with a reason and the low bits of the operand. -/
def queueFault (reason operand : Nat) : Exc := { cause := 50, tval := reason + operand % 65536 * 65536 }

/-- Home die of a queue (R289). -/
def queueHome (q : Nat) : Nat := q % 4

/-- The queue an operand names; none where cause 50 reason 1 is raised (R217, R289, R331). -/
def State.queueOf (s : State) (v : Word) : Option (Nat × Queue) :=
  let n := v.toNat
  if 4096 ≤ n ∨ !s.dieLive (queueHome n) then none
  else
    let q : Queue := SMap.get {} s.queues n
    if q.enable && !q.broken then some (n, q) else none

def State.setQueue (s : State) (n : Nat) (q : Queue) : State := { s with queues := s.queues.put n q }

/-- The turnstile an operand names: its die, index and value (R217, R294). -/
def State.turnOf (s : State) (v : Word) : Option (Nat × Nat × Turnstile) :=
  let n := v.toNat
  let die := n / 4096
  if 16384 ≤ n ∨ !s.dieLive die then none
  else
    let t : Turnstile := SMap.get {} (s.die die).turnstiles (n % 4096)
    if t.broken then none else some (die, n % 4096, t)

def State.setTurn (s : State) (die ix : Nat) (t : Turnstile) : State :=
  s.modDie die (fun d => { d with turnstiles := d.turnstiles.put ix t })

/-- The pool an operand names (R217, R295). -/
def State.poolOf (s : State) (v : Word) : Option (Nat × Nat × Pool) :=
  let n := v.toNat
  let die := n / 8
  if 32 ≤ n ∨ !s.dieLive die then none
  else
    let p : Pool := SMap.get {} (s.die die).pools (n % 8)
    if p.size = 0 ∨ p.broken then none else some (die, n % 8, p)

def State.setPool (s : State) (die ix : Nat) (p : Pool) : State :=
  s.modDie die (fun d => { d with pools := d.pools.put ix p })

/-! ### Task records (R270, Table 10-3) -/

def recPriority (w4 : Word) : Nat := w4.toNat % 64
def recClass (w4 : Word) : Nat := w4.toNat / 64 % 4
def recColumn (w4 : Word) : Nat := w4.toNat / 256 % 4
def recKeep (w4 : Word) : Bool := w4.getLsbD 10
def recGang (w4 : Word) : Nat := w4.toNat / 2048 % 4
def recExpand (w4 : Word) : Bool := w4.getLsbD 13
def TaskRec.w4 (r : TaskRec) : Word := wordAt r.words 4

/-- Low 48 bits of a record word. -/
def TaskRec.addr (r : TaskRec) (i : Nat) : Nat := (wordAt r.words i).toNat % (1 <<< 48)

/-- The reason a record is refused for (R218, R270): 4, 5, or none; of a launch request word 4 has no other field (R268). -/
def recordReason (w4 : Word) (sup : Bool) : Option Nat :=
  let p := recPriority w4
  if recExpand w4 then none
  else if 44 ≤ p ∧ p ≤ 47 ∧ !sup then some 4
  else if 48 ≤ p ∨ recClass w4 = 3 ∨ recColumn w4 = 3 ∨ recGang w4 = 3 ∨ (recGang w4 = 2 ∧ recClass w4 = 0) then some 5
  else none

/-- A record as the running thread submits it (R222, R268). -/
def newRec (s : State) (words : List Word) : TaskRec :=
  { words := words, asid := asidOf s.hart.std.satp, sup := s.hart.priv != .U, since := s.now }

/-! ### Memory of these instructions (Table 13-1; the stash is bypassed, R327) -/

def plainLoad (s : State) (t : Xlat) (va n : Nat) : Res (Nat × State) :=
  (translate s t .load va).bind (fun p => readPlace (s.noted s t .load va) va n p 5)

def plainStore (s : State) (t : Xlat) (va n v : Nat) : Res State :=
  (translate s t .store va).bind (fun p => writePlace (s.noted s t .store va) va n v p)

def plainWords (s : State) (t : Xlat) (va : Nat) : Nat → Res (List Word × State)
  | 0 => .done ([], s)
  | n + 1 =>
    (plainLoad s t (wrapAddr va) 8).bind (fun r =>
      (plainWords r.2 t (va + 8) n).bind (fun q => .done (BitVec.ofNat 64 r.1 :: q.1, q.2)))

def plainPut (s : State) (t : Xlat) (va : Nat) : List Word → Res State
  | [] => .done s
  | w :: ws => (plainStore s t (wrapAddr va) 8 w.toNat).bind (fun s1 => plainPut s1 t (va + 8) ws)

/-- A queue fault of an instruction that would read or write its item at an address: the faults of the address come first (R212). -/
def itemFault (s : State) (acc : Acc) (va reason operand : Nat) : Res (List Word × State) :=
  let t := s.hart.dataXlat
  (match acc with
    | .store => (plainStore s t va 1 0).bind (fun _ => .done ())
    | _ => (plainLoad s t va 1).bind (fun _ => .done ())).bind (fun _ => .trap (queueFault reason operand))

/-- An aligned item at an address, read; a misaligned one is reason 2. -/
def readItem (s : State) (va words operand : Nat) : Res (List Word × State) :=
  if va % (8 * words) ≠ 0 then itemFault s .load va 2 operand else plainWords s s.hart.dataXlat va words

/-! ### Deque work (R296) -/

/-- Cores of a die whose contexts may take a record look again (R298). -/
def wakeDie (s : State) (die : Nat) : State :=
  (((List.range 96).map (· + die * 96)).filter s.coreUp).foldl wakeCore s

/-! ### qspawn (R218) -/

def spawn (o : OpDS) (s : State) : Body :=
  (readItem s (s.xr o.rs1).toNat 8 0).body s (fun r =>
    match recordReason (wordAt r.1 4) (s.hart.priv != .U) with
    | some k => .trap (queueFault k 0) s
    | none =>
      if dequeRoom s s.cur.1 then
        .next ((rouseCore (pushBottom r.2 s.cur.1 (newRec s r.1)) s.cur.1).setX o.d 0)
      else .wait s)

/-- qspawn -/
def execQspawn (o : OpDS) (s : State) : Outcome := finish (spawn o s)

/-! ### qexit (R219, R472) -/

/-- A 48-bit address of a record as a virtual address (R313). -/
def recVa (t : Xlat) (a : Nat) : Nat := if t.priv = .M then a else engVa t.satp a

/-- Adds to a 64-bit counter in one atomic update; a counter that is no multiple of 8 is a misaligned AMO (Table 03-1). -/
def counterAdd (s : State) (t : Xlat) (a : Nat) (delta : Int) : Res State :=
  let va := recVa t a
  if va % 8 ≠ 0 then .trap { cause := 6, tval := va }
  else (translate s t .store va).bind (fun p =>
    (readPlace (s.noted s t .store va) va 8 p 7).bind (fun r => writePlace r.2 va 8 (ofInt 64 ((r.1 : Int) + delta)) p))

/-- The task of a context retires: its save area is free (R310). -/
def retireTask (s : State) (c x : Nat) : State :=
  match (s.thr c x).task with
  | some r => freeAreaOf s r
  | none => s

def exitTask (s : State) : Body :=
  let c := s.cur.1
  let x := s.cur.2
  let gone := fun (u : State) => Body.stay (freeContext (retireTask u c x) c x)
  if s.hart.busyVector then .wait s
  else
    let s1 := (cleanStash s c).modHart Ctx.retired
    match s.hart.task with
    | none => gone s1
    | some r =>
      if r.addr 5 = 0 then gone s1
      else (counterAdd s1 s.hart.dataXlat (r.addr 5) (-1)).body s gone

/-- qexit -/
def execQexit (s : State) : Outcome := finish (exitTask s)

/-! ### qyield (R220, R310, R472) -/

def yieldTask (s : State) : Body :=
  let c := s.cur.1
  let x := s.cur.2
  match s.hart.task with
  | none => .next s
  | some _ =>
    if !dequeRoom s c ∨ s.hart.busyVector then .wait s
    else
      let a := allocArea s c x
      match (a.2.thr c x).task with
      | none => .wait s
      | some r =>
        if a.1 = 0 then .wait s
        else (saveTask a.2 c x r a.1 (s.hart.pc + 4)).body s (fun s1 =>
          let p := pendingRec s1 c x r a.1 false
          .stay (rouseCore (pushTop (freeContext (s1.modHart Ctx.retired) c x) c p) c))

/-- qyield -/
def execQyield (s : State) : Outcome := finish (yieldTask s)

/-! ### qresume (R221) -/

/-- Every task that has a handle: running, pending with a saved context, or in a queue. -/
def State.liveTasks (s : State) : List TaskRec :=
  (s.cores.map (fun e =>
    (List.range 8).filterMap (fun x => (e.2.ctx x).task) ++ e.2.deque ++ e.2.overflow)).flatten ++
  (s.queues.map (fun e => e.2.items.map (fun i => i.task))).flatten

/-- The core on whose deque a resumed task becomes pending: the faulting core, or where that is quarantined the lowest core of its
class and die (R297, R449). -/
def resumeCore (s : State) (c : Nat) : Nat :=
  if s.coreUp c then c
  else (((List.range 96).map (· + dieOf c * 96)).find? (fun k => s.coreUp k && classOf k == classOf c)).getD c

def resumeTask (o : OpDS) (s : State) : Body :=
  let h := (s.xr o.rs1).toNat
  let asid := asidOf s.hart.std.satp
  match s.faulted.find? (fun f => f.task.handle == h && h != 0) with
  | some f =>
    if f.task.asid ≠ asid then .next (s.setX o.d 2)
    else
      let c := resumeCore s f.core
      if dequeRoom s c then
        let s1 := { s with faulted := s.faulted.filter (fun g => g.task.handle != h) }
        .next ((rouseCore (pushTop s1 c { f.task with since := s.now }) c).setX o.d 0)
      else .wait s
  | none =>
    if s.liveTasks.any (fun r => r.handle == h && r.asid == asid && h != 0) then .next (s.setX o.d 1)
    else .next (s.setX o.d 2)

/-- qresume -/
def execQresume (o : OpDS) (s : State) : Outcome := finish (resumeTask o s)

/-! ### Queues (R222 to R225, R290 to R292) -/

def Queue.itemWords (q : Queue) : Nat := if q.records then 8 else 2

/-- The key of an item (R290). -/
def Queue.keyOf (q : Queue) (r : TaskRec) : Nat :=
  match r.sortKey with
  | some k => k
  | none => (wordAt r.words (if q.records then 2 else 1)).toNat

/-- The item delivered next of a list in push order: the earliest, or the earliest of the smallest key (Table 11-2). -/
def bestItem (sorted : Bool) : List QItem → Option QItem
  | [] => none
  | i :: l =>
    match bestItem sorted l with
    | none => some i
    | some j => if sorted && decide (j.key < i.key) then some j else some i

def Queue.deliverable (q : Queue) (i : QItem) : Bool := q.mode != 2 || decide (i.key ≤ q.gate)

/-- The next delivered item of a queue of 16-byte items. -/
def Queue.next (q : Queue) : Option QItem := bestItem (q.mode != 0) (q.items.filter q.deliverable)

/-- The queue without its first item equal to i. -/
def Queue.remove (q : Queue) (i : QItem) : Queue := { q with items := q.items.erase i }

/-- Pushes an item into a queue that has room; the status of R222. -/
def pushItem (s : State) (n : Nat) (q : Queue) (r : TaskRec) : Nat × State :=
  let q1 := { q with items := q.items ++ [{ task := r, key := q.keyOf r }] }
  let s1 := s.setQueue n q1
  (if q.threshold ≤ q1.items.length then 2 else 0, if q.records then wakeDie s1 (queueHome n) else s1)

/-- qpush and qpush.nb. -/
def push (nb : Bool) (o : OpR) (s : State) : Body :=
  let v := s.xr o.rs1
  match s.queueOf v with
  | none => (itemFault s .load (s.xr o.rs2).toNat 1 v.toNat).body s (fun _ => .wait s)
  | some (n, q) =>
    (readItem s (s.xr o.rs2).toNat q.itemWords n).body s (fun r =>
      match (if q.records then recordReason (wordAt r.1 4) (s.hart.priv != .U) else none) with
      | some k => .trap (queueFault k n) s
      | none =>
        if q.items.length < q.capacity then
          let p := pushItem (cleanStash r.2 s.cur.1) n q (newRec s r.1)
          .next (p.2.setX o.rd (BitVec.ofNat 64 p.1))
        else if nb then .next (r.2.setX o.rd 1)
        else .wait s)

/-- qpush -/
def execQpush (o : OpR) (s : State) : Outcome := finish (push false o s)
/-- qpush.nb -/
def execQpushNb (o : OpR) (s : State) : Outcome := finish (push true o s)

/-- qpush.gate -/
def execQpushGate (o : OpR) (s : State) : Outcome :=
  let v := s.xr o.rs1
  finish (match s.queueOf v with
  | none => .trap (queueFault 1 v.toNat) s
  | some (n, q) =>
    if q.mode ≠ 2 then .trap (queueFault 3 n) s
    else
      let s1 := (cleanStash s s.cur.1).setQueue n { q with gate := max q.gate (s.xr o.rs2).toNat }
      .next ((if q.records then wakeDie s1 (queueHome n) else s1).setX o.rd 0))

/-- qpop and qpop.nb. -/
def pop (nb : Bool) (o : OpR) (s : State) : Body :=
  let v := s.xr o.rs1
  let a := (s.xr o.rs2).toNat
  let t := s.hart.dataXlat
  let refuse := fun reason operand => (itemFault s .store a reason operand).body s (fun _ => .wait s)
  match s.queueOf v with
  | none => refuse 1 v.toNat
  | some (n, q) =>
    if q.records then refuse 3 n
    else if a % 16 ≠ 0 then refuse 2 n
    else match q.next with
    | none => if nb then .next (s.setX o.rd 1) else .wait s
    | some i =>
      (plainPut s t a i.task.words).body s (fun s1 => .next ((s1.setQueue n (q.remove i)).setX o.rd 0))

/-- qpop -/
def execQpop (o : OpR) (s : State) : Outcome := finish (pop false o s)
/-- qpop.nb -/
def execQpopNb (o : OpR) (s : State) : Outcome := finish (pop true o s)

/-- qlen -/
def execQlen (o : OpDS) (s : State) : Outcome :=
  let v := s.xr o.rs1
  finish (match s.queueOf v with
  | none => .trap (queueFault 1 v.toNat) s
  | some (_, q) => .next (s.setX o.d (BitVec.ofNat 64 q.items.length)))

/-! ### Turnstiles (R226) -/

/-- qticket -/
def execQticket (o : OpDS) (s : State) : Outcome :=
  let v := s.xr o.rs1
  finish (match s.turnOf v with
  | none => .trap (queueFault 1 v.toNat) s
  | some (d, i, t) => .next ((s.setTurn d i { t with next := t.next + 1 }).setX o.d (t.next.zeroExtend 64)))

/-- qturn -/
def execQturn (rs1 rs2 : Reg) (s : State) : Outcome :=
  let v := s.xr rs1
  finish (match s.turnOf v with
  | none => .trap (queueFault 1 v.toNat) s
  | some (_, _, t) =>
    if (t.serving - BitVec.ofNat 32 (s.xr rs2).toNat).msb then .wait s else .next s)

/-- qnext -/
def execQnext (rs1 : Reg) (s : State) : Outcome :=
  let v := s.xr rs1
  finish (match s.turnOf v with
  | none => .trap (queueFault 1 v.toNat) s
  | some (d, i, t) => .next ((cleanStash s s.cur.1).setTurn d i { t with serving := t.serving + 1 }))

/-! ### Pools (R227, R295) -/

/-- slotget: the lowest free slot, or all ones. -/
def execSlotget (o : OpDS) (s : State) : Outcome :=
  let v := s.xr o.rs1
  finish (match s.poolOf v with
  | none => .trap (queueFault 1 v.toNat) s
  | some (d, i, p) =>
    match (List.range p.size).find? (fun n => !p.out.contains n) with
    | some n => .next ((s.setPool d i { p with out := p.out ++ [n] }).setX o.d (BitVec.ofNat 64 n))
    | none => .next (s.setX o.d (-1)))

/-- slotret -/
def execSlotret (rs1 rs2 : Reg) (s : State) : Outcome :=
  let v := s.xr rs1
  let n := (s.xr rs2).toNat
  finish (match s.poolOf v with
  | none => .trap (queueFault 1 v.toNat) s
  | some (d, i, p) =>
    if p.out.contains n then .next ((cleanStash s s.cur.1).setPool d i { p with out := p.out.filter (fun m => m != n) })
    else .trap (queueFault 6 n) s)

/-! ### mwait (R228) -/

/-- mwait -/
def execMwait (o : OpR) (s : State) : Outcome :=
  let a := (s.xr o.rs1).toNat
  finish (if a % 8 ≠ 0 then .trap { cause := 4, tval := a } s
    else (translate s s.hart.dataXlat .load a).body s (fun p =>
      if p.cls = .io then .trap { cause := 5, tval := a } s
      else (readPlace (s.noted s s.hart.dataXlat .load a) a 8 p 5).body s (fun r =>
        if BitVec.ofNat 64 r.1 = s.xr o.rs2 then .wait s else .next (r.2.setX o.rd (BitVec.ofNat 64 r.1)))))

end Sys2Proof.Machine
end

