-- ==== Sys2Proof/Machine/Sync.lean ====
section
/-! DEFINITION. Barriers (R229 to R231, R280 to R286), their events, and ofence and xfence (R232, R353 to R355). -/
namespace Sys2Proof.Machine

/-! ### The barrier an operand names (R217, R229) -/

/-- Which barrier: a device barrier, or one of a die. -/
structure BarKey where
  dev : Bool
  die : Nat
  idx : Nat
  deriving DecidableEq, Repr

/-- The barrier of an operand; none where it is malformed. -/
def barKey (core : Nat) (v : Word) : Option BarKey :=
  let n := v.toNat
  let dev := bitOf n 8
  let idx := n % 64
  if 512 ≤ n ∨ n / 64 % 4 ≠ 0 ∨ (dev ∧ 16 ≤ idx) then none
  else some { dev := dev, die := if dev then 0 else dieOf core, idx := idx }

def State.barrier (s : State) (k : BarKey) : Barrier :=
  if k.dev then SMap.get {} s.devBarriers k.idx else SMap.get {} (s.die k.die).barriers k.idx

def State.setBarrier (s : State) (k : BarKey) (b : Barrier) : State :=
  if k.dev then { s with devBarriers := s.devBarriers.put k.idx b }
  else s.modDie k.die (fun d => { d with barriers := d.barriers.put k.idx b })

/-- Cause 29 with a reason and the operand. -/
def barFault (reason : Nat) (v : Word) : Exc := { cause := 29, tval := v.toNat % 512 + reason * 4096 }

/-! ### Phases (R282, R285) -/

/-- The bound on a completion's way to the cores, in slice cycles. -/
def BarKey.latency (k : BarKey) : Nat := if k.dev then 96 else 24

/-- Starts the timeout of a phase at its first arrival. -/
def armBarrier (s : State) (k : BarKey) (b : Barrier) : State :=
  if b.timeout = 0 then s else s.after (sliceTicks b.timeout) (.barrierTimeout k.dev k.die k.idx)

/-- Completes the current phase: held arrivals become those of the new one, whose completion, where they are N, follows in the next
slice cycle; the notice reaches the cores within the bound. -/
def completePhase (s : State) (k : BarKey) : State :=
  let b := s.barrier k
  let again := decide (b.n ≤ b.ahead.length)
  let b1 := { b with seq := b.seq + 1, here := b.ahead, ahead := [], raised := false, completing := again,
                     first := if b.ahead.isEmpty then none else some s.now }
  let s1 := s.setBarrier k b1
  let s2 := if b.ahead.isEmpty then s1 else armBarrier s1 k b1
  let s3 := if again then s2.after (sliceTicks (s2.sliceCycle + 1) - s2.now) (.barrierHeldPhaseComplete k.dev k.die k.idx) else s2
  let ch := s3.choose (sliceTicks k.latency + 1)
  ch.2.after ch.1 (.barrierCompletionNotice k.dev k.die k.idx)

/-- An arrival of a core (R282); none where the core already holds two. -/
def arriveAt (s : State) (k : BarKey) (c : Nat) : Option State :=
  let b := s.barrier k
  if !b.here.contains c then
    let b1 := { b with here := b.here ++ [c], marks := b.marks.put c ⟨b.seq, false⟩,
                       first := match b.first with | some f => some f | none => some s.now }
    let s1 := s.setBarrier k b1
    let s2 := if b.first.isNone then armBarrier s1 k b1 else s1
    some (if b.n ≤ b1.here.length ∧ !b.completing then completePhase s2 k else s2)
  else if !b.ahead.contains c then
    some (s.setBarrier k { b with ahead := b.ahead ++ [c], marks := b.marks.put c ⟨b.seq + 1, false⟩ })
  else none

/-! ### The instructions (R229 to R231, R283, R284) -/

/-- The wait in progress of the running hart at a barrier. -/
def Ctx.waitAt (t : Ctx) (k : BarKey) : Option BarWait :=
  match t.barWait with
  | some w => if w.dev = k.dev ∧ w.die = k.die ∧ w.idx = k.idx then some w else none
  | none => none

/-- The checks of a barrier instruction: reasons 2, 4, 3 and 1. -/
def barCheck (s : State) (v : Word) (arrival : Bool) : Except Exc (BarKey × Barrier) :=
  match barKey s.cur.1 v with
  | none => .error (barFault 2 v)
  | some k =>
    let b := s.barrier k
    if (s.hart.waitAt k).any (fun w => w.ends == some 4) then .error (barFault 4 v)
    else if b.n = 0 then .error (barFault 3 v)
    else if arrival && !b.members.contains s.cur.1 then .error (barFault 1 v)
    else .ok (k, b)

def setWait (s : State) (w : BarWait) : State := s.modHart (fun t => { t with barWait := some w })

/-- The phase a barw waits for: that of its core's unwaited arrival, or the current one (R283). -/
def waitPhase (b : Barrier) (c : Nat) : Nat × Bool :=
  match b.marks.find? (fun e => e.1 == c) with
  | some (_, m) => if m.waited then (b.seq, false) else (m.seq, true)
  | none => (b.seq, false)

/-- The arrival of a core in a phase is marked as waited (R283). -/
def Barrier.markWaited (b : Barrier) (c seq : Nat) : Barrier :=
  match b.marks.find? (fun e => e.1 == c) with
  | some (_, m) => if m.seq == seq then { b with marks := b.marks.put c { m with waited := true } } else b
  | none => b

/-- A wait for a phase ends: its own arrival is marked as waited. -/
def BarWait.close (w : BarWait) (b : Barrier) (c : Nat) : Barrier := if w.own then b.markWaited c w.seq else b

/-- Waits for a phase: it has ended, its completion has reached the core before, or the instruction is unready. -/
def barWaits (s : State) (k : BarKey) (w : BarWait) : Body :=
  let b := s.barrier k
  if w.ends = some 0 then .next s
  else if w.seq < b.noticed then .next (s.setBarrier k (w.close b s.cur.1))
  else .wait (setWait s w)

/-- An arrival by the running hart: an arrival at a device barrier first writes the stash back (R329). -/
def barArrive (s : State) (k : BarKey) (f : State → Body) : Body :=
  match arriveAt (if k.dev then cleanStash s s.cur.1 else s) k s.cur.1 with
  | some s1 => f s1
  | none => .wait (setWait s { dev := k.dev, die := k.die, idx := k.idx, seq := 0, epoch := (s.barrier k).epoch,
                               arrived := false, own := false, third := true })

def barv (rs1 : Reg) (s : State) : Body :=
  match barCheck s (s.xr rs1) true with
  | .error e => .trap e s
  | .ok (k, _) => barArrive s k (fun s1 => .next s1)

/-- barv -/
def execBarv (rs1 : Reg) (s : State) : Outcome := finish (barv rs1 s)

def barw (rs1 : Reg) (s : State) : Body :=
  match barCheck s (s.xr rs1) false with
  | .error e => .trap e s
  | .ok (k, b) =>
    match s.hart.waitAt k with
    | some w => barWaits s k w
    | none =>
      let p := waitPhase b s.cur.1
      barWaits s k { dev := k.dev, die := k.die, idx := k.idx, seq := p.1, epoch := b.epoch, arrived := false, own := p.2 }

/-- barw -/
def execBarw (rs1 : Reg) (s : State) : Outcome := finish (barw rs1 s)

def barvw (rs1 : Reg) (s : State) : Body :=
  match barCheck s (s.xr rs1) true with
  | .error e => .trap e s
  | .ok (k, _) =>
    match (s.hart.waitAt k).filter (fun w => w.arrived) with
    | some w => barWaits s k w
    | none =>
      barArrive s k (fun s1 =>
        let b := s1.barrier k
        barWaits s1 k { dev := k.dev, die := k.die, idx := k.idx, seq := (waitPhase b s1.cur.1).1, epoch := b.epoch,
                        arrived := true, own := true })

/-- barvw -/
def execBarvw (rs1 : Reg) (s : State) : Outcome := finish (barvw rs1 s)

/-- The state word of a barrier for a core (Table 08-4). -/
def Barrier.word (b : Barrier) (c : Nat) : Word :=
  BitVec.ofNat 64 (b.n % 65536 * (1 <<< 32) + (b.members.contains c).toNat * (1 <<< 19) + (b.ahead.contains c).toNat * (1 <<< 18) +
    (b.here.contains c).toNat * (1 <<< 17) + b.seq % 2 * (1 <<< 16) + b.here.length % 65536)

/-- barq -/
def execBarq (o : OpDS) (s : State) : Outcome :=
  finish (match barCheck s (s.xr o.rs1) false with
  | .error e => .trap e s
  | .ok (_, b) => .next (s.setX o.d (b.word s.cur.1)))

/-! ### Events -/

/-- BARRIER_HELD_PHASE_COMPLETE -/
def execBarrierHeldPhaseComplete (dev : Bool) (die idx : Nat) (s : State) : Outcome :=
  let k : BarKey := ⟨dev, die, idx⟩
  if (s.barrier k).completing then .next (completePhase s k) else .next s

/-- The wait in progress of a context at a barrier ends in a way. -/
def Ctx.endWait (t : Ctx) (k : BarKey) (ended : BarWait → Bool) (how : Nat) : Ctx :=
  match t.waitAt k with
  | some w => if w.ends.isNone && ended w then { t with barWait := some { w with ends := some how } } else t
  | none => t

/-- The waits on a barrier that a condition holds of, with their cores. -/
def waitsAt (s : State) (k : BarKey) (ended : BarWait → Bool) : List (Nat × BarWait) :=
  (s.cores.map (fun e => (List.range 8).filterMap (fun x =>
    ((e.2.ctx x).waitAt k).filter (fun w => w.ends.isNone && ended w) |>.map (fun w => (e.1, w))))).flatten

/-- Every wait on a barrier that a condition holds of ends at once (R283, R285). -/
def endWaits (s : State) (k : BarKey) (ended : BarWait → Bool) (how : Nat) : State := s.mapCtxs (fun _ _ t => t.endWait k ended how)

/-- BARRIER_COMPLETION_NOTICE: every wait on a completed phase ends in the same cycle (R283). -/
def execBarrierCompletionNotice (dev : Bool) (die idx : Nat) (s : State) : Outcome :=
  let k : BarKey := ⟨dev, die, idx⟩
  let b := s.barrier k
  let ended := fun (w : BarWait) => !w.third && decide (w.seq < b.seq)
  let b1 := (waitsAt s k ended).foldl (fun q e => e.2.close q e.1) { b with noticed := b.seq }
  .next (endWaits (s.setBarrier k b1) k ended 0)

/-- BARRIER_TIMEOUT: once per phase. -/
def execBarrierTimeout (dev : Bool) (die idx : Nat) (s : State) : Outcome :=
  let k : BarKey := ⟨dev, die, idx⟩
  let b := s.barrier k
  match b.first with
  | some f =>
    if b.timeout ≠ 0 ∧ !b.raised ∧ f + sliceTicks b.timeout ≤ s.now then
      .next ((s.setBarrier k { b with raised := true }).notify (.barrierTimeout dev die idx))
    else .next s
  | none => .next s

/-! ### ofence and xfence (R85, R353, R355): accesses of threads are performed in program order (log 6) -/

/-- What a fence with E in a set orders (R353): the thread's earlier writes or acts before the commands it submits later (R357), or its
earlier commands' acceptance before its later accesses. -/
def Ctx.fenced (t : Ctx) (pred succ : BitVec 4) (writes now : Nat) : Ctx :=
  let e := fun (b : BitVec 4) => b.getLsbD 2
  { t with fenceW := if pred.getLsbD 1 && e succ then writes else t.fenceW,
           fenceA := if pred.getLsbD 3 && e succ then writes else t.fenceA,
           fenceER := if e pred && succ.getLsbD 0 then now else t.fenceER,
           fenceEW := if e pred && succ.getLsbD 1 then now else t.fenceEW,
           fenceEA := if e pred && succ.getLsbD 3 then now else t.fenceEA }

/-- ofence: the thread's commands lie in every scope (Table 13-4). -/
def execOfence (scope : Reg) (pred succ : BitVec 4) (s : State) : Outcome :=
  finish (fenceOp (decide (4 ≤ scope.toNat)) (pred.getLsbD 1) (s.modHart (fun t => t.fenced pred succ s.past.length s.now)))

/-- The cores whose threads and engines a fence of the running hart names at core or gang scope; at die scope its own stands for its die. -/
def State.scopeCores (s : State) (scope : Nat) : List Nat :=
  match scope, s.hart.gang with
  | 2, some g => g.members
  | _, _ => [s.cur.1]

/-- xfence: the thread's writes leave the stash (R329) and are visible to the commands in its scope that follow it (R355). -/
def execXfence (scope : Reg) (s : State) : Outcome :=
  let me := s.threadOf s.cur.1 s.cur.2
  let r : Reach := { scope := scope.toNat, tick := s.now, thread := me, cores := s.scopeCores scope.toNat }
  let s1 := cleanStash s s.cur.1
  finish (.next (({ s1 with past := s1.past.map (fun (w : Past) => if w.thread = some me then { w with reach := r :: w.reach } else w) }).modHart
    (fun t => t.fenced 15 15 s.past.length s.now)))

end Sys2Proof.Machine
end

