-- ==== Sys2Proof/Machine/Acts.lean ====
section
/-! DEFINITION. Slice acts (R233 to R239): the act word and its operations, a routine's run on a line, act and vact, and the install
forms. -/
namespace Sys2Proof.Machine

/-! ### The act word (R87, Table 08-5) -/

/-- The fields of an act word (Table 03-12). -/
structure ActWord where
  op : Nat
  d : Nat
  a : Nat
  b : Nat
  imm : Nat
  deriving DecidableEq, Repr

def actFields (w : Nat) : ActWord :=
  { op := w / (1 <<< 26) % 64, d := w / (1 <<< 21) % 32, a := w / (1 <<< 16) % 32, b := w / (1 <<< 11) % 32, imm := w % 2048 }

/-- Which of d, a, b and imm an op uses. -/
def actUses (op : Nat) : Bool × Bool × Bool × Bool :=
  match op with
  | 0 => (false, false, false, false)
  | 1 => (true, true, false, true)
  | 2 => (true, true, false, true)
  | 3 => (false, true, true, true)
  | 4 => (false, true, true, true)
  | 6 => (true, true, false, true)
  | 22 => (true, true, true, true)
  | 23 => (true, true, true, true)
  | 24 => (true, true, false, true)
  | 25 => (false, true, false, true)
  | 26 => (false, true, true, true)
  | 27 => (true, false, false, true)
  | 28 => (true, true, false, false)
  | 29 => (true, true, false, false)
  | _ => (true, true, true, false)

/-- The bits of imm an op may set. -/
def actImmOk (op imm : Nat) : Bool :=
  match op with
  | 22 => decide (imm < 8)
  | 23 => decide (imm < 16)
  | 24 => imm % 8 == 0 && decide (imm < 128)
  | 25 => imm % 8 == 0 && decide (imm < 128)
  | 26 => imm % 8 == 0 && decide (imm < 128)
  | 27 => imm % 8 == 0 && decide (imm < 128)
  | _ => true

/-- The word is a legal act op. -/
def ActWord.legal (w : ActWord) : Bool :=
  let u := actUses w.op
  decide (w.op < 30) && decide (w.d < 16) && decide (w.a < 16) && decide (w.b < 16) &&
    (u.1 || w.d == 0) && (u.2.1 || w.a == 0) && (u.2.2.1 || w.b == 0) && (u.2.2.2 || w.imm == 0) && actImmOk w.op w.imm

/-- Cycles of an op. -/
def ActWord.cycles (w : ActWord) : Nat := if 24 ≤ w.op ∧ w.op ≤ 27 then 2 else 1

/-! ### The shadow of the line -/

/-- Word j of the line at 64 bits (wide) or 32. -/
def lineGet (wide : Bool) (l j : Nat) : Nat :=
  let w := if wide then 64 else 32
  lowBits (l >>> (w * j)) w

def linePut (wide : Bool) (l j v : Nat) : Nat :=
  let w := if wide then 64 else 32
  setBits l (w * j) w v

/-- A comparison of acmp and alcmp at a width: codes 0 to 5. -/
def actCond (code w x y : Nat) : Bool :=
  match code with
  | 0 => x == y
  | 1 => x != y
  | 2 => decide (toInt w x < toInt w y)
  | 3 => decide (x < y)
  | 4 => decide (toInt w x ≤ toInt w y)
  | _ => decide (x ≤ y)

def actFmt (wide : Bool) : FFmt := if wide then .fp64 else .fp32
def fpLess (f : FFmt) (x y : Nat) : Bool := (f.decode x).lt (f.decode y)
def fpLessEq (f : FFmt) (x y : Nat) : Bool := fpLess f x y || (f.decode x).eq (f.decode y)

/-- The mask of alcmp. -/
def lineMask (wide : Bool) (l code y : Nat) : Nat :=
  let w := if wide then 64 else 32
  let v := lowBits y w
  let hit := fun j =>
    match code with
    | 6 => fpLess (actFmt wide) (lineGet wide l j) v
    | 7 => fpLessEq (actFmt wide) (lineGet wide l j) v
    | c => actCond c w (lineGet wide l j) v
  (List.range (if wide then 16 else 32)).foldl (fun a j => if hit j then a + 1 <<< j else a) 0

/-- alshd: words move up from word a. -/
def lineShift (wide : Bool) (l a : Nat) : Nat :=
  let n := if wide then 16 else 32
  (List.range n).foldl (fun m j => if a < j then linePut wide m j (lineGet wide l (j - 1)) else m) l

/-- One step of alred's fold. -/
def foldStep (wide : Bool) (code x y : Nat) : Nat :=
  let w := if wide then 64 else 32
  match code with
  | 0 => lowBits (x + y) w
  | 1 => if toInt w x ≤ toInt w y then x else y
  | 2 => if toInt w y ≤ toInt w x then x else y
  | 3 => min x y
  | 4 => max x y
  | 5 => (minMax (actFmt wide) false x y).1
  | 6 => (minMax (actFmt wide) true x y).1
  | _ => Nat.lor x y

def lineFold (wide : Bool) (l code : Nat) : Nat :=
  let n := if wide then 16 else 32
  let r := (List.range (n - 1)).foldl (fun a j => foldStep wide code a (lineGet wide l (j + 1))) (lineGet wide l 0)
  if !wide && (code == 1 || code == 2) then ofInt 64 (toInt 32 r) else r

def countOnes (v : Nat) : Nat := (List.range 64).foldl (fun a i => if bitOf v i then a + 1 else a) 0
def trailingZeros (v : Nat) : Nat := ((List.range 64).find? (fun i => bitOf v i)).getD 64

/-! ### One operation -/

/-- What a routine holds: its 16 registers and the shadow. -/
structure ActRun where
  y : List Nat
  line : Nat
  deriving DecidableEq, Repr

def ActRun.reg (r : ActRun) (i : Nat) : Nat := r.y.getD i 0
def ActRun.set (r : ActRun) (i v : Nat) : ActRun := { r with y := r.y.set i (lowBits v 64) }

/-- Effect of a legal op other than adone (Table 08-5). -/
def actStep (w : ActWord) (r : ActRun) : ActRun :=
  let a := r.reg w.a
  let b := r.reg w.b
  let imm := toInt 11 w.imm
  let wide := bitOf w.imm 3
  let code := w.imm / 16 % 8
  match w.op with
  | 1 => r.set w.d (lineGet true r.line (ofInt 64 (a + imm) % 16))
  | 2 => r.set w.d (lineGet false r.line (ofInt 64 (a + imm) % 32))
  | 3 => { r with line := linePut true r.line (ofInt 64 (a + imm) % 16) b }
  | 4 => { r with line := linePut false r.line (ofInt 64 (a + imm) % 32) b }
  | 5 => r.set w.d (a + b)
  | 6 => r.set w.d (ofInt 64 (a + imm))
  | 7 => r.set w.d (ofInt 64 ((a : Int) - b))
  | 8 => r.set w.d (Nat.land a b)
  | 9 => r.set w.d (Nat.lor a b)
  | 10 => r.set w.d (Nat.xor a b)
  | 11 => r.set w.d (a <<< (b % 64))
  | 12 => r.set w.d (a >>> (b % 64))
  | 13 => r.set w.d (ofInt 64 (toInt 64 a >>> (b % 64)))
  | 14 => r.set w.d (if toInt 64 a ≤ toInt 64 b then a else b)
  | 15 => r.set w.d (min a b)
  | 16 => r.set w.d (if toInt 64 b ≤ toInt 64 a then a else b)
  | 17 => r.set w.d (max a b)
  | 18 => r.set w.d (minMax .fp32 false (lowBits a 32) (lowBits b 32)).1
  | 19 => r.set w.d (minMax .fp32 true (lowBits a 32) (lowBits b 32)).1
  | 20 => r.set w.d (minMax .fp64 false a b).1
  | 21 => r.set w.d (minMax .fp64 true a b).1
  | 22 =>
    let hit := match w.imm % 8 with
      | 6 => fpLess .fp32 (lowBits a 32) (lowBits b 32)
      | 7 => fpLess .fp64 a b
      | c => actCond c 64 a b
    r.set w.d hit.toNat
  | 23 => r.set w.d (if r.reg (w.imm % 16) ≠ 0 then a else b)
  | 24 => r.set w.d (lineMask wide r.line code a)
  | 25 => { r with line := lineShift wide r.line a }
  | 26 => if a < (if wide then 16 else 32) then { r with line := linePut wide r.line a b } else r
  | 27 => r.set w.d (lineFold wide r.line code)
  | 28 => r.set w.d (countOnes a)
  | _ => r.set w.d (trailingZeros a)

/-- How a routine ends: its result and the line, or a status and a word index. -/
inductive ActEnd where
  | ok (result line : Nat)
  | abort (status word : Nat)
  deriving DecidableEq, Repr

/-- Runs the words from index i at a cost so far (R237, R238). -/
def actLoop (i cost : Nat) (r : ActRun) : List Nat → ActEnd
  | [] => .abort 2 31
  | w :: ws =>
    let f := actFields w
    if !f.legal then .abort 2 i
    else if i = 31 ∧ f.op ≠ 0 then .abort 2 31
    else if 40 < cost + f.cycles then .abort 3 i
    else if f.op = 0 then .ok (r.reg 0) r.line
    else actLoop (i + 1) (cost + f.cycles) (actStep f r) ws

/-- A routine of 32 words on a line, with y0 and y1. -/
def runRoutine (words : List Nat) (y0 y1 line : Nat) : ActEnd :=
  actLoop 0 4 { y := [y0, y1] ++ List.replicate 14 0, line := line } words

/-! ### The routine table and the slices' caches (R233) -/

/-- The translation of the routine table, for hart (c, x): its address space's, at supervisor privilege (log 18). -/
def tableXlat (c : Nat) (satp : Word) : Xlat := { satp := satp, priv := .S, sum := true, tlb := some (c, false), stash := false }

/-- The 32 words of an entry, read as an act's access by a thread (Table 13-1). -/
def readEntry (s : State) (c x : Nat) (satp actbase : Word) (id : Nat) : Res (List Nat × State) :=
  let va := engVa satp (actbase.toNat + 128 * id)
  let t := tableXlat c satp
  (translate s t .load va).bind (fun p =>
    if regionOf s p.pa ≠ .dram then .trap { cause := 5, tval := va }
    else if s.blocked c x .A p.pa 128 then .wait
    else match s.badIn p.pa 128 with
    | some k => .trap { cause := 46, tval := va, retire := some (k * 32 / 4096) }
    | none =>
      let r := (recallRead (s.noted s t .load va) none p.pa 128).readPlace c p 128 8 noMiss
      .done ((List.range 32).map (fun i => r.1 / (1 <<< (32 * i)) % (1 <<< 32)), r.2))

def installedMask (s : State) (asid : Nat) : BitVec 32 := SMap.get 0 s.installed asid

/-- The home slice of a line, among all of the device. -/
def sliceOf (s : State) (line : Nat) : Nat := 31 * homeDie s line + homeSlice line

def Copies.routinesAt (k : Copies) (slice : Nat) : List Routine := SMap.get [] k.routines slice

/-- A slice uses a routine: it is the latest used of at most 32. -/
def Copies.useRoutine (k : Copies) (slice : Nat) (r : Routine) : Copies :=
  let rest := (k.routinesAt slice).filter (fun e => !(e.asid == r.asid && e.id == r.id))
  { k with routines := k.routines.put slice ((r :: rest).take 32) }

/-- Every slice drops its copy of a routine (R234). -/
def Copies.dropRoutine (k : Copies) (asid id : Nat) : Copies :=
  { k with routines := k.routines.map (fun e => (e.1, e.2.filter (fun r => !(r.asid == asid && r.id == id)))) }

/-- The routine of a request at its slice: cached, or fetched whole. -/
def routineFor (s : State) (q : ActReq) : Res (List Nat × State) :=
  let slice := sliceOf s (lineOf q.addr)
  let use := fun (u : State) ws => (ws, { u with copies := u.copies.useRoutine slice ⟨q.asid, q.id, ws⟩ })
  match (s.copies.routinesAt slice).find? (fun e => e.asid == q.asid && e.id == q.id) with
  | some e => .done (use s e.words)
  | none => (readEntry s q.core q.ctx q.satp q.actbase q.id).bind (fun r => .done (use r.2 r.1))

/-- The bytes of the line of a request: device memory, or the host's (log 29). -/
def actLine (s : State) (q : ActReq) : Nat × State :=
  match regionOf s q.addr with
  | .host off => hostLoad s off 128
  | _ => (s.peek q.addr 128, s)

/-- The end of one request at its line; none while its routine cannot be read yet. -/
def actEnd (s : State) (q : ActReq) : Option (ActEnd × State) :=
  if q.actbase = 0 ∨ !(installedMask s q.asid).getLsbD q.id then some (.abort 1 0, s)
  else match routineFor s q with
  | .wait => none
  | .trap e => some (.abort 5 0, retireFor s e)
  | .done (ws, u) =>
    if (u.badIn q.addr 128).isSome then some (.abort 4 0, u)
    else
      let l := actLine u q
      some (runRoutine ws q.arg0.toNat q.arg1.toNat l.1, l.2)

/-- The stval of an aborted request (Table 08-1). -/
def actTval (id status word : Nat) : Nat := status + id * 256 + word * 65536

/-- The result or abort of a request reaches its thread. -/
def actAnswer (q : ActReq) (e : ActEnd) (w : ActWait) : ActWait :=
  match e with
  | .ok r _ => { w with left := w.left - 1, results := w.results.put q.elem (BitVec.ofNat 64 r) }
  | .abort st i => { w with left := w.left - 1, aborts := w.aborts.put q.elem (actTval q.id st i) }

/-- The line after a request, and the page of uncorrectable data (R237, R238). -/
def actCommit (s : State) (q : ActReq) (e : ActEnd) : State :=
  match e, regionOf s q.addr with
  | .ok _ line, .host off => hostStore s off 128 line
  | .ok _ line, _ => s.storePhys (some (q.core, q.ctx)) none q.addr 128 line (act := true)
  | .abort 4 _, _ => match s.badIn q.addr 128 with
    | some k => s.retirePage (k * 32 / 4096)
    | none => s
  | .abort 1 _, _ | .abort 5 _, _ => s
  | _, _ => recallWrite s none q.addr 128

/-- The requests of a line that may be performed next: of each instruction its lowest element on the line (R239). -/
def nextActs (s : State) (line : Nat) : List ActReq :=
  let mine := s.acts.filter (fun q => lineOf q.addr == line)
  mine.filter (fun q => !mine.any (fun p => p.core == q.core && p.ctx == q.ctx && p.tag == q.tag && decide (p.elem < q.elem)))

/-- ACT_PERFORM: the next request of a line is performed at its home slice, once no engine owns the line (R362). Requests of different
threads have left their cores at times of their own and arrive in a free order (R473). -/
def execActPerform (line : Nat) (s : State) : Outcome :=
  let l := nextActs s line
  let ch := s.choose l.length
  match l[ch.1]? with
  | none => .next s
  | some q =>
    let again := ch.2.later (.actPerform line)
    if ch.2.blocked q.core q.ctx .A q.addr 128 then .next again
    else match actEnd ch.2 q with
    | none => .next again
    | some (e, u) =>
      let s1 := actCommit { u with acts := u.acts.erase q } q e
      let t := s1.thr q.core q.ctx
      match t.act with
      | none => .next s1
      | some w =>
        if w.tag ≠ q.tag then .next s1
        else
          let w1 := actAnswer q e w
          let s2 := s1.setThr q.core q.ctx { t with act := some w1 }
          .next (if w1.vector ∧ w1.left = 0 then s2.later (.vactComplete q.core q.ctx) else s2)

/-! ### act (R235) -/

/-- The place an act addresses: translated as a store of one byte; device-class memory and a closed host window fault. -/
def actPlace (s : State) (va : Nat) : Res PAddr :=
  (translate s s.hart.dataXlat .store va).bind (fun p =>
    if p.cls = .io ∨ hostShut s p then .trap { cause := 7, tval := va } else .done p)

/-- Sends a request for an element. -/
def sendAct (s : State) (id elem tag : Nat) (va : Nat) (arg : Word) (p : PAddr) : State :=
  let t := s.hart
  let q : ActReq := { core := s.cur.1, ctx := s.cur.2, elem := elem, id := id, asid := asidOf t.std.satp, satp := t.std.satp,
                      actbase := t.dev.actbase, addr := lineOf p.pa * 128, tag := tag, arg0 := arg,
                      arg1 := BitVec.ofNat 64 (va % 128) }
  { s.noted s t.dataXlat .store va with acts := s.acts ++ [q] }.later (.actPerform (lineOf p.pa))

def invoke (o : OpAct) (status : Bool) (s : State) : Body :=
  match s.hart.act with
  | some w =>
    if w.left ≠ 0 then .wait s
    else
      let s1 := s.modHart (fun t => { t with act := none })
      match w.aborts with
      | (_, tv) :: _ =>
        if status then .next (s1.setX o.d (BitVec.ofNat 64 ((1 <<< 63) + tv % 256))) else .trap { cause := 27, tval := tv } s1
      | [] => .next (s1.setX o.d (SMap.get 0 w.results 0))
  | none =>
    let va := (s.xr o.s1).toNat
    (actPlace s va).body s (fun p =>
      let tag := s.fresh
      let s1 := sendAct { s with fresh := s.fresh + 1 } o.id.toNat 0 tag va (s.xr o.s2) p
      .wait (s1.modHart (fun t => { t with act := some { vector := false, status := status, vd := o.d.toNat, left := 1,
                                                          word := s.fetched, tag := tag } })))

/-- act -/
def execAct (o : OpAct) (s : State) : Outcome := finish (invoke o false s)
/-- act.s -/
def execActS (o : OpAct) (s : State) : Outcome := finish (invoke o true s)

/-! ### vact (R239) -/

/-- The registers r … r + n − 1 of hart (c, x) as one number. -/
def State.groupAt (s : State) (c x r : Nat) : Nat → Nat
  | 0 => 0
  | n + 1 => lowBits (s.rawV c x r) (s.thr c x).vlen + (s.groupAt c x (r + 1) n) <<< (s.thr c x).vlen

/-- The value of an element of a finished vact. -/
def actElem (w : ActWait) (i : Nat) : Nat :=
  match w.aborts.find? (fun e => e.1 == i) with
  | some (_, tv) => if w.status then (1 <<< 63) + tv % 256 else 0
  | none => (SMap.get 0 w.results i).toNat

/-- VACT_COMPLETE: the elements are written and vd is full. -/
def execVactComplete (core ctx : Nat) (s : State) : Outcome :=
  let t := s.thr core ctx
  match t.act with
  | none => .next s
  | some w =>
    if !w.vector ∨ w.left ≠ 0 then .next s
    else
      let sh := t.shape
      let val := writeFrame sh (t.frameOf false 0) (s.groupAt core ctx w.vd sh.g) (actElem w)
      .next (landRegs s core ctx { vd := w.vd, count := sh.g, vlen := sh.vlen, val := val } sh.g)

/-- Every active element's place, or the lowest element whose translation faults. -/
def actPlaces (s : State) (va : Nat → Nat) : List Nat → Except (Nat × Exc) (List (Nat × PAddr))
  | [] => .ok []
  | i :: rest =>
    match actPlace s (va i) with
    | .done p =>
      match actPlaces s va rest with
      | .ok l => .ok ((i, p) :: l)
      | .error e => .error e
    | .trap e => .error (i, e)
    | .wait => .error (i, { cause := 7, tval := va i })

def vactInfo (o : OpAct) (s : State) : VInfo :=
  let sh := s.shape
  let fr := s.frame false
  { ok := s.hart.dev.ewCode == 4, apart := true, n := sh.n, srcs := [(o.s1.toNat, sh.g), (o.s2.toNat, sh.g)],
    dst := [(o.d.toNat, sh.g)], charge := chargeFor fr.count 64 2, active := fr.on }

/-- Sends the requests of a vact, in element order, or completes it where no element is active. -/
def vactSend (o : OpAct) (status : Bool) (u : State) : Body :=
  let sh := u.shape
  let fr := u.frame false
  let a := u.getGroup o.s1.toNat sh.g
  let b := u.getGroup o.s2.toNat sh.g
  match actPlaces u (sh.get a) ((List.range fr.vgrant).filter fr.on) with
  | .error (i, e) => .trap e (u.setVstart i)
  | .ok [] => .next (writeElems u sh false o.d (fun _ => (0, 0)))
  | .ok l =>
    let tag := u.fresh
    let u1 := l.foldl (fun q e => sendAct q o.id.toNat e.1 tag (sh.get a e.1) (BitVec.ofNat 64 (sh.get b e.1)) e.2)
      { u with fresh := u.fresh + 1 }
    .stay (u1.modHart (fun t =>
      { t with act := some { vector := true, status := status, vd := o.d.toNat, left := l.length, word := u.fetched, tag := tag }
        }.setFullGroup o.d.toNat false sh.g))

/-- The lowest aborted element of a vact and the stval that names it. -/
def vactAbort (w : ActWait) : Option Exc :=
  if w.status then none
  else match w.aborts with
  | (i, tv) :: _ => some { cause := 27, tval := tv + i % 65536 * (1 <<< 32) }
  | [] => none

/-- A vact whose results are back completes; an abort is then raised at the next instruction. -/
def vactFinish (o : OpAct) (w : ActWait) (s : State) : Body :=
  let i := vactInfo o s
  let s1 := closeBound s ((s.modHart (fun t => { t with act := none })).modHart Ctx.zeroStart) i
  match vactAbort w with
  | none => .next s1
  | some e => .stay (takeException (s1.nextPc.modHart Ctx.retired) e)

def vinvoke (o : OpAct) (status : Bool) (s : State) : Body :=
  match s.hart.act with
  | some w =>
    if w.left = 0 ∧ s.hart.isFull w.vd then vactFinish o w s else .wait s
  | none => vec s (vactInfo o s) (vactSend o status)

/-- vact -/
def execVact (o : OpAct) (s : State) : Outcome := finish (vinvoke o false s)
/-- vact.s -/
def execVactS (o : OpAct) (s : State) : Outcome := finish (vinvoke o true s)

/-! ### Installing (R234) -/

/-- What an install answers: its status, and the state it leaves. It reads the entry as hart (c, x). -/
def install (s : State) (c x asid : Nat) (satp actbase : Word) (id : Nat) (arg : Word) : Res (Nat × State) :=
  let put := fun (u : State) (b : Bool) =>
    let m := installedMask u asid
    { u with installed := u.installed.put asid (if b then m ||| (1#32 <<< id) else m &&& ~~~(1#32 <<< id)),
             copies := u.copies.dropRoutine asid id }
  if arg.toNat / 2 ≠ 0 then .done (6, s)
  else if actbase = 0 then .done (1, s)
  else if !arg.getLsbD 0 then .done (0, put s false)
  else match readEntry s c x satp actbase id with
  | .wait => .wait
  | .trap e => .done (5, retireFor s e)
  | .done (ws, u) =>
    match runRoutine ws 0 0 0 with
    | .ok _ _ => .done (0, put u true)
    | .abort st i => .done (st + i * 65536, u)

def installOp (rd rs2 : Reg) (id : BitVec 5) (s : State) : Body :=
  let t := s.hart
  if t.priv == .U then illegal s
  else (install s s.cur.1 s.cur.2 (asidOf t.std.satp) t.std.satp t.dev.actbase id.toNat (s.xr rs2)).body s (fun r =>
    .next (r.2.setX rd (BitVec.ofNat 64 r.1)))

/-- act.inst -/
def execActInst (rd rs2 : Reg) (id : BitVec 5) (s : State) : Outcome := finish (installOp rd rs2 id s)
/-- act.inst.s -/
def execActInstS (rd rs2 : Reg) (id : BitVec 5) (s : State) : Outcome := finish (installOp rd rs2 id s)

end Sys2Proof.Machine
end

