-- ==== Sys2Proof/Machine/System.lean ====
section
/-! DEFINITION. The system class of custom-3: the handler bank's moves (R214), the margin window (R240), gangs (R241, R242), vrel
(R243), and quarantine (R244, R449). -/
namespace Sys2Proof.Machine

/-! ### hbsave and hbload (R214) -/

def bankSave (rs1 : Reg) (s : State) : Body :=
  let t := s.hart
  let a := (s.xr rs1).toNat
  if t.priv == .U then illegal s
  else if a % 8 ≠ 0 then .trap { cause := 6, tval := a } s
  else (plainPut s t.dataXlat a [t.dev.hvtype, t.dev.hvgrant, t.dev.hvstart]).body s (fun s1 =>
    .next (s1.modHart (fun h => { h with dev := { h.dev with hvValid := false } })))

def bankLoad (rs1 : Reg) (s : State) : Body :=
  let t := s.hart
  let a := (s.xr rs1).toNat
  if t.priv == .U then illegal s
  else if a % 8 ≠ 0 then .trap { cause := 4, tval := a } s
  else (plainWords s t.dataXlat a 3).body s (fun r =>
    .next (r.2.modHart (fun h => { h with dev := { h.dev with
      hvtype := wordAt r.1 0, hvgrant := wordAt r.1 1, hvstart := wordAt r.1 2, hvValid := true } })))

/-- hbsave -/
def execHbsave (rs1 : Reg) (s : State) : Outcome := finish (bankSave rs1 s)
/-- hbload -/
def execHbload (rs1 : Reg) (s : State) : Outcome := finish (bankLoad rs1 s)

/-! ### mgnsafe and mgnrel (R240) -/

/-- The supply stands at guaranteed margin, or is held there (R239). -/
def Margin.guaranteed (m : Margin) : Bool := m.hold || m.supply == 0

/-- Opens or lengthens the window to the larger of what remains and n cycles from now. -/
def openSafe (s : State) (c n : Nat) : State :=
  let stop := max (s.core c).margin.safe (s.coreCycle c + n)
  (s.modCore c (fun k => { k with margin := { k.margin with safe := stop } })).after
    (stop * Config.corePeriod (classOf c) - s.now) (.mgnsafeExpire c)

def marginSafe (rs1 : Reg) (s : State) : Body :=
  let c := s.cur.1
  let n := min (s.xr rs1).toNat (1 <<< 20)
  if n = 0 then .next s
  else if (s.core c).margin.guaranteed then .next (openSafe s c n)
  else .wait (armRegulator (s.modHart (fun t => { t with mgnWait := true })) c)

/-- mgnsafe -/
def execMgnsafe (rs1 : Reg) (s : State) : Outcome := finish (marginSafe rs1 s)

/-- Ends the window: the core returns to its trim. -/
def closeSafe (s : State) (c : Nat) : State :=
  armRegulator (s.modCore c (fun k => { k with margin := { k.margin with safe := 0 } })) c

/-- mgnrel -/
def execMgnrel (s : State) : Outcome := finish (.next (closeSafe s s.cur.1))

/-- MGNSAFE_EXPIRE -/
def execMgnsafeExpire (core : Nat) (s : State) : Outcome :=
  let m := (s.core core).margin
  .next (if m.safe ≠ 0 ∧ m.safe ≤ s.coreCycle core then closeSafe s core else s)

/-! ### Gangs (R241, R242) -/

/-- The harts of a block that have issued gjoin with a shape. -/
def joiners (s : State) (block : List Nat) (shape : Nat) : List (Nat × Nat) :=
  (block.map (fun m => ((List.range 8).filter (fun x => (s.thr m x).joining.any (fun j => j.1 == shape))).map (fun x => (m, x)))).flatten

/-- The core cycle of the first gjoin of a block. -/
def firstJoin (s : State) (js : List (Nat × Nat)) (now : Nat) : Nat :=
  js.foldl (fun a h => match (s.thr h.1 h.2).joining with | some j => min a j.2 | none => a) now

/-- Every joiner completes with a status. -/
def refuseJoin (s : State) (js : List (Nat × Nat)) (st : Nat) : State :=
  js.foldl (fun u h => u.modThr h.1 h.2 (fun t => { t with joining := none, joinStatus := some st })) s

/-- Forms the gang: the leader goes on with status 0, the members are held. -/
def formGang (s : State) (block : List Nat) (x : Nat) : State :=
  (List.zip (List.range block.length) block).foldl (fun u e =>
    u.modThr e.2 x (fun t =>
      { t with gang := some { members := block, pos := e.1, preVlen := t.vlen, rd := t.joinRd }, joining := none,
               joinStatus := if e.1 = 0 then some 0 else none,
               status := if e.1 = 0 then t.status else .held })) s

/-- A thread that may not join: an active binding or loop buffer, or a gang it is in. -/
def Ctx.noJoin (t : Ctx) : Bool := !t.binds.isEmpty || t.loop.active || t.gang.isSome

/-- The context index at which every core of a block has issued gjoin. -/
def commonJoin (block : List Nat) (js : List (Nat × Nat)) : Option Nat :=
  (List.range 8).find? (fun x => block.all (fun m => js.contains (m, x)))

/-- The joiners of a block cannot form a gang: bindings, a loop buffer, a gang already, or classes that differ. -/
def joinUnfit (s : State) (js : List (Nat × Nat)) : Bool :=
  js.any (fun h => (s.thr h.1 h.2).noJoin || js.any (fun g => (s.thr h.1 h.2).cls != (s.thr g.1 g.2).cls))

/-- What the block comes to once every member has issued gjoin, or its time is over (Table 08-9, in its order). -/
def joinBlock (s : State) (block : List Nat) (shape : Nat) (late : Bool) : State :=
  let js := joiners s block shape
  match commonJoin block js with
  | some x =>
    let mine := js.filter (fun h => h.2 == x)
    if joinUnfit s mine then refuseJoin s mine 3 else formGang s block x
  | none =>
    if block.all (fun m => js.any (fun h => h.1 == m)) then refuseJoin s js 2
    else if !late then s
    else if block.any (fun m => !s.coreUp m) || js.any (fun h => js.any (fun g => h.2 != g.2)) then refuseJoin s js 2
    else refuseJoin s js (if joinUnfit s js then 3 else 4)

def gangJoin (o : OpDS) (s : State) : Body :=
  let t := s.hart
  let c := s.cur.1
  let v := (s.xr o.rs1).toNat
  match t.joinStatus with
  | some st => .next ((s.modHart (fun h => { h with joinStatus := none })).setX o.d (BitVec.ofNat 64 st))
  | none =>
    if v ≠ 1 ∧ v ≠ 2 then .next (s.setX o.d 5)
    else if t.joining.isSome then .wait s
    else
      let block := gangBlock c v
      let first := firstJoin s (joiners s block v) (s.coreCycle c)
      let s1 := s.modHart (fun h => { h with joining := some (v, first), joinRd := o.d.toNat })
      let s2 := s1.after ((first + Config.gjoinLimit) * Config.corePeriod (classOf c) - s1.now) (.gjoinTimeout c s.cur.2)
      .wait (joinBlock s2 block v false)

/-- gjoin -/
def execGjoin (o : OpDS) (s : State) : Outcome := finish (gangJoin o s)

/-- GJOIN_TIMEOUT: 2^16 core cycles after the block's first gjoin its joiners are refused. -/
def execGjoinTimeout (core ctx : Nat) (s : State) : Outcome :=
  match (s.thr core ctx).joining with
  | none => .next s
  | some (shape, first) =>
    if first + Config.gjoinLimit ≤ s.coreCycle core then
      .next (joinBlock s (gangBlock core shape) shape true)
    else .next s

/-- A gang kmma or gang kcoll of hart (c, x) is waiting or running. -/
def gangWork (s : State) (c x : Nat) : Bool :=
  (s.core c).nodes.any (fun e => (e.2.st == .waiting || e.2.st == .running) && e.2.ctx == x &&
    ((e.2.kind == 1 && !e.2.members.isEmpty) || (e.2.kind == 7 && e.2.collScope == 0)))

/-- A held member resumes after its gjoin with status 1 and its own length. -/
def Ctx.resumeMember (t : Ctx) (g : Gang) : Ctx :=
  ({ t.retired with status := .running, pc := t.pc + 4, vlen := g.preVlen, gang := none }).setX (BitVec.ofNat 5 g.rd) 1

def gangLeave (s : State) : Body :=
  let c := s.cur.1
  let x := s.cur.2
  match s.hart.gang with
  | none => .next s
  | some g =>
    if g.pos ≠ 0 then .next s
    else if s.hart.busyVector || gangWork s c x then .wait s
    else
      let s1 := (g.members.drop 1).foldl (fun u m => u.modThr m x (fun t =>
        match t.gang with
        | some h => t.resumeMember h
        | none => t)) s
      .next (s1.modHart (fun t => { t with gang := none }))

/-- gleave -/
def execGleave (s : State) : Outcome := finish (gangLeave s)

/-! ### vrel (R243) -/

def release (s : State) : Body :=
  let t := s.hart
  if !t.dev.reclPend then .next s
  else
    let len := min t.vlen (s.lRcl s.cur.1 s.cur.2)
    let s1 := if len < t.vlen then zeroAbove s len else s
    let s2 := (s1.setVlen len).modHart (fun h =>
      if h.dev.vill then h
      else { h with dev := { h.dev with vgrant := BitVec.ofNat 16 (min h.dev.vgrant.toNat h.vlmax) } })
    .next (releaseReclaim s2 s2.cur.1 s2.cur.2)

/-- vrel -/
def execVrel (s : State) : Outcome := finish (release s)

/-! ### Quarantine (R449) -/

/-- Pending and running tasks of a core (R297). -/
def taskLoad (s : State) (c : Nat) : Nat :=
  let k := s.core c
  ((List.range 8).filter (fun x => (k.ctx x).task.isSome)).length + k.deque.length + k.overflow.length

/-- The core of a list with the fewest tasks, the lowest id first. -/
def leastLoaded (s : State) : List Nat → Option Nat
  | [] => none
  | c :: l =>
    match leastLoaded s l with
    | none => some c
    | some b => if taskLoad s b < taskLoad s c then some b else some c

/-- Cores of a die and column class that take tasks. -/
def takers (s : State) (die cls : Nat) : List Nat :=
  ((List.range 96).map (· + die * 96)).filter (fun c => s.coreUp c && classOf c == cls)

/-- Moves the records of a quarantined core's deque, bottom first, to the tops of other cores of its class and die; those that find no
core are lost. -/
def moveRecords (s : State) (die cls : Nat) : List TaskRec → State × List TaskRec
  | [] => (s, [])
  | r :: rest =>
    match leastLoaded s (takers s die cls) with
    | none => let q := moveRecords s die cls rest; (q.1, r :: q.2)
    | some c => moveRecords (rouseCore (pushTop s c r) c) die cls rest

/-- The harts whose tasks a core's quarantine ends: its own contexts and every member of a gang that holds one. -/
def lostHarts (s : State) (q : Nat) : List (Nat × Nat) :=
  (((List.range 8).filter (fun x => (s.thr q x).status != .empty)).map (fun x =>
    match (s.thr q x).gang with
    | some g => g.members.map (fun m => (m, x))
    | none => [(q, x)])).flatten

/-- Ends the commands of a quarantined core's engines: leave is given back, the peers of a kcoll fault, and a target forgets them. -/
def dropCommands (s : State) (q : Nat) : State :=
  ((s.core q).nodes.filter (fun e => e.2.st == .running)).foldl (fun u e =>
    let u1 := releaseLeave u q e.1
    let u2 := if e.2.kind = 7 then faultPeers (u1.modNode q e.1 (fun m => { m with st := .free })) q e.2 e.2.rank else u1
    match e.2.remote with
    | some (t, _) => u2.modCore t (fun k => { k with remotes := k.remotes.filter (fun r => !(r.core == q && r.node == e.1)) })
    | none => u2) s

/-- Commands that other cores sent to the quarantined core fault with 0x21 at their proxy nodes (R209). -/
def dropRemotes (s : State) (q : Nat) : State :=
  (s.core q).remotes.foldl (fun u r =>
    ((releaseLeave u r.core r.node).modNode r.core r.node (fun m => { m with sent := false })).later
      (.remoteCompletion r.core r.node 0x21 (u.node r.core r.node).progress)) s

/-- A sector decodes as uncorrectable from now on (R337, R338). -/
def State.spoil (s : State) (n : Nat) : State := { s with bad := if s.bad.contains n then s.bad else s.bad ++ [n] }

/-- Dirty stash sectors are lost: each becomes uncorrectable and is reported (R338). -/
def loseStash (s : State) (q : Nat) : State :=
  ((s.core q).sectors.filter (fun e => e.2.dirty)).foldl (fun u e =>
    (u.spoil e.2.sector).notify (.lostLine (e.2.sector / 4) e.2.asid)) s

/-- The core after its quarantine. -/
def Core.quarantine (k : Core) (reason : Nat) : Core :=
  { k with ctxs := Vector.ofFn (fun (i : Fin 8) => (k.ctxs[i]).emptied), nodes := [], acc := [], sectors := [], deque := [],
           overflow := [], portBusy := [], remotes := [], steal := {}, gate := { k.gate with claim := none },
           snap := { k.snap with done := true }, margin := { k.margin with hold := false }, quar := { k.quar with reason := BitVec.ofNat 4 reason, quar := true } }

/-- Quarantines a core for a reason (R244, R449). -/
def quarantineCore (s : State) (q reason : Nat) : State :=
  let hs := lostHarts s q
  let lost := hs.filterMap (fun h => (s.thr h.1 h.2).task)
  let s1 := (hs.filter (fun h => h.1 != q)).foldl (fun u h => freeContext u h.1 h.2) s
  let s2 := loseStash (dropRemotes (dropCommands s1 q) q) q
  let s3 := s2.modCore q (fun k => k.quarantine reason)
  let s4 := moveRecords s3 (dieOf q) (classOf q) ((s.core q).deque.reverse ++ (s.core q).overflow.reverse)
  s4.1.notify (.quarantined q (lost ++ s4.2))

/-- cquar -/
def execCquar (rs1 : Reg) (s : State) : Outcome :=
  let q := (s.xr rs1).toNat
  finish (if s.hart.priv != .M then illegal s
    else if q = s.cur.1 then illegal s
    else if 384 ≤ q ∨ !s.coreUp q then .next s
    else .next (quarantineCore s q 3))

/-- OXEIL_QUARANTINE -/
def execOxeilQuarantine (core : Nat) (s : State) : Outcome :=
  if s.coreUp core then .next (quarantineCore s core 3) else .next s

end Sys2Proof.Machine
end

