-- ==== Sys2Proof/Machine/Sched.lean ====
section
/-! DEFINITION. The ringmaster and the cores' choice of work: levels (R293), clusters (R276), the choice of a record (R298 to R300),
the thread at dispatch (R271 to R273, R310, R446, R471), expansion of launches (R265 to R269, R297), stealing (R301, R302), and
lane reclaim (R307 to R309). -/
namespace Sys2Proof.Machine

/-! ### Levels (R293) -/

/-- The level of a record with a base, pending since a tick, under an aging code. -/
def levelOf (now base since code : Nat) : Nat :=
  if 44 ≤ base ∨ code = 0 then base
  else min 43 (base + (now - since) / Config.slicePeriod / (1 <<< (code + 9)))

/-- Ticks until the level rises; none where it does not. -/
def nextRise (now base since code : Nat) : Option Nat :=
  if 43 ≤ levelOf now base since code ∨ code = 0 then none
  else
    let i := sliceTicks (1 <<< (code + 9))
    some (i - (now - since) % i)

def dequeBase (r : TaskRec) : Nat := recPriority r.w4
def queueBase (q : Queue) (r : TaskRec) : Nat := max (recPriority r.w4) q.priority
def dequeAging (s : State) (c : Nat) : Nat := (s.die (dieOf c)).aging.toNat

/-! ### Clusters (R276) -/

/-- Threads of a kind that hold a cluster. -/
def holders (k : Core) (i : Nat) (p : Nat → Bool) : Nat :=
  ((List.range 8).filter (fun x => (k.ctx x).status != .empty && p (k.ctx x).cls && (k.ctx x).clusters.getLsbD i)).length

/-- A cluster serves C2 and C4 threads while one of them holds it, else C1 threads while one holds it, else nobody. -/
def granted (k : Core) (i : Nat) : Bool := holders k i (fun n => n != 1) != 0
def packed (k : Core) (i : Nat) : Bool := !granted k i && holders k i (fun n => n == 1) != 0
def unheld (k : Core) (i : Nat) : Bool := !granted k i && !packed k i

/-- The element of a list with the least measure, the first one on ties. -/
def leastBy (f : Nat → Nat) : List Nat → Option Nat
  | [] => none
  | a :: l =>
    match leastBy f l with
    | none => some a
    | some b => if f b < f a then some b else some a

def pairSet (p : Nat) : BitVec 4 := if p = 0 then 3 else 12

/-- The clusters a thread of a class gets; none where they cannot be had. -/
def clustersFor (k : Core) (cls : Nat) : Option (BitVec 4) :=
  match cls with
  | 1 =>
    match leastBy (fun i => holders k i (fun _ => true)) ((List.range 4).filter (fun i => packed k i && decide (holders k i (fun _ => true) < 8))) with
    | some i => some (1#4 <<< i)
    | none => ((List.range 4).find? (unheld k)).map (fun i => 1#4 <<< i)
  | 2 =>
    match leastBy (fun p => holders k (2 * p) (fun n => n != 1)) ((List.range 2).filter (fun p => granted k (2 * p) && granted k (2 * p + 1))) with
    | some p => some (pairSet p)
    | none => ((List.range 2).find? (fun p => unheld k (2 * p) && unheld k (2 * p + 1))).map pairSet
  | _ => if (List.range 4).all (fun i => !packed k i) then some 15 else none

/-- Clusters of a class code. -/
def clsOfCode (code : Nat) : Nat := match code with | 0 => 1 | 1 => 2 | _ => 4

/-! ### What fits (R298 to R300, R302) -/

/-- The record starts one thread: it is in no gang, or it is one thread's saved context. -/
def TaskRec.single (r : TaskRec) : Bool := r.saved || recGang r.w4 == 0

/-- The cores on which a record dispatched on core c starts threads. -/
def TaskRec.cores (r : TaskRec) (c : Nat) : List Nat := if r.single then [c] else gangBlock c (recGang r.w4)

/-- What a record needs of context x of core c besides clusters. -/
def fitsBut (s : State) (c x : Nat) (r : TaskRec) : Bool :=
  recExpand r.w4 ||
  ((match r.onlyCore with | some k => k == c | none => true) &&
   (!r.saved || decide (r.savedLen ≤ 512 * clsOfCode (recClass r.w4))) &&
   (r.cores c).headD c == c && (r.cores c).all (fun m => s.coreUp m && (s.thr m x).status == .empty))

def fitsClusters (s : State) (c : Nat) (r : TaskRec) : Bool :=
  recExpand r.w4 || (r.cores c).all (fun m => (clustersFor (s.core m) (clsOfCode (recClass r.w4))).isSome)

def fits (s : State) (c x : Nat) (r : TaskRec) : Bool := fitsBut s c x r && fitsClusters s c r

/-! ### Candidates (R298) -/

/-- Where a candidate stands: at an index from the top of the core's deque, or at the head of a queue. -/
inductive Source where
  | deque (ix : Nat)
  | queue (n : Nat) (i : QItem)
  deriving DecidableEq, Repr

structure Cand where
  level : Nat
  src : Source
  task : TaskRec
  deriving DecidableEq, Repr

/-- Candidates of the deque: the bottom 64 entries, nearest the bottom first, of the core's class or requests. -/
def dequeCands (s : State) (c : Nat) : List Cand :=
  let seq := (s.core c).sequence
  let n := seq.length
  ((List.zip (List.range n) seq).drop (n - 64)).reverse.filterMap (fun e =>
    if stealableBy e.2 (classOf c) then
      some ⟨levelOf s.now (dequeBase e.2) e.2.since (dequeAging s c), .deque e.1, e.2⟩
    else none)

def itemLevel (s : State) (q : Queue) (i : QItem) : Nat := levelOf s.now (queueBase q i.task) i.task.since q.aging

/-- The delivery head of a record queue: the highest level, then the mode's order (R293). -/
def Queue.head (s : State) (q : Queue) : Option QItem :=
  let l := q.items.filter q.deliverable
  let top := l.foldl (fun a i => max a (itemLevel s q i)) 0
  bestItem (q.mode != 0) (l.filter (fun i => itemLevel s q i == top))

/-- Candidates of the record queues of the core's die, in increasing queue id. -/
def queueCands (s : State) (c : Nat) : List Cand :=
  s.queues.filterMap (fun e =>
    if e.2.enable && !e.2.broken && e.2.records && queueHome e.1 == dieOf c then
      match e.2.head s with
      | some i =>
        if stealableBy i.task (classOf c) then
          some ⟨itemLevel s e.2 i, .queue e.1 i, i.task⟩
        else none
      | none => none
    else none)

/-- The candidate of the highest level, the first one on ties. -/
def topCand : List Cand → Option Cand
  | [] => none
  | a :: l =>
    match topCand l with
    | none => some a
    | some b => if a.level < b.level then some b else some a

/-- The record an empty context chooses: the fitting candidate of the highest level. -/
def State.choice (s : State) (c x : Nat) : Option Cand :=
  topCand ((dequeCands s c ++ queueCands s c).filter (fun t => fits s c x t.task))

def Source.isHead (n : Nat) (i : QItem) : Source → Bool
  | .queue m j => m == n && j == i
  | .deque _ => false

/-- A lower core of the die is about to choose the same queue head: choices pending together are made in one slice cycle, and the lower
core id gets the head (R298; log 4). -/
def lowerTakes (s : State) (c : Nat) (t : Cand) : Bool :=
  match t.src with
  | .deque _ => false
  | .queue n i => s.agenda.any (fun e => match e with
    | .dispatch d y => decide (d < c) && dieOf d == dieOf c && s.coreUp d && (s.thr d y).status == .empty &&
        (match s.choice d y with | some u => u.src.isHead n i | none => false)
    | _ => false)

/-- The candidate of the highest level fails only for want of clusters on core c (R298). -/
def wantsClusters (s : State) (c : Nat) (t : Cand) : Option Nat :=
  (List.range 8).find? (fun x => (s.thr c x).status == .empty && fitsBut s c x t.task && !fitsClusters s c t.task)

/-! ### Taking a record (R296) -/

/-- Entries nearest the bottom of the overflow move back while the core holds fewer than 64. -/
def refill (far deq : List TaskRec) : List TaskRec × List TaskRec :=
  let n := min far.length (64 - deq.length)
  (far.take (far.length - n), far.drop (far.length - n) ++ deq)

/-- DEQUE_REFILL -/
def execDequeRefill (core : Nat) (s : State) : Outcome :=
  .next (s.modCore core (fun k =>
    if k.deque.length < 48 then
      let r := refill k.overflow k.deque
      { k with overflow := r.1, deque := r.2 }
    else k))

/-- Removes the entry at an index from the top. -/
def removeAt (s : State) (c ix : Nat) : State :=
  let s1 := s.modCore c (fun k =>
    if ix < k.overflow.length then { k with overflow := k.overflow.eraseIdx ix }
    else { k with deque := k.deque.eraseIdx (ix - k.overflow.length) })
  if (s1.core c).deque.length < 48 ∧ (s1.core c).overflow ≠ [] then s1.later (.dequeRefill c) else s1

def takeCand (s : State) (c : Nat) (t : Cand) : State :=
  match t.src with
  | .deque ix => removeAt s c ix
  | .queue n i => wakeDie (s.setQueue n ((SMap.get {} s.queues n : Queue).remove i)) (dieOf c)

/-! ### The thread at dispatch (R272, R273, R421) -/

/-- The context of a thread that starts: user privilege, registers zero and full, everything at its reset value. -/
def Ctx.start (t : Ctx) (cls : Nat) (cl : BitVec 4) (satp actbase : Word) (r : TaskRec) : Ctx :=
  { ({} : Ctx) with status := .running, priv := .U, cls := cls, clusters := cl, vlen := 512 * cls,
                    std := { t.std with satp := satp }, dev := { ({} : DevCsr) with actbase := actbase }, task := some r }

/-- A record's context made ready on core c: clusters, address space, handle. -/
def openThread (s : State) (c x : Nat) (r : TaskRec) : State :=
  let cls := clsOfCode (recClass r.w4)
  let cl := (clustersFor (s.core c) cls).getD 15
  let base := match s.aspace r.asid with | some a => a.actbase | none => 0
  s.modThr c x (fun t => t.start cls cl (taskXlat s r).satp base r)

/-- The run length of a task (Table 10-4). -/
def runLength (h0 h1 h7 wid : Word) : Word :=
  let w := h0.toNat % 64
  if w = 0 then 1
  else BitVec.ofInt 64 (min (h7.toNat % 65536 : Int) ((h1.toNat : Int) - (wid.toNat % (1 <<< w) : Int)))

/-- What the start of a thread comes to: started, or an exception met in a state formed so far. -/
abbrev Started := Res (State × Option Exc)

/-- The state before a read that met an exception keeps it; a read of an owned line waits (R362). -/
def Res.orFault {α : Type} (r : Res α) (s : State) (f : α → Started) : Started :=
  match r with
  | .done a => f a
  | .trap e => .done (s, some e)
  | .wait => .wait

/-- What a started thread has of its record alone (Table 10-4). -/
def formBase (s : State) (c x : Nat) (r : TaskRec) (pos : Nat) : State :=
  let w := wordAt r.words
  s.modThr c x (fun t =>
    { ((((((t.setX 10 0).setX 11 (w 1)).setX 12 (w 3)).setX 13 (BitVec.ofNat 64 pos)).setX 14 (BitVec.ofNat 64 r.handle))) with
      pc := BitVec.ofNat 64 (recVa (taskXlat s r) (r.addr 0)), dev := { t.dev with wid := w 2 } })

/-- Reads a header into a started thread (Table 10-4). -/
def formHeader (s : State) (c x : Nat) (r : TaskRec) (pos : Nat) : Started :=
  let xl := taskXlat s r
  let w := wordAt r.words
  let s0 := formBase s c x r pos
  let put := fun (u : State) (len w0 : Word) =>
    u.modThr c x (fun t => { t.setX 10 len with dev := { t.dev with wfld := BitVec.ofNat 36 w0.toNat } })
  if r.addr 3 = 0 then .done (put s0 1 0, none)
  else (plainWords s0 xl (recVa xl (r.addr 3)) 2).orFault s0 (fun a =>
    (plainWords a.2 xl (recVa xl (r.addr 3) + 56) 1).orFault s0 (fun b =>
      .done (put b.2 (runLength (wordAt a.1 0) (wordAt a.1 1) (wordAt b.1 0) (w 2)) (wordAt a.1 0), none)))

/-- Copies a format descriptor into the shadows of a started thread (R273). -/
def formShadows (s : State) (c x : Nat) (r : TaskRec) : Started :=
  let xl := taskXlat s r
  if r.addr 6 = 0 then .done (s, none)
  else (plainWords s xl (recVa xl (r.addr 6)) 3).orFault s (fun f =>
    let f0 := (wordAt f.1 0).toNat
    .done (f.2.modThr c x (fun t => { t with dev := { t.dev with
      fmta := BitVec.ofNat 16 f0, fmtb := BitVec.ofNat 16 (f0 / 65536), fmtc := BitVec.ofNat 16 (f0 / (1 <<< 32)),
      sclpa := wordAt f.1 1, sclpb := wordAt f.1 2 } }), none))

/-- First dispatch of a record as a thread at a gang position; a fault is the thread's (R471). -/
def startFirst (s : State) (c x pos : Nat) (r : TaskRec) : Res State :=
  match formHeader (openThread { s with cur := (c, x) } c x r) c x r pos with
  | .done (s1, none) =>
    match formShadows s1 c x r with
    | .done (s2, none) => .done s2
    | .done (s2, some e) => .done (dispatchFault s2 c x r e)
    | _ => .wait
  | .done (s1, some e) => .done (dispatchFault s1 c x r e)
  | _ => .wait

/-! ### Redispatch (R310, R446, R471) -/

/-- The x registers and shadows of a save area. -/
def Ctx.fromArea (t : Ctx) (pc : Word) (xs sh : List Word) : Ctx :=
  let t1 := (List.range 31).foldl (fun u i => u.setX (BitVec.ofNat 5 (i + 1)) (wordAt xs i)) t
  let h := fun i => (wordAt sh i).toNat
  { t1 with pc := pc, dev := { t1.dev with
      fmta := BitVec.ofNat 16 (h 0), fmtb := BitVec.ofNat 16 (h 1), fmtc := BitVec.ofNat 16 (h 2), sclpa := wordAt sh 3,
      sclpb := wordAt sh 4, wid := wordAt sh 5, wfld := BitVec.ofNat 36 (h 6) } }

/-- A fault while the save area is read: the context enters the supervisor with nothing restored but the handle. -/
def redispatchFault (s : State) (c x : Nat) (r : TaskRec) (e : Exc) (epc : Word) : State :=
  let s1 := (openThread s c x r).modThr c x (fun t =>
    { t.setX 14 (BitVec.ofNat 64 r.handle) with reentry := r.area, batchOpen := r.batches, batchSet := r.closed })
  faultIntoSupervisor s1 c x e epc

/-- Reads pc, x1 to x31 and the shadows; with an exception the pc if it was read. -/
def readArea (s : State) (c x : Nat) (xl : Xlat) (area : Nat) :
    Res (Except (Exc × Word) (Word × List Word × List Word × State)) :=
  match loadWords s c x xl (area + 64) 1 with
  | .trap e => .done (.error (e, 0))
  | .wait => .wait
  | .done p =>
    let pc := wordAt p.1 0
    match (loadWords p.2 c x xl (area + 72) 31).bind (fun a =>
        (loadWords a.2 c x xl (area + 320) 7).bind (fun b => .done (pc, a.1, b.1, b.2))) with
    | .trap e => .done (.error (e, pc))
    | .wait => .wait
    | .done r => .done (.ok r)

/-- A saved task goes on in a context: with its vector block, its loop buffer resuming at its pc (R123), or, requeued with a hook, at
the re-entry interrupt. -/
def startSaved (s0 : State) (c x : Nat) (r0 : TaskRec) : Res State :=
  let s := { s0 with cur := (c, x) }
  let xl := taskXlat s r0
  let r := { r0 with saved := false, hook := false, onlyCore := none, batches := [], closed := [] }
  let fault := fun (e : Exc) (pc : Word) =>
    Res.done (redispatchFault s c x { r with batches := r0.batches, closed := r0.closed } e pc)
  match readArea s c x xl r0.area with
  | .done (.ok (pc, xs, sh, s1)) =>
    let s2 := (openThread s1 c x r).modThr c x (fun t =>
      { t.fromArea pc xs sh with batchOpen := r0.batches, batchSet := r0.closed })
    if r0.hook then .done (s2.modThr c x (fun t => { t with reentry := r0.area, reentryPend := true }))
    else match readBlock s2 c x xl (r0.area + 512) with
    | .done (some b, s3) => .done ((applyBlock s3 c x b).modThr c x (fun t => { t with loop := t.loop.returnTo pc }))
    | .done (none, _) => fault { cause := 2, tval := 0 } pc
    | .trap e => fault e pc
    | .wait => .wait
  | .done (.error (e, pc)) => fault e pc
  | _ => .wait

/-! ### Dispatch (R271, R298, R300) -/

/-- Starts the threads of a chosen record in context x, at positions from a first one. Only the leader's thread has the counter (R271). -/
def startMembers (s : State) (x : Nat) (r : TaskRec) : Nat → List Nat → Res State
  | _, [] => .done s
  | pos, m :: ms =>
    (startFirst s m x pos (if pos = 0 then r else { r with words := r.words.set 5 0 })).bind (fun u => startMembers u x r (pos + 1) ms)

/-- Starts a chosen record in context x of core c; it waits where a line it reads is owned (R362). -/
def startRecord (s : State) (c x : Nat) (r : TaskRec) : Res State :=
  if r.saved then startSaved s c x r
  else startMembers { s with handles := s.handles + 1 } x { r with handle := if r.handle = 0 then s.handles else r.handle } 0 (r.cores c)

/-- A launch request is handed to the ringmaster of the die (R268). -/
def startRequest (s : State) (die : Nat) (r : TaskRec) : State :=
  (s.modDie die (fun d => { d with requests := d.requests ++ [r] })).later (.expand die)

/-- A core with nothing to run looks for records in other deques, if some record could be stolen (R301). -/
def wantSteal (s : State) (c : Nat) : State :=
  if s.idle c ∧ !s.agenda.any (isSteal c) ∧
      s.cores.any (fun e => e.1 != c && s.coreUp e.1 && e.2.sequence.any (fun r => stealableBy r (classOf c))) then
    s.later (.stealAttempt c 0)
  else s

def isAging (c : Nat) : Event → Bool
  | .agingStep d => d == c
  | _ => false

/-- The next rises of the levels from which the core's candidates come: of the deque's bottom 64 entries, and of every deliverable
record of the die's queues, which may become a head. -/
def nextRises (s : State) (c : Nat) : List Nat :=
  (s.core c).bottom.filterMap (fun r => nextRise s.now (dequeBase r) r.since (dequeAging s c)) ++
  (s.queues.map (fun e =>
    if e.2.enable && !e.2.broken && e.2.records && queueHome e.1 == dieOf c then
      (e.2.items.filter e.2.deliverable).filterMap (fun i => nextRise s.now (queueBase e.2 i.task) i.task.since e.2.aging)
    else [])).flatten

/-- Waits for the next change of a level. -/
def armAging (s : State) (c : Nat) : State :=
  match (nextRises s c).foldl (fun a n => match a with | none => some n | some m => some (min m n)) none with
  | some n => if s.timers.any (fun e => isAging c e.2 && decide (e.1 ≤ s.now + n)) then s else s.after n (.agingStep c)
  | none => s

/-- DISPATCH: an empty context chooses and starts the highest-level fitting record. -/
def execDispatch (core ctx : Nat) (s : State) : Outcome :=
  let again := s.later (.dispatch core ctx)
  if !s.coreUp core ∨ (s.thr core ctx).status ≠ .empty then .next s
  else
    match s.choice core ctx with
    | some t =>
      if lowerTakes s core t then .next again
      else
        let s1 := takeCand s core t
        if recExpand t.task.w4 then .next ((startRequest s1 (dieOf core) t.task).later (.dispatch core ctx))
        else match startRecord s1 core ctx t.task with
        | .done s2 => .next s2
        | _ => .next again
    | none =>
      let dc := dequeCands s core
      let s1 := armAging s core
      let s2 := match topCand (dc ++ queueCands s core) with
        | some t => if (wantsClusters s core t).isSome then s1.later (.reclaimStart core) else s1
        | none => s1
      .next (if dc.isEmpty then wantSteal s2 core else s2)

/-- AGING_STEP: a level has risen and the core chooses again. -/
def execAgingStep (core : Nat) (s : State) : Outcome := .next (wakeCore s core)

/-! ### Stealing (R301, R302) -/

/-- The cores an attempt may name: of the thief's column class, or with a record of it in their deque (log 4: R301 names the first
only, the run of R398 the second). -/
def victims (s : State) (thief die : Nat) : List Nat :=
  ((List.range 96).map (· + die * 96)).filter (fun v => v != thief && s.coreUp v &&
    (classOf v == classOf thief || (s.core v).sequence.any (fun r => stealableBy r (classOf thief))))

/-- Whether a core goes on with its round: up, with an empty context, and no candidate in its deque. -/
def stillSteals (s : State) (c : Nat) : Bool :=
  s.coreUp c && (dequeCands s c).isEmpty && (List.range 8).any (fun x => (s.thr c x).status == .empty)

def State.setSteal (s : State) (c : Nat) (st : Steal) : State := s.modCore c (fun k => { k with steal := st })

/-- After a failed attempt: the next, or after eight the wait of 256 slice cycles. -/
def stealFailed (s : State) (c attempt : Nat) : State :=
  if attempt < 7 then (s.setSteal c { attempt := attempt + 1, pending := true }).later (.stealAttempt c (attempt + 1))
  else (s.setSteal c { backoff := some (s.now + sliceTicks Config.stealWait) }).after (sliceTicks Config.stealWait) (.stealBackoffEnd c)

/-- STEAL_ATTEMPT: the victim is drawn freely from the eligible cores; an attempt with none is skipped. -/
def execStealAttempt (core attempt : Nat) (s : State) : Outcome :=
  if attempt = 0 ∧ !s.idle core then .next s
  else if !stillSteals s core then .next (s.setSteal core {})
  else
    let dies := if attempt < 6 then [dieOf core] else s.liveDies.filter (fun d => d != dieOf core)
    let d := s.choose dies.length
    let vs := victims d.2 core (dies.getD d.1 (dieOf core))
    if dies.isEmpty ∨ vs.isEmpty then .next (stealFailed s core attempt)
    else
      let v := d.2.choose vs.length
      .next ((v.2.setSteal core { attempt := attempt, pending := true }).later (.stealAnswer (vs.getD v.1 0) core))

/-- A context of the thief for which an entry fits. -/
def stealFits (s : State) (thief : Nat) (r : TaskRec) : Bool :=
  stealableBy r (classOf thief) && (recExpand r.w4 || recGang r.w4 == 0) && r.onlyCore.isNone &&
    (List.range 8).any (fun x => (s.thr thief x).status == .empty && fits s thief x r)

/-- The victim has a choice of its own to make. -/
def ownDispatch (s : State) (c : Nat) : Bool :=
  s.coreUp c && (List.range 8).any (fun x => (s.thr c x).status == .empty && s.agenda.any (isDispatch c x) && (s.choice c x).isSome)

/-- STEAL_ANSWER, at the request's arrival: after its own dispatch, the victim gives up the topmost of its four top entries that meets
the conditions, which is pending on the thief from then on. -/
def execStealAnswer (victim thief : Nat) (s : State) : Outcome :=
  let seq := (s.core victim).sequence
  if ownDispatch s victim then .next (s.later (.stealAnswer victim thief))
  else match (if s.coreUp victim ∧ s.coreUp thief then (List.zip (List.range 4) seq).find? (fun e => stealFits s thief e.2) else none) with
  | some (i, r) =>
    if dequeRoom s thief then .next (rouseCore (pushTop ((removeAt s victim i).setSteal thief {}) thief r) thief)
    else .next (s.setSteal thief {})
  | none => .next (stealFailed s thief (s.core thief).steal.attempt)

/-- STEAL_BACKOFF_END -/
def execStealBackoffEnd (core : Nat) (s : State) : Outcome :=
  match (s.core core).steal.backoff with
  | some t => if t ≤ s.now then .next (wakeCore (s.setSteal core {}) core) else .next s
  | none => .next s

/-! ### Lane reclaim (R307, R309) -/

/-- A victim, its priority, and the clusters it keeps. -/
structure Victim where
  prio : Nat
  cut : Nat
  ctx : Nat
  keep : Nat
  deriving DecidableEq, Repr

/-- The reductions of context x of core c that free enough clusters for a record. -/
def victimsAt (s : State) (c x level : Nat) (r : TaskRec) : List Victim :=
  let t := s.thr c x
  match t.task with
  | none => []
  | some v =>
    if t.status ≠ .running ∨ recKeep v.w4 ∨ level ≤ recPriority v.w4 then []
    else [2, 1].filterMap (fun n =>
      if n < t.cls ∧ fitsClusters (s.modThr c x (fun h => h.shrink n)) c r then
        some ⟨recPriority v.w4, t.cls - n, x, n⟩
      else none)

def Victim.before (a b : Victim) : Bool :=
  decide (a.prio < b.prio) || (a.prio == b.prio && (decide (a.cut < b.cut) || (a.cut == b.cut && decide (a.ctx ≤ b.ctx))))

def firstVictim : List Victim → Option Victim
  | [] => none
  | a :: l =>
    match firstVictim l with
    | none => some a
    | some b => if a.before b then some a else some b

/-- RECLAIM_START -/
def execReclaimStart (core : Nat) (s : State) : Outcome :=
  let pending := (List.range 8).any (fun x => (s.thr core x).status != .empty && (s.thr core x).dev.reclPend)
  let cs := dequeCands s core ++ queueCands s core
  if pending ∨ !s.coreUp core then .next s
  else match topCand cs with
  | none => .next s
  | some t =>
    if (wantsClusters s core t).isNone then .next s
    else match firstVictim (((List.range 8).map (fun x => victimsAt s core x t.level t.task)).flatten) with
    | some v => .next (writeReclaim s core v.ctx v.keep)
    | none => .next s

/-- RECLAIM_TIMEOUT: no release came within vrclwait core cycles. -/
def execReclaimTimeout (core ctx : Nat) (s : State) : Outcome :=
  let t := s.thr core ctx
  if t.status ≠ .empty ∧ t.dev.reclPend ∧ !t.std.mip.getLsbD 16 ∧ t.reclSince + t.dev.vrclwait.toNat ≤ s.coreCycle core then
    .next (s.modThr core ctx (fun h => { h with std := { h.std with mip := putBit h.std.mip 16 true } }))
  else .next s

/-- RECLAIM_INTERRUPT: interrupt 16 is taken where it is the one the context takes. -/
def execReclaimInterrupt (core ctx : Nat) (s : State) : Outcome :=
  match s.interrupt core ctx with
  | some (16, toM) => .next ({ s with cur := (core, ctx) }.serveInterrupt 16 toM)
  | _ => .next s

/-- SUPERVISOR_TIMER_INTERRUPT: the standard supervisor timer of a hart becomes pending (log 15). -/
def execSupervisorTimerInterrupt (core ctx : Nat) (s : State) : Outcome :=
  .next (s.modThr core ctx (fun h => { h with std := { h.std with mip := putBit h.std.mip 5 true } }))

/-! ### Launch headers (R265 to R267, Tables 10-1, 10-2) -/

def fieldWidth (h : List Word) (i : Nat) : Nat := (wordAt h 0).toNat / (1 <<< (6 * i)) % 64
def fieldOff (h : List Word) (i : Nat) : Nat := ((List.range i).map (fieldWidth h)).sum
/-- Number of values of a field, 1 for an absent one. -/
def extent (h : List Word) (i : Nat) : Nat := if fieldWidth h i = 0 then 1 else (wordAt h (i + 1)).toNat
def headChunk (h : List Word) : Nat := (wordAt h 7).toNat % 65536
def headPriority (h : List Word) : Nat := (wordAt h 7).toNat / 65536 % 64
def headClass (h : List Word) : Nat := (wordAt h 7).toNat / (1 <<< 22) % 4
def headColumn (h : List Word) : Nat := (wordAt h 7).toNat / (1 <<< 24) % 4
def headStash (h : List Word) : Nat := (wordAt h 7).toNat / (1 <<< 26) % 512
def headQueue (h : List Word) : Nat := (wordAt h 8).toNat % 8192
def headSort (h : List Word) : Nat := (wordAt h 8).toNat / 8192 % 8

/-- The queue of a queue code, holding 64-byte records. -/
def recordQueue (s : State) (code : Nat) : Option (Nat × Queue) :=
  match s.queueOf (BitVec.ofNat 64 (code - 1)) with
  | some (n, q) => if q.records then some (n, q) else none
  | none => none

/-- A reserved bit of words 0 and 7 to 14 is set. -/
def headReserved (h : List Word) : Bool :=
  let w := fun i => (wordAt h i).toNat
  decide (w 0 / (1 <<< 36) ≠ 0) || decide (w 7 / (1 <<< 35) ≠ 0) || decide (w 8 / 65536 ≠ 0) || decide (w 9 / (1 <<< 48) ≠ 0) ||
    decide (w 10 / (1 <<< 48) ≠ 0) || decide (w 11 / (1 <<< 48) ≠ 0) || decide (w 12 ≠ 0) || decide (w 13 ≠ 0) || decide (w 14 ≠ 0)

/-- The first failing row of Table 10-2; none where the header is accepted. -/
def headStatus (s : State) (h : List Word) (base : Word) (sup : Bool) : Option Nat :=
  let six := List.range 6
  let sum := fieldOff h 6
  if 64 < sum then some 0x81
  else if six.any (fun i => let e := (wordAt h (i + 1)).toNat; let w := fieldWidth h i
      if w = 0 then decide (1 < e) else decide (e = 0) || decide (1 <<< w < e)) || decide (base.toNat % (1 <<< sum) ≠ 0) then some 0x82
  else if headChunk h = 0 ∨ 47 < headPriority h ∨ headClass h = 3 ∨ headColumn h = 3 ∨ 256 < headStash h then some 0x83
  else if 44 ≤ headPriority h ∧ !sup then some 0x84
  else if headQueue h ≠ 0 ∧ (recordQueue s (headQueue h)).isNone then some 0x85
  else if 1 < headSort h ∨ headReserved h then some 0x86
  else none

/-! ### Expansion (R268, R269) -/

/-- Runs of f0. -/
def runsOf (h : List Word) : Nat := (extent h 0 + headChunk h - 1) / headChunk h

/-- T. -/
def taskCount (h : List Word) : Nat := ((List.range 5).map (fun j => extent h (j + 1))).foldl (· * ·) (runsOf h)

/-- The identifier of record t. -/
def taskWid (h : List Word) (base : Word) (t : Nat) : Word :=
  let step := fun (a : Nat × Nat) (j : Nat) =>
    (a.1 / extent h (j + 1), a.2 + (a.1 % extent h (j + 1)) <<< fieldOff h (j + 1))
  let r := (List.range 5).foldl step (t / runsOf h, (t % runsOf h * headChunk h) <<< fieldOff h 0)
  base + BitVec.ofNat 64 r.2

/-- The key of sort mode 1: bit 2b is bit b of f0, bit 2b + 1 bit b of f1. -/
def zKey (h : List Word) (wid : Word) : Nat :=
  let f := fun i => wid.toNat / (1 <<< fieldOff h i) % (1 <<< fieldWidth h i)
  (List.range 32).foldl (fun a b => a + (bitOf (f 0) b).toNat * (1 <<< (2 * b)) + (bitOf (f 1) b).toNat * (1 <<< (2 * b + 1))) 0

/-- Record t of an expansion. -/
def Expansion.record (e : Expansion) (now t : Nat) : TaskRec :=
  let h := e.head
  let wid := taskWid h (wordAt e.task.words 2) t
  { words := [wordAt e.task.words 0, wordAt e.task.words 1, wid, wordAt e.task.words 3,
              BitVec.ofNat 64 (headPriority h + headClass h * 64 + headColumn h * 256), wordAt h 11, wordAt h 9, wordAt h 10],
    asid := e.task.asid, sup := e.task.sup, since := now,
    sortKey := if headQueue h ≠ 0 ∧ headSort h = 1 then some (zKey h wid) else none }

/-- Adds to the launch's counter on the request's behalf (R267 to R269); a counter of 0 is none. -/
def headCount (s : State) (r : TaskRec) (h : List Word) (delta : Int) : Res State :=
  let a := (wordAt h 11).toNat % (1 <<< 48)
  if a = 0 then .done s else counterAdd s (taskXlat s r) a delta

/-- The launch-error event of a store or update that faulted. -/
def launchFault (s : State) (r : TaskRec) (e : Exc) : State :=
  (retireFor s e).notify (.launchError (r.words.take 4) e.cause)

/-- A store or an update made for a request: a fault raises the launch-error event instead, an owned line is waited for (R362). -/
def orTell (s : State) (r : TaskRec) : Res State → Res State
  | .trap e => .done (launchFault s r e)
  | u => u

/-- Writes word 15. -/
def headWrite (s : State) (r : TaskRec) (code placed : Nat) : Res State :=
  let xl := taskXlat s r
  orTell s r (plainStore s xl (recVa xl (r.addr 3) + 120) 8 (code + min placed ((1 <<< 56) - 1) * 256))

/-- The counter's update. -/
def countOrTell (s : State) (r : TaskRec) (h : List Word) (delta : Int) : Res State := orTell s r (headCount s r h delta)

/-- A request starts: its header is read and checked, and the counter takes T − 1 before any record is placed. -/
def startExpansion (s : State) (die : Nat) (r : TaskRec) : Res State :=
  let xl := taskXlat s r
  match plainWords s xl (recVa xl (r.addr 3)) 15 with
  | .trap e => .done (launchFault s r e)
  | .wait => .wait
  | .done h =>
    match headStatus s h.1 (wordAt r.words 2) r.sup with
    | some code => (headWrite h.2 r code 0).bind (fun u => countOrTell u r h.1 (-1))
    | none =>
      let n := taskCount h.1
      (countOrTell h.2 r h.1 ((n : Int) - 1)).bind (fun u =>
        .done ((u.modDie die (fun d => { d with expansions := d.expansions ++ [⟨r, h.1, 0, n⟩] })).later (.expandResume die)))

/-- The outcome of an event that waits for an owned line: it happens later as a whole. -/
def orLater (s : State) (e : Event) : Res State → Outcome
  | .done u => .next u
  | _ => .next (s.later e)

/-- The ringmaster of a die accesses memory by the first core of the die. -/
def asRingmaster (s : State) (die : Nat) : State := { s with cur := (die * 96, 0) }

/-- EXPAND -/
def execExpand (die : Nat) (s : State) : Outcome :=
  match (s.die die).requests with
  | [] => .next s
  | r :: rest => orLater s (.expand die) (startExpansion (asRingmaster (s.modDie die (fun d => { d with requests := rest })) die) die r)

/-- Where record t of an expansion on a die is placed: the live die at its position, then the ones after it (R297). -/
def placeCore (s : State) (die t cls : Nat) : Option Nat :=
  let live := s.liveDies
  let p := (live.findIdx? (fun d => d == die)).getD 0
  (List.range live.length).findSome? (fun j => leastLoaded s (takers s (live.getD ((p + t / 16 + j) % live.length) 0) cls))

/-- What the placement of one record comes to. -/
inductive Placed where
  | ok (s : State)
  | waits
  | stops (code : Nat)

def placeRecord (s : State) (die : Nat) (e : Expansion) : Placed :=
  let r := e.record s.now e.index
  if headQueue e.head ≠ 0 then
    match recordQueue s (headQueue e.head) with
    | none => .stops 0x88
    | some (n, q) => if q.items.length < q.capacity then .ok (pushItem s n q r).2 else .waits
  else match placeCore s die e.index (headColumn e.head) with
    | none => .stops 0x89
    | some c => if dequeRoom s c then .ok (rouseCore (pushTop s c r) c) else .waits

/-- The expansion under way on a die that is at the front of its list. -/
def putExpansions (s : State) (die : Nat) (l : List Expansion) : State :=
  let s1 := s.modDie die (fun d => { d with expansions := l })
  if l.isEmpty then s1 else s1.later (.expandResume die)

/-- EXPAND_RESUME: the next record of the expansion at the front; one that waits lets the others of the die go on. -/
def execExpandResume (die : Nat) (s0 : State) : Outcome :=
  let s := asRingmaster s0 die
  match (s.die die).expansions with
  | [] => .next s
  | e :: rest =>
    if e.total ≤ e.index then
      orLater s (.expandResume die) ((headWrite s e.task 0x01 0).bind (fun u => .done (putExpansions u die rest)))
    else match placeRecord s die e with
    | .ok s1 => .next (putExpansions s1 die ({ e with index := e.index + 1 } :: rest))
    | .waits => .next (putExpansions s die (rest ++ [e]))
    | .stops code =>
      orLater s (.expandResume die) ((headWrite s e.task code e.index).bind (fun u =>
        (countOrTell u e.task e.head (-((e.total - e.index : Nat) : Int))).bind (fun v =>
          .done (putExpansions (v.notify (.launchError (e.task.words.take 4) (code + e.index * 256))) die rest))))

end Sys2Proof.Machine
end

