-- ==== Sys2Proof/Machine/Saves.lean ====
section
/-! DEFINITION. The register block's acting registers: the stash map (R326), the snapshot (R443), REQUEUE and SAVEAREA (R442, R445) and
LVCFG (R306). -/
namespace Sys2Proof.Machine

/-- STASH_MAP_WORD0_WRITE -/
def execStashMapWord0Write (core entry : Nat) (v : Word) (s : State) : Outcome :=
  .next (writeStashMap s core (16 * (entry % 64)) v)

/-- STASH_MAP_WORD1_WRITE -/
def execStashMapWord1Write (core entry : Nat) (v : Word) (s : State) : Outcome :=
  .next (writeStashMap s core (16 * (entry % 64) + 8) v)

/-- The address space in force at a core: that of the running hart if it is of the core, else that of context 0. -/
def satpOf (s : State) (core : Nat) : Word := (s.thr core (if s.cur.1 = core then s.cur.2 else 0)).std.satp

/-- SNAPSHOT -/
def execSnapshot (core : Nat) (v : Word) (s : State) : Outcome :=
  .next (startSnapshot s core (v.toNat % 256) (satpOf s core))

/-! ### The end of a snapshot (R443, Table 21-6) -/

/-- Nodes of the contexts a snapshot masks that hold a command, in increasing id. -/
def maskedNodes (k : Core) : List (Nat × Node) := k.nodes.filter (fun e => e.2.inFlight && bitOf k.snap.mask e.2.ctx)

/-- A command the snapshot still waits for: of a kind that runs out, sent to another core, or writing its unit. -/
def snapWaits (nd : Node) : Bool :=
  nd.st == .running && (runsOut nd.kind || nd.remote.isSome || nd.writing || !nd.nvmeLeft.isEmpty)

/-- The record of a command of core c at node n. -/
def snapRecord (s : State) (c : Nat) (nd : Node) : List Word :=
  let left := if nd.st = .waiting ∨ nd.st = .stalled then nd.predCount - nd.dcount else 0
  let w0 := nd.w0.toNat / (1 <<< 33) * (1 <<< 33) + left % 64 * (1 <<< 27) + nd.w0.toNat % (1 <<< 27)
  let inSet := (List.range 8).any (fun x => (s.thr c x).batchSet.any (fun l => l.contains nd.serial))
  [BitVec.ofNat 64 w0, nd.w1, nd.w2, nd.w3, nd.statusWord,
   BitVec.ofNat 64 (inSet.toNat * (1 <<< 32) + nd.asid % 65536 * 65536 + nd.ctx % 8 * 256),
   BitVec.ofNat 64 (nd.fmtb.toNat * 65536 + nd.fmta.toNat), nd.sclpa, nd.sclpb] ++ List.replicate 7 0

/-- A thread forgets a command that leaves its batch. -/
def Ctx.dropSerial (t : Ctx) (n : Nat) : Ctx :=
  { t with batchOpen := t.batchOpen.map (fun l => l.filter (fun m => m != n)),
           batchSet := t.batchSet.map (fun l => l.filter (fun m => m != n)) }

/-- Removes the command at a node: its counter is 0, its lines and leave are released, a kmma sets mrowp, and it leaves its batch. -/
def removeCommand (s : State) (c n : Nat) : State :=
  let nd := s.node c n
  let s1 := setMrowp (releaseLeave s c n) c n
  s1.modCore c (fun k =>
    { k.modNode n (fun m => { m with st := .free, dcount := 0, owned := [], pend := [], stopping := false, writing := false,
                                     pageStop := false }) with
      ctxs := Vector.ofFn (fun (i : Fin 8) => (k.ctxs[i]).dropSerial nd.serial) })

/-- What writing the records came to: the number written, the nodes left where a store faults, and the state. -/
structure Snapped where
  count : Nat
  left : Option (List Nat)
  state : State

/-- Writes the records and removes the commands in order; a store to an owned line waits (R362). -/
def snapRecords (s : State) (c at' : Nat) : Nat → List (Nat × Node) → Res Snapped
  | i, [] => .done ⟨i, none, s⟩
  | i, e :: rest =>
    let t : Xlat := { satp := (s.core c).snap.satp, priv := .S }
    match plainPut s t (at' + 128 * i) (snapRecord s c e.2) with
    | .done s1 => snapRecords (removeCommand s1 c e.1) c at' (i + 1) rest
    | .trap x => .done ⟨i, some (e.1 :: rest.map (·.1)), retireFor s x⟩
    | .wait => .wait

/-- Launching goes on, and stopped commands that stayed resume. -/
def snapResume (s : State) (c : Nat) (left : List Nat) : State :=
  let s1 := left.foldl (fun u n =>
    if (u.node c n).stopping then resumeNode (u.modNode c n (fun m => { m with stopping := false })) c n else u) s
  ((s1.core c).nodes.map (·.1)).foldl (fun u n => tryLaunch u c n) (unstall s1 c)

/-- SNAPSHOT_END: waits for the commands that run on, faults the kcolls, writes the records and sets done. -/
def execSnapshotEnd (core : Nat) (s : State) : Outcome :=
  let k := s.core core
  if k.snap.done then .next s
  else match (maskedNodes k).find? (fun e => e.2.kind == 7 && e.2.st == .running) with
  | some (n, nd) => .next ((faultCommand s core n 0x15 nd.rank).later (.snapshotEnd core))
  | none =>
    if (maskedNodes k).any (fun e => snapWaits e.2) then .next (s.later (.snapshotEnd core))
    else match snapRecords { s with cur := (core, 0) } core (engVa k.snap.satp k.snap.addr.toNat) 0 (maskedNodes k) with
    | .done r =>
      let s1 := r.state.modCore core (fun q => { q with snap := { q.snap with done := true, err := r.left.isSome, count := r.count } })
      .next (snapResume s1 core (r.left.getD []))
    | _ => .next (s.later (.snapshotEnd core))

/-! ### Saving registers -/

/-- REQUEUE -/
def execRequeue (core ctx : Nat) (v : Word) (s : State) : Outcome := .next (writeRequeue s core ctx v)

/-- SAVEAREA_READ -/
def execSaveareaRead (core ctx : Nat) (rd : Reg) (s : State) : Outcome :=
  let a := allocArea s core ctx
  .next (a.2.modThr core ctx (fun t => t.setX rd (BitVec.ofNat 64 a.1)))

/-- LVCFG_WRITE -/
def execLvcfgWrite (die : Nat) (v : Word) (s : State) : Outcome := .next (writeLvcfgOf s die v)

end Sys2Proof.Machine
end

