-- ==== Sys2Proof/Machine/Requests.lean ====
section
/-! DEFINITION. The configuration path (R418, R419): reading a request, its status word, and one meaning per request of Table 20-2. Where
several refusals of a request hold, the lowest of 0x01, 0x02, 0x05, 0x06, 0x03, 0x04 in this order is given (log 22). -/
namespace Sys2Proof.Machine

/-! ### Reading and completing a request (R418) -/

/-- The status of a request, its detail, and the state it leaves (unchanged but for a page queued unless the status is 0). -/
structure Answer where
  status : Nat
  detail : Nat := 0
  state : State

/-- What performing a request comes to: an answer, or a wait. -/
inductive Reply where
  | done (a : Answer)
  | waits

def refuse (s : State) (status : Nat) : Reply := .done { status := status, state := s }
def accept (s : State) : Reply := .done { status := 0, state := s }

/-- The request's record is in device memory and readable. -/
def requestReadable (s : State) (r : CfgReq) : Bool := decide (r.addr + 64 ≤ dramTop s) && (s.badIn r.addr 64).isNone

/-- Uncorrectable data met in n bytes at an address queues its page (R337). -/
def retireAt (s : State) (a n : Nat) : State :=
  match s.badIn a n with
  | some k => s.retirePage (k * 32 / 4096)
  | none => s

/-- Word i of the request. -/
def reqWord (s : State) (r : CfgReq) (i : Nat) : Nat := s.peek (r.addr + 8 * i) 8

/-- The doorbell's request is complete: it leaves the queue, the count rises, and the next one starts. -/
def nextRequest (s : State) (r : CfgReq) : State :=
  let b := s.bell r.door
  let q := if b.queue.head? = some r.addr then b.queue.drop 1 else b.queue
  let s1 := s.setBell r.door { b with queue := q, count := b.count + 1 }
  match q with
  | a :: _ => s1.later (requestRow s1 ⟨r.door, a⟩)
  | [] => s1

/-- The end of a request: word 7, CFGDONE, and the host's vector (Table 20-1, CFGMSI). -/
def completeRequest (s : State) (r : CfgReq) (status detail : Nat) : State :=
  let s1 := if r.addr + 64 ≤ dramTop s then
      s.storePhys none none (r.addr + 56) 8 ((1 <<< 63) + detail % 65536 * 65536 + status)
    else s
  let s2 := nextRequest s1 r
  if r.door = none ∧ s.host.msiEn then s2.post (.msix s.host.msiVec.toNat) else s2

/-- The bits a request may use in its words 1 to 6. -/
def wordsWithin (s : State) (r : CfgReq) : Nat → List Nat → Bool
  | _, [] => true
  | i, m :: ms => (Nat.land (reqWord s r i) m == reqWord s r i) && wordsWithin s r (i + 1) ms

def all64 : Nat := (1 <<< 64) - 1

/-- Performs the request at r, whose row has an opcode and the used bits of its words. A row that meets another opcode hands the request
to that opcode's row; an opcode of no row is refused. -/
def perform (op : Nat) (masks : List Nat) (r : CfgReq) (f : (Nat → Nat) → Reply) (again : Event) (s : State) : Outcome :=
  let w := reqWord s r
  if s.boot.recovery then .next (completeRequest s r 0x05 0)
  else if !requestReadable s r then .next (completeRequest (retireAt s r.addr 64) r 0x07 0)
  else if w 0 % 256 = 0 ∨ 0x10 < w 0 % 256 then .next (completeRequest s r 0x01 0)
  else if w 0 % 256 ≠ op then .next (s.later (requestRow s r))
  else if w 0 ≠ op ∨ !wordsWithin s r 1 masks then .next (completeRequest s r 0x01 0)
  else match f w with
  | .done a => .next (completeRequest a.state r a.status a.detail)
  | .waits => .next (s.later again)

/-! ### Pinned storage (R289, R330) -/

def pinnedLimit : Nat := 33554432

def Queue.bytes (q : Queue) : Nat := if q.enable then q.capacity * (if q.records then 64 else 16) else 0

/-- The storage a die's configured objects use. -/
def pinnedUse (s : State) (die : Nat) : Nat :=
  let d := s.die die
  32768 + 8192 * (d.pools.filter (fun e => e.2.size != 0)).length +
    ((s.queues.filter (fun e => queueHome e.1 == die)).map (fun e => e.2.bytes)).sum + d.overflowCap * 64 * 96

/-- The pinned size of a die: the requested size, grown to what its objects use. -/
def pinnedSize (s : State) (die : Nat) : Nat := max (s.die die).pinned (pinnedUse s die)

/-- Ways of every slice that a pinned size takes: the least w with 31 × w × 128 KiB at or above it. -/
def pinnedWays (size : Nat) : Nat := (size + 31 * 131072 - 1) / (31 * 131072)

/-- Ways of a slice of a die that cache lines. -/
def cacheWays (s : State) (die : Nat) : Nat := 16 - pinnedWays (pinnedSize s die)

/-! ### Objects -/

/-- QUEUE -/
def execQueue (r : CfgReq) (s : State) : Outcome :=
  perform 0x01 [0xFFF, 0x7FFF, 0x1FFFFF001FFFFF, 0xFFFF, 0, 0] r (fun w =>
    let n := w 1
    let d := w 2
    let cap := w 3 % (1 <<< 21)
    let thr := w 3 / (1 <<< 32)
    let old : Queue := SMap.get {} s.queues n
    let new : Queue :=
      { enable := true, mode := d / 2 % 4, records := bitOf d 3, priority := d / 16 % 64, aging := d / 1024 % 32, capacity := cap,
        threshold := thr, hostAsid := w 4 }
    let on := bitOf d 0
    if on ∧ (new.mode = 3 ∨ 47 < new.priority ∨ cap = 0 ∨ 1048576 < cap ∨ thr = 0 ∨ cap < thr) then refuse s 0x02
    else if !s.dieLive (queueHome n) then refuse s 0x05
    else if w 4 ≠ 0 ∧ (s.aspace (w 4)).isNone then refuse s 0x06
    else if !old.items.isEmpty then refuse s 0x03
    else if !on then accept (s.setQueue n {})
    else if pinnedLimit < pinnedUse s (queueHome n) - old.bytes + new.bytes then refuse s 0x04
    else accept (s.setQueue n new)) (.queue r) s

/-- TURNSTILE -/
def execTurnstile (r : CfgReq) (s : State) : Outcome :=
  perform 0x02 [0x3FFF, 0, 0, 0, 0, 0] r (fun w =>
    if !s.dieLive (w 1 / 4096) then refuse s 0x05
    else accept (s.setTurn (w 1 / 4096) (w 1 % 4096) {})) (.turnstile r) s

/-- POOL -/
def execPool (r : CfgReq) (s : State) : Outcome :=
  perform 0x03 [0x1F, all64, 0, 0, 0, 0] r (fun w =>
    let die := w 1 / 8
    let old : Pool := SMap.get {} (s.die die).pools (w 1 % 8)
    if 65536 < w 2 then refuse s 0x02
    else if !s.dieLive die then refuse s 0x05
    else if !old.out.isEmpty then refuse s 0x03
    else if w 2 ≠ 0 ∧ old.size = 0 ∧ pinnedLimit < pinnedUse s die + 8192 then refuse s 0x04
    else accept (s.setPool die (w 1 % 8) { size := w 2 })) (.pool r) s

/-- A barrier after a reset: arrivals, counts and marks cleared, phase 0. -/
def Barrier.reset (b : Barrier) (members : List Nat) (n timeout : Nat) : Barrier :=
  { members := members, n := n, timeout := timeout, epoch := b.epoch + 1 }

/-- Members of a die barrier's mask. -/
def maskMembers (die mask : Nat) : List Nat := ((List.range 96).filter (bitOf mask)).map (· + die * 96)

/-- BARRIER: every wait on the barrier ends with cause 29, reason 4 (R285). -/
def execBarrier (r : CfgReq) (s : State) : Outcome :=
  perform 0x04 [0x73F, 0xFFFF, 0xFFFFFFFF, all64, 0xFFFFFFFF, 0] r (fun w =>
    let dev := bitOf (w 1) 8
    let die := if dev then 0 else w 1 / 512
    let k : BarKey := ⟨dev, die, w 1 % 64⟩
    let members := if dev then (List.range 384).filter s.coreUp else maskMembers die (w 4 + w 5 * (1 <<< 64))
    if dev ∧ (w 1 / 512 ≠ 0 ∨ w 4 ≠ 0 ∨ w 5 ≠ 0) then refuse s 0x01
    else if (dev ∧ 16 ≤ w 1 % 64) ∨ members.length < w 2 then refuse s 0x02
    else if !dev ∧ !s.dieLive die then refuse s 0x05
    else accept (endWaits (s.setBarrier k ((s.barrier k).reset members (w 2) (w 3))) k (fun _ => true) 4)) (.barrier r) s

/-- PINNED -/
def execPinned (r : CfgReq) (s : State) : Outcome :=
  perform 0x05 [3, all64, 0, 0, 0, 0] r (fun w =>
    if pinnedLimit < w 2 then refuse s 0x02
    else if !s.dieLive (w 1) then refuse s 0x05
    else if w 2 < pinnedUse s (w 1) then refuse s 0x03
    else accept (s.modDie (w 1) (fun d => { d with pinned := w 2 }))) (.pinned r) s

/-- SCHED -/
def execSched (r : CfgReq) (s : State) : Outcome :=
  perform 0x06 [3, 0x1F, 0xFFFF, 0, 0, 0] r (fun w =>
    let die := w 1
    if !s.dieLive die then refuse s 0x05
    else if s.cores.any (fun e => dieOf e.1 == die && decide (w 3 < e.2.overflow.length)) then refuse s 0x03
    else if pinnedLimit < pinnedUse s die - (s.die die).overflowCap * 6144 + w 3 * 6144 then refuse s 0x04
    else accept (s.modDie die (fun d => { d with aging := BitVec.ofNat 5 (w 2), overflowCap := w 3 }))) (.sched r) s

/-! ### Address spaces (R421) -/

/-- ASPACE -/
def execAspace (r : CfgReq) (s : State) : Outcome :=
  perform 0x07 [0xFFFF, all64, all64, all64, 0xFFFFFFFFFFFFF, 0] r (fun w =>
    let size := w 5 % (1 <<< 32)
    let count := w 5 / (1 <<< 32)
    if w 1 = 0 ∨ w 2 / (1 <<< 60) ≠ 9 ∨ w 2 / (1 <<< 44) % 65536 ≠ w 1 ∨ w 3 % 4096 ≠ 0 ∨ w 4 % 4096 ≠ 0 ∨ size % 64 ≠ 0 ∨ size < 512 ∨
        count = 0 then refuse s 0x02
    else if (s.aspace (w 1)).isSome then refuse s 0x06
    else accept (s.setASpace (w 1)
      { satp := BitVec.ofNat 64 (w 2), actbase := BitVec.ofNat 64 (w 3), poolBase := w 4, poolSize := size, poolCount := count })) (.aspace r) s

/-- Every task of an address space that has not retired: running, pending, faulted, or a launch under way. -/
def spaceInUse (s : State) (asid : Nat) : Bool :=
  s.cores.any (fun e =>
    (List.range 8).any (fun x => (e.2.ctx x).task.any (fun t => t.asid == asid)) || e.2.sequence.any (fun t => t.asid == asid) ||
      e.2.nodes.any (fun n => n.2.inFlight && n.2.asid == asid)) ||
  s.queues.any (fun e => e.2.records && e.2.items.any (fun i => i.task.asid == asid)) ||
  s.faulted.any (fun f => f.task.asid == asid) ||
  s.dies.any (fun e => e.2.requests.any (fun t => t.asid == asid) || e.2.expansions.any (fun x => x.task.asid == asid))

/-- ASREL -/
def execAsrel (r : CfgReq) (s : State) : Outcome :=
  perform 0x08 [0xFFFF, 0, 0, 0, 0, 0] r (fun w =>
    if (s.aspace (w 1)).isNone then refuse s 0x06
    else if spaceInUse s (w 1) then refuse s 0x03
    else accept { s with aspaces := s.aspaces.del (w 1), installed := s.installed.del (w 1) }) (.asrel r) s

/-- FENCE_REQUEST -/
def execFenceRequest (r : CfgReq) (s : State) : Outcome :=
  perform 0x09 [0x1FFFF, 0, 0, 0, 0, 0] r (fun w =>
    let all := bitOf (w 1) 16
    let asid := w 1 % 65536
    if !all ∧ (s.aspace asid).isNone then refuse s 0x06
    else match fenceVma s (if all then none else some asid) none (s.cores.map (·.1)) with
    | .done s1 => accept s1
    | _ => .waits) (.fenceRequest r) s

/-! ### Keys, rings, drives (R422, R424, R425) -/

/-- The refusal of a core operand, if any: 0x02 out of range, 0x05 absent or quarantined. -/
def coreRefusal (s : State) (c : Nat) : Option Nat := if 384 ≤ c then some 0x02 else if s.coreUp c then none else some 0x05

/-- CAPKEY -/
def execCapkey (r : CfgReq) (s : State) : Outcome :=
  perform 0x0A [0x1FF, 0xFF, all64, all64, all64, all64] r (fun w =>
    match coreRefusal s (w 1) with
    | some e => refuse s e
    | none =>
      let key := ([3, 4, 5, 6].map (fun i => (List.range 8).map (fun b => BitVec.ofNat 8 (w i / (1 <<< (8 * b)))))).flatten
      accept (s.modCore (w 1) (fun k => { k with capKey := key, capGen := BitVec.ofNat 8 (w 2) }))) (.capkey r) s

/-- n bytes of device memory at an address. -/
def inMemory (s : State) (a n : Nat) : Bool := decide (a + n ≤ dramTop s)

/-- RING -/
def execRing (r : CfgReq) (s : State) : Outcome :=
  perform 0x0B [0x1FF, all64, 0x1F, all64, all64, 0] r (fun w =>
    let on := w 2 != 0
    if on ∧ (w 2 % 16 ≠ 0 ∨ w 3 < 4 ∨ 16 < w 3 ∨ w 4 % 8 ≠ 0 ∨ w 5 % 8 ≠ 0 ∨ !inMemory s (w 2) (16 <<< w 3) ∨ !inMemory s (w 4) 8 ∨
        !inMemory s (w 5) 8) then refuse s 0x02
    else match coreRefusal s (w 1) with
    | some e => refuse s e
    | none =>
      let ring : Ring := if on then { base := w 2, log2 := w 3, tailAt := w 4, headAt := w 5 } else {}
      accept (s.modCore (w 1) (fun k => { k with ring := ring }))) (.ring r) s

/-- An address of the host window. -/
def inHostWindow (s : State) (a : Nat) : Bool := match regionOf s a with | .host _ => true | _ => false

/-- A kdisk in flight names a queue pair. -/
def pairInUse (s : State) (qp : Nat) : Bool :=
  s.cores.any (fun e => e.2.nodes.any (fun n => n.2.inFlight && n.2.st != .faulted && n.2.kind == 8 && n.2.diskQp == qp)) ||
    s.host.nvme.any (fun e => e.1 == qp && !e.2.outstanding.isEmpty)

/-- NVMEQP -/
def execNvmeqp (r : CfgReq) (s : State) : Outcome :=
  perform 0x0C [0x1FF, all64, all64, 0xFFFFFFFF, all64, 0xFFFFFFFF] r (fun w =>
    let qp := w 1 % 256
    let on := bitOf (w 1) 8
    let entries := w 4 % 65536 + 1
    let block := w 6 % 256
    let xfer := w 6 / 256 % 256
    if on ∧ (block < 9 ∨ 16 < block ∨ xfer < 12 ∨ 20 < xfer ∨ !inMemory s (w 2) (64 * entries) ∨ !inMemory s (w 3) (16 * entries) ∨
        !inHostWindow s (w 5)) then
      refuse s 0x02
    else if pairInUse s qp then refuse s 0x03
    else
      let p : NvmePair := { sq := w 2, cq := w 3, entries := entries, nvmeId := w 4 / 65536, bell := w 5, log2Block := block,
                            log2Xfer := xfer, cqBell := w 6 / 65536 }
      accept { s with host := { s.host with nvme := if on then s.host.nvme.put qp p else s.host.nvme.del qp } }) (.nvmeqp r) s

/-! ### Wait words and subscriptions (R426, R427) -/

/-- WAITWORD: the condition is tested at arming. -/
def execWaitword (r : CfgReq) (s : State) : Outcome :=
  perform 0x0D [0x7FF0303FF, all64, 7, all64, all64, 0] r (fun w =>
    let slot := w 1 % 1024
    let ww : WaitWord := { addr := w 2, cond := w 3, operand := BitVec.ofNat 64 (w 4), host := w 5,
                           msi := if bitOf (w 1) 17 then some (w 1 / (1 <<< 24)) else none }
    if !bitOf (w 1) 16 then accept { s with host := { s.host with waits := s.host.waits.del slot } }
    else if 3 < w 3 ∨ w 2 % 8 ≠ 0 ∨ !inMemory s (w 2) 8 ∨ w 5 % 8 ≠ 0 then refuse s 0x02
    else if (s.badIn (w 2) 8).isSome then refuse (retireAt s (w 2) 8) 0x07
    else accept (testWait { s with host := { s.host with waits := s.host.waits.put slot ww } } slot ww)) (.waitword r) s

/-- The event is the sampling of a subscription slot. -/
def isSample (slot : Nat) : Event → Bool
  | .subscriptionSample n => n == slot
  | _ => false

/-- SUBSCRIBE -/
def execSubscribe (r : CfgReq) (s : State) : Outcome :=
  perform 0x0E [0x1FF007F, all64, all64, all64, 0x87FF, 0] r (fun w =>
    let slot := w 1 % 64
    let sub : Subscription :=
      { source := w 1 / 65536 % 4, die := w 1 / (1 <<< 18) % 4, sensor := w 1 / (1 <<< 20) % 32, low := (BitVec.ofNat 64 (w 2)).toInt,
        high := (BitVec.ofNat 64 (w 3)).toInt, notify := w 4, msi := if bitOf (w 5) 15 then some (w 5 % 2048) else none }
    if !decide (sub.low < sub.high) then refuse s 0x02
    else if !bitOf (w 1) 6 then accept { s with host := { s.host with subs := s.host.subs.del slot } }
    else if w 4 % 8 ≠ 0 ∨ !inMemory s (w 4) 8 then refuse s 0x02
    else if sub.source ≠ 3 ∧ !s.dieLive sub.die then refuse s 0x05
    else
      let s1 := { s with host := { s.host with subs := s.host.subs.put slot sub } }
      accept (if s.timers.any (fun e => isSample slot e.2) then s1
        else s1.after (sliceTicks Config.samplePeriod) (.subscriptionSample slot))) (.subscribe r) s

/-! ### Launches and routines (R423, R428) -/

/-- LAUNCH -/
def execLaunch (r : CfgReq) (s : State) : Outcome :=
  perform 0x0F [0xFFFF, all64, 3, 0, 0, 0] r (fun w =>
    if w 2 % 64 ≠ 0 then refuse s 0x02
    else if !s.dieLive (w 3) then refuse s 0x05
    else match s.aspace (w 1) with
    | none => refuse s 0x06
    | some a =>
      match plainWords (asRingmaster s (w 3)) (userXlat a.satp) (w 2) 8 with
      | .trap e => refuse (retireFor s e) 0x07
      | .wait => .waits
      | .done q =>
        if !(wordAt q.1 4).getLsbD 13 then refuse s 0x02
        else accept (startRequest q.2 (w 3) { words := q.1, asid := w 1, sup := true, since := s.now })) (.launch r) s

/-- s with the pages another state has queued for retirement. -/
def retireChanges (s u : State) : State := { s with retired := u.retired, events := u.events }

/-- INSTALL -/
def execInstall (r : CfgReq) (s : State) : Outcome :=
  perform 0x10 [0xFFFF, 0x11F, 0, 0, 0, 0] r (fun w =>
    match s.aspace (w 1) with
    | none => refuse s 0x06
    | some a =>
      let c := r.door.getD 0
      match install { s with cur := (c, 0) } c 0 (w 1) a.satp a.actbase (w 2 % 32) (BitVec.ofNat 64 (w 2 / 256)) with
      | .done (st, u) =>
        if st = 0 then accept u
        else .done { status := 0x08, detail := st % 256 + st / 65536 % 32 * 256, state := retireChanges s u }
      | _ => .waits) (.install r) s

end Sys2Proof.Machine
end

