-- ==== Sys2Proof/Machine/Host.lean ====
section
/-! DEFINITION. The host (R414 to R417, R420): the BARs, pushes, the doorbells, plain register writes, and ATS. -/
namespace Sys2Proof.Machine

/-! ### The control window (Table 20-1) -/

def idWord (s : State) : Word :=
  BitVec.ofNat 64 (Config.partCode + s.live.toNat * (1 <<< 32) + s.degraded.toNat * (1 <<< 36) + s.boot.recovery.toNat * (1 <<< 37))

def pdropWord (h : HostIf) : Word :=
  BitVec.ofNat 64 (h.pdropAny.toNat * (1 <<< 63) + h.pdropCount.toNat * (1 <<< 32) + h.pdropQueue.toNat)

/-- An aligned 8-byte read of BAR 0; offsets of no register read zero. -/
def controlRead (s : State) (off : Nat) : Word :=
  match off with
  | 0x0 => idWord s
  | 0x10 => cfgDone s.host.bell
  | 0x18 => s.host.hwbase
  | 0x20 => pdropWord s.host
  | 0x28 => BitVec.ofNat 64 (s.host.msiEn.toNat * 32768 + s.host.msiVec.toNat)
  | _ => 0

/-- An aligned 8-byte write of BAR 0. -/
def controlWrite (s : State) (off : Nat) (v : Word) : State :=
  let h := s.host
  match off with
  | 0x8 => (match ringDoorbell s none v with | .done s1 => s1 | _ => s)
  | 0x10 => s.setBell none (writeCfgDone h.bell v)
  | 0x18 => { s with host := { h with hwbase := v &&& ~~~0xFFF#64 } }
  | 0x20 => { s with host := { h with pdropAny := h.pdropAny && !v.getLsbD 63 } }
  | 0x28 => { s with host := { h with msiEn := v.getLsbD 15, msiVec := BitVec.ofNat 11 v.toNat } }
  | _ => s

/-! ### Order of host accesses (R352) -/

/-- A host access runs in its turn: behind one that waits it queues; when the one that waits is through, the next is tried. The one that
waits stands in the agenda until it is tried again, so an equal access that comes meanwhile is another. -/
def inTurn (e : Event) (waits : State → Bool) (act : State → State) (s : State) : Outcome :=
  if s.host.pend.any (fun p => p != e || s.agenda.contains e) then .next { s with host := { s.host with behind := s.host.behind ++ [e] } }
  else if waits s then .next ({ s with host := { s.host with pend := some e } }.later e)
  else
    let s1 := act { s with host := { s.host with pend := none } }
    match s.host.pend, s1.host.behind with
    | some _, f :: rest => .next ({ s1 with host := { s1.host with pend := some f, behind := rest } }.later f)
    | _, _ => .next s1

/-- An access that carries the relaxed-ordering attribute is unordered: it passes those that wait and holds none back. -/
def anyTime (e : Event) (waits : State → Bool) (act : State → State) (s : State) : Outcome :=
  if waits s then .next (s.later e) else .next (act s)

/-! ### Reads and writes (R414, R416) -/

/-- Where a host access lands. The operand's offsets below 2^38 are BAR 4's, the 64 KiB from 2^38 BAR 0's, the 256 KiB after them
BAR 2's; bit 39 is the relaxed-ordering attribute (log 23). -/
inductive Bar where
  | memory (pa : Nat)
  | control (off : Nat)
  | push (off : Nat)
  | none

def relaxed (off : Nat) : Bool := bitOf off 39

def barOf (operand : Nat) : Bar :=
  let off := if relaxed operand then operand - (1 <<< 39) else operand
  let b0 := 1 <<< 38
  if off < b0 then .memory off
  else if off < b0 + 65536 then .control (off - b0)
  else if off < b0 + 65536 + 262144 then .push (off - b0 - 65536)
  else .none

def widthBytes (m : MemW) : Nat := match m with | .b => 1 | .h => 2 | .w => 4 | .d => 8

/-- A dropped push is counted (R420). -/
def dropPush (s : State) (queue : Nat) : State :=
  let h := s.host
  { s with host := { h with pdropAny := true, pdropCount := if h.pdropCount = 0xFFFF then 0xFFFF else h.pdropCount + 1,
                            pdropQueue := BitVec.ofNat 12 queue } }

/-- The access waits for a line a command owns (R362). -/
def hostWaits (off n : Nat) (s : State) : Bool :=
  match barOf off with
  | .memory pa => decide (pa + n ≤ dramTop s) && s.ownedIn pa n
  | _ => false

/-- BARs 2 and 4 answer nothing and take nothing: recovery mode (R434), or no supply. -/
def State.shut (s : State) : Bool := s.boot.recovery || s.boot.poweredDown

/-- A host read's answer. -/
def hostReadAct (off n : Nat) (s : State) : State :=
  match barOf off with
  | .memory pa =>
    if s.shut ∨ dramTop s < pa + n then s.post (.readReply false 0)
    else match s.badIn pa n with
    | some _ => (retireAt s pa n).post (.readReply false 0)
    | none => let s1 := recallRead s none pa n; s1.post (.readReply true (s1.peek pa n))
  | .control o => s.post (.readReply true (if n = 8 ∧ o % 8 = 0 then (controlRead s o).toNat else 0))
  | _ => s.post (.readReply (!s.shut) 0)

/-- A host write. An uncorrectable sector that it covers only in part stays so, and its page is queued (R337). -/
def hostWriteAct (off n v : Nat) (s : State) : State :=
  match barOf off with
  | .memory pa =>
    if s.shut ∨ dramTop s < pa + n then s
    else (match s.badPartly pa n with | some k => s.retirePage (k * 32 / 4096) | none => s).storePhys none none pa n (lowBits v (8 * n))
  | .control o => if n = 8 ∧ o % 8 = 0 then controlWrite s o (BitVec.ofNat 64 v) else s
  | .push o => if s.shut then s else dropPush s (o / 64)
  | .none => s

/-- HOST_READ -/
def execHostRead (off : Nat) (wd : MemW) (s : State) : Outcome :=
  (if relaxed off then anyTime else inTurn) (.hostRead off wd) (hostWaits off (widthBytes wd)) (hostReadAct off (widthBytes wd)) s

/-- HOST_WRITE -/
def execHostWrite (off : Nat) (wd : MemW) (v : Word) (s : State) : Outcome :=
  (if relaxed off then anyTime else inTurn) (.hostWrite off wd v) (hostWaits off (widthBytes wd)) (hostWriteAct off (widthBytes wd) v.toNat) s

/-! ### Pushes (R420) -/

/-- The item of a 64-byte write that a queue takes; none where it is dropped. -/
def pushed (s : State) (q : Queue) (words : List Word) : Option TaskRec :=
  let r : TaskRec := { words := if q.records then words else words.take 2, asid := q.hostAsid, sup := true, since := s.now }
  if q.records ∧ (q.hostAsid = 0 ∨ (recordReason (wordAt words 4) true).isSome) then none
  else if q.capacity ≤ q.items.length then none
  else some r

def hostPushAct (queue size : Nat) (words : List Word) (s : State) : State :=
  if s.shut then s
  else if size ≠ 64 ∨ words.length ≠ 8 then dropPush s queue
  else match s.queueOf (BitVec.ofNat 64 queue) with
  | none => dropPush s queue
  | some (n, q) =>
    match pushed s q words with
    | none => dropPush s queue
    | some r => (pushItem s n q r).2

/-- HOST_PUSH -/
def execHostPush (queue size : Nat) (words : List Word) (s : State) : Outcome :=
  inTurn (.hostPush queue size words) (fun _ => false) (hostPushAct (queue % 4096) size words) s

/-! ### Doorbells and plain registers (R20, R415, R418) -/

/-- CFGREQ_DOORBELL: a device store to a full doorbell waits. -/
def execCfgreqDoorbell (door : Option Nat) (v : Word) (s : State) : Outcome :=
  match door with
  | none => inTurn (.cfgreqDoorbell none v) (fun _ => false) (fun u => controlWrite u 0x8 v) s
  | some c =>
    match ringDoorbell s (some c) v with
    | .done s1 => .next s1
    | _ => .next (s.later (.cfgreqDoorbell (some c) v))

/-- A store of machine privilege to a core's register block by a hart of the core, as a register write; one to a full doorbell waits
(R418). -/
def blockWrite (s : State) (core off : Nat) (v : Word) : Outcome :=
  match blockStore s core (if s.cur.1 = core then s.cur.2 else 0) .M core off v with
  | .done s1 => .next s1
  | .wait => .next (s.later (.registerWrite (.block core off v)))
  | .trap _ => .next s

/-- REGISTER_WRITE -/
def execRegisterWrite (t : RegTarget) (s : State) : Outcome :=
  match t with
  | .csr o => finish (csrOp o s)
  | .bar0 off v => inTurn (.registerWrite (.bar0 off v)) (fun _ => false) (fun u => controlWrite u off v) s
  | .block core off v => blockWrite s core off v

/-! ### Address translation (R414) -/

/-- ATS_INVALIDATION: the translation is dropped and, every access having been sent, the invalidation completes. -/
def execAtsInvalidation (page : Nat) (s : State) : Outcome :=
  .next ({ s with host := { s.host with ats := s.host.ats.filter (fun p => p != page) } }.post (.atsDone page))

end Sys2Proof.Machine
end

