-- ==== Sys2Proof/Machine/Margin.lean ====
section
/-! DEFINITION. The safety net and the power controller: timing events (R436 to R438), counting windows (R455), the regulator (R440),
droops and hops (R441), the dispatch gate's drain (R304), power windows (R305, R306), the sensors and the thermal rule (R451, R452)
and the machine external interrupt (R439). -/
namespace Sys2Proof.Machine

def State.modMargin (s : State) (c : Nat) (f : Margin → Margin) : State := s.modCore c (fun k => { k with margin := f k.margin })

/-- Sets quarst.report with a reason; the interrupt follows the bit (R439). -/
def reportCore (s : State) (c reason : Nat) : State :=
  s.modCore c (fun k => { k with quar := { k.quar with report := true, reason := BitVec.ofNat 4 reason } })

/-! ### Timing events (R436 to R438) -/

/-- Auto-raise steps the trim toward guaranteed margin. -/
def Margin.mayStep (m : Margin) : Bool := m.auto && decide (m.floor < m.trim)
def Margin.step (m : Margin) : Margin := { m with trim := m.trim - 1, raises := m.raises + 1 }

/-- One replay is counted: tevcnt, the window's events, and what the window's thresholds do (R438). -/
def countReplay (s : State) (c : Nat) : State :=
  let s1 := s.modMargin c (fun m => { m with tevcnt := m.tevcnt + 1, events := m.events + 1 })
  let m := (s1.core c).margin
  let s2 := if m.events.toNat = m.raiseth.toNat + 1 ∧ !m.stepped ∧ m.mayStep then
      armRegulator (s1.modMargin c (fun q => { q.step with stepped := true })) c
    else s1
  if m.events.toNat = m.quarth.toNat + 1 then reportCore (s2.modMargin c (fun q => { q with statQuar := true })) c 2 else s2

/-- An uncontained event (R437, R439): cause 48 with the context and the carousel periods since first issue; the report and the hold. -/
def uncontained (s : State) (c x n : Nat) : State :=
  let periods := min 255 ((n - (s.thr c x).firstIssue) / 8)
  let s1 := armRegulator ((reportCore s c 1).modMargin c (fun m => { m with hold := true })) c
  takeException { s1 with cur := (c, x) } { cause := 48, tval := x + periods * 256 }

/-- A replay of the instruction of context x in core cycle n. -/
def replayInstr (s : State) (c x n : Nat) : State :=
  let s1 := s.modThr c x (fun t => { t with rc := t.rc + 1 })
  let s2 := countReplay s1 c
  let m := (s2.core c).margin
  if (s2.thr c x).rc < max 1 m.limit.toNat then s2
  else if m.mayStep then armRegulator ((s2.modMargin c Margin.step).modThr c x (fun t => { t with rc := 0 })) c
  else uncontained s2 c x n

/-- The context's instruction has been issued past its commit point, or waits for what it asked for: no timing event undoes it
(R435). -/
def Ctx.committed (t : Ctx) : Bool :=
  t.act.isSome || t.joining.isSome || t.joinStatus.isSome || t.mgnWait || t.midway || t.raised.isSome ||
    (match t.barWait with | some b => b.arrived || b.ends.isSome | none => false)

/-- A timing event met in core cycle n by the instruction that took s to s': an unready instruction, or one past its commit point, meets
none. Another does not commit: the event takes back all it did but the charge of its first issue (R303, R435, R436). -/
def settleLate (at' : EventWhere) (n : Nat) (s s' : State) : State :=
  let c := s.cur.1
  let x := s.cur.2
  let t := s'.thr c x
  if s.hart.committed || (t.ended == s.hart.ended && t.status == .running && !t.committed) then s'
  else
    let u := ({ s.calm with fetched := s'.fetched }.modCore c (fun k => { k with gate := (s'.core c).gate })).modThr c x (fun h =>
      { h with charged := true, firstIssue := if h.charged then h.firstIssue else n,
               replayAt := if decide (at' = EventWhere.group) && isVectorWord s'.fetched then some (n + 1) else none })
    replayInstr u c x n

/-! ### Counting windows (R438, R455) -/

/-- WINHIST and the streak at the end of a window. -/
def Margin.endWindow (m : Margin) : Margin :=
  let cr := decide (m.raiseth.toNat < m.events.toNat)
  { m with last := m.events, crossed := cr, streak := if cr then (if m.streak = 7 then 7 else m.streak + 1) else 0, events := 0,
           stepped := false }

/-- The window under way ends; windows that passed without a cycle of the core were empty. -/
def endWindows (s : State) (core : Nat) : State :=
  let k := s.core core
  let m := k.margin
  let w := s.nextCycle core k / (1 <<< m.n.toNat)
  let m1 := m.endWindow
  let m2 := if m.win + 1 < w then m1.endWindow else m1
  let s1 := s.modMargin core (fun _ => { m2 with win := w })
  if m.streak = 2 ∧ m1.crossed then reportCore s1 core 2 else s1

/-- MARGIN_WINDOW_END -/
def execMarginWindowEnd (core : Nat) (s : State) : Outcome := .next (endWindows s core)

/-- The core counts in the window of its next cycle. -/
def currentWindow (s : State) (core : Nat) : State :=
  if windowEnded (s.core core) (s.nextCycle core (s.core core)) then endWindows s core else s

/-- TIMING_EVENT: the core's next cycle meets a late transition (settleLate); a row step of the matrix unit is repeated and counted at
once. -/
def execTimingEvent (core : Nat) (at' : EventWhere) (s : State) : Outcome :=
  if !s.coreUp core then .next s
  else match at' with
  | .rowStep => .next (countReplay (currentWindow s core) core)
  | _ => .next (s.modMargin core (fun m => { m with late := some at' }))

/-! ### The regulator, droops and hops (R440, R441) -/

/-- REGULATOR_STEP -/
def execRegulatorStep (core : Nat) (s : State) : Outcome :=
  let k := s.core core
  let t := k.marginTarget
  let v := k.margin.supply
  .next (armRegulator (s.modMargin core (fun m =>
    { m with regPend := false, supply := if v < t then v + 1 else if t < v then v - 1 else v })) core)

/-- The core is in a hop of its die's clock. -/
def inHop (s : State) (c : Nat) : Bool :=
  match (s.die (dieOf c)).hop with
  | some t => decide (s.now < t + Config.hopLength * Config.corePeriod (classOf c))
  | none => false

/-- DROOP_DETECT: outside a hop the clock stretches, by a free number of cycles; in a hop issue freezes and every uncommitted instruction
replays, a free number of at most eight. -/
def execDroopDetect (core : Nat) (s : State) : Outcome :=
  let s1 := (currentWindow s core).modMargin core (fun m => { m with droops := m.droops + 1 })
  if inHop s1 core then
    let ch := s1.choose 9
    .next ((List.range ch.1).foldl (fun u _ => countReplay u core)
      (ch.2.modMargin core (fun m => { m with frozen := true, hopDroops := m.hopDroops + 1 })))
  else
    let d := s1.draw
    .next (d.2.modMargin core (fun m => { m with stretched := m.stretched + d.1.toNat }))

/-- CLOCK_SOURCE_HOP: 64 core cycles on the backup clock; the cores of each class end theirs in turn. -/
def execClockSourceHop (die : Nat) (s : State) : Outcome :=
  let s1 := s.modDie die (fun d => { d with hop := some s.now })
  .next ([0, 1, 2].foldl (fun u cl => u.after (Config.hopLength * Config.corePeriod cl) (.clockHopEnd die)) s1)

/-- CLOCK_HOP_END -/
def execClockHopEnd (die : Nat) (s : State) : Outcome :=
  let s1 := { s with cores := s.cores.map (fun (e : Nat × Core) =>
    if dieOf e.1 == die && !inHop s e.1 then (e.1, { e.2 with margin := { e.2.margin with frozen := false } }) else e) }
  .next (s1.modDie die (fun d => { d with hop :=
    match d.hop with
    | some t => if t + Config.hopLength * Config.corePeriod 2 ≤ s.now then none else some t
    | none => none }))

/-- BUCKET_DRAIN: the drain of every core cycle begun by now, each once (R304). -/
def execBucketDrain (core : Nat) (s : State) : Outcome :=
  .next (s.modCore core (fun k => { k with gate := k.gate.drainTo (s.coreCycle core + 1) }))

/-! ### Power windows (R305, R306) -/

/-- L_pwr of every core of a die. -/
def mapLpwr (s : State) (die : Nat) (f : Nat → Nat) : State :=
  ((List.range 96).map (· + die * 96)).foldl (fun u c => u.modCore c (fun k => { k with lpwr := f k.lpwr })) s

/-- POWER_WINDOW_END: the window's power is free (log 13). -/
def execPowerWindowEnd (die : Nat) (s : State) : Outcome :=
  let r := s.draw
  let p := r.1.toNat % (1 <<< 32)
  let d := s.die die
  let above := decide (d.power.target.toNat < p)
  let under := decide (100 * p < 95 * d.power.target.toNat)
  let s1 := mapLpwr r.2 die (fun l =>
    if above then (if d.power.lpwrFloor < l then l / 2 else l)
    else if under && !d.power.hot then min 8192 (2 * l) else l)
  let s2 := s1.modDie die (fun q => { q with power := { q.power with
    power := BitVec.ofNat 32 p,
    limit := q.power.clamp (if above then q.power.limit - 1 else if under then q.power.limit + 1 else q.power.limit) } })
  .next ((s2.admitAll die).after (sliceTicks Config.powerWindow) (.powerWindowEnd die))

/-! ### Sensors (R451, R452) -/

/-- Sensor i of a die as last sampled, in 1/256 °C; the samples are free values (log 13). -/
def sensor (s : State) (die i : Nat) : Int := (Config.sensor (s.die die).sample die i).toInt

def hottest (s : State) (die : Nat) : Int := (List.range 31).foldl (fun a i => max a (sensor s die (i + 1))) (sensor s die 0)

/-- The thermal rule: from 105 °C the die's L_pwr is its floor until it reads below 100 °C. -/
def thermal (s : State) (die : Nat) : State :=
  let h := hottest s die
  let p := (s.die die).power
  let hot := decide (105 * 256 ≤ h) || (p.hot && decide (100 * 256 ≤ h))
  let s1 := s.modDie die (fun d => { d with power := { d.power with hot := hot } })
  mapLpwr s1 die (fun l => if hot then p.lpwrFloor else l)

/-- The machine external interrupt of a service core's context is taken where it is the one the context takes. -/
def execMachineExternalInterrupt (die ctx : Nat) (s : State) : Outcome :=
  match s.serviceCore die with
  | some c =>
    match s.interrupt c ctx with
    | some (11, toM) => .next ({ s with cur := (c, ctx) }.serveInterrupt 11 toM)
    | _ => .next s
  | none => .next s

end Sys2Proof.Machine
end

