-- ==== Sys2Proof/Machine/Fleet.lean ====
section
/-! DEFINITION. Fleet operation: counting units and their classes (R454 to R458), Laxel links (R459, R463), end-to-end requests (R460 to
R462), power caps (R464 to R466), telemetry (R452) and subscriptions (R427). -/
namespace Sys2Proof.Machine

def State.setFleet (s : State) (f : Fleet → Fleet) : State := { s with fleet := f s.fleet }

/-! ### Counting units (R454, Table 22-3) -/

/-- The number a unit's record is kept under. -/
def unitKey (u : Unit22) : Nat :=
  match u with
  | .core i => i % 384
  | .channel i => 384 + i % 32
  | .dieArrays d => 416 + d % 4
  | .link i => 420 + i % 18
  | .edge a b => 438 + a % 4 * 4 + b % 4
  | .die d => 454 + d % 4
  | .stage n => 458 + n % 10

/-- The default thresholds. -/
def unitDefaults (u : Unit22) : Nat × Nat :=
  match u with
  | .channel _ => (64, 4096)
  | .dieArrays _ => (16, 1024)
  | .link _ => (1024, 65536)
  | .edge _ _ => (256, 16384)
  | _ => (0xFFFFFFFF, 0xFFFFFFFF)

def State.unitOf (s : State) (u : Unit22) : UnitCount := SMap.get {} s.fleet.units (unitKey u)
def State.setUnit (s : State) (u : Unit22) (v : UnitCount) : State :=
  s.setFleet (fun f => { f with units := f.units.put (unitKey u) v })

def UnitCount.raiseAt (c : UnitCount) (u : Unit22) : Nat := c.raise.getD (unitDefaults u).1
def UnitCount.quarAt (c : UnitCount) (u : Unit22) : Nat := c.quarth.getD (unitDefaults u).2

/-! ### Links (R459, R463) -/

def State.link (s : State) (l : Nat) : Link := SMap.get {} s.fleet.links l
def State.setLink (s : State) (l : Nat) (k : Link) : State := s.setFleet (fun f => { f with links := f.links.put l k })
def Link.serves (k : Link) : Bool := k.up && !k.retrain

/-- Links in service. -/
def State.linksUp (s : State) : List Nat := (List.range 18).filter (fun l => (s.link l).serves)

/-- A flit is sent: it takes the next number and is kept for replay. -/
def Link.send (k : Link) : Link :=
  let w := k.window ++ [k.nextSeq.toNat]
  { k with nextSeq := k.nextSeq + 1, window := w.drop (w.length - 512), replays := k.replays.filter (fun e => e.1 != k.nextSeq.toNat) }

/-- A copy of request r is sent on a link in service chosen freely, and its timer starts again; with no link up it waits for its timer. -/
def sendCopy (s : State) (r : E2eOut) : State :=
  let up := s.linksUp
  let ch := s.choose up.length
  let l := up.getD ch.1 0
  let due := s.now + s.fleet.timerT
  let s1 := ch.2.setFleet (fun f => { f with out := f.out.map (fun q =>
    if q.seq == r.seq then { q with due := due, link := if up.isEmpty then q.link else l } else q) })
  let s2 := if up.isEmpty then s1
    else let k := (s1.link l).send; (s1.setLink l { k with retrans := k.retrans + 1 }).post (.e2eCopy r.seq l)
  s2.after s.fleet.timerT (.retransmitTimeout r.seq)

def E2eOut.open (r : E2eOut) : Bool := r.done.isNone && r.failed.isNone

/-- Requests last sent on a link are sent again at once, counting no timeout (R460). -/
def resend (s : State) (l : Nat) : State :=
  (s.fleet.out.filter (fun r => r.link == l && r.open)).foldl sendCopy s

/-- A link leaves service for retraining; the outcome comes later, freely. -/
def retrainLink (s : State) (l : Nat) : State :=
  let ch := s.choose 2
  let s1 := ch.2.setLink l { ch.2.link l with retrain := true }
  (resend s1 l).later (.linkTrained l (ch.1 == 0))

/-- A link is taken down and reported (R463). -/
def downLink (s : State) (l : Nat) : State :=
  (resend (s.setLink l { s.link l with up := false, retrain := false }) l).notify (.linkDown l)

/-- The action of Table 22-3 when a unit becomes lasting. -/
def lastingAction (s : State) (u : Unit22) : State :=
  match u with
  | .link l => downLink s l
  | .channel _ => s.notify (.serviceFlag u)
  | .dieArrays _ => s.notify (.serviceFlag u)
  | .edge _ _ => s.notify (.serviceFlag u)
  | _ => s

/-- A unit is classed lasting: the telemetry log records it, and its action follows. -/
def makeLasting (s : State) (u : Unit22) : State :=
  let c := s.unitOf u
  if c.lasting then s
  else lastingAction (s.setUnit u { c with lasting := true, records := c.records + 1 }) u

/-- Events of a unit: past the quarantine threshold it is lasting at once. -/
def countUnit (s : State) (u : Unit22) (n : Nat) : State :=
  let c := s.unitOf u
  let s1 := s.setUnit u { c with events := c.events + n, total := c.total + n }
  if c.quarAt u < c.events + n then makeLasting s1 u else s1

/-- The units whose windows end with that of channel 0. -/
def otherUnits : List Unit22 :=
  (List.range 31).map (fun i => .channel (i + 1)) ++ (List.range 4).map .dieArrays ++ (List.range 18).map .link ++
    [.edge 0 1, .edge 0 2, .edge 0 3, .edge 1 2, .edge 1 3, .edge 2 3]

/-- The end of a unit's window: the class (R454). -/
def endUnitWindow (s : State) (u : Unit22) : State :=
  let c := s.unitOf u
  let raised := decide (c.raiseAt u < c.events)
  let s1 := s.setUnit u { c with events := 0, hist := (raised :: c.hist).take 2 }
  if raised && c.hist == [true, true] then makeLasting s1 u else s1

/-- Memory channel of a physical address (R318): 0 to 31, die-major. -/
def channelOf (s : State) (pa : Nat) : Nat :=
  let a := lineOf pa
  homeDie s a * 8 + a / (if s.degraded then 3 else 4) % 8

/-- An uncorrectable error of a memory channel: a free sector, where the channel holds it, or none (R337). -/
def wearChannel (s : State) (i : Nat) : State :=
  let k := s.choose (dramTop s / 32)
  if channelOf k.2 (k.1 * 32) = i then k.2.spoil k.1 else k.2

/-- A dirty line of a die's L2, a free one that has been written, is lost where the die is its home: the event names the address space
of its last write (R338). -/
def loseLine (s : State) (die : Nat) : State :=
  let k := s.choose (dramTop s / 128)
  match s.past.find? (fun w => w.meets (k.1 * 128) 128) with
  | some w =>
    if homeDie s k.1 = die then
      ((((k.2.spoil (4 * k.1)).spoil (4 * k.1 + 1)).spoil (4 * k.1 + 2)).spoil (4 * k.1 + 3)).notify (.lostLine k.1 w.asid)
    else k.2
  | none => k.2

/-- A dirty stash sector of a core of the die, a free one, is lost (R338). -/
def loseSector (s : State) (die : Nat) : State :=
  let c := s.choose 96
  let q := die * 96 + c.1
  let dirty := (s.core q).sectors.filter (fun e => e.2.dirty)
  let k := c.2.choose dirty.length
  match dirty[k.1]? with
  | some e => ((k.2.modCore q (fun m => { m with sectors := m.sectors.del e.1 })).spoil e.2.sector).notify
      (.lostLine (e.2.sector / 4) e.2.asid)
  | none => k.2

/-- A free object in the die's pinned storage breaks, or the records that a deque of the die holds in overflow are lost (R331). -/
def breakObject (s : State) (die : Nat) : State :=
  let k := s.choose 4
  let n := k.2.choose 4096
  match k.1 with
  | 0 =>
    let q : Queue := SMap.get {} s.queues n.1
    if q.enable && queueHome n.1 == die then
      (n.2.setQueue n.1 { q with broken := true, items := [] }).notify (.brokenObject 0 n.1)
    else n.2
  | 1 => (n.2.setTurn die n.1 { broken := true }).notify (.brokenObject 1 (die * 4096 + n.1))
  | 2 =>
    let p : Pool := SMap.get {} (s.die die).pools (n.1 % 8)
    if p.size = 0 then n.2
    else (n.2.setPool die (n.1 % 8) { p with broken := true, out := [] }).notify (.brokenObject 2 (die * 8 + n.1 % 8))
  | _ =>
    let c := die * 96 + n.1 % 96
    let lost := (s.core c).overflow
    if lost.isEmpty then n.2 else (n.2.modCore c (fun m => { m with overflow := [] })).notify (.lostRecords c lost)

/-- An uncorrectable error in the arrays of a die: none, a dirty line, a dirty stash sector, or pinned storage (R331, R338). -/
def wearArrays (s : State) (die : Nat) : State :=
  let k := s.choose 4
  match k.1 with
  | 0 => k.2
  | 1 => loseLine k.2 die
  | 2 => loseSector k.2 die
  | _ => breakObject k.2 die

/-- Errors of channels, arrays and edges come from outside the machine: a free number of corrected errors in a window, and with its
end an uncorrectable error or none (log 13). A fenced die's channels are unreachable, and its edges carry nothing (R12). -/
def freeErrors (s : State) (u : Unit22) : State :=
  match u with
  | .channel i => if s.dieLive (i / 8) then let d := s.draw; wearChannel (countUnit d.2 u d.1.toNat) i else s
  | .dieArrays die =>
    if s.dieLive die then let d := s.draw; wearArrays (countUnit d.2 u d.1.toNat) die else s
  | .edge a b => if s.dieLive a && s.dieLive b then let d := s.draw; countUnit d.2 u d.1.toNat else s
  | _ => s

/-- A core is lasting while its streak is 3 or more or it is quarantined (R455). -/
def coreLasting (s : State) (c : Nat) : Bool := decide (3 ≤ (s.core c).margin.streak.toNat) || (s.core c).quar.quar

/-- UNIT_WINDOW_END -/
def execUnitWindowEnd (u : Unit22) (s : State) : Outcome :=
  match u with
  | .core c => .next (if coreLasting s c then makeLasting s u else s)
  | .die _ => .next s
  | .stage _ => .next s
  | .channel 0 =>
    let s1 := endUnitWindow (freeErrors s u) u
    .next ({ s1 with inbox := s1.inbox ++ otherUnits.map (fun w => Event.unitWindowEnd w) }.after (sliceTicks Config.unitWindow) (.unitWindowEnd u))
  | _ => .next (endUnitWindow (freeErrors s u) u)

/-- OXEIL_SET_THRESHOLD: not for cores; each threshold from 1 to 2^32 − 1. -/
def execOxeilSetThreshold (u : Unit22) (raise quar : Nat) (s : State) : Outcome :=
  let ok := fun n => decide (1 ≤ n) && decide (n < 1 <<< 32)
  let unit := match u with | .channel _ => true | .dieArrays _ => true | .link _ => true | .edge _ _ => true | _ => false
  if unit && ok raise && ok quar && s.boot.oxeil then
    .next (s.setUnit u { s.unitOf u with raise := some raise, quarth := some quar })
  else .next s

/-! ### Flits (R459) -/

/-- LAXEL_FLIT: accepted in sequence with a good CRC, else discarded with a replay request. -/
def execLaxelFlit (link : Nat) (seq : BitVec 10) (crcOk : Bool) (s : State) : Outcome :=
  let k := s.link link
  if !k.serves then .next s
  else if crcOk && seq == k.expect then
    .next (s.setLink link { k with expect := k.expect + 1, accepted := k.accepted + 1 })
  else .next (s.post (.replay link k.expect))

/-- One more replay of a flit. -/
def bumpReplay (n : Nat) : List (Nat × Nat) → List (Nat × Nat)
  | [] => [(n, 1)]
  | e :: l => if e.1 = n then (n, e.2 + 1) :: l else e :: bumpReplay n l

/-- LAXEL_REPLAY_REQUEST: the flits from the named one on are replayed and counted; sixteen replays of one retrain the link. -/
def execLaxelReplayRequest (link : Nat) (seq : BitVec 10) (s : State) : Outcome :=
  let k := s.link link
  let again := k.window.dropWhile (fun n => n != seq.toNat)
  if !k.serves then .next s
  else
    let k1 := { k with replayFlits := k.replayFlits + again.length,
                       replays := again.foldl (fun a n => bumpReplay n a) k.replays }
    let s1 := countUnit (s.setLink link k1) (.link link) again.length
    .next (if (s1.link link).serves && k1.replays.any (fun e => decide (16 ≤ e.2)) then
        retrainLink (s1.setLink link { s1.link link with replays := [] }) link
      else s1)

/-- LINK_DOWN -/
def execLinkDown (link : Nat) (s : State) : Outcome := .next (if (s.link link).up then downLink s link else s)

/-- LINK_TRAINED: back to service, or down. A lasting link stays down (R454). -/
def execLinkTrained (link : Nat) (ok : Bool) (s : State) : Outcome :=
  if ok && !(s.unitOf (.link link)).lasting then .next (s.setLink link { s.link link with up := true, retrain := false })
  else .next (downLink s link)

/-! ### End-to-end requests (R460 to R462) -/

/-- OXEIL_SET_TIMER: T from 10 µs to 10 ms, in ticks. -/
def execOxeilSetTimer (t : Nat) (s : State) : Outcome :=
  .next (if 1638000 ≤ t ∧ t ≤ 1638000000 ∧ s.boot.oxeil then s.setFleet (fun f => { f with timerT := t }) else s)

/-- The event is the expiry of a deduplication entry. -/
def dedupTimer (s : State) (src : Nat) (seq : BitVec 32) : State := s.after (2 * s.fleet.timerT) (.dedupExpire src seq)

/-- A link in service on which a copy came, chosen freely: its counter of duplicates rises. -/
def countDup (s : State) : State :=
  let ch := s.choose 18
  ch.2.setLink ch.1 { ch.2.link ch.1 with dups := (ch.2.link ch.1).dups + 1 }

/-- The request performed: an atomic of 64 bits, an add of 0 for a load and a swap for a store; its response is the old word. An address
that is no word of device memory performs nothing, and its response is free. -/
def performRemote (s : State) (addr : Nat) (f : AmoOp) (val : Word) : Word × State :=
  if addr % 8 = 0 ∧ addr + 8 ≤ dramTop s ∧ (s.badIn addr 8).isNone then
    let s1 := recallRead s none addr 8
    let old := s1.peek addr 8
    (BitVec.ofNat 64 old, s1.storePhys none none addr 8 (amoValue f 64 old val.toNat))
  else let d := s.draw; (d.1, retireAt d.2 addr 8)

/-- E2E_REQUEST_ARRIVE: too old is discarded; a copy of a performed request is answered from its entry; a full table answers busy. -/
def execE2eRequestArrive (src : Nat) (seq : BitVec 32) (age addr : Nat) (f : AmoOp) (val : Word) (s : State) : Outcome :=
  let exp := s.now + 2 * s.fleet.timerT
  if s.fleet.timerT < age then .next s
  else match s.fleet.dedup.find? (fun d => d.src == src && d.seq == seq) with
  | some d =>
    let s1 := s.setFleet (fun g => { g with dedup := g.dedup.map (fun q =>
      if q.src == src && q.seq == seq then { q with expiry := exp } else q) })
    .next (((countDup s1).post (.e2e src seq false d.resp)).after (2 * s.fleet.timerT) (.dedupExpire src seq))
  | none =>
    if 65536 ≤ s.fleet.dedup.length then .next (s.post (.e2e src seq true 0))
    else if s.ownedIn addr 8 then .next (s.later (.e2eRequestArrive src seq age addr f val))
    else
      let r := performRemote s addr f val
      let s1 := r.2.setFleet (fun g => { g with dedup := g.dedup ++ [{ src := src, seq := seq, resp := r.1, expiry := exp }] })
      .next (dedupTimer (s1.post (.e2e src seq false r.1)) src seq)

/-- DEDUP_EXPIRE -/
def execDedupExpire (src : Nat) (seq : BitVec 32) (s : State) : Outcome :=
  .next (s.setFleet (fun f => { f with dedup := f.dedup.filter (fun d => !(d.src == src && d.seq == seq && decide (d.expiry ≤ s.now))) }))

/-- E2E_RESPONSE: a busy answer restarts the timer. -/
def execE2eResponse (seq : BitVec 32) (busy : Bool) (val : Word) (s : State) : Outcome :=
  let set := fun (g : E2eOut → E2eOut) => s.setFleet (fun f => { f with out := f.out.map (fun r => if r.seq == seq && r.open then g r else r) })
  if busy then .next ((set (fun r => { r with due := s.now + s.fleet.timerT })).after s.fleet.timerT (.retransmitTimeout seq))
  else .next (set (fun r => { r with done := some val }))

/-- The outcome a failed path gives a requester (R462). -/
def E2eOut.outcome (r : E2eOut) : Nat := match r.kind with | 0 => 5 | 1 => 7 | _ => 0x10

/-- The path to a module fails: every request outstanding to it ends with the outcome of an access fault. -/
def failPath (s : State) (r : E2eOut) : State :=
  let k := s.link r.link
  ((s.setLink r.link { k with fails := k.fails + 1 }).setFleet (fun f => { f with out := f.out.map (fun q =>
    if q.target == r.target && q.open then { q with failed := some q.outcome } else q) })).notify (.pathFailed r.seq)

/-- RETRANSMIT_TIMEOUT: the third timeout fails the path. -/
def execRetransmitTimeout (seq : BitVec 32) (s : State) : Outcome :=
  match s.fleet.out.find? (fun r => r.seq == seq && r.open) with
  | none => .next s
  | some r =>
    if s.now < r.due then .next s
    else if 2 ≤ r.timeouts then .next (failPath s r)
    else .next (sendCopy (s.setFleet (fun f => { f with out := f.out.map (fun q =>
      if q.seq == seq then { q with timeouts := q.timeouts + 1 } else q) })) r)

/-! ### Power caps (R464 to R466) -/

/-- Firmware writes each live die's target from the cap in force. -/
def writeTargets (s : State) : State :=
  let ds := s.liveDies
  ds.foldl (fun u d => u.modDie d (fun q => { q with power := { q.power with
    target := BitVec.ofNat 32 ((s.fleet.cap - 136) * 1000 / ds.length) } })) s

/-- POWER_CAP_MESSAGE -/
def execPowerCapMessage (seq cap lease : Nat) (s : State) : Outcome :=
  let late := s.fleet.capSeq.any (fun n => decide (seq ≤ n))
  if late ∨ cap < 700 ∨ lease < 1000000 ∨ 1 <<< 40 < lease then .next s
  else
    let stop := s.refCycle + lease
    let s1 := s.setFleet (fun f => { f with capSeq := some seq, cap := min cap 1200, leaseEnd := some stop })
    .next ((writeTargets s1).after ((stop + 1) * Config.refPeriod - 1 - s.now) .capLeaseExpire)

/-- CAP_LEASE_EXPIRE: at the end of the tick of the expiry, which a cap accepted in that tick has prevented. -/
def execCapLeaseExpire (s : State) : Outcome :=
  match s.fleet.leaseEnd with
  | some t =>
    if t ≤ s.refCycle then
      .next (writeTargets (s.setFleet (fun f => { f with cap := 700, leaseEnd := none, failSafe := f.failSafe + 1 })))
    else .next s
  | none => .next s

/-! ### Telemetry (R452, Table 22-1) -/

/-- The reading of a source. A source number is a kind times 65,536 plus an index (log 23); kind 25 is the live dies, which reports a
fenced one (R12). -/
def reading (s : State) (src : Nat) : Nat × State :=
  let i := src % 65536
  let c := s.core i
  let neg := fun (v : Int) => (BitVec.ofInt 64 v).toNat
  match src / 65536 with
  | 0 => (neg (sensor s (i / 32) (i % 32)), s)
  | 1 => if i < 4 then ((s.die i).power.power.toNat, s) else let d := s.draw; (d.1.toNat, d.2)
  | 2 => ((Config.sensor (s.die (i / 8)).sample (i / 8) (32 + i % 8)).toNat, s)
  | 3 => (c.margin.droops, s)
  | 4 => (c.margin.stretched, s)
  | 5 => (c.margin.hopDroops, s)
  | 6 => (c.margin.tevcnt.toNat, s)
  | 7 => (c.margin.raises.toNat, s)
  | 8 => ((s.unitOf (.channel i)).total, s)
  | 9 => ((s.unitOf (.dieArrays i)).total, s)
  | 10 => ((s.bad.filter (fun k => channelOf s (k * 32) == i)).length, s)
  | 11 => ((s.retired.filter (fun p => channelOf s (p * 4096) == i)).length, s)
  | 12 => ((s.link i).replayFlits, s)
  | 13 => ((s.unitOf (.edge (i / 4) i)).total, s)
  | 14 => ((s.link i).retrans, s)
  | 15 => ((s.link i).dups, s)
  | 16 => ((s.link i).fails, s)
  | 17 => ((winhist c.margin).toNat, s)
  | 18 => (c.lvdef.toNat, s)
  | 19 => (c.lvwait.toNat, s)
  | 20 => (c.gate.refused.toNat, s)
  | 21 => (s.fleet.cap, s)
  | 22 => (s.fleet.capSeq.getD 0, s)
  | 23 => ((s.fleet.leaseEnd.getD s.refCycle) - s.refCycle, s)
  | 24 => (s.fleet.failSafe, s)
  | 25 => (s.live.toNat, s)
  | _ => (0, s)

/-- TELEMETRY_READ: answered while the management endpoints are up. -/
def execTelemetryRead (src : Nat) (s : State) : Outcome :=
  if s.boot.oxeil then let r := reading s src; .next (r.2.post (.pldm src (r.1 % (1 <<< 64)))) else .next s

/-! ### Subscriptions (R427) -/

/-- A sample of a subscription's source. -/
def sampleOf (s : State) (b : Subscription) : Int × State :=
  match b.source with
  | 0 => (sensor s b.die b.sensor, s)
  | 1 => (hottest s b.die, s)
  | 2 => ((s.die b.die).power.power.toNat, s)
  | _ => let d := s.draw; (d.1.toNat % (1 <<< 32) |>.cast, d.2)

/-- The notice of a crossing: one write, then the vector. -/
def notice (s : State) (slot : Nat) (b : Subscription) (v : Int) (rise : Bool) : State :=
  let w := (BitVec.ofInt 32 v).toNat * (1 <<< 32) + (b.seq + 1) % (1 <<< 24) * 256 + slot % 64 * 4 + rise.toNat
  let s1 := { s with host := { s.host with subs := s.host.subs.put slot { b with above := some rise, seq := b.seq + 1 } } }
  let s2 := s1.storePhys none none b.notify 8 w
  match b.msi with
  | some k => s2.post (.msix k)
  | none => s2

/-- SUBSCRIPTION_SAMPLE: the first sample sets the state; a sample between the limits then sets either. -/
def execSubscriptionSample (slot : Nat) (s : State) : Outcome :=
  match s.host.subs.find? (fun e => e.1 == slot) with
  | none => .next s
  | some (_, b) =>
    let r := sampleOf s b
    let v := r.1
    let s1 := r.2.after (sliceTicks Config.samplePeriod) (.subscriptionSample slot)
    match b.above with
    | none =>
      let ch := s1.choose 2
      let st := if b.high ≤ v then true else if v ≤ b.low then false else ch.1 == 0
      .next { ch.2 with host := { ch.2.host with subs := ch.2.host.subs.put slot { b with above := some st } } }
    | some true => .next (if v ≤ b.low then notice s1 slot b v false else s1)
    | some false => .next (if b.high ≤ v then notice s1 slot b v true else s1)

end Sys2Proof.Machine
end

