-- ==== Sys2Proof/Machine/Boot.lean ====
section
/-! DEFINITION. Boot (R429 to R434), power loss and thermal power-down (R451, R468), the sensors' sampling (R452), requalification (R456
to R458), attestation (R467) and firmware update (R468, R469). What a stage finds is outside the machine: its outcomes are free. -/
namespace Sys2Proof.Machine

/-! ### What a reset keeps -/

/-- A core across a reset: a quarantined core stays quarantined; a warm reset keeps its calibration and its counters (R430, R452), and
every other field takes its reset value (R42). -/
def Core.afterReset (k : Core) (cold : Bool) : Core :=
  if cold then { quar := if k.quar.quar then k.quar else {} }
  else
    { quar := if k.quar.quar then k.quar else {}, lvdef := k.lvdef, lvwait := k.lvwait,
      gate := { cap := k.gate.cap, drain := k.gate.drain, refused := k.gate.refused },
      margin := { trim := k.margin.trim, supply := k.margin.trim.toNat, tevcnt := k.margin.tevcnt, raises := k.margin.raises,
                  droops := k.margin.droops, stretched := k.margin.stretched, hopDroops := k.margin.hopDroops } }

/-- A cap in force goes on through a warm reset, whose clocks start at 0 again. -/
def Fleet.afterReset (f : Fleet) (cold : Bool) (ref : Nat) : Fleet :=
  if cold then { units := f.units }
  else { units := f.units, links := f.links.map (fun e => (e.1, { e.2 with retrain := false })), timerT := f.timerT, capSeq := f.capSeq,
         cap := f.cap, failSafe := f.failSafe, leaseEnd := f.leaseEnd.map (fun t => t - ref) }

/-- The machine with no core running, before its boot: flash and fuses, quarantined cores, the telemetry log, and after a warm reset
memory and training results. -/
def bootBase (s : State) (cold : Bool) : State :=
  let f := s.fleet.afterReset cold s.refCycle
  let s1 : State :=
    { State.reset with
      cores := s.cores.map (fun e => (e.1, e.2.afterReset cold)), mem := if cold then [] else s.mem, bad := if cold then [] else s.bad,
      nestSaves := if cold then [] else s.nestSaves,
      live := s.live, fresh := s.fresh + 1, dies := (List.range 4).map (fun d => (d, { sample := s.fresh + 1 })), fleet := f,
      events := s.events, host := { posts := s.host.posts },
      boot := { s.boot with recovery := false, poweredDown := false, stageOk := false, oxeil := false, measured := [], transcript := [] } }
  match f.leaseEnd with
  | some t => s1.after ((t + 1) * Config.refPeriod - 1) .capLeaseExpire
  | none => s1

/-! ### The boot record (R431, R432, Tables 21-3, 21-4) -/

def notBegun : Word := 0xFFFFFFFFFFFFFFFF
def begunNormal : Word := 0xFFFFFFFFFFFFFFFE
def begunAlternate : Word := 0xFFFFFFFFFFFFFFFC
def begunSkipped : Word := 0xFFFFFFFFFFFFFFF8

/-- An entry whose marks are all erased. -/
def BootEntry.fresh (seq : Nat) (requal : Bool := false) : BootEntry :=
  { seq := seq, begun := List.replicate 9 notBegun, doneM := List.replicate 9 notBegun, requal := requal }

/-- A program operation can only clear bits (R429). -/
def program (old v : Word) : Word := old &&& v

/-- Programming the marks and the slot word of an entry. -/
def BootEntry.begin (e : BootEntry) (st : Nat) (mark : Word) : BootEntry :=
  { e with begun := e.begun.set (st - 1) (program (wordAt e.begun (st - 1)) mark) }
def BootEntry.done (e : BootEntry) (st : Nat) : BootEntry :=
  { e with doneM := e.doneM.set (st - 1) (program (wordAt e.doneM (st - 1)) 0) }
def BootEntry.useSlot (e : BootEntry) (slotB : Bool) : BootEntry :=
  { e with slot := program e.slot (if slotB then 0xFFFFFFFFFFFFFFFD else 0xFFFFFFFFFFFFFFFC) }

/-- Word i of an entry (Table 21-3). -/
def BootEntry.word (e : BootEntry) (i : Nat) : Word :=
  if i = 0 then BitVec.ofNat 64 e.seq
  else if i = 1 then e.slot
  else if i < 20 then (if i % 2 = 0 then wordAt e.begun (i / 2 - 1) else wordAt e.doneM (i / 2 - 1))
  else notBegun

/-- Position and sequence number of the newest entry. -/
def newest (r : SMap BootEntry) : Option (Nat × BootEntry) :=
  r.foldl (fun a e => match a with
    | none => some e
    | some b => if b.2.seq < e.2.seq then some e else a) none

/-- Writes a new entry at the next position, erasing the sector of a position that is still programmed. -/
def Boot.newEntry (b : Boot) (requal : Bool := false) : Boot :=
  match newest b.ring with
  | none => { b with ring := b.ring.put 0 (BootEntry.fresh 0 requal) }
  | some (p, e) =>
    let n := (p + 1) % 4096
    let r : SMap BootEntry := if SMap.has b.ring n then b.ring.filter (fun q => q.1 / 16 != n / 16) else b.ring
    { b with ring := r.put n (BootEntry.fresh (e.seq + 1) requal) }

/-- Changes the newest entry. -/
def Boot.mark (b : Boot) (f : BootEntry → BootEntry) : Boot :=
  match newest b.ring with
  | some (p, e) => { b with ring := b.ring.put p (f e) }
  | none => b

/-- The way a stage takes. -/
inductive StagePath where | normal | alternate | skipped | recovery
  deriving DecidableEq, Repr

def skippable (st : Nat) : Bool := st == 7 || st == 8

/-- The decision from the marks of the newest entry in which the stage was begun (Table 21-4). -/
def decideStage (st : Nat) (begun doneM : Word) : StagePath :=
  if begun = begunNormal then (if doneM = 0 then .normal else .alternate)
  else if begun = begunAlternate then (if doneM = 0 then .alternate else if skippable st then .skipped else .recovery)
  else if begun = begunSkipped then .skipped
  else .normal

/-- The newest of some entries. -/
def newestOf (es : List BootEntry) : Option BootEntry :=
  es.foldl (fun a e => match a with | none => some e | some b => if b.seq < e.seq then some e else a) none

/-- Entries after the latest one that a requalification wrote (R432). This boot's own entry is left out. -/
def recentEntries (b : Boot) : List BootEntry :=
  let own := match newest b.ring with | some e => e.2.seq | none => 0
  let es := (b.ring.map (·.2)).filter (fun e => e.seq != own)
  match newestOf (es.filter (fun e => e.requal)) with
  | some q => es.filter (fun e => decide (q.seq < e.seq))
  | none => es

/-- The path of a stage of this boot. -/
def stagePath (b : Boot) (st : Nat) : StagePath :=
  match newestOf ((recentEntries b).filter (fun e => wordAt e.begun (st - 1) != notBegun)) with
  | some e => decideStage st (wordAt e.begun (st - 1)) (wordAt e.doneM (st - 1))
  | none => .normal

def beginMark (p : StagePath) : Word := match p with | .normal => begunNormal | .alternate => begunAlternate | _ => begunSkipped

/-! ### The stages (Table 21-2) -/

def activated : Word := 0xFFFFFFFFFFFFFFFC
def written : Word := 0xFFFFFFFFFFFFFFFE

def Boot.slot (b : Boot) (slotB : Bool) : ImageSlot := if slotB then b.slotB else b.slotA
def Boot.setSlot (b : Boot) (slotB : Bool) (v : ImageSlot) : Boot := if slotB then { b with slotB := v } else { b with slotA := v }

/-- The activated slot of higher version, slot A on a tie. -/
def Boot.chosen (b : Boot) : Option Bool :=
  match b.slotA.state == activated, b.slotB.state == activated with
  | true, true => some (decide (b.slotA.pkg.version < b.slotB.pkg.version))
  | true, false => some false
  | false, true => some true
  | false, false => none

/-- The SHAKE256 digest of a number's bytes: 64 bytes (log 12). -/
def digestOf (v : Nat) : Nat := shake256 v ((Nat.log2 v + 8) / 8) 64

/-- The two checks of stage 1 (R433): the signature over header and image, by the key whose digest is fused, and the version. -/
def packagePasses (p : Package) (rollback : Nat) : Bool :=
  digestOf p.key == Config.keyDigest && Config.signatureOk p.key (p.version, p.minVersion) p.image p.signature &&
    decide (rollback ≤ p.version)

def Boot.slotPasses (b : Boot) (slotB : Bool) : Bool :=
  let v := b.slot slotB
  v.state == activated && packagePasses v.pkg b.rollback

/-- The code that a stage runs: the boot ROM, the stage-1 image of the slot used, or the device kernel. -/
def Boot.stageCode (b : Boot) (st : Nat) : Nat :=
  if st = 1 then Config.romCode else if st = 9 then Config.kernelCode else (b.slot b.booted).pkg.image

/-- A stage records the digest of the code it runs (R433). -/
def Boot.measure (b : Boot) (st : Nat) : Boot := { b with measured := b.measured ++ [(st, digestOf (b.stageCode st))] }

def State.setBoot (s : State) (f : Boot → Boot) : State := { s with boot := f s.boot }

/-- A stage's outcome that the machine does not fix. -/
def freeOutcome (s : State) : Bool × State := let ch := s.choose 2; (ch.1 == 0, ch.2)

/-- Stage 4 on a core: trim, bucket capacity and drain of its calibration, free values; a core that a requalification retries and that
calibrates at trim 1 or more returns, else it is lasting once more (R457). -/
def calibrate (s : State) (c : Nat) : State :=
  let d := s.draw
  let t := BitVec.ofNat 5 d.1.toNat
  let k := d.2.core c
  let gate := { k.gate with cap := BitVec.ofNat 16 (d.1.toNat / 32), drain := BitVec.ofNat 16 (d.1.toNat / (1 <<< 21)) }
  let tuned := { k with margin := { k.margin with trim := t, supply := t.toNat }, gate := gate }
  if !k.quar.quar then d.2.setCore c tuned
  else if !s.boot.requal then d.2
  else if t ≠ 0 then d.2.setCore c { tuned with quar := {} }
  else
    let u := d.2.unitOf (.core c)
    d.2.setUnit (.core c) { u with lasting := true, records := u.records + 1 }

/-- Stage 7: each link trains freely; a lasting one stays down. -/
def trainLinks (s : State) : State :=
  (List.range 18).foldl (fun u l =>
    let ch := u.choose 2
    let ok := ch.1 == 0 && !(ch.2.unitOf (.link l)).lasting
    let v := ch.2.setLink l { ch.2.link l with up := ok, retrain := false }
    if ok then v else v.notify (.linkDown l)) s

/-- The work of a stage on a path: whether it completes, and what it leaves. -/
def stageWork (s : State) (st : Nat) (p : StagePath) : Bool × State :=
  let alt := p == .alternate
  match st with
  | 1 =>
    (match s.boot.chosen with
     | none => (false, s)
     | some c =>
       let b := if alt then !c else c
       if s.boot.slotPasses b then (true, s.setBoot (fun q => { q with booted := b }.mark (fun e => e.useSlot b))) else (false, s))
  | 2 =>
    let r := freeOutcome s
    if alt then
      let d := r.2.choose 4
      (r.1, { d.2 with live := 15 &&& ~~~(1#4 <<< d.1) })
    else (r.1, { r.2 with live := 15 })
  | 3 => let r := freeOutcome s; (r.1, r.2.setBoot (fun q => { q with half := alt }))
  | 4 =>
    let r := freeOutcome s
    if alt then r
    else (r.1, ((List.range 384).filter r.2.coreLive).foldl calibrate r.2)
  | 7 => let r := freeOutcome s; (r.1, trainLinks r.2)
  | 8 => let r := freeOutcome s; (r.1, r.2.setBoot (fun q => { q with oxeil := true }))
  | _ => freeOutcome s

/-- A skipped stage: its links are down, or its endpoints unreachable. -/
def stageSkip (s : State) (st : Nat) : State :=
  if st = 7 then (List.range 18).foldl (fun u l => u.setLink l { u.link l with up := false, retrain := false }) s
  else s.setBoot (fun q => { q with oxeil := false })

/-- The device kernel's first thread: on the lowest core in service, as log 1 gives. -/
def startKernel (s : State) : State :=
  let s1 := s.setBoot (fun q => { q with stage := 9, stageOk := true, requal := false })
  match (List.range 384).find? s1.coreUp with
  | some c => s1.setThr c 0 Ctx.boot
  | none => s1

/-- Recovery mode: of the management endpoints only the firmware update path is served (R434). -/
def enterRecovery (s : State) : State := s.setBoot (fun q => { q with recovery := true, requal := false, oxeil := false })

/-- A stage that has not completed: its watchdog runs (R430). -/
def stageHangs (s : State) (st : Nat) : State :=
  (s.setBoot (fun q => { q with stage := st, stageOk := false })).after (Config.watchdogLimit * Config.refPeriod) .bootWatchdogExpire

/-- Runs stages in order. -/
def runStages : List Nat → State → State
  | [], s => startKernel s
  | st :: rest, s =>
    match stagePath s.boot st with
    | .recovery => enterRecovery s
    | .skipped =>
      runStages rest (stageSkip (s.setBoot (fun q => q.mark (fun e => e.begin st begunSkipped))) st)
    | p =>
      let r := stageWork (s.setBoot (fun q => (q.mark (fun e => e.begin st (beginMark p))).measure st)) st p
      if r.1 then runStages rest (r.2.setBoot (fun q => q.mark (fun e => e.done st)))
      else stageHangs r.2 st

/-- A boot from a stage on writes its entry first; a warm reset goes on with the slot in use. -/
def bootFrom (s : State) (cold : Bool) (first : Nat) : State :=
  runStages ((List.range (10 - first)).map (· + first)) ((bootBase s cold).setBoot (fun b =>
    if cold then b.newEntry else b.newEntry.mark (fun e => e.useSlot b.booted)))

/-- COLD_RESET -/
def execColdReset (s : State) : Outcome := .next (bootFrom s true 1)

/-- WARM_RESET: stages 5 to 9. -/
def execWarmReset (s : State) : Outcome := .next (bootFrom s false 5)

/-- BOOT_WATCHDOG_EXPIRE -/
def execBootWatchdogExpire (s : State) : Outcome :=
  if s.boot.stageOk ∨ s.boot.recovery ∨ s.boot.poweredDown then .next s else .next (bootFrom s true 1)

/-! ### Power (R451, R468) -/

/-- The module without supply: flash, fuses and the telemetry log stay. -/
def powerDown (s : State) : State :=
  let s1 := bootBase s true
  { s1 with timers := [], live := s.live, boot := { s1.boot with poweredDown := true } }

/-- POWER_LOSS -/
def execPowerLoss (s : State) : Outcome := .next (powerDown s)

/-- TELEMETRY_SAMPLE: new samples, the thermal rule, and at 115 °C the power-down with its record. -/
def execTelemetrySample (die : Nat) (s : State) : Outcome :=
  let s1 := { s.modDie die (fun d => { d with sample := s.fresh + 1 }) with fresh := s.fresh + 1 }
  let s2 := (thermal s1 die).after (sliceTicks Config.samplePeriod) (.telemetrySample die)
  .next (if 115 * 256 ≤ hottest s1 die then (powerDown s2).notify (.thermalTrip die) else s2)

/-! ### Requalification and replacement (R456 to R458) -/

/-- REQUALIFICATION: refused with two lasting records; else an entry with erased marks, the class cleared, and a cold reset. -/
def execRequalification (u : Unit22) (s : State) : Outcome :=
  let c := s.unitOf u
  if !s.boot.oxeil then .next s
  else if 2 ≤ c.records then .next (s.notify (.serviceFlag u))
  else
    let s1 := s.setUnit u { c with lasting := false, hist := [], events := 0 }
    .next (bootFrom (s1.setBoot (fun q => { q.newEntry true with requal := true })) true 1)

/-- UNIT_REPLACEMENT -/
def execUnitReplacement (u : Unit22) (s : State) : Outcome := .next (s.setUnit u { s.unitOf u with records := 0 })

/-! ### Attestation (R467) -/

/-- The path of each stage in this boot's entry: 2 bits each. -/
def pathCode (e : BootEntry) : Nat :=
  (List.range 9).foldl (fun a i =>
    let w := wordAt e.begun i
    a + (if w = begunNormal then 1 else if w = begunAlternate then 2 else if w = begunSkipped then 3 else 0) * (1 <<< (2 * i))) 0

/-- Cores in quarantine as a 384-bit mask. -/
def quarMask (s : State) : Nat := (s.cores.filter (fun e => e.2.quar.quar)).foldl (fun a e => a + 1 <<< (e.1 % 384)) 0

/-- The digest that the measurement log holds for a stage, or would hold for the boot that left the reset state (log 1). -/
def Boot.digestAt (b : Boot) (st : Nat) : Nat :=
  match b.measured.find? (fun e => e.1 == st) with
  | some e => e.2
  | none => digestOf (b.stageCode st)

/-- The measurements of Table 22-7 at this moment, in index order. -/
def measurements (s : State) : List (List Nat) :=
  let b := s.boot
  [[b.digestAt 1],
   [b.digestAt 2, b.booted.toNat, (b.slot b.booted).pkg.version],
   [b.digestAt 9],
   [match newest b.ring with | some e => pathCode e.2 | none => 0],
   [b.rollback, s.live.toNat, quarMask s]]

/-- SPDM_REQUEST: a response over the measurements, signed over the digest of the transcript with this nonce; its signature has 49,856
bytes. -/
def execSpdmRequest (nonce : Nat) (s : State) : Outcome :=
  if !s.boot.oxeil then .next s
  else
    let ns := s.boot.transcript ++ [nonce]
    let ms := measurements s
    let sig := lowBits (Config.signature (digestOf (Config.transcript ns ms))) (8 * 49856)
    .next ((s.setBoot (fun q => { q with transcript := ns })).post (.spdm nonce ms sig))

/-! ### Firmware update (R468, R469) -/

/-- A package as its header, key and signature fields hold it. -/
def fitPackage (p : Package) : Package :=
  { p with version := lowBits p.version 64, minVersion := lowBits p.minVersion 64, key := lowBits p.key 512,
           signature := lowBits p.signature (8 * 29792) }

/-- FIRMWARE_UPDATE: first the slot this boot did not use is erased and written; then, in an event of its own that a power loss may
prevent, it is verified as stage 1 would and programmed written. -/
def execFirmwareUpdate (version : Nat) (image : Signed) (s : State) : Outcome :=
  let b := !s.boot.booted
  let v := s.boot.slot b
  let p := fitPackage ⟨image, version⟩
  if !s.boot.oxeil && !s.boot.recovery then .next s
  else if v.state = notBegun ∧ v.pkg = p then
    if packagePasses p s.boot.rollback then .next (s.setBoot (fun q => q.setSlot b { q.slot b with state := program v.state written }))
    else .next s
  else .next ((s.setBoot (fun q => q.setSlot b { state := notBegun, pkg := p })).later (.firmwareUpdate version image))

/-- ACTIVATE -/
def execActivate (s : State) : Outcome :=
  let b := !s.boot.booted
  .next (if (s.boot.slot b).state = written then s.setBoot (fun q => q.setSlot b { q.slot b with state := program written activated }) else s)

/-- Stage 9 of this boot is done on the normal path. -/
def bootedNormally (b : Boot) : Bool :=
  match newest b.ring with
  | some (_, e) => wordAt e.begun 8 == begunNormal && wordAt e.doneM 8 == 0
  | none => false

/-- COMMIT: the image that runs may raise the rollback counter to its minimum version, or leave it. -/
def execCommit (s : State) : Outcome :=
  if bootedNormally s.boot && s.boot.stageOk then
    let ch := s.choose 2
    .next (ch.2.setBoot (fun q => { q with rollback := if ch.1 = 0 then max q.rollback (q.slot q.booted).pkg.minVersion else q.rollback }))
  else .next s

/-! ### The flash as storage (R2, R429, Table 21-1) -/

def flashSize : Nat := 0x4000000

/-- Words of a slot region, in the model's coding (log 12): state, version, minimum version, key, signature, then the image. -/
def ImageSlot.word (v : ImageSlot) (i : Nat) : Word :=
  let at' := fun (n k : Nat) => BitVec.ofNat 64 (n >>> (64 * k))
  if i = 0 then v.state
  else if v.state = notBegun ∧ v.pkg = {} then notBegun
  else if i = 1 then at' v.pkg.version 0
  else if i = 2 then at' v.pkg.minVersion 0
  else if i < 11 then at' v.pkg.key (i - 3)
  else if i < 11 + 3724 then at' v.pkg.signature (i - 11)
  else at' v.pkg.image (i - 11 - 3724)

/-- The 8-byte word at an offset of the flash. The coding of the telemetry log is not modelled: its words read erased here (log 12). -/
def Boot.flashWord (b : Boot) (off : Nat) : Word :=
  if off < 0x100000 then
    (match b.ring.find? (fun e => e.1 == off / 256) with
     | some e => e.2.word (off % 256 / 8)
     | none => notBegun)
  else if off < 0x1900000 then b.slotA.word ((off - 0x100000) / 8)
  else if off < 0x3100000 then b.slotB.word ((off - 0x1900000) / 8)
  else if off < 0x3200000 then BitVec.ofNat 64 (Config.identity >>> (8 * (off - 0x3100000)))
  else notBegun

end Sys2Proof.Machine
end

