-- ==== Sys2Proof/Machine/Dispatch.lean ====
section
/-! DEFINITION. Which meaning each instruction has: one arm per constructor of Instr. -/
namespace Sys2Proof.Machine

def exec (i : Instr) (s : State) : Host.Outcome State Fault Refusal :=
  match i with
  | .vadd o => Sys2Proof.Machine.execVadd o s
  | .vsub o => Sys2Proof.Machine.execVsub o s
  | .vrsub o => Sys2Proof.Machine.execVrsub o s
  | .vmul o => Sys2Proof.Machine.execVmul o s
  | .vmulh o => Sys2Proof.Machine.execVmulh o s
  | .vmulhu o => Sys2Proof.Machine.execVmulhu o s
  | .vmacc o => Sys2Proof.Machine.execVmacc o s
  | .vnmsac o => Sys2Proof.Machine.execVnmsac o s
  | .vdiv o => Sys2Proof.Machine.execVdiv o s
  | .vdivu o => Sys2Proof.Machine.execVdivu o s
  | .vrem o => Sys2Proof.Machine.execVrem o s
  | .vremu o => Sys2Proof.Machine.execVremu o s
  | .vmin o => Sys2Proof.Machine.execVmin o s
  | .vminu o => Sys2Proof.Machine.execVminu o s
  | .vmax o => Sys2Proof.Machine.execVmax o s
  | .vmaxu o => Sys2Proof.Machine.execVmaxu o s
  | .vand o => Sys2Proof.Machine.execVand o s
  | .vor o => Sys2Proof.Machine.execVor o s
  | .vxor o => Sys2Proof.Machine.execVxor o s
  | .vsll o => Sys2Proof.Machine.execVsll o s
  | .vsrl o => Sys2Proof.Machine.execVsrl o s
  | .vsra o => Sys2Proof.Machine.execVsra o s
  | .vsadd o => Sys2Proof.Machine.execVsadd o s
  | .vsaddu o => Sys2Proof.Machine.execVsaddu o s
  | .vssub o => Sys2Proof.Machine.execVssub o s
  | .vssubu o => Sys2Proof.Machine.execVssubu o s
  | .vsmul o => Sys2Proof.Machine.execVsmul o s
  | .vclz o => Sys2Proof.Machine.execVclz o s
  | .vcpop o => Sys2Proof.Machine.execVcpop o s
  | .vabsd o => Sys2Proof.Machine.execVabsd o s
  | .vmerge o => Sys2Proof.Machine.execVmerge o s
  | .vmv o => Sys2Proof.Machine.execVmv o s
  | .vmseq o => Sys2Proof.Machine.execVmseq o s
  | .vmsne o => Sys2Proof.Machine.execVmsne o s
  | .vmslt o => Sys2Proof.Machine.execVmslt o s
  | .vmsltu o => Sys2Proof.Machine.execVmsltu o s
  | .vmsle o => Sys2Proof.Machine.execVmsle o s
  | .vmsleu o => Sys2Proof.Machine.execVmsleu o s
  | .vmsgt o => Sys2Proof.Machine.execVmsgt o s
  | .vmsgtu o => Sys2Proof.Machine.execVmsgtu o s
  | .vmfeq o => Sys2Proof.Machine.execVmfeq o s
  | .vmfne o => Sys2Proof.Machine.execVmfne o s
  | .vmflt o => Sys2Proof.Machine.execVmflt o s
  | .vmfle o => Sys2Proof.Machine.execVmfle o s
  | .vmfgt o => Sys2Proof.Machine.execVmfgt o s
  | .vmfge o => Sys2Proof.Machine.execVmfge o s
  | .vmand o => Sys2Proof.Machine.execVmand o s
  | .vmor o => Sys2Proof.Machine.execVmor o s
  | .vmxor o => Sys2Proof.Machine.execVmxor o s
  | .vmandn o => Sys2Proof.Machine.execVmandn o s
  | .vmsbf o => Sys2Proof.Machine.execVmsbf o s
  | .vmsif o => Sys2Proof.Machine.execVmsif o s
  | .vmsof o => Sys2Proof.Machine.execVmsof o s
  | .viota o => Sys2Proof.Machine.execViota o s
  | .vid o => Sys2Proof.Machine.execVid o s
  | .vmcnt o => Sys2Proof.Machine.execVmcnt o s
  | .vmfirst o => Sys2Proof.Machine.execVmfirst o s
  | .vmtox o => Sys2Proof.Machine.execVmtox o s
  | .vmfromx o => Sys2Proof.Machine.execVmfromx o s
  | .vfadd o => Sys2Proof.Machine.execVfadd o s
  | .vfsub o => Sys2Proof.Machine.execVfsub o s
  | .vfmul o => Sys2Proof.Machine.execVfmul o s
  | .vfdiv o => Sys2Proof.Machine.execVfdiv o s
  | .vfsqrt o => Sys2Proof.Machine.execVfsqrt o s
  | .vfmin o => Sys2Proof.Machine.execVfmin o s
  | .vfmax o => Sys2Proof.Machine.execVfmax o s
  | .vfmadd o => Sys2Proof.Machine.execVfmadd o s
  | .vfnmadd o => Sys2Proof.Machine.execVfnmadd o s
  | .vfmsub o => Sys2Proof.Machine.execVfmsub o s
  | .vfnmsub o => Sys2Proof.Machine.execVfnmsub o s
  | .vfsgnj o => Sys2Proof.Machine.execVfsgnj o s
  | .vfsgnjn o => Sys2Proof.Machine.execVfsgnjn o s
  | .vfsgnjx o => Sys2Proof.Machine.execVfsgnjx o s
  | .vfrece o => Sys2Proof.Machine.execVfrece o s
  | .vfrsqe o => Sys2Proof.Machine.execVfrsqe o s
  | .vfcvtFX o => Sys2Proof.Machine.execVfcvtFX o s
  | .vfcvtFXu o => Sys2Proof.Machine.execVfcvtFXu o s
  | .vfcvtXF o => Sys2Proof.Machine.execVfcvtXF o s
  | .vfcvtXuF o => Sys2Proof.Machine.execVfcvtXuF o s
  | .vfwid o => Sys2Proof.Machine.execVfwid o s
  | .vfnar o => Sys2Proof.Machine.execVfnar o s
  | .vsext o => Sys2Proof.Machine.execVsext o s
  | .vzext o => Sys2Proof.Machine.execVzext o s
  | .vnclip o => Sys2Proof.Machine.execVnclip o s
  | .vfclass o => Sys2Proof.Machine.execVfclass o s
  | .vfcvtBfF o => Sys2Proof.Machine.execVfcvtBfF o s
  | .vfcvtFBf o => Sys2Proof.Machine.execVfcvtFBf o s
  | .vslideup o => Sys2Proof.Machine.execVslideup o s
  | .vslidedn o => Sys2Proof.Machine.execVslidedn o s
  | .vslide1up o => Sys2Proof.Machine.execVslide1up o s
  | .vslide1dn o => Sys2Proof.Machine.execVslide1dn o s
  | .vrgather o => Sys2Proof.Machine.execVrgather o s
  | .vcompress o => Sys2Proof.Machine.execVcompress o s
  | .vredsum o => Sys2Proof.Machine.execVredsum o s
  | .vredmin o => Sys2Proof.Machine.execVredmin o s
  | .vredmax o => Sys2Proof.Machine.execVredmax o s
  | .vredand o => Sys2Proof.Machine.execVredand o s
  | .vredor o => Sys2Proof.Machine.execVredor o s
  | .vfredo o => Sys2Proof.Machine.execVfredo o s
  | .vfredt o => Sys2Proof.Machine.execVfredt o s
  | .vfredmin o => Sys2Proof.Machine.execVfredmin o s
  | .vfredmax o => Sys2Proof.Machine.execVfredmax o s
  | .vscan o => Sys2Proof.Machine.execVscan o s
  | .vmvXS o => Sys2Proof.Machine.execVmvXS o s
  | .vmvSX o => Sys2Proof.Machine.execVmvSX o s
  | .vgperm o => Sys2Proof.Machine.execVgperm o s
  | .vgred o => Sys2Proof.Machine.execVgred o s
  | .vgbcast o => Sys2Proof.Machine.execVgbcast o s
  | .vqE4m3 o => Sys2Proof.Machine.execVqE4m3 o s
  | .vqE5m2 o => Sys2Proof.Machine.execVqE5m2 o s
  | .vqE2m1 o => Sys2Proof.Machine.execVqE2m1 o s
  | .vdq o => Sys2Proof.Machine.execVdq o s
  | .vsclmk o => Sys2Proof.Machine.execVsclmk o s
  | .vmxdot o => Sys2Proof.Machine.execVmxdot o s
  | .vmxmm o => Sys2Proof.Machine.execVmxmm o s
  | .vpkscl o => Sys2Proof.Machine.execVpkscl o s
  | .vaccX o => Sys2Proof.Machine.execVaccX o s
  | .vaccI vs2 rs1 => Sys2Proof.Machine.execVaccI vs2 rs1 s
  | .vaccZ rs1 => Sys2Proof.Machine.execVaccZ rs1 s
  | .lfAdd o => Sys2Proof.Machine.execLfAdd o s
  | .lfSub o => Sys2Proof.Machine.execLfSub o s
  | .lfMul o => Sys2Proof.Machine.execLfMul o s
  | .lfFma o => Sys2Proof.Machine.execLfFma o s
  | .lfDiv o => Sys2Proof.Machine.execLfDiv o s
  | .lfSqrt o => Sys2Proof.Machine.execLfSqrt o s
  | .lfRnd o => Sys2Proof.Machine.execLfRnd o s
  | .lfFromf o => Sys2Proof.Machine.execLfFromf o s
  | .lfTof o => Sys2Proof.Machine.execLfTof o s
  | .lfFromx o => Sys2Proof.Machine.execLfFromx o s
  | .lfTox o => Sys2Proof.Machine.execLfTox o s
  | .lfCmpLt o => Sys2Proof.Machine.execLfCmpLt o s
  | .lfCmpLe o => Sys2Proof.Machine.execLfCmpLe o s
  | .lfCmpEq o => Sys2Proof.Machine.execLfCmpEq o s
  | .lfCmpUn o => Sys2Proof.Machine.execLfCmpUn o s
  | .lfLen o => Sys2Proof.Machine.execLfLen o s
  | .lfSgnj o => Sys2Proof.Machine.execLfSgnj o s
  | .gbox o => Sys2Proof.Machine.execGbox o s
  | .gtri o => Sys2Proof.Machine.execGtri o s
  | .gsetup o => Sys2Proof.Machine.execGsetup o s
  | .gcov o => Sys2Proof.Machine.execGcov o s
  | .gtex o => Sys2Proof.Machine.execGtex o s
  | .gblend o => Sys2Proof.Machine.execGblend o s
  | .grsvUpd o => Sys2Proof.Machine.execGrsvUpd o s
  | .grsvMrg o => Sys2Proof.Machine.execGrsvMrg o s
  | .gpack o => Sys2Proof.Machine.execGpack o s
  | .vdsegL2 o => Sys2Proof.Machine.execVdsegL2 o s
  | .vdsegIp o => Sys2Proof.Machine.execVdsegIp o s
  | .vtopk o => Sys2Proof.Machine.execVtopk o s
  | .vtopkM o => Sys2Proof.Machine.execVtopkM o s
  | .vld o => Sys2Proof.Machine.execVld o s
  | .vlds o => Sys2Proof.Machine.execVlds o s
  | .vldx o => Sys2Proof.Machine.execVldx o s
  | .vldff o => Sys2Proof.Machine.execVldff o s
  | .vldxff o => Sys2Proof.Machine.execVldxff o s
  | .vldr o => Sys2Proof.Machine.execVldr o s
  | .vst o => Sys2Proof.Machine.execVst o s
  | .vsts o => Sys2Proof.Machine.execVsts o s
  | .vstx o => Sys2Proof.Machine.execVstx o s
  | .vstxo o => Sys2Proof.Machine.execVstxo o s
  | .vstr o => Sys2Proof.Machine.execVstr o s
  | .vstrip o => Sys2Proof.Machine.execVstrip o s
  | .vstripK o => Sys2Proof.Machine.execVstripK o s
  | .vcfg o => Sys2Proof.Machine.execVcfg o s
  | .vcfgi rd vt => Sys2Proof.Machine.execVcfgi rd vt s
  | .vbind o => Sys2Proof.Machine.execVbind o s
  | .vunbind vd => Sys2Proof.Machine.execVunbind vd s
  | .vbend rd vd => Sys2Proof.Machine.execVbend rd vd s
  | .vnest rs1 len1 => Sys2Proof.Machine.execVnest rs1 len1 s
  | .vctxs rs1 => Sys2Proof.Machine.execVctxs rs1 s
  | .vctxl rs1 => Sys2Proof.Machine.execVctxl rs1 s
  | .ecmd rd vs1 rs2 => Sys2Proof.Machine.execEcmd rd vs1 rs2 s
  | .ecommit b => Sys2Proof.Machine.execEcommit b s
  | .ewait b => Sys2Proof.Machine.execEwait b s
  | .ewaitn rs1 => Sys2Proof.Machine.execEwaitn rs1 s
  | .epoll o => Sys2Proof.Machine.execEpoll o s
  | .qspawn o => Sys2Proof.Machine.execQspawn o s
  | .qpush o => Sys2Proof.Machine.execQpush o s
  | .qpushNb o => Sys2Proof.Machine.execQpushNb o s
  | .qpushGate o => Sys2Proof.Machine.execQpushGate o s
  | .qpop o => Sys2Proof.Machine.execQpop o s
  | .qpopNb o => Sys2Proof.Machine.execQpopNb o s
  | .qyield => Sys2Proof.Machine.execQyield s
  | .qexit => Sys2Proof.Machine.execQexit s
  | .qresume o => Sys2Proof.Machine.execQresume o s
  | .qticket o => Sys2Proof.Machine.execQticket o s
  | .qturn rs1 rs2 => Sys2Proof.Machine.execQturn rs1 rs2 s
  | .qnext rs1 => Sys2Proof.Machine.execQnext rs1 s
  | .slotget o => Sys2Proof.Machine.execSlotget o s
  | .slotret rs1 rs2 => Sys2Proof.Machine.execSlotret rs1 rs2 s
  | .qlen o => Sys2Proof.Machine.execQlen o s
  | .mwait o => Sys2Proof.Machine.execMwait o s
  | .barv rs1 => Sys2Proof.Machine.execBarv rs1 s
  | .barw rs1 => Sys2Proof.Machine.execBarw rs1 s
  | .barvw rs1 => Sys2Proof.Machine.execBarvw rs1 s
  | .barq o => Sys2Proof.Machine.execBarq o s
  | .ofence scope pred succ => Sys2Proof.Machine.execOfence scope pred succ s
  | .xfence scope => Sys2Proof.Machine.execXfence scope s
  | .act o => Sys2Proof.Machine.execAct o s
  | .actS o => Sys2Proof.Machine.execActS o s
  | .vact o => Sys2Proof.Machine.execVact o s
  | .vactS o => Sys2Proof.Machine.execVactS o s
  | .actInst rd rs2 id => Sys2Proof.Machine.execActInst rd rs2 id s
  | .actInstS rd rs2 id => Sys2Proof.Machine.execActInstS rd rs2 id s
  | .hbsave rs1 => Sys2Proof.Machine.execHbsave rs1 s
  | .hbload rs1 => Sys2Proof.Machine.execHbload rs1 s
  | .mgnsafe rs1 => Sys2Proof.Machine.execMgnsafe rs1 s
  | .mgnrel => Sys2Proof.Machine.execMgnrel s
  | .gjoin o => Sys2Proof.Machine.execGjoin o s
  | .gleave => Sys2Proof.Machine.execGleave s
  | .vrel => Sys2Proof.Machine.execVrel s
  | .cquar rs1 => Sys2Proof.Machine.execCquar rs1 s
  | .load o => Sys2Proof.Machine.execLoad o s
  | .store o => Sys2Proof.Machine.execStore o s
  | .lr o => Sys2Proof.Machine.execLr o s
  | .sc o => Sys2Proof.Machine.execSc o s
  | .amo f o => Sys2Proof.Machine.execAmo f o s
  | .fence o => Sys2Proof.Machine.execFence o s
  | .fenceTso o => Sys2Proof.Machine.execFenceTso o s
  | .fenceI rd rs1 imm => Sys2Proof.Machine.execFenceI rd rs1 imm s
  | .sfenceVma rs1 rs2 => Sys2Proof.Machine.execSfenceVma rs1 rs2 s
  | .wfi => Sys2Proof.Machine.execWfi s
  | .sret => Sys2Proof.Machine.execSret s
  | .mret => Sys2Proof.Machine.execMret s
  | .ecall => Sys2Proof.Machine.execEcall s
  | .ebreak => Sys2Proof.Machine.execEbreak s
  | .baseInstruction b => Sys2Proof.Machine.execBaseInstruction b s
  | .vtypeWrite o => Sys2Proof.Machine.execVtypeWrite o s
  | .vreclaimWrite o => Sys2Proof.Machine.execVreclaimWrite o s
  | .satpWrite o => Sys2Proof.Machine.execSatpWrite o s
  | .mgnctlWrite o => Sys2Proof.Machine.execMgnctlWrite o s
  | .stashMapWord0Write core entry v => Sys2Proof.Machine.execStashMapWord0Write core entry v s
  | .stashMapWord1Write core entry v => Sys2Proof.Machine.execStashMapWord1Write core entry v s
  | .snapshot core v => Sys2Proof.Machine.execSnapshot core v s
  | .snapshotEnd core => Sys2Proof.Machine.execSnapshotEnd core s
  | .requeue core ctx v => Sys2Proof.Machine.execRequeue core ctx v s
  | .saveareaRead core ctx rd => Sys2Proof.Machine.execSaveareaRead core ctx rd s
  | .lvcfgWrite die v => Sys2Proof.Machine.execLvcfgWrite die v s
  | .registerWrite t => Sys2Proof.Machine.execRegisterWrite t s
  | .queue r => Sys2Proof.Machine.execQueue r s
  | .turnstile r => Sys2Proof.Machine.execTurnstile r s
  | .pool r => Sys2Proof.Machine.execPool r s
  | .barrier r => Sys2Proof.Machine.execBarrier r s
  | .pinned r => Sys2Proof.Machine.execPinned r s
  | .sched r => Sys2Proof.Machine.execSched r s
  | .aspace r => Sys2Proof.Machine.execAspace r s
  | .asrel r => Sys2Proof.Machine.execAsrel r s
  | .fenceRequest r => Sys2Proof.Machine.execFenceRequest r s
  | .capkey r => Sys2Proof.Machine.execCapkey r s
  | .ring r => Sys2Proof.Machine.execRing r s
  | .nvmeqp r => Sys2Proof.Machine.execNvmeqp r s
  | .waitword r => Sys2Proof.Machine.execWaitword r s
  | .subscribe r => Sys2Proof.Machine.execSubscribe r s
  | .launch r => Sys2Proof.Machine.execLaunch r s
  | .install r => Sys2Proof.Machine.execInstall r s
  | .hostPush queue size words => Sys2Proof.Machine.execHostPush queue size words s
  | .hostRead off wd => Sys2Proof.Machine.execHostRead off wd s
  | .hostWrite off wd v => Sys2Proof.Machine.execHostWrite off wd v s
  | .atsInvalidation page => Sys2Proof.Machine.execAtsInvalidation page s
  | .kmma core node => Sys2Proof.Machine.execKmma core node s
  | .kcopy core node => Sys2Proof.Machine.execKcopy core node s
  | .kgath core node => Sys2Proof.Machine.execKgath core node s
  | .kscat core node => Sys2Proof.Machine.execKscat core node s
  | .kfill core node => Sys2Proof.Machine.execKfill core node s
  | .kred core node => Sys2Proof.Machine.execKred core node s
  | .kcoll core node => Sys2Proof.Machine.execKcoll core node s
  | .kdisk core node => Sys2Proof.Machine.execKdisk core node s
  | .knest core node => Sys2Proof.Machine.execKnest core node s
  | .ksig core node => Sys2Proof.Machine.execKsig core node s
  | .commandLaunch core node => Sys2Proof.Machine.execCommandLaunch core node s
  | .leaveAdmit die => Sys2Proof.Machine.execLeaveAdmit die s
  | .leaveWaitExpire die core node => Sys2Proof.Machine.execLeaveWaitExpire die core node s
  | .kmmaRowFinish core node => Sys2Proof.Machine.execKmmaRowFinish core node s
  | .commandComplete core node => Sys2Proof.Machine.execCommandComplete core node s
  | .commandFault core node status => Sys2Proof.Machine.execCommandFault core node status s
  | .enginePageFaultResolved core node ok => Sys2Proof.Machine.execEnginePageFaultResolved core node ok s
  | .ownershipWindowTake core node => Sys2Proof.Machine.execOwnershipWindowTake core node s
  | .remoteCommandArrive core node target cap => Sys2Proof.Machine.execRemoteCommandArrive core node target cap s
  | .remoteCompletion core node status progress => Sys2Proof.Machine.execRemoteCompletion core node status progress s
  | .nvmeCompletion qp cid status => Sys2Proof.Machine.execNvmeCompletion qp cid status s
  | .actPerform line => Sys2Proof.Machine.execActPerform line s
  | .vactComplete core ctx => Sys2Proof.Machine.execVactComplete core ctx s
  | .vectorLoadComplete core ctx vd => Sys2Proof.Machine.execVectorLoadComplete core ctx vd s
  | .boundRefillLand core ctx vd => Sys2Proof.Machine.execBoundRefillLand core ctx vd s
  | .channelChunkDeposit core ctx vd => Sys2Proof.Machine.execChannelChunkDeposit core ctx vd s
  | .vaccPerform core => Sys2Proof.Machine.execVaccPerform core s
  | .expand die => Sys2Proof.Machine.execExpand die s
  | .expandResume die => Sys2Proof.Machine.execExpandResume die s
  | .dispatch core ctx => Sys2Proof.Machine.execDispatch core ctx s
  | .stealAttempt core attempt => Sys2Proof.Machine.execStealAttempt core attempt s
  | .stealAnswer victim thief => Sys2Proof.Machine.execStealAnswer victim thief s
  | .stealBackoffEnd core => Sys2Proof.Machine.execStealBackoffEnd core s
  | .dequeRefill core => Sys2Proof.Machine.execDequeRefill core s
  | .agingStep core => Sys2Proof.Machine.execAgingStep core s
  | .reclaimStart core => Sys2Proof.Machine.execReclaimStart core s
  | .reclaimTimeout core ctx => Sys2Proof.Machine.execReclaimTimeout core ctx s
  | .reclaimInterrupt core ctx => Sys2Proof.Machine.execReclaimInterrupt core ctx s
  | .supervisorTimerInterrupt core ctx => Sys2Proof.Machine.execSupervisorTimerInterrupt core ctx s
  | .barrierHeldPhaseComplete dev die idx => Sys2Proof.Machine.execBarrierHeldPhaseComplete dev die idx s
  | .barrierCompletionNotice dev die idx => Sys2Proof.Machine.execBarrierCompletionNotice dev die idx s
  | .barrierTimeout dev die idx => Sys2Proof.Machine.execBarrierTimeout dev die idx s
  | .gjoinTimeout core ctx => Sys2Proof.Machine.execGjoinTimeout core ctx s
  | .powerWindowEnd die => Sys2Proof.Machine.execPowerWindowEnd die s
  | .timingEvent core at' => Sys2Proof.Machine.execTimingEvent core at' s
  | .marginWindowEnd core => Sys2Proof.Machine.execMarginWindowEnd core s
  | .mgnsafeExpire core => Sys2Proof.Machine.execMgnsafeExpire core s
  | .regulatorStep core => Sys2Proof.Machine.execRegulatorStep core s
  | .droopDetect core => Sys2Proof.Machine.execDroopDetect core s
  | .clockHopEnd die => Sys2Proof.Machine.execClockHopEnd die s
  | .coldReset => Sys2Proof.Machine.execColdReset s
  | .warmReset => Sys2Proof.Machine.execWarmReset s
  | .bootWatchdogExpire => Sys2Proof.Machine.execBootWatchdogExpire s
  | .oxeilQuarantine core => Sys2Proof.Machine.execOxeilQuarantine core s
  | .unitWindowEnd u => Sys2Proof.Machine.execUnitWindowEnd u s
  | .oxeilSetThreshold u raise quar => Sys2Proof.Machine.execOxeilSetThreshold u raise quar s
  | .oxeilSetTimer t => Sys2Proof.Machine.execOxeilSetTimer t s
  | .requalification u => Sys2Proof.Machine.execRequalification u s
  | .telemetryRead src => Sys2Proof.Machine.execTelemetryRead src s
  | .telemetrySample die => Sys2Proof.Machine.execTelemetrySample die s
  | .subscriptionSample slot => Sys2Proof.Machine.execSubscriptionSample slot s
  | .laxelFlit link seq crcOk => Sys2Proof.Machine.execLaxelFlit link seq crcOk s
  | .laxelReplayRequest link seq => Sys2Proof.Machine.execLaxelReplayRequest link seq s
  | .linkDown link => Sys2Proof.Machine.execLinkDown link s
  | .e2eRequestArrive src seq age addr f val => Sys2Proof.Machine.execE2eRequestArrive src seq age addr f val s
  | .e2eResponse seq busy val => Sys2Proof.Machine.execE2eResponse seq busy val s
  | .retransmitTimeout seq => Sys2Proof.Machine.execRetransmitTimeout seq s
  | .dedupExpire src seq => Sys2Proof.Machine.execDedupExpire src seq s
  | .powerCapMessage seq cap lease => Sys2Proof.Machine.execPowerCapMessage seq cap lease s
  | .capLeaseExpire => Sys2Proof.Machine.execCapLeaseExpire s
  | .spdmRequest nonce => Sys2Proof.Machine.execSpdmRequest nonce s
  | .firmwareUpdate version image => Sys2Proof.Machine.execFirmwareUpdate version image s
  | .activate => Sys2Proof.Machine.execActivate s
  | .commit => Sys2Proof.Machine.execCommit s
  | .cfgreqDoorbell door v => Sys2Proof.Machine.execCfgreqDoorbell door v s
  | .engineLineWrite core node => Sys2Proof.Machine.execEngineLineWrite core node s
  | .clockSourceHop die => Sys2Proof.Machine.execClockSourceHop die s
  | .linkTrained link ok => Sys2Proof.Machine.execLinkTrained link ok s
  | .machineExternalInterrupt die ctx => Sys2Proof.Machine.execMachineExternalInterrupt die ctx s
  | .powerLoss => Sys2Proof.Machine.execPowerLoss s
  | .bucketDrain core => Sys2Proof.Machine.execBucketDrain core s
  | .unitReplacement u => Sys2Proof.Machine.execUnitReplacement u s

end Sys2Proof.Machine
end

