-- ==== Sys2Proof/Machine/Events.lean ====
section
/-! DEFINITION. Which meaning a waiting event has: the same as its row of Instr. -/
namespace Sys2Proof.Machine

/-- The meaning of an event taken from the inbox, the timers or the agenda. -/
def runEvent (e : Event) (s : State) : Outcome :=
  match e with
  | .stashMapWord0Write core entry v => execStashMapWord0Write core entry v s
  | .stashMapWord1Write core entry v => execStashMapWord1Write core entry v s
  | .snapshot core v => execSnapshot core v s
  | .snapshotEnd core => execSnapshotEnd core s
  | .requeue core ctx v => execRequeue core ctx v s
  | .saveareaRead core ctx rd => execSaveareaRead core ctx rd s
  | .lvcfgWrite die v => execLvcfgWrite die v s
  | .registerWrite t => execRegisterWrite t s
  | .queue r => execQueue r s
  | .turnstile r => execTurnstile r s
  | .pool r => execPool r s
  | .barrier r => execBarrier r s
  | .pinned r => execPinned r s
  | .sched r => execSched r s
  | .aspace r => execAspace r s
  | .asrel r => execAsrel r s
  | .fenceRequest r => execFenceRequest r s
  | .capkey r => execCapkey r s
  | .ring r => execRing r s
  | .nvmeqp r => execNvmeqp r s
  | .waitword r => execWaitword r s
  | .subscribe r => execSubscribe r s
  | .launch r => execLaunch r s
  | .install r => execInstall r s
  | .hostPush queue size words => execHostPush queue size words s
  | .hostRead off wd => execHostRead off wd s
  | .hostWrite off wd v => execHostWrite off wd v s
  | .atsInvalidation page => execAtsInvalidation page s
  | .kmma core node => execKmma core node s
  | .kcopy core node => execKcopy core node s
  | .kgath core node => execKgath core node s
  | .kscat core node => execKscat core node s
  | .kfill core node => execKfill core node s
  | .kred core node => execKred core node s
  | .kcoll core node => execKcoll core node s
  | .kdisk core node => execKdisk core node s
  | .knest core node => execKnest core node s
  | .ksig core node => execKsig core node s
  | .commandLaunch core node => execCommandLaunch core node s
  | .leaveAdmit die => execLeaveAdmit die s
  | .leaveWaitExpire die core node => execLeaveWaitExpire die core node s
  | .kmmaRowFinish core node => execKmmaRowFinish core node s
  | .commandComplete core node => execCommandComplete core node s
  | .commandFault core node status => execCommandFault core node status s
  | .enginePageFaultResolved core node ok => execEnginePageFaultResolved core node ok s
  | .ownershipWindowTake core node => execOwnershipWindowTake core node s
  | .remoteCommandArrive core node target cap => execRemoteCommandArrive core node target cap s
  | .remoteCompletion core node status progress => execRemoteCompletion core node status progress s
  | .nvmeCompletion qp cid status => execNvmeCompletion qp cid status s
  | .actPerform line => execActPerform line s
  | .vactComplete core ctx => execVactComplete core ctx s
  | .vectorLoadComplete core ctx vd => execVectorLoadComplete core ctx vd s
  | .boundRefillLand core ctx vd => execBoundRefillLand core ctx vd s
  | .channelChunkDeposit core ctx vd => execChannelChunkDeposit core ctx vd s
  | .vaccPerform core => execVaccPerform core s
  | .expand die => execExpand die s
  | .expandResume die => execExpandResume die s
  | .dispatch core ctx => execDispatch core ctx s
  | .stealAttempt core attempt => execStealAttempt core attempt s
  | .stealAnswer victim thief => execStealAnswer victim thief s
  | .stealBackoffEnd core => execStealBackoffEnd core s
  | .dequeRefill core => execDequeRefill core s
  | .agingStep core => execAgingStep core s
  | .reclaimStart core => execReclaimStart core s
  | .reclaimTimeout core ctx => execReclaimTimeout core ctx s
  | .reclaimInterrupt core ctx => execReclaimInterrupt core ctx s
  | .supervisorTimerInterrupt core ctx => execSupervisorTimerInterrupt core ctx s
  | .barrierHeldPhaseComplete dev die idx => execBarrierHeldPhaseComplete dev die idx s
  | .barrierCompletionNotice dev die idx => execBarrierCompletionNotice dev die idx s
  | .barrierTimeout dev die idx => execBarrierTimeout dev die idx s
  | .gjoinTimeout core ctx => execGjoinTimeout core ctx s
  | .powerWindowEnd die => execPowerWindowEnd die s
  | .timingEvent core at' => execTimingEvent core at' s
  | .marginWindowEnd core => execMarginWindowEnd core s
  | .mgnsafeExpire core => execMgnsafeExpire core s
  | .regulatorStep core => execRegulatorStep core s
  | .droopDetect core => execDroopDetect core s
  | .clockHopEnd die => execClockHopEnd die s
  | .coldReset => execColdReset s
  | .warmReset => execWarmReset s
  | .bootWatchdogExpire => execBootWatchdogExpire s
  | .oxeilQuarantine core => execOxeilQuarantine core s
  | .unitWindowEnd u => execUnitWindowEnd u s
  | .oxeilSetThreshold u raise quar => execOxeilSetThreshold u raise quar s
  | .oxeilSetTimer t => execOxeilSetTimer t s
  | .requalification u => execRequalification u s
  | .telemetryRead src => execTelemetryRead src s
  | .telemetrySample die => execTelemetrySample die s
  | .subscriptionSample slot => execSubscriptionSample slot s
  | .laxelFlit link seq crcOk => execLaxelFlit link seq crcOk s
  | .laxelReplayRequest link seq => execLaxelReplayRequest link seq s
  | .linkDown link => execLinkDown link s
  | .e2eRequestArrive src seq age addr f val => execE2eRequestArrive src seq age addr f val s
  | .e2eResponse seq busy val => execE2eResponse seq busy val s
  | .retransmitTimeout seq => execRetransmitTimeout seq s
  | .dedupExpire src seq => execDedupExpire src seq s
  | .powerCapMessage seq cap lease => execPowerCapMessage seq cap lease s
  | .capLeaseExpire => execCapLeaseExpire s
  | .spdmRequest nonce => execSpdmRequest nonce s
  | .firmwareUpdate version image => execFirmwareUpdate version image s
  | .activate => execActivate s
  | .commit => execCommit s
  | .cfgreqDoorbell door v => execCfgreqDoorbell door v s
  | .engineLineWrite core node => execEngineLineWrite core node s
  | .clockSourceHop die => execClockSourceHop die s
  | .linkTrained link ok => execLinkTrained link ok s
  | .machineExternalInterrupt die ctx => execMachineExternalInterrupt die ctx s
  | .powerLoss => execPowerLoss s
  | .bucketDrain core => execBucketDrain core s
  | .unitReplacement u => execUnitReplacement u s

end Sys2Proof.Machine
end

