-- ==== Sys2Proof/Machine/Step.lean ====
section
/-! DEFINITION. The step: a due event or input, an event of free latency, or the next core cycle (log 4). -/
namespace Sys2Proof.Machine

/-- The running hart fetches, decodes and executes one instruction; a word that is no instruction raises illegal
instruction (R75). -/
def runHart (s : State) : Outcome :=
  match fetchWord s with
  | .wait => .next (dropClaim s s.cur.1 s.cur.2)
  | .trap e => .next (takeException { s with fetched := 3 } e)
  | .done (w, u) =>
    let s1 := { u with fetched := w }
    if s1.bodyRefuses w then .next (takeException s1 { cause := 2, tval := trapBits w })
    else match decode w with
    | .ok i => exec i s1
    | .error _ => .next (takeException s1 { cause := 2, tval := trapBits w })

/-- The running hart issues in core cycle n, with the timing event that the cycle meets, if any (R435, R436). -/
def issue (s : State) (n : Nat) : Outcome :=
  match s.myCore.margin.late with
  | none => runHart s
  | some w =>
    match runHart s.calm with
    | .next s' => .next (settleLate w n s s')
    | stop => stop

/-- The running hart's cycle: wasted, an exception that waited to be redirected, an interrupt, or an instruction (R38). -/
def runCycle (s : State) (n : Nat) : Outcome :=
  if s.wasted then .next s.passCycle
  else match s.hart.raised with
  | some q => .next (retryRaised s.calm q)
  | none =>
    if s.hart.wfi then issue s n
    else match s.interrupt s.cur.1 s.cur.2 with
    | some (i, toM) => .next (s.calm.serveInterrupt i toM)
    | none => issue s n

/-- Core cycle n of core c, at a tick: first its counting windows that have ended (R438), then an element group to replay in it (R436),
then its own context. -/
def coreCycleStep (s : State) (at' c n : Nat) : Outcome :=
  if windowEnded (s.core c) n then .next { s with now := at', inbox := [.marginWindowEnd c] }
  else match (s.core c).replayDue n with
  | some x =>
    let s1 := s.beginReplay at' c x
    if s1.wasted then .next s1 else issue s1 n
  | none => runCycle (s.beginCycle at' c n) n

/-- The next core cycle, unless an event falls due first. -/
def coreStep (s : State) : Outcome :=
  match s.nextCore with
  | none =>
    match s.nextDue with
    | some t => .next (s.wakeTimers t)
    | none => .next s
  | some (at', c, n) =>
    match s.nextDue with
    | some t => if t ≤ at' then .next (s.wakeTimers t) else coreCycleStep s at' c n
    | none => coreCycleStep s at' c n

/-- One step of the machine. -/
def step (s : State) : Outcome :=
  match s.inbox with
  | e :: rest => runEvent e { s with inbox := rest }
  | [] =>
    match s.agenda with
    | [] => coreStep s
    | e :: rest =>
      let ch := s.choose (s.agenda.length + 1)
      if ch.1 < s.agenda.length then
        runEvent (s.agenda.getD ch.1 e) { ch.2 with agenda := (e :: rest).eraseIdx ch.1 }
      else coreStep ch.2

/-- s with an instruction word stored where the next core cycle fetches: at the pc of the context it runs, with no earlier write left
that the fetch could read past. -/
def State.withFetchWord (s : State) (_nbits w : Nat) : State :=
  match s.nextCore with
  | none => s
  | some (at', c, n) =>
    let s1 := s.beginCycle at' c n
    let t := s.thr c (n % 8)
    match translate s1 t.fetchXlat .fetch t.pc.toNat with
    | .done p => { s with mem := pokeBytes s.mem p.pa 4 w, past := s.past.map (Past.forget p.pa 4) }
    | _ => s

end Sys2Proof.Machine
end

