-- ==== Sys2Proof/Safety.lean ====
section
/-! DEFINITION. What counts as a safe run, in the terms the statements use: memory in its one form, steps that answer a next
state, what an instruction may change, and when a vector instruction is ready to run. -/
namespace Sys2Proof.Machine

/-! ### Steps -/

/-- Physical memory is in its canonical form (log 2). -/
def State.memOk (s : State) : Prop := Memory.wf s.mem = true

/-- An outcome is a next state that satisfies a property. -/
def Answers (o : Outcome) (P : State → Prop) : Prop := ∃ t, o = .next t ∧ P t

/-! ### What an instruction may change -/

/-- Every byte of physical memory reads as before. -/
def SameBytes (s t : State) : Prop := ∀ a, t.byte a = s.byte a

/-- Nothing changes but the running hart's context, which becomes h. -/
def OnlyHart (s t : State) (h : Ctx) : Prop :=
  t.hart = h ∧ SameBytes s t ∧ (∀ c x, c ≠ s.cur.1 ∨ x % 8 ≠ s.cur.2 % 8 → t.thr c x = s.thr c x) ∧
  (∀ c, t.core c = { s.core c with ctxs := (t.core c).ctxs }) ∧ t = { s with cores := t.cores }

/-- The running hart replays no loop body (R122). -/
def State.plain (s : State) : Prop := (s.hart.loop.active && !s.hart.loop.suspended) = false

/-- A context after an instruction completes outside the loop buffer: the next address, one instruction more in instret unless
that is inhibited, and nothing waited for, replayed or charged any more. -/
def Ctx.completed (t : Ctx) : Ctx :=
  { t with
    pc := t.pc + 4
    std := { t.std with instret := t.std.instret + if t.std.mcountinhibit.getLsbD 2 then 0 else 1 }
    rc := 0, barWait := none, mgnWait := false, joining := none, charged := false, replayAt := none, midway := false
    ended := t.ended + 1 }

/-- The instruction completes with the running hart's context as h gives it and nothing else changed. -/
def CompletesWith (o : Outcome) (s : State) (h : Ctx) : Prop := Answers o (fun t => OnlyHart s t h.completed)

/-! ### Vector registers -/

/-- The running hart's registers hold its visible length: whole 512-bit slices, no more of them than its hardware length (R26), its
gang's members distinct. It holds of every hart but a gang's leader between its gleave and its next vstrip (R242). -/
def State.sliced (s : State) : Prop :=
  (s.slicesOf s.cur.1 s.cur.2).Nodup ∧ s.hart.cls ≤ 4 ∧ 0 < s.hart.vlen ∧ s.hart.vlen % 512 = 0 ∧
  s.hart.vlen ≤ s.hwLen s.cur.1 s.cur.2

/-- Element k of the group of the running hart at register r (R28). -/
def State.elem (s : State) (r : Reg) (k : Nat) : Nat := s.shape.get (s.getGroup r.toNat s.shape.g) k

/-- The second source of element k (R127): an element of vs1, the low bits of an x register, or the sign-extended immediate. -/
def State.operand (s : State) (src : Src) (k : Nat) : Nat :=
  match src with
  | .vv r => s.elem r k
  | .vx r => (s.xr r).toNat % 2 ^ s.shape.ew
  | .vf r => (s.xr r).toNat % 2 ^ s.shape.ew
  | .vi i => (i.signExtend s.shape.ew).toNat

/-- A vector instruction may run: it is legal, no register it reads or writes is empty (R37), none is bound, and the dispatch gate
passes its charge, or did at its first issue (R304, R436). -/
def VecReady (s : State) (i : VInfo) : Prop :=
  i.legal s = true ∧ s.hart.anyEmpty (i.reads ++ i.dst) = false ∧ s.hart.binds = [] ∧ s.gateOpen i.charge = true

/-- The dispatch gate of the running hart's core after its instruction took a charge: once, however often it is replayed (R303). -/
def State.gateAfter (s : State) (charge : Nat) : Gate :=
  if s.hart.charged then s.myCore.gate else s.myCore.gate.charged s.cur.2 charge

/-- Nothing changes but v registers of the running hart's slices among rs, its context otherwise becoming h (whose v registers are
not looked at), and the dispatch gate's level and claim by a charge. -/
def OnlyVector (s t : State) (rs : List Nat) (charge : Nat) (h : Ctx) : Prop :=
  t.hart = { h with v := t.hart.v } ∧ SameBytes s t ∧
  (∀ r, r % 32 ∉ rs → ∀ c x, (t.thr c x).ownV r = (s.thr c x).ownV r) ∧
  (∀ c x, c ≠ s.cur.1 ∨ x % 8 ≠ s.cur.2 % 8 → t.thr c x = { s.thr c x with v := (t.thr c x).v }) ∧
  (∀ c x, c ∉ s.slicesOf s.cur.1 s.cur.2 ∨ x % 8 ≠ s.cur.2 % 8 → (t.thr c x).v = (s.thr c x).v) ∧
  (∀ c, c ≠ s.cur.1 → t.core c = { s.core c with ctxs := (t.core c).ctxs }) ∧
  t.myCore = { s.myCore with ctxs := t.myCore.ctxs, gate := s.gateAfter charge } ∧
  t = { s with cores := t.cores }

/-- The registers of a group. -/
def groupRegs (r n : Nat) : List Nat := (List.range n).map (fun j => (r + j) % 32)

/-- What a hart's context becomes when a vector instruction completes that raises flags: vstart is 0 (R30), the flags stick (R50). -/
def Ctx.vecDone (t : Ctx) (flags : BitVec 10) : Ctx :=
  ({ t with dev := { t.dev with vstart := 0, vfcsr := t.dev.vfcsr ||| flags } } : Ctx).completed

/-- What R32 leaves in position k of a destination: its old value below vstart; below vgrant the result where the element is active,
else what the mask policy says; from vgrant on what the tail policy says; nothing is written once vstart has reached vgrant. -/
def FrameRule (d : DevCsr) (masked : Bool) (mask old z res k : Nat) : Nat :=
  if 0 < d.vstart.toNat ∧ d.vgrant.toNat ≤ d.vstart.toNat then old
  else if k < d.vstart.toNat then old
  else if k < d.vgrant.toNat then
    (if masked = true ∧ mask.testBit k = false then (if d.ma = true then z else old) else res)
  else if d.ta = true then z else old

/-- Once ready, the instruction leaves the low bits of res in the group of shape sh at vd as R32 says, raises the flags, and changes no
other v register, no x register, no memory and nothing of a hart outside the gang. -/
def Writes (i : Instr) (s : State) (info : VInfo) (sh : Shape) (m : Bool) (vd : Reg) (flags : Nat) (res : Nat → Nat) : Prop :=
  s.plain → s.sliced → VecReady s info → Answers (exec i s) (fun t =>
    OnlyVector s t (groupRegs vd.toNat sh.g) info.charge (s.hart.vecDone (BitVec.ofNat 10 flags)) ∧
    ∀ k, k < sh.n → sh.get (t.getGroup vd.toNat sh.g) k =
      FrameRule s.hart.dev m (s.getV 0) (sh.get (s.getGroup vd.toNat sh.g) k) sh.zero (res k % 2 ^ sh.ew) k)

/-- Once ready, the instruction leaves res in the mask register vd as R137 says, raises the flags, and changes nothing else. -/
def WritesMask (i : Instr) (s : State) (info : VInfo) (m : Bool) (vd : Reg) (flags : Nat) (res : Nat → Bool) : Prop :=
  s.plain → s.sliced → VecReady s info → Answers (exec i s) (fun t =>
    OnlyVector s t (groupRegs vd.toNat 1) info.charge (s.hart.vecDone (BitVec.ofNat 10 flags)) ∧
    ∀ k, k < s.hart.vlen → (t.getV vd.toNat).testBit k =
      (FrameRule s.hart.dev m (s.getV 0) ((s.getV vd.toNat).testBit k).toNat 0 (res k).toNat k == 1))

/-- Once ready, the instruction leaves exactly the low bits of w in the n registers at vd, raises the flags and changes nothing
else. -/
def WritesGroup (i : Instr) (s : State) (info : VInfo) (vd : Reg) (n : Nat) (flags : Nat) (w : Nat) : Prop :=
  s.plain → s.sliced → VecReady s info → Answers (exec i s) (fun t =>
    OnlyVector s t (groupRegs vd.toNat n) info.charge (s.hart.vecDone (BitVec.ofNat 10 flags)) ∧
    t.getGroup vd.toNat n = w % 2 ^ (s.hart.vlen * n))

/-- Once ready, the instruction leaves elem in the positions below VLMAX of the group of shape sh at vd, whatever the mask, raises the
flags and changes nothing else. -/
def WritesAll (i : Instr) (s : State) (info : VInfo) (sh : Shape) (vd : Reg) (flags : Nat) (elem : Nat → Nat) : Prop :=
  s.plain → s.sliced → VecReady s info → Answers (exec i s) (fun t =>
    OnlyVector s t (groupRegs vd.toNat sh.g) info.charge (s.hart.vecDone (BitVec.ofNat 10 flags)) ∧
    ∀ k, k < sh.n → sh.get (t.getGroup vd.toNat sh.g) k = elem k % 2 ^ sh.ew)

/-- Once ready, the instruction writes w to x[rd] (x0 stays zero) and changes nothing else but vstart and the gate's charge. -/
def WritesX (i : Instr) (s : State) (info : VInfo) (rd : Reg) (w : Word) : Prop :=
  s.plain → VecReady s info → Answers (exec i s) (fun t => OnlyVector s t [] info.charge ((s.hart.setX rd w).vecDone 0))

/-! ### Segments of a gang (R131) -/

/-- The first position of the segment that position k lies in; a hart outside a gang has one segment. -/
def segBase (s : State) (k : Nat) : Nat := k / max 1 s.seg * max 1 s.seg

/-- Position of k in its segment. -/
def posOf (s : State) (k : Nat) : Nat := k % max 1 s.seg

/-- The element of r at position p of the segment that position k lies in. -/
def segAt (s : State) (r : Reg) (k p : Nat) : Nat := s.elem r (segBase s k + p)

/-- The grant of the segment that position k lies in. -/
def grantOf (s : State) (k : Nat) : Nat := segGrant s.hart.dev.vgrant.toNat (max 1 s.seg) (k / max 1 s.seg)

/-- The active positions of the segment that position k lies in, in order, as positions in the segment. -/
def segActives (s : State) (m : Bool) (k : Nat) : List Nat :=
  (List.range (grantOf s k)).filter (fun p => (s.frame m).on (segBase s k + p))

/-! ### Fixed-width fields and bundles -/

/-- The shape of g registers of w-bit fields. -/
def fieldShape (s : State) (g w : Nat) : Shape := { vlen := s.hart.vlen, g := g, ew := w, lf := false, k := 0 }

/-- Field k of the group of g registers at r, in w-bit fields. -/
def State.field (s : State) (r g w k : Nat) : Nat := s.getGroup r g / 2 ^ (k * w) % 2 ^ w

/-- Once ready, the instruction writes the n registers of an output bundle at vd through the common frame (R245): register j of element k
takes the low bits of res k j. It raises the flags, and changes nothing else but the count of free values drawn. -/
def WritesBundle (i : Instr) (s : State) (info : VInfo) (m : Bool) (vd : Reg) (n flags : Nat) (res : Nat → Nat → Nat) : Prop :=
  s.plain → s.sliced → VecReady s info → Answers (exec i s) (fun t =>
    OnlyVector s { t with fresh := s.fresh } (groupRegs vd.toNat n) info.charge (s.hart.vecDone (BitVec.ofNat 10 flags)) ∧
    ∀ j, j < n → ∀ k, k < s.shape.n → s.shape.get (t.getV (vd.toNat + j)) k =
      FrameRule s.hart.dev m (s.getV 0) (s.shape.get (s.getV (vd.toNat + j)) k) s.shape.zero (res k j % 2 ^ s.shape.ew) k)

/-- What reads and writes of memory do to the rest of the state besides cores, bytes and the record of writes: the copies that TLBs, dies
and L1 caches hold, cached translations of host pages; and what the wait words do that a write or a write-back meets (R320 to R323, R332,
R337, R414, R426). -/
def aside (s t : State) : State :=
  { s with copies := t.copies, retired := t.retired, events := t.events,
           host := { s.host with waits := t.host.waits, posts := t.host.posts, ats := t.host.ats } }

/-! ### Loads in flight (R37) -/

/-- A context whose n registers at vd are empty until val lands in them. -/
def Ctx.loading (t : Ctx) (vd n val : Nat) : Ctx :=
  ({ t with landing := t.landing ++ [{ vd := vd, count := n, vlen := t.vlen, val := val }] } : Ctx).setFullGroup vd false n

/-- Nothing changes but the running hart's context, whose n registers at vd become empty until the completion event lands val in them,
stash tags, the dispatch gate by a charge, and what a read does besides. -/
def OnlyLoad (s t : State) (vd n val charge : Nat) : Prop :=
  t.hart = (s.hart.loading vd n val).vecDone 0 ∧ SameBytes s t ∧
  (∀ c x, c ≠ s.cur.1 ∨ x % 8 ≠ s.cur.2 % 8 → t.thr c x = s.thr c x) ∧
  (∀ c, c ≠ s.cur.1 → t.core c = { s.core c with sectors := (t.core c).sectors }) ∧
  t.myCore = { s.myCore with ctxs := t.myCore.ctxs, sectors := t.myCore.sectors, gate := s.gateAfter charge } ∧
  t = { aside s t with cores := t.cores, agenda := s.agenda ++ [.vectorLoadComplete s.cur.1 s.cur.2 (BitVec.ofNat 5 vd)] }

/-! ### The accumulator (R171 to R174) -/

/-- Nothing changes but accumulators of the running hart's slices, its context, which becomes h, and the dispatch gate by a charge. -/
def OnlyAccumulator (s t : State) (charge : Nat) (h : Ctx) : Prop :=
  t.hart = h ∧ SameBytes s t ∧ (∀ c x, c ≠ s.cur.1 ∨ x % 8 ≠ s.cur.2 % 8 → t.thr c x = s.thr c x) ∧
  (∀ c, c ∉ s.slicesOf s.cur.1 s.cur.2 → (t.core c).acc = (s.core c).acc) ∧
  (∀ c, c ≠ s.cur.1 → t.core c = { s.core c with acc := (t.core c).acc, ctxs := (t.core c).ctxs }) ∧
  t.myCore = { s.myCore with ctxs := t.myCore.ctxs, acc := t.myCore.acc, gate := s.gateAfter charge } ∧
  t = { s with cores := t.cores }

/-- The 32 bits of a cell of a core's accumulator, numbered 192 × row + column. -/
def State.cell (s : State) (core c : Nat) : BitVec 32 := SMap.get 0 (s.core core).acc c

/-! ### Accesses to plain memory -/

/-- A read of n bytes at p by a core gives what memory holds: it is not served by a replica that was filled before a write to them
(R320, R321). -/
def State.current (s : State) (core : Nat) (p : PAddr) (n : Nat) : Prop :=
  s.replicates core p = true → ∀ w ∈ s.past, w.meets p.pa n = true →
    w.seq < s.past.length ∧ s.replicaMisses (dieOf core) w = false

/-- The n bytes at virtual address va stand in device memory at p for a read by the running hart: mapped, no uncorrectable sector, no line
that the read must wait for, no older value (R315, R321, R338, R362). -/
def PlainRead (s : State) (x : Xlat) (va n : Nat) (p : PAddr) : Prop :=
  translate s x .load va = .done p ∧ regionOf s p.pa = .dram ∧ s.blocked s.cur.1 s.cur.2 .R p.pa n = false ∧ s.badIn p.pa n = none ∧
  s.current s.cur.1 p n

/-- The n bytes at va, translated in u, stand in device memory at p for a write by the running hart of s. -/
def PlainWriteFrom (u s : State) (x : Xlat) (va n : Nat) (p : PAddr) : Prop :=
  translate u x .store va = .done p ∧ regionOf s p.pa = .dram ∧ s.blocked s.cur.1 s.cur.2 .W p.pa n = false ∧ s.badPartly p.pa n = none

def PlainWrite (s : State) (x : Xlat) (va n : Nat) (p : PAddr) : Prop := PlainWriteFrom s s x va n p

/-- Nothing changes but the running hart's context, which becomes h, stash tags, and what a read does besides: a read of memory moves no
architectural data. -/
def OnlyRead (s t : State) (h : Ctx) : Prop :=
  t.hart = h ∧ SameBytes s t ∧ (∀ c x, c ≠ s.cur.1 ∨ x % 8 ≠ s.cur.2 % 8 → t.thr c x = s.thr c x) ∧
  (∀ c, t.core c = { s.core c with ctxs := (t.core c).ctxs, sectors := (t.core c).sectors }) ∧ t = { aside s t with cores := t.cores }

/-- Memory after n little-endian bytes of v at a: every other byte as f has it (R15). -/
def putBytes (f : Nat → BitVec 8) (a n v : Nat) : Nat → BitVec 8 :=
  fun b => if a ≤ b ∧ b < a + n then BitVec.ofNat 8 (v / 256 ^ (b - a)) else f b

/-- The state with n bytes of v stored at a and nothing else changed. -/
def State.poked (s : State) (a n v : Nat) : State := { s with mem := pokeBytes s.mem a n v }

/-- A piece of a store: a virtual address, a size, whether device-class memory is refused, and the new value from the old. -/
structure Piece where
  va : Nat
  n : Nat
  plain : Bool
  new : Nat → Nat

/-- The pieces, translated in u, one after another stand in plain memory at the places listed: physical address, size, value. One that
takes in the old value may be read there too. -/
def PiecesAt (u : State) (x : Xlat) : List Piece → State → List (Nat × Nat × Nat) → Prop
  | [], _, ps => ps = []
  | q :: rest, s, ps => ∃ p tail, PlainWriteFrom u s x q.va q.n p ∧
      (q.plain = true → p.cls ≠ .io ∧ s.blocked s.cur.1 s.cur.2 .R p.pa q.n = false) ∧
      ps = (p.pa, q.n, q.new (s.peek p.pa q.n)) :: tail ∧ PiecesAt u x rest (s.poked p.pa q.n (q.new (s.peek p.pa q.n))) tail

/-- Memory holds what it held, but for the bytes of the places listed, written in order. -/
def Stored (s t : State) (ps : List (Nat × Nat × Nat)) : Prop :=
  ∀ b, t.byte b = ps.foldl (fun f p => putBytes f p.1 p.2.1 p.2.2) s.byte b

/-- Nothing changes but memory (as the statement says beside), the running hart's context, which becomes h, and what a write does
besides: reservations of other harts, stash tags, corrected sectors, the record of writes, and what lies aside. -/
def OnlyWrite (s t : State) (h : Ctx) : Prop :=
  t.hart = h ∧
  (∀ c x, c ≠ s.cur.1 ∨ x % 8 ≠ s.cur.2 % 8 → t.thr c x = { s.thr c x with resv := (t.thr c x).resv }) ∧
  (∀ c, t.core c = { s.core c with ctxs := (t.core c).ctxs, sectors := (t.core c).sectors }) ∧
  t = { aside s t with cores := t.cores, mem := t.mem, bad := t.bad, past := t.past }

/-- Nothing changes but v registers of the running hart's slices, its context, which becomes h but for its v registers. -/
def OnlyRegisters (s t : State) (h : Ctx) : Prop :=
  t.hart = { h with v := t.hart.v } ∧ SameBytes s t ∧
  (∀ c x, c ≠ s.cur.1 ∨ x % 8 ≠ s.cur.2 % 8 → t.thr c x = { s.thr c x with v := (t.thr c x).v }) ∧
  (∀ c x, c ∉ s.slicesOf s.cur.1 s.cur.2 ∨ x % 8 ≠ s.cur.2 % 8 → (t.thr c x).v = (s.thr c x).v) ∧
  (∀ c, t.core c = { s.core c with ctxs := (t.core c).ctxs }) ∧ t = { s with cores := t.cores }

/-- Nothing changes but stash tags and what a read does besides. -/
def OnlyTags (s t : State) : Prop :=
  (∀ c, t.core c = { s.core c with sectors := (t.core c).sectors }) ∧ t = { aside s t with cores := t.cores }

/-- A context after an instruction that goes to another address completes. -/
def Ctx.jumped (t : Ctx) (pc : Word) : Ctx := { t.completed with pc := pc }

end Sys2Proof.Machine
end

