-- ==== Sys2Proof/Certificates/Slice0/Obligations.lean ====
section
/-! DEFINITION. The statements for the provers, with the tables of the spec they are stated over. -/

namespace Sys2Proof.Claims
open Sys2Proof.Machine

/-! ### Tables of the vector instructions, in the spec's own terms -/

/-- The value v clamped to the range of w-bit two's-complement numbers. -/
def clampS (w : Nat) (v : Int) : BitVec w := BitVec.ofInt w (max (-(2 ^ (w - 1))) (min (2 ^ (w - 1) - 1) v))

/-- The value v clamped to the range of w-bit unsigned numbers. -/
def clampU (w : Nat) (v : Int) : BitVec w := BitVec.ofInt w (max 0 (min (2 ^ w - 1) v))

/-- A row of Tables 05-2 and 05-3: the instruction, its weight (R303), whether it reads vd as a third source, and its result on w-bit
elements a of vs2, b of the second source and c of vd. -/
structure IntRow where
  instr : OpB → Instr
  weight : Nat
  acc : Bool
  result : (w : Nat) → BitVec w → BitVec w → BitVec w → BitVec w

/-- The two-source rows of Tables 05-2 and 05-3 (R133, R134, R135). -/
def intRows : List IntRow :=
  [ ⟨.vadd, 1, false, fun _ a b _ => a + b⟩,
    ⟨.vsub, 1, false, fun _ a b _ => a - b⟩,
    ⟨.vrsub, 1, false, fun _ a b _ => b - a⟩,
    ⟨.vmul, 3, false, fun _ a b _ => a * b⟩,
    ⟨.vmulh, 3, false, fun w a b _ => BitVec.ofInt w ((a.toInt * b.toInt) >>> w)⟩,
    ⟨.vmulhu, 3, false, fun w a b _ => BitVec.ofNat w ((a.toNat * b.toNat) >>> w)⟩,
    ⟨.vmacc, 3, true, fun _ a b c => c + a * b⟩,
    ⟨.vnmsac, 3, true, fun _ a b c => c - a * b⟩,
    ⟨.vdiv, 4, false, fun w a b _ => if b = 0 then BitVec.allOnes w else a.sdiv b⟩,
    ⟨.vdivu, 4, false, fun w a b _ => if b = 0 then BitVec.allOnes w else a / b⟩,
    ⟨.vrem, 4, false, fun _ a b _ => if b = 0 then a else a.srem b⟩,
    ⟨.vremu, 4, false, fun _ a b _ => if b = 0 then a else a % b⟩,
    ⟨.vmin, 1, false, fun _ a b _ => if a.slt b then a else b⟩,
    ⟨.vminu, 1, false, fun _ a b _ => if a.ult b then a else b⟩,
    ⟨.vmax, 1, false, fun _ a b _ => if a.slt b then b else a⟩,
    ⟨.vmaxu, 1, false, fun _ a b _ => if a.ult b then b else a⟩,
    ⟨.vand, 1, false, fun _ a b _ => a &&& b⟩,
    ⟨.vor, 1, false, fun _ a b _ => a ||| b⟩,
    ⟨.vxor, 1, false, fun _ a b _ => a ^^^ b⟩,
    ⟨.vsll, 1, false, fun w a b _ => a <<< (b.toNat % w)⟩,
    ⟨.vsrl, 1, false, fun w a b _ => a >>> (b.toNat % w)⟩,
    ⟨.vsra, 1, false, fun w a b _ => a.sshiftRight (b.toNat % w)⟩,
    ⟨.vsadd, 1, false, fun w a b _ => clampS w (a.toInt + b.toInt)⟩,
    ⟨.vsaddu, 1, false, fun w a b _ => clampU w (a.toNat + b.toNat)⟩,
    ⟨.vssub, 1, false, fun w a b _ => clampS w (a.toInt - b.toInt)⟩,
    ⟨.vssubu, 1, false, fun w a b _ => clampU w (a.toNat - b.toNat)⟩,
    ⟨.vabsd, 1, false, fun w a b _ => BitVec.ofNat w (a.toInt - b.toInt).natAbs⟩ ]

/-- The one-source rows of Table 05-3. -/
def intRowsU : List ((OpU → Instr) × ((w : Nat) → BitVec w → BitVec w)) :=
  [ (.vclz, fun _ a => a.clz),
    (.vcpop, fun _ a => a.cpop) ]

/-- What the row's entry asks of a state before it runs, and its charge. -/
def intInfo (s : State) (o : OpB) (weight : Nat) (acc : Bool) : VInfo :=
  let i := infoB s (intTag s.hart.dev) weight o
  if acc then withThird i else i

/-- The integer compares (R138) on w-bit elements. -/
def intCmpRows : List ((OpB → Instr) × ((w : Nat) → BitVec w → BitVec w → Bool)) :=
  [ (.vmseq, fun _ a b => a == b), (.vmsne, fun _ a b => a != b), (.vmslt, fun _ a b => a.slt b),
    (.vmsltu, fun _ a b => a.ult b), (.vmsle, fun _ a b => a.sle b), (.vmsleu, fun _ a b => a.ule b),
    (.vmsgt, fun _ a b => b.slt a), (.vmsgtu, fun _ a b => b.ult a) ]

/-- The floating-point compares (Table 05-4): the relation of two values, the answer for a NaN operand, and whether a quiet NaN raises
NV too. -/
def fpCmpRows : List ((OpB → Instr) × (Ev → Ev → Bool) × Bool × Bool) :=
  [ (.vmfeq, fun x y => x.eq y, false, false), (.vmfne, fun x y => !x.eq y, true, false), (.vmflt, fun x y => x.lt y, false, true),
    (.vmfle, fun x y => x.lt y || x.eq y, false, true), (.vmfgt, fun x y => y.lt x, false, true),
    (.vmfge, fun x y => y.lt x || x.eq y, false, true) ]

/-- The answer of a compare of two values. -/
def cmpValue (rel : Ev → Ev → Bool) (nanGives : Bool) (x y : Ev) : Bool := if x.isNan || y.isNan then nanGives else rel x y

/-- NV where a NaN operand raises it. -/
def cmpFlags (quiet : Bool) (x y : Ev) : Nat := if x.sigNan || y.sigNan || (quiet && (x.isNan || y.isNan)) then flNV else 0

/-- Mask logic (R140). -/
def logicRows : List ((OpB → Instr) × (Bool → Bool → Bool)) :=
  [ (.vmand, fun a b => a && b), (.vmor, fun a b => a || b), (.vmxor, fun a b => a ^^ b), (.vmandn, fun a b => a && !b) ]

/-- Whether position q is active and its bit of register r is set. -/
def setActive (s : State) (m : Bool) (r : Reg) (q : Nat) : Bool := (s.frame m).on q && (s.getV r.toNat).testBit q

/-- No position before p of the segment of k is active and set. -/
def noneBefore (s : State) (m : Bool) (r : Reg) (k p : Nat) : Bool :=
  (List.range p).all (fun j => !setActive s m r (segBase s k + j))

/-- A rounding row of R144: its weight, whether it reads vd, and its exact value with the flags of the operation itself. -/
structure FpRow where
  instr : OpB → Instr
  weight : Nat
  third : Bool
  exact : Nat → Ev → Ev → Ev → Ev × Nat

/-- A value with NV where the operation is invalid. -/
def orNV (p : Ev × Bool) : Ev × Nat := (p.1, if p.2 then flNV else 0)

/-- The rounding rows of Table 05-5 over a of vs2, b of the second source, c of vd. -/
def fpRows : List FpRow :=
  [ ⟨.vfadd, 2, false, fun rm a b _ => orNV (a.add rm b)⟩, ⟨.vfsub, 2, false, fun rm a b _ => orNV (a.add rm b.neg)⟩,
    ⟨.vfmul, 3, false, fun _ a b _ => orNV (a.mul b)⟩, ⟨.vfdiv, 4, false, fun _ a b _ => a.div b⟩,
    ⟨.vfmadd, 3, true, fun rm a b c => orNV (Ev.fma rm a b c)⟩, ⟨.vfnmadd, 3, true, fun rm a b c => orNV (Ev.fma rm a.neg b c.neg)⟩,
    ⟨.vfmsub, 3, true, fun rm a b c => orNV (Ev.fma rm a b c.neg)⟩, ⟨.vfnmsub, 3, true, fun rm a b c => orNV (Ev.fma rm a.neg b c)⟩ ]

/-- The sign-injection rows of R146 on w-bit patterns: the sign bit of the result. -/
def signRows : List ((OpB → Instr) × (Bool → Bool → Bool)) :=
  [ (.vfsgnj, fun _ b => b), (.vfsgnjn, fun _ b => !b), (.vfsgnjx, fun a b => a ^^ b) ]

/-- A w-bit pattern with its sign bit replaced. -/
def putSign (w : Nat) (a : BitVec w) (sign : Bool) : BitVec w :=
  (a &&& BitVec.ofNat w (2 ^ (w - 1) - 1)) ||| (if sign then BitVec.ofNat w (2 ^ (w - 1)) else 0)

/-- The value of element k of r at vtype's format. -/
def fpElem (s : State) (r : Reg) (k : Nat) : Ev := s.hart.dev.fp.decode (s.elem r k)

/-- The value of the second source at vtype's format. -/
def fpOperand (s : State) (src : Src) (k : Nat) : Ev := s.hart.dev.fp.decode (s.operand src k)

/-- A value rounded by vfcsr.rm: the code and the flags (R48, R49). -/
def rounded (s : State) (f : FFmt) (x : Ev × Nat) (sat : Bool) : Nat × Nat :=
  ((roundTo f x.1 s.hart.dev.rm sat).1, x.2 ||| (roundTo f x.1 s.hart.dev.rm sat).2)

/-- What a reduction or scan combines (R155, R157): integers at their width, or floating-point values with flags. -/
def intCombine (w sel : Nat) : Nat → Nat → Nat × Nat := fun a b =>
  let x := BitVec.ofNat w a
  let y := BitVec.ofNat w b
  ((match sel with
    | 0 => x + y
    | 1 => if x.sle y then x else y
    | 2 => if x.sle y then y else x
    | 3 => x &&& y
    | _ => x ||| y).toNat, 0)

/-- The integer reductions with the selector of their operation. -/
def redRows : List ((OpB → Instr) × Nat) := [ (.vredsum, 0), (.vredmin, 1), (.vredmax, 2), (.vredand, 3), (.vredor, 4) ]

/-- The elements of the segment of position k below its grant, absent where inactive, in order. -/
def segElements (s : State) (m : Bool) (r : Reg) (k : Nat) : List (Option Nat) :=
  (List.range (grantOf s k)).map (fun p => if (s.frame m).on (segBase s k + p) then some (segAt s r k p) else none)

/-- The segments tile the vector (R131). -/
def Tiled (s : State) : Prop := s.members * s.seg = s.shape.n

/-- What a reduction leaves at position k: the fold at the first position of each segment, tail elsewhere (R155). -/
def reduced (s : State) (vd : Reg) (fold : Nat → Nat) (k : Nat) : Nat :=
  if posOf s k = 0 then fold k else if s.hart.dev.ta then s.shape.zero else s.elem vd k

/-- The first positions of the segments. -/
def segFirsts (s : State) : List Nat := (List.range s.members).map (fun m => m * max 1 s.seg)

/-! ### Tables of custom-2 -/

/-- The pair of the block that element k lies in, from the scale group at r (R163). -/
def pairAt (s : State) (r k : Nat) : Nat := pairOf (s.hart.dev.blk == 0) (s.getGroup r s.scaleGroup) (k / s.hart.dev.bl)

/-- The values of vtype's format in block b below the grant. -/
def blockValues (s : State) (r : Reg) (b : Nat) : List Ev :=
  (List.range (min s.hart.dev.bl (s.hart.dev.vgrant.toNat - b * s.hart.dev.bl))).map (fun j => fpElem s r (b * s.hart.dev.bl + j))

/-- A long-float value. -/
def lfElem (s : State) (r : Reg) (k : Nat) : Ev := lfDecode (s.elem r k) s.shape.k

/-- The second source of a long-float compare. -/
def lfOperand (s : State) (src : Src) (k : Nat) : Ev := lfDecode (s.operand src k) s.shape.k

/-- A row of Table 06-5 that rounds: the exact value and the flags of the operation. -/
structure LfRow where
  instr : OpB → Instr
  weight : Nat
  third : Bool
  exact : Nat → Ev → Ev → Ev → Ev × Nat

def lfRows : List LfRow :=
  [ ⟨.lfAdd, 3, false, fun rm a b _ => orNV (a.add rm b)⟩, ⟨.lfSub, 3, false, fun rm a b _ => orNV (a.add rm b.neg)⟩,
    ⟨.lfMul, 3, false, fun _ a b _ => orNV (a.mul b)⟩, ⟨.lfFma, 3, true, fun rm a b c => orNV (Ev.fma rm a b c)⟩,
    ⟨.lfDiv, 4, false, fun _ a b _ => a.div b⟩ ]

/-- A value as it is; a signalling NaN raises NV (R180). -/
def quieted (a : Ev) : Ev × Nat := (a, if a.sigNan then flNV else 0)

/-- The one-source rows of Table 06-5 with their weights. -/
def lfRowsU : List ((OpU → Instr) × Nat × (Ev → Ev × Nat)) :=
  [ (.lfSqrt, 4, fun a => orNV a.sqrt), (.lfRnd, 3, quieted), (.lfLen, 3, fun a => (Ev.ofInt (lfBits a), (quieted a).2)) ]

/-- The long-float compares (R180): the relation, the answer for a NaN, and whether any NaN raises NV. -/
def lfCmpRows : List ((OpB → Instr) × (Ev → Ev → Bool) × Bool × Bool) :=
  [ (.lfCmpLt, fun x y => x.lt y, false, true), (.lfCmpLe, fun x y => x.lt y || x.eq y, false, true),
    (.lfCmpEq, fun x y => x.eq y, false, false), (.lfCmpUn, fun _ _ => false, true, false) ]

/-- What a long-float instruction asks for, of two sources or of three. -/
def lfInfo (s : State) (o : OpB) (weight : Nat) (third : Bool) : VInfo :=
  if third then withThird (lfInfoB s weight o) else lfInfoB s weight o

/-- The result of rounding an exact value by vprec: the code, the flags, and whether it was inexact (R62 to R64). -/
def lfRounded (s : State) (x : Ev × Nat) : Nat × Nat × Bool := lfRound x.1 s.hart.dev.prec s.hart.dev.vprecRm.toNat

/-- A long-float instruction whose exact results are x: without the precision trap, or with no active element inexact, it writes the
rounded results, k(P) limbs each; the window's other limbs follow vtype.ta (R65). -/
def LfWrites (i : Instr) (s : State) (info : VInfo) (m : Bool) (vd : Reg) (x : Nat → Ev × Nat) : Prop :=
  (s.hart.dev.vprecX = false ∨ ∀ k, (s.frame m).on k = true → (lfRounded s (x k)).2.2 = false) →
  Writes i s info s.shape m vd (flagsOver (s.frame m) (fun k => (x k).2 ||| (lfRounded s (x k)).2.1))
    (fun k => lfStored s.hart.dev (s.elem vd k) (lfRounded s (x k)).1)

/-- With vprec.X = 1 the first active element j whose rounding is inexact stops the instruction: cause 25, vstart = j, the elements
below j written, the others kept, the flags of the elements below j and PX raised (R64). -/
def LfStops (i : Instr) (s : State) (info : VInfo) (m : Bool) (vd : Reg) (x : Nat → Ev × Nat) : Prop :=
  ∀ j, s.hart.dev.vprecX = true → (s.frame m).on j = true → (lfRounded s (x j)).2.2 = true →
  (∀ k, k < j → (s.frame m).on k = true → (lfRounded s (x k)).2.2 = false) → s.sliced → VecReady s info →
  ∃ u, exec i s = .next (takeException u { cause := 25, tval := j, words := precWords s j (x j).1 }) ∧
    OnlyVector s u (groupRegs vd.toNat s.shape.g) info.charge { s.hart with dev := { s.hart.dev with
      vstart := BitVec.ofNat 16 j
      vfcsr := s.hart.dev.vfcsr ||| BitVec.ofNat 10
        (flagsOver { s.frame m with vgrant := j } (fun k => (x k).2 ||| (lfRounded s (x k)).2.1) ||| flPX) } } ∧
    ∀ k, k < s.shape.n → u.elem vd k =
      if k < j then FrameRule s.hart.dev m (s.getV 0) (s.elem vd k) s.shape.zero
          (lfStored s.hart.dev (s.elem vd k) (lfRounded s (x k)).1 % 2 ^ s.shape.ew) k
      else s.elem vd k

/-- Member and accumulator cell of element k under the address word w (R171, Table 06-3). -/
def cellOf (s : State) (w k : Nat) : Nat × Option Nat :=
  ((s.slicesOf s.cur.1 s.cur.2).getD (k / max 1 s.seg) s.cur.1, accCell w (posOf s k))

/-- The 32 bits that element k of the running hart reads, 0 outside the accumulator. -/
def cellValue (s : State) (w k : Nat) : Nat × Nat :=
  match cellOf s w k with
  | (m, some c) => accOut s.hart.dev (s.cell m c).toNat
  | (_, none) => (0, 0)

/-- What element k of r leaves in a cell that held old: the widened value, or its sum with the old bits; with the flags (R173). -/
def cellResult (s : State) (r : Reg) (add : Bool) (old k : Nat) : Nat × Nat :=
  let v := accIn s.hart.dev (s.elem r k)
  if add then ((accSum s.hart.dev old v.1).1, v.2 ||| (accSum s.hart.dev old v.1).2) else v

/-- The accumulator's cells by core and number and the flags, after the active elements of r in order; an element outside the accumulator
raises only its widening's flags. -/
def cellRun (s : State) (r : Reg) (w : Nat) (add : Bool) : (Nat → Nat → BitVec 32) × Nat :=
  ((List.range s.hart.dev.vgrant.toNat).filter (s.frame false).on).foldl (fun st k =>
    match cellOf s w k with
    | (m, some c) =>
      let v := cellResult s r add (st.1 m c).toNat k
      (fun m' c' => if m' = m ∧ c' = c then BitVec.ofNat 32 v.1 else st.1 m' c', st.2 ||| v.2)
    | (_, none) => (st.1, st.2 ||| (accIn s.hart.dev (s.elem r k)).2)) (s.cell, 0)

/-- A state with the accumulator ports of the running hart's slices as s has them. -/
def portsOf (s t : State) : State :=
  (s.slicesOf s.cur.1 s.cur.2).foldl (fun u m => u.modCore m (fun k => { k with portBusy := (s.core m).portBusy })) t

/-- Once ready, the instruction leaves in the register pair at vd the highest entries of a list and the candidates that are no NaN, as many
as the pair holds, in order of rank; where a score of either list is a NaN and no order is stated, any entries. -/
def KeepsTop (i : Instr) (s : State) (info : VInfo) (vd : Reg) (old cands : List (Nat × Nat)) (stated : Bool) : Prop :=
  s.plain → s.sliced → VecReady s info → Answers (exec i s) (fun t =>
    OnlyVector s { t with fresh := s.fresh } (groupRegs vd.toNat 2) info.charge (s.hart.vecDone 0) ∧
    (stated = true → ∀ e, e < s.hart.vlen / 32 → (t.field vd.toNat 1 32 e, t.field (vd.toNat + 1) 1 32 e) =
      (sortBy ranksAbove (old ++ cands.filter (fun c => !scoreNan c))).getD e (0, 0)))

/-- An fp32 value of register r + j of a bundle. -/
def rayField (s : State) (r : Reg) (k j : Nat) : Ev := FFmt.fp32.decode (s.bundle s.shape r.toNat k j)

/-- The codes of a ray test's result. -/
def hitCode (s : State) (h : Hit) (k j rm missing : Nat) : Nat :=
  match h with
  | .hit vs => freeZero (vs.getD j (.zero false)) rm (s.freeAt k j)
  | .miss => missing
  | .unstated => s.freeAt k j

/-- A texture descriptor read from plain memory at a. -/
def texAt (s : State) (a : Nat) (ws : List Word) : Prop :=
  ws.length = 8 ∧ ∀ j, j < 8 → ∃ p, PlainRead s s.hart.dataXlat (wrapAddr (a + 8 * j)) 8 p ∧ p.cls ≠ .io ∧
    s.peek p.pa 8 = (wordAt ws j).toNat

/-- The texel of a tap stands in plain memory, not of device class (R254). -/
def tapOk (s : State) (t : Tex) (tap : Nat × Nat × Nat × Nat) : Prop :=
  ∃ p, PlainRead s s.hart.dataXlat (t.place tap.2.1 tap.2.2.1 tap.2.2.2) t.unit.1 p ∧ p.cls ≠ .io

/-- The channels of a tap's texel. -/
def tapValue (s : State) (t : Tex) (tap : Nat × Nat × Nat × Nat) : List Ev :=
  match translate s s.hart.dataXlat .load (t.place tap.2.1 tap.2.2.1 tap.2.2.2) with
  | .done p => t.decode (s.peek p.pa t.unit.1) (tap.2.2.1 % 4 + 4 * (tap.2.2.2 % 4))
  | _ => []

/-- The weighted values of channel j over taps; a texel of weight 0 contributes nothing. -/
def tapTerms (s : State) (t : Tex) (j : Nat) (taps : List (Nat × Nat × Nat × Nat)) : List Ev :=
  (taps.filter (fun tap => tap.1 != 0)).map (fun tap => ((tapValue s t tap).getD j (.zero false)).prod (Ev.ofInt tap.1))

/-- Channel j of a sampled colour (R253, R254): the exact weighted mean, rounded. A mean of zeros of one sign has that sign; the sign of
another zero is not stated (log 11). -/
def texChannel (s : State) (t : Tex) (u v lam : Ev) (k j : Nat) : Nat :=
  if u.isNan || v.isNan || lam.isNan || u.isInf || v.isInf then FFmt.fp32.nanCode
  else
    let terms := tapTerms s t j (t.taps u v lam).1
    let q := ((terms.foldl Ev.sum (.zero false)).div (Ev.ofInt (t.taps u v lam).2)).1
    if terms.all Ev.isZero && (terms.all Ev.isNeg || terms.all (fun e => !e.isNeg)) then
      (roundTo .fp32 (terms.headD (.zero false)) 0 false).1
    else if q.isZero then freeZero q 0 (s.freeAt k j) else (roundTo .fp32 q 0 false).1

/-! ### Accesses of custom-1 -/

/-- The words of a list stand in plain memory from a, 8 bytes apart, each in one page. -/
def wordsRead (s : State) (x : Xlat) (a : Nat) (ws : List Word) : Prop :=
  ∀ j, j < ws.length → wrapAddr (a + 8 * j) % 4096 ≤ 4088 ∧
    ∃ p, PlainRead s x (wrapAddr (a + 8 * j)) 8 p ∧ s.peek p.pa 8 = (wordAt ws j).toNat

/-- The words of a list are what the running hart's reads past the stash give, one after another: each stands in plain memory in the state
that the reads before it leave. -/
def wordsRun (x : Xlat) : State → Nat → List Word → Prop
  | _, _, [] => True
  | s, a, w :: ws => (∃ p, PlainRead s x (wrapAddr a) 8 p ∧ s.peek p.pa 8 = w.toNat) ∧
      ∀ v u, plainLoad s x (wrapAddr a) 8 = .done (v, u) → wordsRun x u (a + 8) ws

/-- The places, sizes and values of the stores of a list of words, one after another past the stash: each in plain memory in the state that
the stores before it leave. -/
def putsRun (x : Xlat) : State → Nat → List Word → List (Nat × Nat × Nat) → Prop
  | _, _, [], ps => ps = []
  | s, a, w :: ws, ps => ∃ p tail, PlainWrite s x (wrapAddr a) 8 p ∧ ps = (p.pa, 8, w.toNat) :: tail ∧
      ∀ u, plainStore s x (wrapAddr a) 8 w.toNat = .done u → putsRun x u (a + 8) ws tail

/-- Element i of an access reads as v from plain memory at va (R107, R108): a nibble of a byte, a head and its limbs up to the window, or
its bytes. -/
def elemReads (s : State) (m : MemShape) (va i v : Nat) : Prop :=
  m.misaligned va = false ∧
  if m.nib then ∃ p, PlainRead s s.hart.dataXlat va 1 p ∧ p.cls ≠ .io ∧ v = s.peek p.pa 1 / 2 ^ (4 * (i % 2)) % 16
  else if m.sh.lf then ∃ ws, wordsRead s s.hart.dataXlat va ws ∧
    ws.length = 1 + min ((wordAt ws 0).toNat / 2 ^ 60 % 8) m.sh.k ∧ v = ofWords ws
  else ∃ p, PlainRead s s.hart.dataXlat va m.size p ∧ v = s.peek p.pa m.size

/-- The access of element i at va raises e: a misaligned address, or what its translation raises. -/
def elemFaults (s : State) (m : MemShape) (acc : Acc) (va : Nat) (e : Exc) : Prop :=
  (m.misaligned va = true ∧ e = { cause := if acc = .store then 6 else 4, tval := va }) ∨
  (m.misaligned va = false ∧ translate s s.hart.dataXlat acc va = .trap e)

/-- The pieces of the store of element i with value v at va (R108). -/
def elemPieces (m : MemShape) (va i v : Nat) : List Piece :=
  if m.nib then [⟨va, 1, true, fun old => setBits old (4 * (i % 2)) 4 v⟩]
  else if m.sh.lf then
    let ws := lfWords m.sh.k v
    (List.range ws.length).map (fun j => ⟨wrapAddr (va + 8 * j), 8, false, fun _ => (wordAt ws j).toNat⟩)
  else [⟨va, m.size, false, fun _ => v⟩]

/-- The loads of Table 04-1 with the way they form addresses. -/
def loadRows : List ((OpM → Instr) × MemMode) :=
  [ (.vld, .unit), (.vlds, .strided), (.vldx, .indexed), (.vldff, .unit), (.vldxff, .indexed) ]

/-- The stores of Table 04-1. -/
def storeRows : List ((OpM → Instr) × MemMode) := [ (.vst, .unit), (.vsts, .strided), (.vstx, .indexed), (.vstxo, .indexed) ]

/-- Addr(k) (R106), modulo 2^64: base plus k elements, plus k times a stride, or plus a signed index. -/
def elemAddr (s : State) (m : MemShape) (mode : MemMode) (o : OpM) (k : Nat) : Nat :=
  let base := s.xr o.rs1
  (match mode with
   | .unit => base + BitVec.ofNat 64 (if m.nib then k / 2 else k * (m.sh.ew / 8))
   | .strided => base + BitVec.ofNat 64 k * s.xr o.idx
   | .indexed => base + (BitVec.ofNat m.iw (s.getGroup o.idx.toNat m.gi / 2 ^ (k * m.iw))).signExtend 64).toNat

/-- The active elements of an access. -/
def accessed (s : State) (o : OpM) : List Nat := activeElems (s.frame o.m) (memShape s.hart o.width.toNat).sh

/-- The elements below i are as after the load, those from i on as before. -/
def loadedBelow (s u : State) (o : OpM) (value : Nat → Nat) (i : Nat) : Prop :=
  let m := memShape s.hart o.width.toNat
  ∀ k, k < m.sh.n → m.sh.get (u.getGroup o.v.toNat m.sh.g) k =
    let old := m.sh.get (s.getGroup o.v.toNat m.sh.g) k
    if k < i then FrameRule s.hart.dev o.m (s.getV 0) old m.sh.zero (value k) k else old

/-- The words of vldr and vstr still to move. -/
def wordsLeft (s : State) : List Nat := (List.range (s.hart.vlen / 64)).filter (fun w => decide (s.hart.dev.vstart.toNat ≤ w))

/-- The vtype, and with it the grant, after a write of v (R43). -/
def vtypeWritten (t : Ctx) (v : Nat) : Ctx :=
  if tagListed (v % 16) (v / 2048 % 8) = true ∧ (v % 16 = 5 ∨ v / 256 % 8 = 0) then
    let d := { t.dev with vtype := BitVec.ofNat 64 (v % 2 ^ 14) }
    { t with dev := { d with vgrant := BitVec.ofNat 16 (min t.dev.vgrant.toNat (t.vlen / 512 * (d.grp * 512 / d.ew))) } }
  else { t with dev := { t.dev with vtype := villValue, vgrant := 0 } }

/-- The length vstrip grants (R34): the least of the hardware length, vcap, the power input and, without keep, the reclaim input. -/
def lengthGranted (s : State) (keep : Bool) : Nat :=
  let hw := s.hwLen s.cur.1 s.cur.2
  let base := min hw (min (512 * 2 ^ min s.hart.dev.vcap.toNat 4) s.myCore.lpwr)
  if keep || !s.hart.dev.reclPend then base
  else min base (512 * reclClusters s.hart.dev.reclClass * s.members)

/-- The elements vstrip grants: the request up to VLMAX, even where a pointer slot counts nibbles and the request is 2 or more. -/
def elementsGranted (s : State) (want len : Nat) : Nat :=
  let g := min want (len / 512 * (s.hart.dev.grp * 512 / s.hart.dev.ew))
  if nibbleSlot s.hart.dev.ptrmap = true ∧ 2 ≤ want ∧ g % 2 = 1 then g - 1 else g

/-- The pointer slots of ptrmap move on by g elements, in order, each by its size (R34). -/
def pointersMoved (t : Ctx) (g : Nat) : Ctx :=
  (List.range 4).foldl (fun u j =>
    if slotOn t.dev.ptrmap j then
      u.setX (slotReg t.dev.ptrmap j) (u.getX (slotReg t.dev.ptrmap j) +
        BitVec.ofNat 64 (advance (slotSize t.dev.ptrmap j) t.dev.k g))
    else u) t

/-- A context whose registers are cut to len bits (R34, R35): where that is shorter, so are the chunks staged for them and what loads in
flight have yet to land. -/
def shortened (t : Ctx) (len : Nat) : Ctx :=
  if t.vlen ≤ len then { t with vlen := len }
  else
    { t with
      vlen := len
      binds := t.binds.map (fun b => { b with staged := b.staged.map (fun c => { c with data := c.data % 2 ^ len }) })
      landing := t.landing.map (fun l =>
        let kept := (List.range l.count).foldl (fun a j => a + l.val / 2 ^ (j * l.vlen) % 2 ^ min len l.vlen * 2 ^ (j * l.vlen)) 0
        { l with val := kept }) }

/-- A context with a binding in place of any of its register; an input's register is empty until its chunk lands (R115). -/
def withBinding (t : Ctx) (b : Binding) : Ctx :=
  ({ t with binds := t.binds.filter (fun c => c.reg != b.reg) ++ [b] } : Ctx).setFull b.reg (!b.isInput)

/-! ### The standard base -/

/-- The operations of OP on two words (RV64IM). -/
def regResult (op : RegOp) (a b : Word) : Word :=
  let most := BitVec.intMin 64
  match op with
  | .add => a + b
  | .sub => a - b
  | .sll => a <<< (b.toNat % 64)
  | .slt => if a.slt b then 1 else 0
  | .sltu => if a.ult b then 1 else 0
  | .xor => a ^^^ b
  | .srl => a >>> (b.toNat % 64)
  | .sra => a.sshiftRight (b.toNat % 64)
  | .or => a ||| b
  | .and => a &&& b
  | .mul => a * b
  | .mulh => (a.signExtend 128 * b.signExtend 128).extractLsb' 64 64
  | .mulhsu => (a.signExtend 128 * b.zeroExtend 128).extractLsb' 64 64
  | .mulhu => (a.zeroExtend 128 * b.zeroExtend 128).extractLsb' 64 64
  | .div => if b = 0 then .allOnes 64 else if a = most ∧ b = .allOnes 64 then most else a.sdiv b
  | .divu => if b = 0 then .allOnes 64 else a / b
  | .rem => if b = 0 then a else if a = most ∧ b = .allOnes 64 then 0 else a.srem b
  | .remu => if b = 0 then a else a % b

/-- The operations of OP-32 on the low words, sign-extended. -/
def regResultW (op : RegOpW) (a b : Word) : Word :=
  let x := a.setWidth 32
  let y := b.setWidth 32
  let r : BitVec 32 := match op with
    | .addw => x + y
    | .subw => x - y
    | .sllw => x <<< (b.toNat % 32)
    | .srlw => x >>> (b.toNat % 32)
    | .sraw => x.sshiftRight (b.toNat % 32)
    | .mulw => x * y
    | .divw => if y = 0 then .allOnes 32 else if x = .intMin 32 ∧ y = .allOnes 32 then .intMin 32 else x.sdiv y
    | .divuw => if y = 0 then .allOnes 32 else x / y
    | .remw => if y = 0 then x else if x = .intMin 32 ∧ y = .allOnes 32 then 0 else x.srem y
    | .remuw => if y = 0 then x else x % y
  r.signExtend 64

/-- The operations of OP-IMM with their sign-extended immediate, or its low six bits for a shift. -/
def immResult (op : ImmOp) (a : Word) (i : BitVec 12) : Word :=
  let b : Word := i.signExtend 64
  match op with
  | .addi => regResult .add a b
  | .slti => regResult .slt a b
  | .sltiu => regResult .sltu a b
  | .xori => regResult .xor a b
  | .ori => regResult .or a b
  | .andi => regResult .and a b
  | .slli => a <<< (i.toNat % 64)
  | .srli => a >>> (i.toNat % 64)
  | .srai => a.sshiftRight (i.toNat % 64)

/-- The operations of OP-IMM-32. -/
def immResultW (op : ImmOpW) (a : Word) (i : BitVec 12) : Word :=
  let x := a.setWidth 32
  let r : BitVec 32 := match op with
    | .addiw => x + i.signExtend 32
    | .slliw => x <<< (i.toNat % 32)
    | .srliw => x >>> (i.toNat % 32)
    | .sraiw => x.sshiftRight (i.toNat % 32)
  r.signExtend 64

/-- The condition of a branch. -/
def branchTaken (c : BrCond) (a b : Word) : Prop :=
  match c with
  | .eq => a = b
  | .ne => a ≠ b
  | .lt => a.toInt < b.toInt
  | .ge => b.toInt ≤ a.toInt
  | .ltu => a.toNat < b.toNat
  | .geu => b.toNat ≤ a.toNat

/-- The target of a branch or jump from its immediate's bits above bit 0. -/
def target {n : Nat} (pc : Word) (imm : BitVec n) : Word := pc + (imm ++ 0#1).signExtend 64

/-- What an AMO stores at a width of w bits from the old value and the operand. -/
def amoResult (f : AmoOp) (w : Nat) (a b : BitVec w) : BitVec w :=
  match f with
  | .swap => b
  | .add => a + b
  | .xor => a ^^^ b
  | .and => a &&& b
  | .or => a ||| b
  | .min => if a.slt b then a else b
  | .max => if a.slt b then b else a
  | .minu => if a.ult b then a else b
  | .maxu => if a.ult b then b else a

/-- The bytes of a scalar width. -/
def accessBytes (m : MemW) : Nat := match m with | .b => 1 | .h => 2 | .w => 4 | .d => 8

/-- A loaded value extended to a word. -/
def extended (unsigned : Bool) (n v : Nat) : Word := if unsigned then .ofNat 64 v else (BitVec.ofNat (8 * n) v).signExtend 64

/-- The address of a scalar access. -/
def scalarAddr (s : State) (rs1 : Reg) (imm : BitVec 12) : Nat := (s.xr rs1 + imm.signExtend 64).toNat

/-- The new value of a CSR instruction. -/
def csrNew (f : CsrFn) (old v : Word) : Word :=
  match f with
  | .rw => v
  | .rs => old ||| v
  | .rc => old &&& ~~~v

/-! ### Custom-3 -/

/-- Cause 50 with a reason and the low 16 bits of an operand (Table 08-2). -/
def exc50 (reason operand : Nat) : Exc := { cause := 50, tval := reason + operand % 2 ^ 16 * 2 ^ 16 }

/-- The record of the running thread's submission (R222, R268). -/
def submitted (s : State) (ws : List Word) : TaskRec :=
  { words := ws, asid := s.hart.std.satp.toNat / 2 ^ 44 % 2 ^ 16, sup := s.hart.priv != .U, since := s.now }

/-- A push of a record into queue n (R222). -/
def afterPush (s : State) (n : Nat) (q : Queue) (r : TaskRec) : State :=
  let u := { s with queues := s.queues.put n { q with items := q.items ++ [{ task := r, key := q.keyOf r }] } }
  if q.records then wakeDie u (n % 4) else u

/-! ### Exceptions -/

/-- A word with its bit n set to b. -/
def withBit (w : Word) (n : Nat) (b : Bool) : Word := if b then w ||| 1#64 <<< n else w &&& ~~~(1#64 <<< n)

/-- The code of a privilege in MPP. -/
def modeCode (p : Priv) : Word := match p with | .U => 0 | .S => 1 | .M => 3

/-- A context after entry into a handler at machine or supervisor privilege: the saved pc, cause, value and status, the mode, and the
handler's address. -/
def entered (t : Ctx) (toM : Bool) (cause tval epc target : Word) : Ctx :=
  let old := t.std.mstatus
  if toM then
    { t with priv := .M, pc := target, std := { t.std with
        mepc := epc, mcause := cause, mtval := tval,
        mstatus := (withBit (withBit old 7 (old.getLsbD 3)) 3 false &&& ~~~(3#64 <<< 11)) ||| (modeCode t.priv <<< 11) } }
  else
    { t with priv := .S, pc := target, std := { t.std with
        sepc := epc, scause := cause, stval := tval,
        mstatus := withBit (withBit (withBit old 5 (old.getLsbD 1)) 1 false) 8 (t.priv != .U) } }

/-- What any trap ends in a context (R123, R346): the reservation, the replay, and what the instruction waited for. -/
def interrupted (t : Ctx) : Ctx :=
  { t with resv := none, loop := { t.loop with suspended := t.loop.active }, rc := 0, barWait := none, mgnWait := false,
           joining := none, wfi := false, charged := false, replayAt := none, midway := false, raised := none, ended := t.ended + 1 }

/-- An exception traps in machine mode unless it is raised below it and delegated; cause 48 always does (R211). -/
def trapsToM (t : Ctx) (cause : Nat) : Bool := decide (cause = 48) || t.priv == .M || !t.std.medeleg.getLsbD cause

/-- The context holds a task whose faults of this cause are redirected to its handler (R311). -/
def redirects (t : Ctx) (cause : Nat) : Bool :=
  match t.task with
  | some r => t.priv == .U && r.addr 7 != 0 && redirected cause
  | none => false

/-- The gate of a core without a claim of a context. -/
def unclaimed (g : Gate) (x : Nat) : Gate := { g with claim := g.claim.filter (fun c => c.1 != x) }

/-- The fault record of hart h (Table 11-7). -/
def faultRecord (s : State) (h : Nat × Nat) (r : TaskRec) (area : Nat) (e : Exc) (epc : Word) : List Word :=
  [BitVec.ofNat 64 (e.cause + h.1 * 2 ^ 16 + h.2 * 2 ^ 32), BitVec.ofNat 64 r.handle, epc, BitVec.ofNat 64 (area + 512)] ++
  (if e.cause = 25 then (List.range 4).map (fun i => BitVec.ofNat 64 (e.words.getD i 0))
   else if e.cause = 28 ∨ e.cause = 49 then [BitVec.ofNat 64 e.tval, (s.node h.1 (e.tval % 2 ^ 7)).statusWord, 0, 0]
   else [BitVec.ofNat 64 e.tval, 0, 0, 0])

/-! ### Register blocks and requests -/

/-- The bits of a word from lo, n of them. -/
def fieldOf (w : Word) (lo n : Nat) : Nat := w.toNat / 2 ^ lo % 2 ^ n

/-- Bytes a stash map word 0 maps, and the conditions that refuse it with valid = 1 (R326). -/
def mapBytes (w : Word) : Nat := 4096 * 2 ^ fieldOf w 8 4
def mapBase (w : Word) : Nat := fieldOf w 12 36 * 4096
def mapRefused (k : Core) (e : Nat) (v : Word) : Prop :=
  8 < fieldOf v 8 4 ∨ mapBase v % mapBytes v ≠ 0 ∨ fieldOf (k.stashW1 e) 12 8 * 4096 % mapBytes v ≠ 0 ∨
  ∃ f, f < 64 ∧ f ≠ e ∧ (k.stashW0 f).getLsbD 0 = true ∧ fieldOf (k.stashW0 f) 48 16 = fieldOf v 48 16 ∧
    mapBase (k.stashW0 f) < mapBase v + mapBytes v ∧ mapBase v < mapBase (k.stashW0 f) + mapBytes (k.stashW0 f)

/-- Nothing changes but one core. -/
def OnlyCore (s t : State) (c : Nat) (k : Core) : Prop := t = s.setCore c k

/-- Nothing changes but one die. -/
def OnlyDie (s t : State) (d : Nat) (k : Die) : Prop := t = s.setDie d k

/-- A request may be performed: not in recovery mode, its 64 bytes in device memory and readable, word 0 the opcode alone, and in words 1 to 6
no bit the table does not use (R418, R419). -/
def Asked (s : State) (r : CfgReq) (op : Nat) (masks : List Nat) : Prop :=
  s.boot.recovery = false ∧ r.addr + 64 ≤ dramTop s ∧ s.badIn r.addr 64 = none ∧ reqWord s r 0 = op ∧ masks.length = 6 ∧
  ∀ i, i < 6 → reqWord s r (i + 1) &&& masks.getD i 0 = reqWord s r (i + 1)

/-- The request at r is accepted: its effect is t and its status 0. -/
def Done (i : Instr) (s : State) (r : CfgReq) (t : State) : Prop := exec i s = .next (completeRequest t r 0 0)

/-- The request at r is refused with a status: nothing but its status changes. -/
def Refused (i : Instr) (s : State) (r : CfgReq) (status : Nat) : Prop := exec i s = .next (completeRequest s r status 0)

/-- The descriptor of a QUEUE request (Table 11-1). -/
def queueOfRequest (w : Nat → Nat) : Queue :=
  { enable := true, mode := w 2 / 2 % 4, records := (w 2).testBit 3, priority := w 2 / 2 ^ 4 % 2 ^ 6, aging := w 2 / 2 ^ 10 % 2 ^ 5,
    capacity := w 3 % 2 ^ 21, threshold := w 3 / 2 ^ 32, hostAsid := w 4 }

/-- Bytes of pinned storage a queue takes. -/
def queueBytes (q : Queue) : Nat := if q.enable then q.capacity * (if q.records then 64 else 16) else 0

/-- Cores a request may name. -/
def coreStatus (s : State) (c : Nat) : Option Nat := if 384 ≤ c then some 2 else if s.coreUp c then none else some 5

/-! ### The host and operations that end later -/

/-- Nothing changes but memory (as the statement says beside) and what a write does besides: reservations, stash tags, corrected sectors,
the record of writes, and what lies aside. -/
def OnlyBytes (s t : State) : Prop :=
  (∀ c x, t.thr c x = { s.thr c x with resv := (t.thr c x).resv }) ∧
  (∀ c, t.core c = { s.core c with ctxs := (t.core c).ctxs, sectors := (t.core c).sectors }) ∧
  t = { aside s t with cores := t.cores, mem := t.mem, bad := t.bad, past := t.past }

/-- A dropped push is counted, and the queue it named remembered (R420, PDROP of Table 20-1). -/
def pushDropped (s : State) (n : Nat) : State :=
  { s with host := { s.host with
      pdropAny := true, pdropQueue := BitVec.ofNat 12 n,
      pdropCount := if s.host.pdropCount = 0xFFFF then 0xFFFF else s.host.pdropCount + 1 } }

/-- The record of a 64-byte write to a push window (R420). -/
def hostRecord (s : State) (q : Queue) (ws : List Word) : TaskRec :=
  { words := if q.records then ws else ws.take 2, asid := q.hostAsid, sup := true, since := s.now }

/-- Every wait on a barrier ends, to raise cause 29 with reason 4 (R285). -/
def waitsBroken (s : State) (k : BarKey) : State :=
  s.mapCtxs (fun _ _ t => match t.barWait with
    | some w => if w.dev = k.dev ∧ w.die = k.die ∧ w.idx = k.idx ∧ w.ends = none then { t with barWait := some { w with ends := some 4 } } else t
    | none => t)

/-- The event that performs the request at r, by its opcode (Table 20-2). -/
def requestEvents (r : CfgReq) : List (Nat × Event) :=
  [(1, .queue r), (2, .turnstile r), (3, .pool r), (4, .barrier r), (5, .pinned r), (6, .sched r), (7, .aspace r), (8, .asrel r),
   (9, .fenceRequest r), (10, .capkey r), (11, .ring r), (12, .nvmeqp r), (13, .waitword r), (14, .subscribe r), (15, .launch r),
   (16, .install r)]

/-- The 64-bit results of the register operations of Table 08-5. -/
def actRows : List (Nat × (Word → Word → Word)) :=
  [(5, fun a b => a + b), (7, fun a b => a - b), (8, fun a b => a &&& b), (9, fun a b => a ||| b), (10, fun a b => a ^^^ b),
   (11, fun a b => a <<< (b.toNat % 64)), (12, fun a b => a >>> (b.toNat % 64)), (13, fun a b => a.sshiftRight (b.toNat % 64)),
   (14, fun a b => if a.sle b then a else b), (15, fun a b => if a.ule b then a else b), (16, fun a b => if b.sle a then a else b),
   (17, fun a b => if b.ule a then a else b), (28, fun a _ => a.cpop), (29, fun a _ => a.ctz)]

/-! ### Commands -/

/-- A node as its launch leaves it: running, its counter 0, its nests copied (R114, R187, R203), with the writes performed so far. -/
def launchedNode (s : State) (c n : Nat) : Node :=
  let d := s.node c n
  { d with st := .running, dcount := 0, launched := s.past.length, srcNest := SMap.get {} (s.core c).nests (d.w0.toNat / 2 ^ 45 % 2 ^ 5),
           dstNest := SMap.get {} (s.core c).nests (d.w0.toNat / 2 ^ 51 % 2 ^ 5) }

/-- The node's command runs on: running, not stopped by a page fault, not stopping for a snapshot. -/
def Goes (d : Node) : Prop := d.st = .running ∧ d.pageStop = false ∧ d.stopping = false

/-- The events that run a command of a kind on. -/
def kindRows (c n : Nat) : List (Nat × Event) :=
  [(1, .kmma c n), (2, .kcopy c n), (3, .kgath c n), (4, .kscat c n), (5, .kfill c n), (6, .kred c n), (7, .kcoll c n), (8, .kdisk c n),
   (9, .knest c n), (10, .ksig c n)]

/-- How often a node names m as a successor. -/
def timesNamed (d : Node) (m : Nat) : Nat :=
  (if d.w0.toNat / 2 ^ 13 % 2 ^ 7 = m then 1 else 0) + (if d.w0.toNat / 2 ^ 20 % 2 ^ 7 = m then 1 else 0)

/-- The command reads and writes physical memory directly: its space is Bare, and no sector is uncorrectable; and every write performed is
ordered before it, so that its reads miss none (R357). -/
def BareCommand (s : State) (d : Node) : Prop := d.satp = 0 ∧ s.bad = [] ∧ ∀ w ∈ s.past, d.misses w = false

/-- The pieces of a list of engine writes as places, sizes and values. -/
def writePlaces (l : List EngWrite) : List (Nat × Nat × Nat) := l.map (fun w => (w.pa, w.len, w.val))

/-- The cycles a kmma takes at least (R201): ⌈M/32⌉ · ⌈N/48⌉ · ⌈K/f⌉, f being 4 for E2M1, 1 for FP16 and BF16, else 2. -/
def leastCycles (d : Node) : Nat :=
  let m := d.w0.toNat / 2 ^ 45 % 2 ^ 7 + 1
  let n := d.w0.toNat / 2 ^ 52 % 2 ^ 8 + 1
  let k := d.w3.toNat % 2 ^ 16 + 1
  let fmt := d.w0.toNat / 2 ^ 37 % 2 ^ 8
  let f := if fmt = 4 then 4 else if fmt = 6 ∨ fmt = 7 then 1 else 2
  ((m + 31) / 32) * ((n + 47) / 48) * ((k + f - 1) / f)

/-- The 8-bit integer at an address. -/
def int8At (s : State) (a : Nat) : Int := (s.byte a).toInt

/-- The columns of B that a kmma uses for a row: those it holds since it read them for an earlier row of the same group of 32, else the
first n of K elements each at the addresses given, with pairs of no effect (R363). -/
def columnsFor (s : State) (d : Node) (row : Nat) (colAt : Nat → Nat → Nat) : List (List Nat × List Nat) :=
  if d.heldGroup = some (row / 32) then d.held.getD 0 []
  else (List.range d.mmaN).map (fun j =>
    ((List.range d.mmaK).map (fun k => (s.byte (colAt k j)).toNat), List.replicate ((d.mmaK + 31) / 32) 127))

/-! ### Scheduling -/

/-- A core looks for work: its empty contexts choose again, idle cores may start a steal round; nothing else (R298, R301). -/
def Wakes (s t : State) (c : Nat) : Prop :=
  t = { s with agenda := t.agenda } ∧ (∃ l, t.agenda = s.agenda ++ l) ∧
  ∀ x, x < 8 → (s.thr c x).status = .empty → Event.dispatch c x ∈ t.agenda

/-- A context at the first dispatch of a record (R272, Table 10-4): user privilege at the task's pc, x10 the run length, x11 and x12 the arguments, x13
the gang position, x14 the handle, every other register 0 and full, the vector state at its reset values with the identity and the field map. -/
def Started (s : State) (r : TaskRec) (handle : Nat) (run : Word) (fld : BitVec 36) (h : Ctx) : Prop :=
  let cls := if recClass (wordAt r.words 4) = 0 then 1 else if recClass (wordAt r.words 4) = 1 then 2 else 4
  h.status = .running ∧ h.priv = .U ∧ h.pc = BitVec.ofNat 64 (recVa (taskXlat s r) (r.addr 0)) ∧
  h.getX 10 = run ∧ h.getX 11 = wordAt r.words 1 ∧ h.getX 12 = wordAt r.words 3 ∧ h.getX 13 = 0 ∧ h.getX 14 = BitVec.ofNat 64 handle ∧
  (∀ i : Reg, i.toNat < 10 ∨ 14 < i.toNat → h.getX i = 0) ∧ (∀ i, h.ownV i = 0) ∧ h.full = 0xFFFFFFFF ∧ h.cls = cls ∧
  h.vlen = 512 * cls ∧ h.binds = [] ∧ h.std.satp = (taskXlat s r).satp ∧ h.task = some { r with handle := handle } ∧
  h.dev = { ({} : DevCsr) with wid := wordAt r.words 2, wfld := fld,
                               actbase := match s.aspace r.asid with | some a => a.actbase | none => 0 }

/-- The run length (Table 10-4): 1 without a field 0, else the lesser of the header's chunk and what is left of field 0 at the identity. -/
def runOf (h0 h1 h7 wid : Word) : Word :=
  if h0.toNat % 64 = 0 then 1
  else BitVec.ofInt 64 (min (h7.toNat % 2 ^ 16 : Int) ((h1.toNat : Int) - (wid.toNat % 2 ^ (h0.toNat % 64) : Int)))

/-- The record a free context takes: the first of the highest level among those that fit. -/
def chosen (s : State) (c x : Nat) (e : Cand) : Prop :=
  topCand ((dequeCands s c ++ queueCands s c).filter (fun f => fits s c x f.task)) = some e

/-- The widths and extents of a launch header's six fields. -/
def fieldW (h : List Word) (i : Nat) : Nat := (wordAt h 0).toNat / 2 ^ (6 * i) % 64
def fieldE (h : List Word) (i : Nat) : Nat := (wordAt h (i + 1)).toNat

/-- The rows of Table 10-2 in order, each with its status. -/
def headRefusals (s : State) (h : List Word) (base : Word) (sup : Bool) : List (Prop × Nat) :=
  let sum := fieldW h 0 + fieldW h 1 + fieldW h 2 + fieldW h 3 + fieldW h 4 + fieldW h 5
  let w7 := (wordAt h 7).toNat
  let w8 := (wordAt h 8).toNat
  let queue := w8 % 2 ^ 13
  [(64 < sum, 0x81),
   ((∃ i, i < 6 ∧ ((fieldW h i = 0 ∧ 1 < fieldE h i) ∨ (fieldW h i ≠ 0 ∧ (fieldE h i = 0 ∨ 2 ^ fieldW h i < fieldE h i)))) ∨
      base.toNat % 2 ^ sum ≠ 0, 0x82),
   (w7 % 2 ^ 16 = 0 ∨ 47 < w7 / 2 ^ 16 % 2 ^ 6 ∨ w7 / 2 ^ 22 % 4 = 3 ∨ w7 / 2 ^ 24 % 4 = 3 ∨ 256 < w7 / 2 ^ 26 % 2 ^ 9, 0x83),
   (44 ≤ w7 / 2 ^ 16 % 2 ^ 6 ∧ sup = false, 0x84),
   (queue ≠ 0 ∧ ∀ n q, s.queueOf (BitVec.ofNat 64 (queue - 1)) = some (n, q) → q.records = false, 0x85),
   (1 < w8 / 2 ^ 13 % 8 ∨ w8 / 2 ^ 16 ≠ 0 ∨ (wordAt h 0).toNat / 2 ^ 36 ≠ 0 ∨ w7 / 2 ^ 35 ≠ 0 ∨
      (∃ i ∈ [9, 10, 11], (wordAt h i).toNat / 2 ^ 48 ≠ 0) ∨ ∃ i ∈ [12, 13, 14], wordAt h i ≠ 0, 0x86)]

/-! ### Margin and power -/

/-- The margin state of a core after one more replay in its window, at or below its thresholds (R436, R438). -/
def replayed (m : Margin) : Margin := { m with tevcnt := m.tevcnt + 1, events := m.events + 1 }

/-- One more replay meets neither of the window's thresholds. -/
def QuietReplay (m : Margin) : Prop := (m.events + 1).toNat ≠ m.raiseth.toNat + 1 ∧ (m.events + 1).toNat ≠ m.quarth.toNat + 1

/-- The trim step the supply moves toward (R240, R439, R440). -/
def supplyTarget (k : Core) : Nat :=
  if k.margin.hold = true ∨ k.margin.safe ≠ 0 ∨ (List.range 8).any (fun x => (k.ctx x).mgnWait) = true then 0 else k.margin.trim.toNat

/-- A value clamped into a die's range of running limits: the floor where it exceeds the ceiling (R306). -/
def limitIn (p : Power) (l : Nat) : Nat :=
  if p.ceiling.toNat < p.floor.toNat then p.floor.toNat else max p.floor.toNat (min p.ceiling.toNat l)

/-! ### Fleet operation and boot -/

/-- The readings of the sources that the machine's state holds (Table 22-1), by the kind of the source. -/
def readings (s : State) (i : Nat) : List (Nat × Nat) :=
  let m := (s.core i).margin
  let l := s.link i
  [(3, m.droops), (4, m.stretched), (5, m.hopDroops), (6, m.tevcnt.toNat), (7, m.raises.toNat), (8, (s.unitOf (.channel i)).total),
   (9, (s.unitOf (.dieArrays i)).total), (12, l.replayFlits), (14, l.retrans), (15, l.dups), (16, l.fails),
   (17, m.last.toNat * 2 ^ 32 + m.crossed.toNat * 2 ^ 8 + m.streak.toNat), (18, (s.core i).lvdef.toNat), (19, (s.core i).lvwait.toNat),
   (20, (s.core i).gate.refused.toNat), (21, s.fleet.cap), (24, s.fleet.failSafe), (25, s.live.toNat)]

/-- Nothing changes but the record of a unit. -/
def withUnit (s : State) (u : Unit22) (c : UnitCount) : State := s.setUnit u c

/-- Requests of the module after a change of those with a number that are still open. -/
def requestsAfter (s : State) (seq : BitVec 32) (f : E2eOut → E2eOut) : List E2eOut :=
  s.fleet.out.map (fun r => if r.seq == seq && r.done.isNone && r.failed.isNone then f r else r)

/-- The power a die may draw under a cap of w watts on n live dies, in mW (R465). -/
def dieTarget (w n : Nat) : Nat := (w - 136) * 1000 / n

end Sys2Proof.Claims

open Sys2Proof Sys2Proof.Machine Sys2Proof.Claims

/-- R127, R132 to R135 for the two-source integer rows of Tables 05-2 and 05-3: each result element, and everything else unchanged. vclz
and vcpop (Table 05-3), and vsmul (R134): the product of two signed fractions shifted right by EW − 1, rounded by vfcsr.rm and clamped.
That the saturating rows and the narrowing clip are legal under the reserved rounding modes is the model's reading (log 36). -/
def Obligations.IntegerElements : Prop :=
  (∀ r ∈ intRows, ∀ (o : OpB) (s : State),
    Writes (r.instr o) s (intInfo s o r.weight r.acc) s.shape o.m o.vd 0 (fun k =>
      (r.result s.shape.ew (.ofNat _ (s.elem o.vs2 k)) (.ofNat _ (s.operand o.src k)) (.ofNat _ (s.elem o.vd k))).toNat)) ∧
  (∀ s : State,
    (∀ r ∈ intRowsU, ∀ o : OpU, Writes (r.1 o) s (infoU s (intTag s.hart.dev) 1 o) s.shape o.m o.vd 0
      (fun k => (r.2 s.shape.ew (.ofNat _ (s.elem o.vs2 k))).toNat)) ∧
    (∀ o : OpB, Writes (.vsmul o) s (smulInfo s o) s.shape o.m o.vd 0 (fun k =>
      let w := s.shape.ew
      let product := (BitVec.ofNat w (s.elem o.vs2 k)).toInt * (BitVec.ofNat w (s.operand o.src k)).toInt
      (clampS w (roundInt (Ev.ofFrac product (2 ^ (w - 1)) 0 false) s.hart.dev.rm).1).toNat)))

/-- The moves, slides, gathers and index rows of R136, R142, R151 to R153, R159 and R161: where each result element comes from. vcompress
(R154): each segment's selected elements packed from its first position; the rest follow vtype.ta. The corners of slides and gathers are
read as log 21 gives, uneven segments as log 36. -/
def Obligations.VectorMoves : Prop :=
  (∀ s : State,
    (∀ o : OpB, Writes (.vmerge o) s (mergeInfo s o) s.shape false o.vd 0 (fun k =>
      if (s.getV 0).testBit k then s.operand o.src k else s.elem o.vs2 k)) ∧
    (∀ o : OpD, Writes (.vmv o) s (moveInfo s o) s.shape false o.vd 0 (s.operand o.src)) ∧
    (∀ o : OpZ, Writes (.vid o) s (vidInfo s o) s.shape o.m o.vd 0 (fun k => posOf s k % 2 ^ s.shape.ew)) ∧
    (∀ o : OpB, Writes (.vslideup o) s (infoPerm s true o) s.shape o.m o.vd 0 (fun k =>
      if posOf s k < slideOff s o.src then fillElem s.shape s.hart.dev.vfill (posOf s k)
      else segAt s o.vs2 k (posOf s k - slideOff s o.src))) ∧
    (∀ o : OpB, Writes (.vslidedn o) s (infoPerm s true o) s.shape o.m o.vd 0 (fun k =>
      if posOf s k + slideOff s o.src < grantOf s k then segAt s o.vs2 k (posOf s k + slideOff s o.src)
      else fillElem s.shape s.hart.dev.vfill (posOf s k))) ∧
    (∀ o : OpB, Writes (.vslide1up o) s (infoPerm s (!s.hart.dev.isLf) o) s.shape o.m o.vd 0 (fun k =>
      if posOf s k = 0 then s.operand o.src 0 else segAt s o.vs2 k (posOf s k - 1))) ∧
    (∀ o : OpB, Writes (.vslide1dn o) s (infoPerm s (!s.hart.dev.isLf) o) s.shape o.m o.vd 0 (fun k =>
      if posOf s k + 1 < grantOf s k then segAt s o.vs2 k (posOf s k + 1) else s.operand o.src 0)) ∧
    (∀ o : OpB, Writes (.vrgather o) s (infoPerm s (!srcIsV o.src || !s.hart.dev.isLf) o) s.shape o.m o.vd 0 (fun k =>
      if s.operand o.src k < max 1 s.seg then segAt s o.vs2 k (s.operand o.src k) else s.shape.zero)) ∧
    (∀ o : OpB, Writes (.vgperm o) s (infoPerm s (!s.hart.dev.isLf) o) s.shape o.m o.vd 0 (fun k =>
      if s.operand o.src k < s.shape.n then s.elem o.vs2 (s.operand o.src k) else s.shape.zero)) ∧
    (∀ o : OpB, Writes (.vgbcast o) s (infoPerm s true o) s.shape o.m o.vd 0 (fun k =>
      s.elem o.vs2 (s.operand o.src 0 % max 1 s.members * max 1 s.seg + posOf s k)))) ∧
  (∀ (s : State) (o : OpB), Tiled s → WritesAll (.vcompress o) s (compressInfo s o) s.shape o.vd 0 (fun k =>
    match ((List.range (grantOf s k)).filter (fun p => (s.getV (srcReg o.src).toNat).testBit (segBase s k + p)))[posOf s k]? with
    | some p => segAt s o.vs2 k p
    | none => if s.hart.dev.ta then s.shape.zero else s.elem o.vd k))

/-- The compares of R138 and R139: each bit of the mask and the flags of the active elements. -/
def Obligations.Compares : Prop :=
  ∀ (o : OpB) (s : State),
    (∀ r ∈ intCmpRows, WritesMask (r.1 o) s (infoCmp s (intTag s.hart.dev) 1 o) o.m o.vd 0 (fun k =>
      r.2 s.shape.ew (.ofNat _ (s.elem o.vs2 k)) (.ofNat _ (s.operand o.src k)))) ∧
    (∀ r ∈ fpCmpRows, WritesMask (r.1 o) s (infoCmp s (fpTag s.hart.dev) 2 o) o.m o.vd
      (flagsOver (s.frame o.m) (fun k => cmpFlags r.2.2.2 (fpElem s o.vs2 k) (fpOperand s o.src k)))
      (fun k => cmpValue r.2.1 r.2.2.1 (fpElem s o.vs2 k) (fpOperand s o.src k)))

/-- Each of vmand, vmor, vmxor, vmandn, vmsbf, vmsif, vmsof, vmfromx and viota (R140 to R143), vmcnt, vmfirst, vmtox, vmv.x.s and vmv.s.x
(R143, R158) completes once it is ready, and what it leaves in its destination. vmtox and vmfromx act on the leader's elements, those
below seg (R131). That vmv.x.s zero-extends E4M3 and E5M2 is the model's choice (log 36). -/
def Obligations.MaskRegisters : Prop :=
  (∀ s : State,
    (∀ r ∈ logicRows, ∀ o : OpB, WritesMask (r.1 o) s (logicInfo s o) false o.vd 0 (fun k =>
      r.2 ((s.getV o.vs2.toNat).testBit k) ((s.getV (srcReg o.src).toNat).testBit k))) ∧
    (∀ o : OpU, WritesMask (.vmsbf o) s (firstInfo s o) o.m o.vd 0 (fun k => noneBefore s o.m o.vs2 k (posOf s k + 1))) ∧
    (∀ o : OpU, WritesMask (.vmsif o) s (firstInfo s o) o.m o.vd 0 (fun k => noneBefore s o.m o.vs2 k (posOf s k))) ∧
    (∀ o : OpU, WritesMask (.vmsof o) s (firstInfo s o) o.m o.vd 0 (fun k =>
      noneBefore s o.m o.vs2 k (posOf s k) && setActive s o.m o.vs2 k)) ∧
    (∀ o : OpD, WritesMask (.vmfromx o) s (fromxInfo s o) false o.vd 0 (fun k =>
      if k < s.seg then (s.xr (srcReg o.src)).getLsbD k else (s.getV o.vd.toNat).testBit k)) ∧
    (∀ o : OpU, Writes (.viota o) s (iotaInfo s o) s.shape o.m o.vd 0 (fun k =>
      ((List.range (posOf s k)).filter (fun p => (s.getV o.vs2.toNat).testBit (segBase s k + p) &&
        (!o.m || (s.getV 0).testBit (segBase s k + p)))).length))) ∧
  (∀ s : State,
    (∀ o : OpXR, WritesX (.vmcnt o) s (maskXInfo s o) o.rd
      (.ofNat 64 ((List.range s.hart.dev.vgrant.toNat).filter (setActive s o.m o.vs2)).length)) ∧
    (∀ o : OpXR, WritesX (.vmfirst o) s (maskXInfo s o) o.rd
      (match (List.range s.hart.dev.vgrant.toNat).find? (setActive s o.m o.vs2) with
       | some i => .ofNat 64 i
       | none => .allOnes 64)) ∧
    (∀ o : OpXR, WritesX (.vmtox o) s (maskXInfo s o) o.rd
      (.ofNat 64 (s.getV o.vs2.toNat % 2 ^ min s.seg (min s.hart.dev.vgrant.toNat s.hart.vlen)))) ∧
    (∀ o : OpXR, s.sliced → WritesX (.vmvXS o) s (xsInfo s o) o.rd
      (if intTag s.hart.dev then (BitVec.ofNat s.shape.ew (s.elem o.vs2 0)).signExtend 64 else .ofNat 64 (s.elem o.vs2 0))) ∧
    (∀ o : OpD, WritesAll (.vmvSX o) s (sxInfo s o) s.shape o.vd 0 (fun k =>
      if k = 0 ∧ s.hart.dev.vgrant ≠ 0 then (s.xr (srcReg o.src)).toNat else s.elem o.vd k)))

/-- The floating-point rows of R144 to R147: the exact result rounded once by vfcsr.rm with its flags, the comparisons and signs, and the
estimates. Corners of the estimates are read as log 21 gives. -/
def Obligations.FloatElements : Prop :=
  ∀ s : State,
    (∀ r ∈ fpRows, ∀ o : OpB,
      let x := fun k => rounded s s.hart.dev.fp (r.exact s.hart.dev.rm (fpElem s o.vs2 k) (fpOperand s o.src k) (fpElem s o.vd k)) false
      Writes (r.instr o) s (fpInfo s o r.weight r.third) s.shape o.m o.vd (flagsOver (s.frame o.m) (fun k => (x k).2)) (fun k => (x k).1)) ∧
    (∀ o : OpU,
      let x := fun k => rounded s s.hart.dev.fp (orNV (fpElem s o.vs2 k).sqrt) false
      Writes (.vfsqrt o) s (sqrtInfo s o) s.shape o.m o.vd (flagsOver (s.frame o.m) (fun k => (x k).2)) (fun k => (x k).1)) ∧
    (∀ r ∈ [(Instr.vfmin, false), (Instr.vfmax, true)], ∀ o : OpB,
      let x := fun k => minMax s.hart.dev.fp r.2 (s.elem o.vs2 k) (s.operand o.src k)
      Writes (r.1 o) s (infoB s (fpTag s.hart.dev) 2 o) s.shape o.m o.vd (flagsOver (s.frame o.m) (fun k => (x k).2)) (fun k => (x k).1)) ∧
    (∀ r ∈ signRows, ∀ o : OpB,
      Writes (r.1 o) s (infoB s (fpTag s.hart.dev) 2 o) s.shape o.m o.vd 0 (fun k =>
        (putSign s.shape.ew (.ofNat _ (s.elem o.vs2 k))
          (r.2 ((s.elem o.vs2 k).testBit (s.shape.ew - 1)) ((s.operand o.src k).testBit (s.shape.ew - 1)))).toNat)) ∧
    (∀ r ∈ [(Instr.vfrece, recipElem), (Instr.vfrsqe, rsqrtElem)], ∀ o : OpU,
      let x := fun k => r.2 s.hart.dev.fp (fpElem s o.vs2 k)
      Writes (r.1 o) s (infoU s (fpTag s.hart.dev) 4 o) s.shape o.m o.vd (flagsOver (s.frame o.m) (fun k => (x k).2)) (fun k => (x k).1))

/-- The conversions of R148 to R150: the destination has its own width and group. -/
def Obligations.Conversions : Prop :=
  ∀ s : State,
    let d := s.hart.dev
    let sh := s.shape
    let signed := fun o k => (BitVec.ofNat sh.ew (s.elem o k)).toInt
    (∀ o : OpS, let x := fun k => rounded s ((selFmt d.ew o.sel.toNat).getD .fp64) (Ev.ofInt (signed o.vs2 k), 0) d.sat
      Writes (.vfcvtFX o) s (convertInfo s o.vd o.vs2 o.m (cvtIntSrc d && (selFmt d.ew o.sel.toNat).isSome) d.ew 2 true)
        (convertShape sh d.ew) o.m o.vd (flagsOver (s.frame o.m) (fun k => (x k).2)) (fun k => (x k).1)) ∧
    (∀ o : OpS, let x := fun k => rounded s ((selFmt d.ew o.sel.toNat).getD .fp64) (Ev.ofInt (s.elem o.vs2 k), 0) d.sat
      Writes (.vfcvtFXu o) s (convertInfo s o.vd o.vs2 o.m (cvtIntSrc d && (selFmt d.ew o.sel.toNat).isSome) d.ew 2 true)
        (convertShape sh d.ew) o.m o.vd (flagsOver (s.frame o.m) (fun k => (x k).2)) (fun k => (x k).1)) ∧
    (∀ r ∈ [(Instr.vfcvtXF, true), (Instr.vfcvtXuF, false)], ∀ o : OpS,
      let x := fun k => roundToInt d.ew r.2 (fpElem s o.vs2 k) d.rm
      Writes (r.1 o) s (convertInfo s o.vd o.vs2 o.m (cvtFpSrc d && selIsInt d.ew o.sel.toNat) d.ew 2 true)
        (convertShape sh d.ew) o.m o.vd (flagsOver (s.frame o.m) (fun k => (x k).2)) (fun k => (x k).1)) ∧
    (∀ o : OpS, let x := fun k => roundTo ((selFmt (2 * d.ew) o.sel.toNat).getD .fp64) (fpElem s o.vs2 k) 0 false
      Writes (.vfwid o) s (convertInfo s o.vd o.vs2 o.m (widens d.fmt (selFmt (2 * d.ew) o.sel.toNat)) (2 * d.ew) 2 false)
        (convertShape sh (2 * d.ew)) o.m o.vd (flagsOver (s.frame o.m) (fun k => (x k).2)) (fun k => (x k).1)) ∧
    (∀ o : OpS, let x := fun k => rounded s ((selFmt (d.ew / 2) o.sel.toNat).getD .fp64) (fpElem s o.vs2 k, 0) d.sat
      Writes (.vfnar o) s (convertInfo s o.vd o.vs2 o.m (widens (selFmt (d.ew / 2) o.sel.toNat) d.fmt) (d.ew / 2) 2 true)
        (convertShape sh (d.ew / 2)) o.m o.vd (flagsOver (s.frame o.m) (fun k => (x k).2)) (fun k => (x k).1)) ∧
    (∀ o : OpS, let w := d.ew <<< o.sel.toNat
      Writes (.vsext o) s (convertInfo s o.vd o.vs2 o.m (extendOk d o.sel.toNat) w 1 false) (convertShape sh w) o.m o.vd 0
        (fun k => ((BitVec.ofNat sh.ew (s.elem o.vs2 k)).signExtend w).toNat)) ∧
    (∀ o : OpS, let w := d.ew <<< o.sel.toNat
      Writes (.vzext o) s (convertInfo s o.vd o.vs2 o.m (extendOk d o.sel.toNat) w 1 false) (convertShape sh w) o.m o.vd 0
        (fun k => s.elem o.vs2 k)) ∧
    (∀ o : OpU, Writes (.vnclip o) s (convertInfo s o.vd o.vs2 o.m (cvtIntSrc d) (d.ew / 2) 1 false) (convertShape sh (d.ew / 2)) o.m o.vd 0
        (fun k => (clampS (d.ew / 2) (signed o.vs2 k)).toNat)) ∧
    (∀ o : OpU, Writes (.vfclass o) s (convertInfo s o.vd o.vs2 o.m (fpTag d) d.ew 2 false) (convertShape sh d.ew) o.m o.vd 0
        (fun k => 2 ^ classBit d.fp (s.elem o.vs2 k))) ∧
    (∀ o : OpU, let x := fun k => rounded s .bf16 (FFmt.fp16.decode (s.elem o.vs2 k), 0) d.sat
      Writes (.vfcvtBfF o) s (convertInfo s o.vd o.vs2 o.m (d.fmt == some .fp16) 16 2 true) (convertShape sh 16) o.m o.vd
        (flagsOver (s.frame o.m) (fun k => (x k).2)) (fun k => (x k).1)) ∧
    (∀ o : OpU, let x := fun k => rounded s .fp16 (FFmt.bf16.decode (s.elem o.vs2 k), 0) d.sat
      Writes (.vfcvtFBf o) s (convertInfo s o.vd o.vs2 o.m (d.fmt == some .bf16) 16 2 true) (convertShape sh 16) o.m o.vd
        (flagsOver (s.frame o.m) (fun k => (x k).2)) (fun k => (x k).1))

/-- The reductions of R155 and R156: each segment's active elements folded in the stated order from vs1's element at the segment's first
position. vscan in the Hillis-Steele order of R71 within each segment, and vgred across the members of a gang (R157, R160). Segment
reductions are read as log 21 gives. -/
def Obligations.Reductions : Prop :=
  (∀ (s : State) (o : OpB), Tiled s →
    let vs1 := srcReg o.src
    let run := fun (i : Instr) (ok : Bool) (weight : Nat) (rounds : Bool) (fold : Nat → Nat × Nat) =>
      WritesAll i s (reduceInfo s o ok weight rounds) s.shape o.vd ((segFirsts s).foldl (fun x k => x ||| (fold k).2) 0)
        (reduced s o.vd (fun k => (fold k).1))
    let fp := fun sel => fpComb s.hart.dev.fp s.hart.dev.rm sel
    (∀ r ∈ redRows, run (r.1 o) (intTag s.hart.dev) 1 false (fun k =>
      (((segElements s o.m o.vs2 k).filterMap id).foldl (fun a b => (intCombine s.shape.ew r.2 a b).1) (segAt s vs1 k 0), 0))) ∧
    run (.vfredo o) (fpTag s.hart.dev) 2 true (fun k => reduceSeq (fp 0) (segAt s vs1 k 0) (segElements s o.m o.vs2 k)) ∧
    run (.vfredt o) (fpTag s.hart.dev) 2 true (fun k => reduceTree (fp 0) (segAt s vs1 k 0) (segElements s o.m o.vs2 k)) ∧
    run (.vfredmin o) (fpTag s.hart.dev) 2 false (fun k => reduceSeq (fp 1) (segAt s vs1 k 0) (segElements s o.m o.vs2 k)) ∧
    run (.vfredmax o) (fpTag s.hart.dev) 2 false (fun k => reduceSeq (fp 2) (segAt s vs1 k 0) (segElements s o.m o.vs2 k))) ∧
  (∀ (s : State) (o : OpS), Tiled s →
    let isF := fpTag s.hart.dev
    let f : Nat → Nat → Nat × Nat := if isF then fpComb s.hart.dev.fp s.hart.dev.rm o.sel.toNat else intComb s.shape.ew o.sel.toNat
    let scan := fun k => scanComb f 16 1 (segElements s o.m o.vs2 k)
    let across := fun k => crossFold f s.shape (s.frame o.m) (s.getGroup o.vs2.toNat s.shape.g) (max 1 s.seg) s.members (posOf s k)
    Writes (.vscan o) s (scanInfo s o) s.shape o.m o.vd ((segFirsts s).foldl (fun x k => x ||| (scan k).2) 0)
      (fun k => ((scan k).1.getD (posOf s k) none).getD s.shape.zero) ∧
    Writes (.vgred o) s (gredInfo s o) s.shape o.m o.vd (flagsOver (s.frame o.m) (fun k => (across k).2))
      (fun k => ((across k).1).getD s.shape.zero))

/-- Block-scaled quantising and dequantising, making and packing scale groups (R163 to R168). The block-scaled dot product and matrix step
(R169, R170): the chain of R72 over the blocks below the grant, element 0 or one element per row; the rest follow vtype.ta. With a grant
of 0 vmxmm writes nothing. -/
def Obligations.BlockScaling : Prop :=
  (∀ (s : State) (o : OpB),
    let d := s.hart.dev
    let vs1 := (srcReg o.src).toNat
    (∀ r ∈ [(Instr.vqE4m3, FFmt.e4m3), (Instr.vqE5m2, FFmt.e5m2), (Instr.vqE2m1, FFmt.e2m1)],
      let x := fun k => quantElem r.2 (d.blk != 0) d.rm d.sat (fpElem s o.vs2 k) (pairAt s vs1 k)
      Writes (r.1 o) s (quantInfo s o r.2) (convertShape s.shape r.2.width) o.m o.vd
        (flagsOver (s.frame o.m) (fun k => (x k).2)) (fun k => (x k).1)) ∧
    (let x := fun k => roundTo .fp32 (decodeScaled d.fp (s.elem o.vs2 k) (pairAt s vs1 k)) d.rm false
     Writes (.vdq o) s (dequantInfo s o) (convertShape s.shape 32) o.m o.vd
        (flagsOver (s.frame o.m) (fun k => (x k).2)) (fun k => (x k).1)) ∧
    (∀ q : OpU, WritesAll (.vsclmk q) s (sclmkInfo s q) (fieldShape s s.scaleGroup 16) q.vd
        (if (List.range d.vgrant.toNat).any (fun k => (fpElem s q.vs2 k).sigNan) then flNV else 0) (fun b =>
          if b < (d.vgrant.toNat + d.bl - 1) / d.bl then
            makePair ((sclTarget d).getD (.e4m3, 8)).1 ((sclTarget d).getD (.e4m3, 8)).2 d.rm (blockValues s q.vs2 b)
          else if d.ta then 0 else s.field q.vd.toNat s.scaleGroup 16 b)) ∧
    (let n := (s.shape.n + d.bl - 1) / d.bl
     WritesAll (.vpkscl o) s (pksclInfo s o) (fieldShape s 1 16) o.vd 0 (fun b =>
        if b < n then s.field o.vs2.toNat 1 16 b else if b < 2 * n then s.field vs1 1 16 (b - n)
        else if d.ta then 0 else s.field o.vd.toNat 1 16 b))) ∧
  (∀ (s : State) (o : OpB),
    let d := s.hart.dev
    let g := s.shape.g
    let vs1 := (srcReg o.src).toNat
    let vs2 := o.vs2.toNat
    let dot := dotLoop d.rm d.bl d.vgrant.toNat d.fp (s.frame o.m).on (s.elem o.vs2) (s.elem (srcReg o.src))
      (pairOf (d.blk == 0) (s.getGroup (vs2 + g) s.scaleGroup)) (pairOf (d.blk == 0) (s.getGroup (vs1 + g) s.scaleGroup))
      (s.field o.vd.toNat 1 32 0)
    let aScales := s.getGroup (vs2 + 8) (scaleRegs s.shape.vlen d.bl (8 * s.shape.vlen / s.shape.ew))
    let regs := regsFor s.shape.vlen (32 * mxmmRows s)
    let row := fun r => dotLoop d.rm d.bl d.vgrant.toNat d.fp (fun _ => true)
      (fun k => ({ s.shape with g := 8 } : Shape).get (s.getGroup vs2 8) (r * mxmmK d + k)) (s.elem (srcReg o.src))
      (fun b => pairOf (d.blk == 0) aScales (r * mxmmK d / d.bl + b))
      (pairOf (d.blk == 0) (s.getGroup (vs1 + g) s.scaleGroup)) (s.field o.vd.toNat regs 32 r)
    WritesAll (.vmxdot o) s (mxdotInfo s o) (fieldShape s 1 32) o.vd dot.2 (fun k =>
      if k = 0 then dot.1 else if d.ta then 0 else s.field o.vd.toNat 1 32 k) ∧
    (d.vgrant ≠ 0 → WritesAll (.vmxmm o) s (mxmmInfo s o) (fieldShape s regs 32) o.vd
      ((List.range (mxmmRows s)).foldl (fun f r => f ||| (row r).2) 0) (fun k =>
        if k < mxmmRows s then (row k).1 else if d.ta then 0 else s.field o.vd.toNat regs 32 k)) ∧
    (d.vgrant = 0 → s.plain → VecReady s (mxmmInfo s o) → Answers (exec (.vmxmm o) s) (fun t =>
      OnlyVector s t [] (mxmmInfo s o).charge (s.hart.vecDone 0))))

/-- The accumulator (R171 to R176): vacc.x reads cells, at once or when the port is free again; vacc.i writes or adds to them; vacc.z
zeroes rows; nothing of them while a kmma owns the rows (cause 26). -/
def Obligations.Accumulator : Prop :=
  ∀ s : State,
    (∀ o : OpD, let w := (s.xr (srcReg o.src)).toNat
      let fl := flagsOver (s.frame false) (fun k => (cellValue s w k).2)
      (accBusy (elemRows s w) s = none → portTaken s = false →
        Writes (.vaccX o) s (accXInfo s o) s.shape false o.vd fl (fun k => (cellValue s w k).1)) ∧
      (accBusy (elemRows s w) s = none → portTaken s = true → s.plain → s.sliced → VecReady s (accXInfo s o) →
        ∃ val, (∀ k, k < s.shape.n → s.shape.get val k =
            FrameRule s.hart.dev false 0 (s.elem o.vd k) s.shape.zero ((cellValue s w k).1 % 2 ^ s.shape.ew) k) ∧
          Answers (exec (.vaccX o) s) (fun t =>
            OnlyVector s { portsOf s t with agenda := s.agenda } [] (accXInfo s o).charge
              ((s.hart.loading o.vd.toNat s.shape.g val).vecDone (BitVec.ofNat 10 fl)) ∧
            (∀ m ∈ s.slicesOf s.cur.1 s.cur.2,
              (t.core m).portBusy = (s.core m).portBusy ++ [(s.cur.1, s.cur.2, o.vd.toNat)]) ∧
            t.agenda = s.agenda ++ [.vaccPerform s.cur.1])) ∧
      (∀ e, VecReady s (accXInfo s o) → accBusy (elemRows s w) s = some e →
        exec (.vaccX o) s = .next (takeException s e))) ∧
    (∀ vs2 rs1 : Reg, let w := (s.xr rs1).toNat
      s.plain → s.sliced → VecReady s (accIInfo s vs2 w) → accBusy (elemRows s w) s = none →
      Answers (exec (.vaccI vs2 rs1) s) (fun t =>
        OnlyAccumulator s t (accIInfo s vs2 w).charge
          (s.hart.vecDone (BitVec.ofNat 10 (cellRun s vs2 w (bitOf w 17)).2)) ∧
        ∀ m c, t.cell m c = (cellRun s vs2 w (bitOf w 17)).1 m c)) ∧
    (∀ rs1 : Reg, let w := (s.xr rs1).toNat
      let first := w % 128
      let count := w / 2 ^ 24 % 128 + 1
      s.plain → VecReady s (accZInfo w) → accBusy (fun _ r => decide (first ≤ r ∧ r < first + count)) s = none →
      Answers (exec (.vaccZ rs1) s) (fun t =>
        OnlyAccumulator s t (accZInfo w).charge (s.hart.vecDone 0) ∧
        ∀ m c, t.cell m c =
          if m ∈ s.slicesOf s.cur.1 s.cur.2 ∧ 192 * first ≤ c ∧ c < 192 * (first + count) then 0 else s.cell m c))

/-- Long floats: arithmetic, signs, lengths, conversions and compares (R177 to R180, Table 06-5). The precision trap of R64: where it
stops an instruction and what it leaves. -/
def Obligations.LongFloats : Prop :=
  (∀ s : State,
    let rm := s.hart.dev.vprecRm.toNat
    (∀ r ∈ lfRows, ∀ o : OpB, LfWrites (r.instr o) s (lfInfo s o r.weight r.third) o.m o.vd
      (fun k => r.exact rm (lfElem s o.vs2 k) (lfElem s (srcReg o.src) k) (lfElem s o.vd k))) ∧
    (∀ r ∈ lfRowsU, ∀ o : OpU, LfWrites (r.1 o) s (lfInfoU s r.2.1 o) o.m o.vd (fun k => r.2.2 (lfElem s o.vs2 k))) ∧
    (∀ o : OpB, LfWrites (.lfSgnj o) s (lfInfoB s 3 o) o.m o.vd
      (fun k => quieted (withSign (lfElem s o.vs2 k) ((s.elem (srcReg o.src) k).testBit 63)))) ∧
    (∀ o : OpS, LfWrites (.lfFromf o) s (lfFromInfo s o) o.m o.vd (fun k => quieted ((lfSelFmt o.sel.toNat).decode
      ((sideShape s.shape (lfSelFmt o.sel.toNat).width).get (s.getGroup o.vs2.toNat s.shape.g) k)))) ∧
    (∀ o : OpS, LfWrites (.lfFromx o) s (lfFromInfo s o) o.m o.vd (fun k =>
      let v := (sideShape s.shape 64).get (s.getGroup o.vs2.toNat s.shape.g) k
      (Ev.ofInt (if o.sel = 0 then (BitVec.ofNat 64 v).toInt else v), 0))) ∧
    (∀ o : OpS, let f := lfSelFmt o.sel.toNat
      let x := fun k => roundTo f (lfElem s o.vs2 k) rm (s.hart.dev.sat && f.width == 16)
      Writes (.lfTof o) s (lfToInfo s o) (sideShape s.shape f.width) o.m o.vd
        (flagsOver (s.frame o.m) (fun k => (x k).2)) (fun k => (x k).1)) ∧
    (∀ o : OpS, let x := fun k => roundToInt 64 (o.sel == 0) (lfElem s o.vs2 k) rm
      Writes (.lfTox o) s (lfToInfo s o) (sideShape s.shape 64) o.m o.vd
        (flagsOver (s.frame o.m) (fun k => (x k).2)) (fun k => (x k).1)) ∧
    (∀ r ∈ lfCmpRows, ∀ o : OpB, WritesMask (r.1 o) s (infoCmp s (lfOk s.hart.dev) 3 o) o.m o.vd
      (flagsOver (s.frame o.m) (fun k => cmpFlags r.2.2.2 (lfElem s o.vs2 k) (lfOperand s o.src k)))
      (fun k => cmpValue r.2.1 r.2.2.1 (lfElem s o.vs2 k) (lfOperand s o.src k)))) ∧
  (∀ s : State,
    let rm := s.hart.dev.vprecRm.toNat
    (∀ r ∈ lfRows, ∀ o : OpB, LfStops (r.instr o) s (lfInfo s o r.weight r.third) o.m o.vd
      (fun k => r.exact rm (lfElem s o.vs2 k) (lfElem s (srcReg o.src) k) (lfElem s o.vd k))) ∧
    (∀ r ∈ lfRowsU, ∀ o : OpU, LfStops (r.1 o) s (lfInfoU s r.2.1 o) o.m o.vd (fun k => r.2.2 (lfElem s o.vs2 k))))

/-- The bundle instructions: set-up, coverage, ray tests, blending, packing, reservoirs (R245 to R251, R255 to R259). -/
def Obligations.Bundles : Prop :=
  ∀ (s : State) (o : OpB) (q : OpU),
    let second := srcReg o.src
    let sixty := fun (r : Reg) k j => toInt 64 (s.bundle s.shape r.toNat k j)
    let half := fun (r : Reg) k j => FFmt.fp16.decode (s.bundle s.shape r.toNat k j)
    WritesBundle (.gsetup q) s (setupInfo s q) q.m q.vd 10 0 (fun k j =>
      ofInt 64 ((setupOf ((List.range 6).map (sixty q.vs2 k))).getD j 0)) ∧
    WritesBundle (.gcov o) s (covInfo s o) o.m o.vd 1 0 (fun k _ =>
      coverage [sixty o.vs2 k 0, sixty o.vs2 k 1, sixty o.vs2 k 2] [sixty o.vs2 k 3, sixty o.vs2 k 4, sixty o.vs2 k 5]
        [sixty o.vs2 k 6, sixty o.vs2 k 7, sixty o.vs2 k 8] (s.xr second).toNat) ∧
    WritesBundle (.gbox o) s (boxInfo s o) o.m o.vd 2 0 (fun k j =>
      hitCode s (boxHit (rayField s o.vs2 k) (rayField s second k)) k j (if j = 0 then 2 else 3)
        (if j = 0 then 0x7F800000 else 0xFF800000)) ∧
    WritesBundle (.gtri o) s (triInfo s o) o.m o.vd 3 0 (fun k j =>
      hitCode s (triHit (rayField s o.vs2 k) (rayField s second k)) k j 0 (if j = 0 then 0x7F800000 else 0)) ∧
    (let x := fun k j => blendElem s.hart.dev.rm (half o.vs2 k) (half second k) ((s.bundle s.shape o.vs2.toNat k 4).testBit 0) j
     WritesBundle (.gblend o) s (blendInfo s o) o.m o.vd 4
      ((List.range 4).foldl (fun f j => f ||| flagsOver (s.frame o.m) (fun k => (x k j).2)) 0) (fun k j => (x k j).1)) ∧
    Writes (.gpack q) s (packInfo s q) (fieldShape s 2 32) q.m q.vd 0 (fun k =>
      packByte (half q.vs2 k 0) + packByte (half q.vs2 k 1) * 2 ^ 8 + packByte (half q.vs2 k 2) * 2 ^ 16 +
        packByte (half q.vs2 k 3) * 2 ^ 24) ∧
    (∀ r ∈ [(Instr.grsvUpd, rsvUpd), (Instr.grsvMrg, rsvMrg)],
      WritesBundle (r.1 o) s (rsvInfo s o) o.m o.vd 2 0 (fun k j =>
        r.2 s.hart.dev.rsvcap.toNat (s.bundle s.shape o.vd.toNat k 0 + s.bundle s.shape o.vd.toNat k 1 * 2 ^ 64)
          (s.bundle s.shape o.vs2.toNat k 0 + s.bundle s.shape o.vs2.toNat k 1 * 2 ^ 64)
          (s.bundle s.shape second.toNat k 0 % 2 ^ 32) / 2 ^ (64 * j)))

/-- gtex from plain memory (R252 to R254): the descriptor is read at x[rs1], each active element's colour is the filtered sample; the
bundle lands later as a load's does. Segment distances and top-k lists (R260 to R263). A list that holds a NaN has no stated order (log
5). -/
def Obligations.TextureAndSearch : Prop :=
  (∀ (s : State) (o : OpB) (ws : List Word),
    let a := (s.xr (srcReg o.src)).toNat
    let t := Tex.ofWords (wordAt ws 0).toNat (wordAt ws 1).toNat
    let coord := fun k j => rayField s o.vs2 k j
    s.plain → s.sliced → VecReady s (texInfo s o) → a % 64 = 0 → texAt s a ws → t.ok ws = true →
    (∀ k, (s.frame o.m).on k = true → ∀ tap ∈ (t.taps (coord k 0) (coord k 1) (coord k 2)).1, tapOk s t tap) →
    ∃ val, (∀ j, j < 4 → ∀ k, k < s.shape.n → s.shape.get (val / 2 ^ (j * s.hart.vlen) % 2 ^ s.hart.vlen) k =
        FrameRule s.hart.dev o.m (s.getV 0) (s.shape.get (s.getV (o.vd.toNat + j)) k) 0
          (texChannel s t (coord k 0) (coord k 1) (coord k 2) k j) k) ∧
      Answers (exec (.gtex o) s) (fun t' => OnlyLoad s { t' with fresh := s.fresh } o.vd.toNat 4 val (texInfo s o).charge)) ∧
  (∀ (s : State) (o : OpB) (q : OpU),
    let d := s.hart.dev
    let count := d.vgrant.toNat / d.vdsl.toNat
    let on := fun c => !o.m || (s.getV 0).testBit c
    (∀ r ∈ [(Instr.vdsegL2, true), (Instr.vdsegIp, false)],
      let score := fun c => segResult d.rm (segScore r.2 ((List.range d.vdsl.toNat).map (fun j =>
        (fpElem s o.vs2 (c * d.vdsl.toNat + j), fpElem s (srcReg o.src) j))))
      WritesAll (r.1 o) s (segInfo s o) (fieldShape s (segRegs s) 32) o.vd
        ((List.range count).foldl (fun f c => if on c then f ||| (score c).2 else f) 0) (fun c =>
          if c < count then (if on c then (score c).1 else if d.ma then 0 else s.field o.vd.toNat (segRegs s) 32 c)
          else if d.ta then 0 else s.field o.vd.toNat (segRegs s) 32 c)) ∧
    (let cands := (List.range d.vgrant.toNat).map (fun k => (s.elem o.vs2 k, s.elem (srcReg o.src) k))
     (d.vgrant ≠ 0 → KeepsTop (.vtopk o) s (topkInfo s o) o.vd (listOf s o.vd.toNat) cands (!(listOf s o.vd.toNat).any scoreNan)) ∧
     (d.vgrant = 0 → s.plain → VecReady s (topkInfo s o) → Answers (exec (.vtopk o) s) (fun t =>
       OnlyVector s t [] (topkInfo s o).charge (s.hart.vecDone 0)))) ∧
    KeepsTop (.vtopkM q) s (mergeTopInfo s q) q.vd (listOf s q.vd.toNat) (listOf s q.vs2.toNat)
      (!((listOf s q.vd.toNat).any scoreNan || (listOf s q.vs2.toNat).any scoreNan)))

/-- The loads of R105 to R110 from plain memory: the destination is empty until the completion event lands the elements. -/
def Obligations.VectorLoads : Prop :=
  ∀ r ∈ loadRows, ∀ (s : State) (o : OpM) (value : Nat → Nat),
    let m := memShape s.hart o.width.toNat
    s.plain → s.sliced → VecReady s (memInfo s o r.2 true) →
    (∀ k ∈ accessed s o, elemReads s m (elemAddr s m r.2 o k) k (value k)) →
    ∃ val, (∀ k, k < m.sh.n → m.sh.get val k =
        FrameRule s.hart.dev o.m (s.getV 0) (m.sh.get (s.getGroup o.v.toNat m.sh.g) k) m.sh.zero (value k) k) ∧
      Answers (exec (r.1 o) s) (fun t => OnlyLoad s t o.v.toNat m.sh.g val (memInfo s o r.2 true).charge)

/-- Where a load's element i faults (R109): the elements below it are loaded, the others kept, vstart = i, and the exception is taken. A
first-fault load does so only at its first active element, at an odd nibble that leaves none, or in device-class memory (R110). A
first-fault load whose element i above the first faults in memory that is not of device class (R110): the grant becomes i, or i − 1 where
nibbles are counted and i is odd, the pointers fall back with it, and the elements below load. -/
def Obligations.LoadFaults : Prop :=
  (∀ r ∈ loadRows, ∀ (s : State) (o : OpM) (value : Nat → Nat) (i : Nat) (e : Exc),
    let m := memShape s.hart o.width.toNat
    s.sliced → VecReady s (memInfo s o r.2 true) → i ∈ accessed s o →
    (∀ k ∈ accessed s o, k < i → elemReads s m (elemAddr s m r.2 o k) k (value k)) →
    elemFaults s m .load (elemAddr s m r.2 o i) e →
    ((r.1 o = .vld o ∨ r.1 o = .vlds o ∨ r.1 o = .vldx o) ∨ (accessed s o).headD 0 = i) →
    ∃ u, exec (r.1 o) s = .next (takeException u e) ∧ u.hart = { s.hart with
        v := u.hart.v, dev := { s.hart.dev with vstart := BitVec.ofNat 16 i } } ∧
      SameBytes s u ∧ loadedBelow s u o value i) ∧
  (∀ r ∈ [(Instr.vldff, MemMode.unit), (Instr.vldxff, MemMode.indexed)],
  ∀ (s : State) (o : OpM) (value : Nat → Nat) (i : Nat) (e : Exc),
    let m := memShape s.hart o.width.toNat
    let cut := if m.nib || nibbleSlot s.hart.dev.ptrmap then i - i % 2 else i
    s.plain → s.sliced → VecReady s (memInfo s o r.2 true) → i ∈ accessed s o → (accessed s o).headD 0 < cut →
    (∀ k ∈ accessed s o, k < i → elemReads s m (elemAddr s m r.2 o k) k (value k)) →
    elemFaults s m .load (elemAddr s m r.2 o i) e →
    isDevice s s.hart.dataXlat .load (elemAddr s m r.2 o i) = false →
    (truncate s cut).hart.dev.vgrant = BitVec.ofNat 16 cut ∧
    ∃ val, (∀ k, k < m.sh.n → m.sh.get val k = FrameRule { s.hart.dev with vgrant := BitVec.ofNat 16 cut } o.m (s.getV 0)
        (m.sh.get (s.getGroup o.v.toNat m.sh.g) k) m.sh.zero (value k) k) ∧
      Answers (exec (r.1 o) s) (fun t => OnlyLoad (truncate s cut) t o.v.toNat m.sh.g val (memInfo s o r.2 true).charge))

/-- The stores of R105 to R111 to plain memory: the active elements in order, and no other byte. -/
def Obligations.VectorStores : Prop :=
  ∀ r ∈ storeRows, ∀ (s : State) (o : OpM) (ps : List (Nat × Nat × Nat)),
    let m := memShape s.hart o.width.toNat
    let info := memInfo s o r.2 false
    s.plain → s.sliced → VecReady s info → (∀ k ∈ accessed s o, m.misaligned (elemAddr s m r.2 o k) = false) →
    PiecesAt s s.hart.dataXlat ((accessed s o).map (fun k =>
      elemPieces m (elemAddr s m r.2 o k) k (m.sh.get (s.getGroup o.v.toNat m.sh.g) k))).flatten s ps →
    Answers (exec (r.1 o) s) (fun t => Stored s t ps ∧ OnlyWrite (s.chargeGate info.charge) t (s.hart.vecDone 0))

/-- vldr and vstr (R113): the words from vstart up to VLEN, whatever vtype; a base that is no multiple of 64 raises cause 4 or 6. -/
def Obligations.WholeRegisters : Prop :=
  ∀ (s : State) (o : OpDS),
    let base := (s.xr o.rs1).toNat
    (∀ value : Nat → Word, s.plain → VecReady s (vldrInfo s o) → base % 64 = 0 →
      (∀ w ∈ wordsLeft s, ∃ p, PlainRead s s.hart.dataXlat (wrapAddr (base + 8 * w)) 8 p ∧ s.peek p.pa 8 = (value w).toNat) →
      ∃ val, (∀ w, w < s.hart.vlen / 64 → val / 2 ^ (64 * w) % 2 ^ 64 =
          if s.hart.dev.vstart.toNat ≤ w then (value w).toNat else s.field o.d.toNat 1 64 w) ∧
        Answers (exec (.vldr o) s) (fun t => OnlyLoad s t o.d.toNat 1 val (vldrInfo s o).charge)) ∧
    (∀ ps, s.plain → VecReady s (vstrInfo s o) → base % 64 = 0 →
      PiecesAt s s.hart.dataXlat ((wordsLeft s).map (fun w =>
        ⟨wrapAddr (base + 8 * w), 8, false, fun _ => s.field o.d.toNat 1 64 w⟩)) s ps →
      Answers (exec (.vstr o) s) (fun t => Stored s t ps ∧ OnlyWrite (s.chargeGate (vstrInfo s o).charge) t (s.hart.vecDone 0))) ∧
    (VecReady s (vldrInfo s o) → base % 64 ≠ 0 → ∃ u, exec (.vldr o) s = .next (takeException u { cause := 4, tval := base }) ∧
      u.hart = { s.hart with dev := { s.hart.dev with vstart := 0 } }) ∧
    (VecReady s (vstrInfo s o) → base % 64 ≠ 0 → ∃ u, exec (.vstr o) s = .next (takeException u { cause := 6, tval := base }) ∧
      u.hart = { s.hart with dev := { s.hart.dev with vstart := 0 } })

/-- vcfg and vcfgi (R43, R103): a legal value becomes vtype and clamps the grant, any other leaves vill and a grant of 0; rd takes the
grant. vstrip and vstrip.k (R34, R102): the length and the elements granted (under vill the grant is 0, R33; that the length is
granted there too is the model's reading, log 36), the pointers, the grant in vgrant and rd, and zeros in every register from the new
length up to the old. In a loop's body, and with a pointer slot of a reserved size, they are illegal. A vstrip with a reclaim pending, and vrel, release the clusters beyond the reclaim's (R34, R243, R308): the class and the clusters of each member fall, interrupt
16 is withdrawn, and the visible registers keep their values. -/
def Obligations.VectorConfiguration : Prop :=
  (∀ (s : State) (o : OpDS),
    (s.plain → ∀ v : Nat, ∀ i ∈ [(Instr.vcfg o, (s.xr o.rs1).toNat, o.d), (Instr.vcfgi o.d (BitVec.ofNat 14 v), v % 2 ^ 14, o.d)],
      let h := vtypeWritten s.hart i.2.1
      CompletesWith (exec i.1 s) s (h.setX i.2.2 (h.dev.vgrant.zeroExtend 64))) ∧
    (∀ r ∈ [(Instr.vstrip o, false), (Instr.vstripK o, true)],
      (s.plain → badSlot s.hart.dev.ptrmap = false → (r.2 || !s.hart.dev.reclPend) = true → s.sliced →
        let len := lengthGranted s r.2
        let g := if s.hart.dev.vill then 0 else elementsGranted s (s.xr o.rs1).toNat len
        let h := pointersMoved (shortened s.hart len) g
        Answers (exec r.1 s) (fun t =>
          OnlyRegisters s t ((({ h with dev := { h.dev with vgrant := BitVec.ofNat 16 g } } : Ctx).setX o.d (BitVec.ofNat 64 g)).completed) ∧
          ∀ q, t.rawV s.cur.1 s.cur.2 q % 2 ^ s.hart.vlen = s.getV q % 2 ^ len ∧
            t.rawV s.cur.1 s.cur.2 q / 2 ^ s.hart.vlen = s.rawV s.cur.1 s.cur.2 q / 2 ^ s.hart.vlen)) ∧
      (badSlot s.hart.dev.ptrmap = true → exec r.1 s = finish (illegal s)) ∧
      (inBody s = true → exec r.1 s = finish (illegal s)))) ∧
  (∀ (s : State), s.sliced → s.cur.1 ∈ s.slicesOf s.cur.1 s.cur.2 →
    let n := reclClusters s.hart.dev.reclClass
    let u := releaseReclaim s s.cur.1 s.cur.2
    u.hart.cls = min s.hart.cls n ∧ u.hart.dev = { s.hart.dev with reclPend := false } ∧
    u.hart.std = { s.hart.std with mip := s.hart.std.mip &&& ~~~(1#64 <<< 16) } ∧ u.hart.x = s.hart.x ∧ u.mem = s.mem ∧
    (s.hart.vlen ≤ 512 * min s.hart.cls n * s.members → ∀ r, u.getV r = s.getV r) ∧
    ∀ o : OpDS, s.plain → badSlot s.hart.dev.ptrmap = false → s.hart.dev.reclPend = true →
      Answers (exec (.vstrip o) s) (fun t => t.hart.dev.reclPend = false ∧ t.hart.cls = min s.hart.cls n ∧
        t.hart.vlen = lengthGranted s false ∧ t.mem = s.mem ∧
        ∀ r, t.getV r = s.rawV s.cur.1 s.cur.2 r % 2 ^ lengthGranted s false))

/-- vbind, vunbind and vbend (R114, R115, R120) outside a loop's body. -/
def Obligations.Bindings : Prop :=
  ∀ (s : State), s.plain →
    (∀ (o : OpDS) (ws : List Word),
      let a := (s.xr o.rs1).toNat
      let b : Binding := { reg := o.d.toNat, word0 := wordAt ws 0, word1 := wordAt ws 1,
                           nest := SMap.get {} s.myCore.nests ((wordAt ws 1).toNat / 2 ^ 5 % 32), since := s.past.length }
      o.d ≠ 0 → s.hart.landing.any (fun l => decide (l.vd ≤ o.d.toNat) && decide (o.d.toNat < l.vd + l.count)) = false → a % 8 = 0 →
      ws.length = 4 → wordsRead s s.hart.dataXlat a ws → descBad (wordAt ws 0) (wordAt ws 1) (wordAt ws 2) (wordAt ws 3) = false →
      channelBad s s.cur.1 s.cur.2 b = false → (s.hart.binds.filter (fun c => c.reg != o.d.toNat)).length < 8 →
      Answers (exec (.vbind o) s) (fun t =>
        if b.kind = 0 then
          OnlyRead s { t with agenda := s.agenda }
            (withBinding s.hart { b with refill := some ((withBinding s.hart b).chunkLen b), resident := none }).completed ∧
          t.agenda = s.agenda ++ [.boundRefillLand s.cur.1 s.cur.2 o.d]
        else OnlyRead s t (withBinding s.hart b).completed)) ∧
    (∀ vd : Reg, vd ≠ 0 → CompletesWith (exec (.vunbind vd) s) s (match s.hart.binding vd.toNat with
      | some _ => ({ s.hart with binds := s.hart.binds.filter (fun c => c.reg != vd.toNat) } : Ctx).setFull vd.toNat true
      | none => s.hart)) ∧
    Answers (exec (.vunbind 0) s) (fun t => t.hart.binds = [] ∧ SameBytes s t ∧
      t.hart = { s.hart.completed with binds := [], full := t.hart.full } ∧ t = { s with cores := t.cores } ∧
      ∀ r, t.hart.isFull r = (s.hart.isFull r || s.hart.binds.any (fun b => b.reg % 32 == r % 32))) ∧
    (∀ rd vd : Reg, CompletesWith (exec (.vbend rd vd) s) s (s.hart.setX rd (match s.hart.binding vd.toNat with
      | some b => if b.ended then 1 else 0
      | none => 0)))

/-- vnest (R122): the body's words are captured and the loop begins; with a grant of 0 the body is passed over; in a body, under vill,
with a nest number above 31, or with a word that may not stand in a body, it is illegal. An instruction that completes inside a loop's
body (R122): the next body instruction; at the body's end the next iteration, with j0 advanced by the grant inside the i0 row, else the
next row; after the last row the instruction after the body. -/
def Obligations.LoopBuffer : Prop :=
  (∀ (s : State) (rs1 : Reg) (len1 : BitVec 4) (ws : List (BitVec 32)),
    let n := len1.toNat + 1
    let r := (s.xr rs1).toNat
    (s.plain → s.hart.dev.vill = false → r < 32 → ∀ u, captureBody s (s.hart.pc + 4) n = .done (ws, u) →
      (ws.all bodyOk = true → OnlyTags s { u with fresh := s.fresh } ∧ Answers (exec (.vnest rs1 len1) s) (fun t => OnlyHart u t
        (if s.hart.dev.vgrant = 0 then s.hart.jumped (s.hart.pc + 4 + BitVec.ofNat 64 (4 * n))
         else ({ s.hart with loop := { active := true, base := s.hart.pc, len := n, nestReg := r, words := ws,
                                        counts := (SMap.get {} s.myCore.nests r : Nest).counts } } : Ctx).jumped (s.hart.pc + 4)))) ∧
      (ws.all bodyOk = false → exec (.vnest rs1 len1) s = finish (illegal s))) ∧
    (inBody s = true ∨ s.hart.dev.vill = true ∨ 31 < r → exec (.vnest rs1 len1) s = finish (illegal s))) ∧
  (∀ s : State, let l := s.hart.loop
    l.active = true → l.suspended = false →
    (l.pos + 1 < l.len → s.nextPc.hart.loop = { l with pos := l.pos + 1 } ∧
      s.nextPc.hart.pc = l.base + BitVec.ofNat 64 (4 + 4 * (l.pos + 1))) ∧
    (l.len ≤ l.pos + 1 →
      (0 < s.hart.dev.vgrant.toNat → l.j0 + s.hart.dev.vgrant.toNat < l.counts.getD 0 1 →
        s.nextPc.hart.loop = { l with pos := 0, j0 := l.j0 + s.hart.dev.vgrant.toNat, iter := l.iter + 1 } ∧
        s.nextPc.hart.pc = l.base + 4) ∧
      (s.hart.dev.vgrant.toNat = 0 ∨ l.counts.getD 0 1 ≤ l.j0 + s.hart.dev.vgrant.toNat → l.row + 1 < l.rows →
        s.nextPc.hart.loop = { l with pos := 0, j0 := 0, row := l.row + 1, iter := l.iter + 1 } ∧ s.nextPc.hart.pc = l.base + 4) ∧
      (s.hart.dev.vgrant.toNat = 0 ∨ l.counts.getD 0 1 ≤ l.j0 + s.hart.dev.vgrant.toNat → l.rows ≤ l.row + 1 →
        s.nextPc.hart.loop.active = false ∧ s.nextPc.hart.pc = s.hart.pc + 4)))

/-- vctxs stores the context block at x[rs1] and vctxl restores one from there (R124 to R126), below user mode only. -/
def Obligations.ContextBlocks : Prop :=
  ∀ (s : State) (rs1 : Reg),
    let a := (s.xr rs1).toNat
    let block := blockWords s s.cur.1 s.cur.2
    (∀ ps, s.plain → s.hart.priv ≠ .U → s.hart.busyVector = false → a % 64 = 0 →
      PiecesAt s s.hart.dataXlat ((List.range block.length).map (fun j =>
        ⟨wrapAddr (a + 8 * j), 8, false, fun _ => (wordAt block j).toNat⟩)) s ps →
      Answers (exec (.vctxs rs1) s) (fun t => Stored s t ps ∧ OnlyWrite s { t with nestSaves := s.nestSaves } s.hart.completed)) ∧
    (∀ b u, s.plain → s.hart.priv ≠ .U → s.hart.landing = [] → readBlock s s.cur.1 s.cur.2 s.hart.dataXlat a = .done (some b, u) →
      let d := s.hart.dev.restore b.head
      let vg := if d.vill then d.vgrant else BitVec.ofNat 16 (min d.vgrant.toNat (b.len / 512 * (d.grp * 512 / d.ew)))
      Answers (exec (.vctxl rs1) s) (fun t =>
        t.hart.vlen = b.len ∧ t.hart.dev = { d with vgrant := vg } ∧ t.hart.x = s.hart.x ∧ t.hart.pc = s.hart.pc + 4 ∧
        t.hart.loop = restoredLoop u s.cur.1 (wordAt b.head 10) (wordAt b.head 11) vg.toNat ∧
        t.hart.binds.map (fun q => q.reg) = b.recs.map (fun q => (wordAt q.words 4).toNat % 32) ∧
        (b.recs = [] → t.hart.full = BitVec.ofNat 32 (wordAt b.head 9).toNat) ∧ SameBytes s t ∧
        (s.sliced → ∀ r, r < 32 →
          t.getV r = ofWords ((b.regs.drop (r * (b.len / 64))).take (b.len / 64)) % 2 ^ b.len))) ∧
    (inBody s = true ∨ s.hart.priv = .U → exec (.vctxs rs1) s = finish (illegal s) ∧ exec (.vctxl rs1) s = finish (illegal s))

/-- The completion events of custom-1: a load's value lands and its registers are full (R37); a refill lands the chunk of its binding
(R117); a chunk of a channel is deposited into its empty register (R119). -/
def Obligations.Landings : Prop :=
  ∀ (s : State) (c x : Nat) (vd : Reg),
    (∀ l, (s.thr c x).landing.find? (fun l => l.vd == vd.toNat) = some l → (s.slicesOf c x).Nodup → (s.thr c x).cls ≤ 4 →
      l.vlen ≤ s.hwLen c x → l.count ≤ 32 →
      Answers (exec (.vectorLoadComplete c x vd) s) (fun t =>
        (∀ j, j < l.count → t.rawV c x (vd.toNat + j) % 2 ^ l.vlen = l.val / 2 ^ (j * l.vlen) % 2 ^ l.vlen ∧
          (t.thr c x).isFull (vd.toNat + j) = true) ∧
        (∀ r, r % 32 ∉ groupRegs vd.toNat l.count → t.rawV c x r = s.rawV c x r ∧ (t.thr c x).isFull r = (s.thr c x).isFull r) ∧
        (t.thr c x).landing = (s.thr c x).landing.erase l ∧ SameBytes s t ∧ t = { s with cores := t.cores })) ∧
    (∀ b len v, (s.thr c x).binding vd.toNat = some b → b.refill = some len → (∃ u, readPoints s s c x b len b.pos = .done (v, u)) →
      (s.slicesOf c x).Nodup → (s.thr c x).cls ≤ 4 → (s.thr c x).vlen ≤ s.hwLen c x →
      Answers (exec (.boundRefillLand c x vd) s) (fun t =>
        (t.thr c x).binding vd.toNat = some { b with refill := none, resident := some len } ∧
        (t.thr c x).isFull vd.toNat = true ∧ t.rawV c x vd.toNat % 2 ^ (s.thr c x).vlen = v % 2 ^ (s.thr c x).vlen ∧
        SameBytes s t ∧ t = { aside s t with cores := t.cores, fresh := t.fresh })) ∧
    (∀ b ch rest, (s.thr c x).binding vd.toNat = some b → b.kind = 2 → b.staged = ch :: rest → (s.thr c x).isFull vd.toNat = false →
      (s.slicesOf c x).Nodup → (s.thr c x).cls ≤ 4 → (s.thr c x).vlen ≤ s.hwLen c x →
      let keep := min ch.len (min (s.thr c x).vlmax ((s.thr c x).vlen / b.ew))
      Answers (exec (.channelChunkDeposit c x vd) s) (fun t =>
        (t.thr c x).binding vd.toNat = some { b with staged := rest, resident := some keep } ∧
        (t.thr c x).isFull vd.toNat = true ∧
        t.rawV c x vd.toNat % 2 ^ (s.thr c x).vlen = ch.data % 2 ^ (keep * b.ew) % 2 ^ (s.thr c x).vlen ∧
        SameBytes s t ∧ t = { s with cores := t.cores }))

/-- The integer instructions of RV64IM (R73): the result in rd, x0 left zero, and nothing else changed. Jumps and branches (R73): the
link, the target, and a taken target that is no multiple of 4 raises cause 0 at the jump with nothing written (Table 03-1). -/
def Obligations.BaseIntegerAndControl : Prop :=
  (∀ s : State, s.plain →
    let done := fun (b : Base) (rd : Reg) (w : Word) => CompletesWith (exec (.baseInstruction b) s) s (s.hart.setX rd w)
    (∀ rd imm, done (.lui rd imm) rd ((imm ++ 0#12).signExtend 64)) ∧
    (∀ rd imm, done (.auipc rd imm) rd (s.hart.pc + (imm ++ 0#12).signExtend 64)) ∧
    (∀ op rd rs1 imm, done (.opImm op rd rs1 imm) rd (immResult op (s.xr rs1) imm)) ∧
    (∀ op rd rs1 imm, done (.opImmW op rd rs1 imm) rd (immResultW op (s.xr rs1) imm)) ∧
    (∀ op rd rs1 rs2, done (.op op rd rs1 rs2) rd (regResult op (s.xr rs1) (s.xr rs2))) ∧
    (∀ op rd rs1 rs2, done (.opW op rd rs1 rs2) rd (regResultW op (s.xr rs1) (s.xr rs2)))) ∧
  (∀ (s : State) (rd rs1 rs2 : Reg),
    let pc := s.hart.pc
    let goes := fun (b : Base) (link : Reg) (t : Word) =>
      (t.toNat % 4 = 0 → Answers (exec (.baseInstruction b) s) (fun u => OnlyHart s u ((s.hart.setX link (pc + 4)).jumped t))) ∧
      (t.toNat % 4 ≠ 0 → exec (.baseInstruction b) s = .next (takeException s { cause := 0, tval := t.toNat }))
    (∀ imm, goes (.jal rd imm) rd (target pc imm)) ∧
    (∀ imm, goes (.jalr rd rs1 imm) rd ((s.xr rs1 + imm.signExtend 64) &&& ~~~1#64)) ∧
    (∀ c imm, (branchTaken c (s.xr rs1) (s.xr rs2) → goes (.branch c rs1 rs2 imm) 0 (target pc imm)) ∧
      (¬ branchTaken c (s.xr rs1) (s.xr rs2) → s.plain → CompletesWith (exec (.baseInstruction (.branch c rs1 rs2 imm)) s) s s.hart)))

/-- Scalar loads and stores of plain memory inside one 128-byte line, and cause 4 or 6 where the bytes cross one (Table 03-1). A run of
words read from or written to plain memory past the stash, as the instructions of chapter 08 make them (R327, Table 13-1). -/
def Obligations.ScalarAccesses : Prop :=
  (∀ s : State, s.plain →
    (∀ (o : OpLoad) (p : PAddr),
      let a := scalarAddr s o.rs1 o.imm
      let n := accessBytes o.width
      (a % 128 + n ≤ 128 → PlainRead s s.hart.dataXlat a n p → Answers (exec (.load o) s) (fun t =>
        OnlyRead s t (s.hart.setX o.rd (extended o.unsigned n (s.peek p.pa n))).completed)) ∧
      (128 < a % 128 + n → exec (.load o) s = .next (takeException s { cause := 4, tval := a }))) ∧
    (∀ (o : OpStore) (p : PAddr),
      let a := scalarAddr s o.rs1 o.imm
      let n := accessBytes o.width
      (a % 128 + n ≤ 128 → PlainWrite s s.hart.dataXlat a n p → Answers (exec (.store o) s) (fun t =>
        Stored s t [(p.pa, n, (s.xr o.rs2).toNat)] ∧ OnlyWrite s t s.hart.completed)) ∧
      (128 < a % 128 + n → exec (.store o) s = .next (takeException s { cause := 6, tval := a })))) ∧
  (∀ (s : State) (x : Xlat) (a : Nat) (ws : List Word),
    (wordsRun x s a ws → ∃ u, plainWords s x a ws.length = .done (ws, u) ∧ OnlyTags s u) ∧
    (∀ ps, putsRun x s a ws ps → ∃ u, plainPut s x a ws = .done u ∧ Stored s u ps ∧ OnlyWrite s u s.hart))

/-- LR, SC and the AMOs on plain memory (R345, R346, Table 12-3); a misaligned address raises cause 6, device-class memory 5 or 7 for LR
and SC. Fences, wfi and sfence.vma (R334, R353, Table 03-1): they change no register and no memory; after sfence.vma no TLB holds a
translation it names, and no replica is left (R321). wfi waits for an enabled pending
interrupt; in user mode, or where mstatus.TW or TVM forbids them in supervisor mode, wfi and sfence.vma are illegal. -/
def Obligations.AtomicsAndFences : Prop :=
  (∀ (s : State) (o : OpAmo) (p : PAddr), s.plain →
    let a := (s.xr o.rs1).toNat
    let n := if o.wide then 8 else 4
    let x := s.hart.dataXlat
    let operand := (s.xr o.rs2).toNat
    (a % n = 0 → PlainRead s x a n p → p.cls ≠ .io → Answers (exec (.lr o) s) (fun t =>
      OnlyRead s t (({ s.hart with resv := some (p.pa / 128) } : Ctx).setX o.rd (extended false n (s.peek p.pa n))).completed)) ∧
    (a % n = 0 → PlainWrite s x a n p → p.cls ≠ .io →
      (s.hart.resv = some (p.pa / 128) → Answers (exec (.sc o) s) (fun t => Stored s t [(p.pa, n, operand)] ∧
        OnlyWrite s t (({ s.hart with resv := none } : Ctx).setX o.rd 0).completed)) ∧
      (s.hart.resv ≠ some (p.pa / 128) → CompletesWith (exec (.sc o) s) s (({ s.hart with resv := none } : Ctx).setX o.rd 1))) ∧
    (∀ f, a % n = 0 → PlainWrite s x a n p → s.badIn p.pa n = none → s.blocked s.cur.1 s.cur.2 .R p.pa n = false →
      let old := BitVec.ofNat (8 * n) (s.peek p.pa n)
      Answers (exec (.amo f o) s) (fun t =>
        Stored s t [(p.pa, n, (amoResult f (8 * n) old (BitVec.ofNat (8 * n) operand)).toNat)] ∧
        OnlyWrite s t (s.hart.setX o.rd (old.signExtend 64)).completed)) ∧
    (a % n ≠ 0 → ∀ i, i = Instr.lr o ∨ i = .sc o ∨ (∃ f, i = .amo f o) →
      exec i s = .next (takeException s { cause := 6, tval := a })) ∧
    (a % n = 0 → translate s x .load a = .done p → p.cls = .io → exec (.lr o) s = .next (takeException s { cause := 5, tval := a })) ∧
    (a % n = 0 → translate s x .store a = .done p → p.cls = .io → exec (.sc o) s = .next (takeException s { cause := 7, tval := a }))) ∧
  (∀ s : State, s.plain →
    (∀ o, Answers (exec (.fence o) s) (fun t => OnlyRead s t s.hart.completed)) ∧
    (∀ o, Answers (exec (.fenceTso o) s) (fun t => OnlyRead s t s.hart.completed)) ∧
    (∀ rd rs1 imm, CompletesWith (exec (.fenceI rd rs1 imm) s) s { s.hart with fetchSync := s.past.length }) ∧
    (∀ rs1 rs2, let asid := if rs2 = 0 then none else some ((s.xr rs2).toNat % 65536)
      let named := fun (e : TlbEntry) => (rs2 = 0 ∨ (e.asid = (s.xr rs2).toNat % 65536 ∧ e.isGlobal = false)) ∧
        (rs1 = 0 ∨ e.base / 2 ^ e.size = (s.xr rs1).toNat / 2 ^ e.size)
      let refused := s.hart.priv = .U ∨ (s.hart.priv = .S ∧ s.hart.std.mstatus.getLsbD 20 = true)
      (¬ refused → fencedWindows s asid = [] → Answers (exec (.sfenceVma rs1 rs2) s) (fun t => OnlyRead s t s.hart.completed ∧
        (∀ e, e ∈ t.copies.tlb ↔ e ∈ s.copies.tlb ∧ ¬ named e) ∧ t.copies.replicas = [] ∧ ∀ l ∈ t.copies.l1, l.replica = false)) ∧
      (¬ refused → (∃ w ∈ fencedWindows s asid, w.2.2.writing = true) → exec (.sfenceVma rs1 rs2) s = .next s) ∧
      (refused → exec (.sfenceVma rs1 rs2) s = finish (illegal s))) ∧
    (let refused := s.hart.priv = .U ∨ (s.hart.priv = .S ∧ s.hart.std.mstatus.getLsbD 21 = true)
     (¬ refused → s.intPending s.cur.1 s.cur.2 = true → CompletesWith (exec .wfi s) s { s.hart with wfi := false }) ∧
     (¬ refused → s.intPending s.cur.1 s.cur.2 = false →
       exec .wfi s = .next (s.modHart (fun h => { h with wfi := true }))) ∧
     (refused → exec .wfi s = finish (illegal s))))

/-- ecall, ebreak, mret and sret (R73, R211, R215): the exceptions, and what a return restores. -/
def Obligations.SystemCallsAndReturns : Prop :=
  ∀ s : State,
    exec .ecall s = .next (takeException s { cause := 8 + (match s.hart.priv with | .U => 0 | .S => 1 | .M => 3), tval := 0 }) ∧
    (∃ v, (v = 0 ∨ v = s.hart.pc.toNat) ∧
      exec .ebreak s = .next (takeException { s with fresh := s.fresh + 1 } { cause := 3, tval := v })) ∧
    (s.hart.priv = .M → Answers (exec .mret s) (fun t =>
      let old := s.hart.std.mstatus
      let back : Priv := match old.toNat / 2 ^ 11 % 4 with | 0 => .U | 1 => .S | _ => .M
      SameBytes s t ∧ t = { s with cores := t.cores } ∧ t.hart.pc = s.hart.std.mepc ∧ t.hart.priv = back ∧ t.hart.x = s.hart.x ∧
      t.hart.std.mstatus.getLsbD 3 = old.getLsbD 7 ∧ t.hart.std.mstatus.getLsbD 7 = true ∧
      t.hart.std.mstatus.toNat / 2 ^ 11 % 4 = 0 ∧
      t.hart.std.mstatus.getLsbD 17 = (old.getLsbD 17 && back == .M) ∧
      (∀ n, n ≠ 3 → n ≠ 7 → n ≠ 11 → n ≠ 12 → n ≠ 17 → t.hart.std.mstatus.getLsbD n = old.getLsbD n))) ∧
    (s.hart.priv ≠ .M → exec .mret s = finish (illegal s)) ∧
    (s.hart.requeue = none → s.hart.priv = .M ∨ (s.hart.priv = .S ∧ s.hart.std.mstatus.getLsbD 22 = false) →
      Answers (exec .sret s) (fun t =>
        let old := s.hart.std.mstatus
        SameBytes s t ∧ t = { s with cores := t.cores } ∧ t.hart.pc = s.hart.std.sepc ∧
        t.hart.priv = (if old.getLsbD 8 then .S else .U) ∧ t.hart.x = s.hart.x ∧
        t.hart.std.mstatus.getLsbD 1 = old.getLsbD 5 ∧ t.hart.std.mstatus.getLsbD 5 = true ∧
        t.hart.std.mstatus.getLsbD 8 = false ∧ t.hart.std.mstatus.getLsbD 17 = false ∧
        (∀ n, n ≠ 1 → n ≠ 5 → n ≠ 8 → n ≠ 17 → t.hart.std.mstatus.getLsbD n = old.getLsbD n))) ∧
    (s.hart.priv = .U ∨ (s.hart.priv = .S ∧ s.hart.std.mstatus.getLsbD 22 = true) → exec .sret s = finish (illegal s)) ∧
    (s.hart.dev.hvValid = true → s.hart.dev.hvtype.getLsbD 63 = false → vtypeLegal (s.hart.dev.hvtype.toNat % 2 ^ 14) = true →
      s.hart.restoreBank.dev.vtype = BitVec.ofNat 64 (s.hart.dev.hvtype.toNat % 2 ^ 14) ∧
      s.hart.restoreBank.dev.vstart = BitVec.ofNat 16 s.hart.dev.hvstart.toNat ∧ s.hart.restoreBank.dev.hvValid = false)

/-- CSR instructions (R42, R73): a read gives the register's value; a write leaves the combination of the old value and the operand; a CSR
that does not exist, is above the hart's privilege, or is read-only and written raises illegal instruction. The device's thread registers
take the value written in their fields. -/
def Obligations.CsrInstructions : Prop :=
  ∀ (s : State) (o : OpCsr),
    let n := o.csr.toNat
    let operand : Word := if o.imm then o.src.zeroExtend 64 else s.xr o.src
    (∀ fn imm rd v, s.plain → csrValue s n = some v →
      CompletesWith (exec (.baseInstruction (.csrRead fn imm o.csr rd)) s) s (s.hart.setX rd v)) ∧
    (∀ fn imm rd, csrValue s n = none → exec (.baseInstruction (.csrRead fn imm o.csr rd)) s = finish (illegal s)) ∧
    (∀ i ∈ [Instr.vtypeWrite o, .vreclaimWrite o, .satpWrite o, .mgnctlWrite o, .registerWrite (.csr o)],
      (csrValue s n = none ∨ 0xC00 ≤ n → exec i s = finish (illegal s)) ∧
      (∀ old, s.plain → csrValue s n = some old → n < 0xC00 →
        exec i s = .next (((csrWrite s n (csrNew o.fn old operand)).setX o.rd old).modHart Ctx.completed))) ∧
    (∀ v, (csrWrite s 0x801 v).hart = vtypeWritten s.hart v.toNat) ∧
    (∀ v, (csrWrite s 0x180 v).hart.std.satp = if v.toNat / 2 ^ 60 = 0 ∨ v.toNat / 2 ^ 60 = 9 then v else s.hart.std.satp) ∧
    (∀ v, (csrWrite s 0x7C0 v).myCore.margin.trim = v.setWidth 5 ∧ (csrWrite s 0x7C0 v).myCore.margin.floor = v.extractLsb' 8 5 ∧
      (csrWrite s 0x7C0 v).myCore.margin.limit = v.extractLsb' 16 3 ∧ (csrWrite s 0x7C0 v).myCore.margin.auto = v.getLsbD 20 ∧
      (csrWrite s 0x7C0 v).myCore.margin.hold = false) ∧
    (∀ v : Word, v.toNat % 4 = 1 ∨ v.toNat % 4 = 2 → (csrWrite s 0x5C6 v).hart.dev.reclPend = true ∧
      (csrWrite s 0x5C6 v).hart.dev.reclClass = v.setWidth 2) ∧
    (∀ v : Word, v.toNat % 4 ≠ 1 → v.toNat % 4 ≠ 2 → (csrWrite s 0x5C6 v).hart.dev.reclPend = false) ∧
    (∀ v, (csrWrite s 0x802 v).hart.dev = { s.hart.dev with vstart := v.setWidth 16 }) ∧
    (∀ v, (csrWrite s 0x803 v).hart.dev = { s.hart.dev with vfill := v }) ∧
    (∀ v, (csrWrite s 0x805 v).hart.dev = { s.hart.dev with vfcsr := v.setWidth 10 }) ∧
    (∀ v, (csrWrite s 0x807 v).hart.dev = { s.hart.dev with ptrmap := v.setWidth 32 })

/-- ecmd, ecommit, ewait, ewaitn, epoll (R185 to R193): a refused command leaves its status in rd; an accepted one is in its node with
what it captures; a batch is the commands in flight when it was committed; a wait ends when all of it is done, traps on a fault that
blocks it, and is otherwise unready. -/
def Obligations.EngineInstructions : Prop :=
  ∀ s : State,
    (∀ rd vs1 rs2, s.hart.anyEmpty [(vs1.toNat, 1)] = false → s.hart.binds = [] →
      let n := cmdWords (s.getV vs1.toNat % 2 ^ 256)
      let code := acceptCode s s.cur.1 s.cur.2 s.hart.dev n (rs2 != 0)
      let full := copyKind n.cmdKind = true ∧ 64 ≤ copiesInFlight s.myCore
      (code ≠ 0 → exec (.ecmd rd vs1 rs2) s = finish (.next (s.setX rd (BitVec.ofNat 64 code)))) ∧
      (code = 0 → full → exec (.ecmd rd vs1 rs2) s = .next s) ∧
      (code = 0 → ¬ full → exec (.ecmd rd vs1 rs2) s = finish (.next (acceptCmd (s.setX rd 0) s.cur.1 s.cur.2 n
        (if rs2 = 0 then none else some (s.xr rs2)))))) ∧
    (∀ n cap, let d := acceptedNode s s.cur.1 s.cur.2 n cap
      d.st = .waiting ∧ d.w0 = n.w0 ∧ d.w1 = n.w1 ∧ d.w2 = n.w2 ∧ d.w3 = n.w3 ∧ d.kind = n.w0.toNat % 2 ^ 6 ∧
      d.preds = n.w0.toNat / 2 ^ 27 % 2 ^ 6 ∧ d.satp = s.hart.std.satp ∧ d.fmta = s.hart.dev.fmta ∧ d.fmtb = s.hart.dev.fmtb ∧
      d.sclpa = s.hart.dev.sclpa ∧ d.sclpb = s.hart.dev.sclpb ∧ d.ctx = s.cur.2 ∧
      d.serial = 384 * s.myCore.serial + s.cur.1 ∧ d.home = s.cur.1 ∧ d.accepted = s.now ∧ d.sup = (s.hart.priv != .U)) ∧
    (∀ b, exec (.ecommit b) s = finish (.next (s.modHart (fun t =>
      { t with batchSet := t.batchSet.set b.toNat (t.batchOpen.getD b.toNat []) })))) ∧
    (∀ b, let left := (s.hart.batchSet.getD b.toNat []).filterMap s.myCore.bySerial
      (left = [] → exec (.ewait b) s = finish (.next s)) ∧
      (left ≠ [] → ∀ n, (∀ e ∈ left, e.2.st = .faulted ∨ e.2.st = .stalled) → blame s.myCore (left.map (fun e => e.1)) = some n →
        exec (.ewait b) s = .next (takeException s (cmdFault s.myCore n))) ∧
      ((∃ e ∈ left, e.2.st = .waiting ∨ e.2.st = .running) → exec (.ewait b) s = .next s)) ∧
    (∀ rs1, let n := (s.xr rs1).toNat
      let st := (s.myCore.node n).st
      (95 < n ∨ st = .free → exec (.ewaitn rs1) s = finish (.next s)) ∧
      (n ≤ 95 → st = .waiting ∨ st = .running → exec (.ewaitn rs1) s = .next s) ∧
      (n ≤ 95 → st = .faulted ∨ st = .stalled → ∀ f, blame s.myCore [n] = some f → exec (.ewaitn rs1) s = .next (takeException s (cmdFault s.myCore f)))) ∧
    (∀ o : OpDS, let n := (s.xr o.rs1).toNat
      let d := s.myCore.node n
      exec (.epoll o) s = finish (.next (s.setX o.d (if 95 < n then 15 else BitVec.ofNat 64
        (d.progress % 2 ^ 40 * 2 ^ 24 + d.kind % 2 ^ 8 * 2 ^ 16 + d.status % 2 ^ 8 * 2 ^ 8 +
          (match d.st with | .free => 0 | .waiting => 1 | .running => 2 | .faulted => 3 | .stalled => 4))))))

/-- Hardware queues (R222 to R225, R290 to R292): a push into a queue with room appends, and reports the threshold; a full queue refuses
qpush.nb with status 1 and holds qpush; qpush.gate raises the gate; a pop delivers the next item to memory; an empty queue refuses qpop.nb
with 1 and holds qpop; an operand that names no queue raises cause 50, reason 1. Turnstiles and pools (R226, R227): a ticket is the next
number; a turn comes when serving has reached the ticket modulo 2^32; qnext serves the next; slotget hands out the lowest free slot or all
ones; slotret takes one back. -/
def Obligations.HardwareQueues : Prop :=
  (∀ (s : State) (o : OpR) (n : Nat) (q : Queue), s.queueOf (s.xr o.rs1) = some (n, q) →
    (∀ ws u, readItem s (s.xr o.rs2).toNat (if q.records then 8 else 2) n = .done (ws, u) →
      (q.records = true → recordReason (wordAt ws 4) (s.hart.priv != .U) = none) →
      (q.items.length < q.capacity → ∀ i ∈ [Instr.qpush o, .qpushNb o],
        exec i s = finish (.next ((afterPush (cleanStash u s.cur.1) n q (submitted s ws)).setX o.rd
          (if q.threshold ≤ q.items.length + 1 then 2 else 0)))) ∧
      (q.capacity ≤ q.items.length → exec (.qpushNb o) s = finish (.next (u.setX o.rd 1)) ∧ exec (.qpush o) s = .next s)) ∧
    (q.mode = 2 → let u := { cleanStash s s.cur.1 with queues := s.queues.put n { q with gate := max q.gate (s.xr o.rs2).toNat } }
      exec (.qpushGate o) s = finish (.next ((if q.records then wakeDie u (n % 4) else u).setX o.rd 0))) ∧
    (q.mode ≠ 2 → exec (.qpushGate o) s = .next (takeException s (exc50 3 n))) ∧
    (q.records = false → (s.xr o.rs2).toNat % 16 = 0 →
      (∀ i u, q.next = some i → plainPut s s.hart.dataXlat (s.xr o.rs2).toNat i.task.words = .done u →
        ∀ j ∈ [Instr.qpop o, .qpopNb o],
          exec j s = finish (.next (({ u with queues := u.queues.put n { q with items := q.items.erase i } } : State).setX o.rd 0))) ∧
      (q.next = none → exec (.qpopNb o) s = finish (.next (s.setX o.rd 1)) ∧ exec (.qpop o) s = .next s)) ∧
    (∀ rd, exec (.qlen ⟨rd, o.rs1⟩) s = finish (.next (s.setX rd (BitVec.ofNat 64 q.items.length))))) ∧
  (∀ (s : State) (o : OpDS) (rs1 rs2 : Reg),
    (∀ d i (t : Turnstile), s.turnOf (s.xr o.rs1) = some (d, i, t) →
      exec (.qticket o) s = finish (.next ((s.setTurn d i { t with next := t.next + 1 }).setX o.d (t.next.zeroExtend 64)))) ∧
    (∀ d i (t : Turnstile), s.turnOf (s.xr rs1) = some (d, i, t) →
      (0 ≤ (t.serving - (s.xr rs2).setWidth 32).toInt → exec (.qturn rs1 rs2) s = finish (.next s)) ∧
      ((t.serving - (s.xr rs2).setWidth 32).toInt < 0 → exec (.qturn rs1 rs2) s = .next s) ∧
      exec (.qnext rs1) s = finish (.next ((cleanStash s s.cur.1).setTurn d i { t with serving := t.serving + 1 }))) ∧
    (∀ d i (p : Pool), s.poolOf (s.xr o.rs1) = some (d, i, p) →
      (∀ n, n < p.size → n ∉ p.out → (∀ m, m < n → m ∈ p.out) →
        exec (.slotget o) s = finish (.next ((s.setPool d i { p with out := p.out ++ [n] }).setX o.d (BitVec.ofNat 64 n)))) ∧
      ((∀ m, m < p.size → m ∈ p.out) → exec (.slotget o) s = finish (.next (s.setX o.d (.allOnes 64))))) ∧
    (∀ d i (p : Pool), s.poolOf (s.xr rs1) = some (d, i, p) →
      ((s.xr rs2).toNat ∈ p.out → exec (.slotret rs1 rs2) s =
        finish (.next ((cleanStash s s.cur.1).setPool d i { p with out := p.out.filter (fun m => m != (s.xr rs2).toNat) }))) ∧
      ((s.xr rs2).toNat ∉ p.out → exec (.slotret rs1 rs2) s = .next (takeException s (exc50 6 (s.xr rs2).toNat)))) ∧
    (s.queueOf (s.xr o.rs1) = none → exec (.qlen o) s = .next (takeException s (exc50 1 (s.xr o.rs1).toNat))) ∧
    (s.turnOf (s.xr o.rs1) = none → exec (.qticket o) s = .next (takeException s (exc50 1 (s.xr o.rs1).toNat))) ∧
    (s.poolOf (s.xr o.rs1) = none → exec (.slotget o) s = .next (takeException s (exc50 1 (s.xr o.rs1).toNat))))

/-- Tasks (R218 to R221) and mwait (R228). qspawn puts its record at the bottom of the core's deque; qexit counts its counter down by one
and empties the context, whose registers stand until the next dispatch (R42, R308); qyield saves the task and puts it at the top; qresume makes a faulted task of the caller's address space pending
again. -/
def Obligations.Tasks : Prop :=
  ∀ s : State,
    (∀ (o : OpDS) ws u, readItem s (s.xr o.rs1).toNat 8 0 = .done (ws, u) →
      (∀ k, recordReason (wordAt ws 4) (s.hart.priv != .U) = some k → exec (.qspawn o) s = .next (takeException s (exc50 k 0))) ∧
      (recordReason (wordAt ws 4) (s.hart.priv != .U) = none → dequeRoom s s.cur.1 = false → exec (.qspawn o) s = .next s) ∧
      (recordReason (wordAt ws 4) (s.hart.priv != .U) = none → dequeRoom s s.cur.1 = true →
        exec (.qspawn o) s = finish (.next ((rouseCore (pushBottom u s.cur.1 (submitted s ws)) s.cur.1).setX o.d 0)))) ∧
    (s.hart.busyVector = false → s.hart.task = none ∨ (∃ r, s.hart.task = some r ∧ r.addr 5 = 0) →
      Answers (exec .qexit s) (fun t => t.hart.status = .empty ∧ t.hart.task = none ∧ t.mem = s.mem ∧ t.hart.x = s.hart.x ∧
        t.hart.dev = s.hart.dev ∧ t.hart.vlen = s.hart.vlen ∧ (∀ r, t.hart.ownV r = s.hart.ownV r) ∧
        ∀ c x, c ≠ s.cur.1 ∨ x % 8 ≠ s.cur.2 % 8 → t.thr c x = s.thr c x)) ∧
    (∀ r p, s.hart.busyVector = false → s.hart.task = some r → r.addr 5 ≠ 0 →
      let va := recVa s.hart.dataXlat (r.addr 5)
      va % 8 = 0 → PlainWrite s s.hart.dataXlat va 8 p → s.badIn p.pa 8 = none → s.blocked s.cur.1 s.cur.2 .R p.pa 8 = false →
      Answers (exec .qexit s) (fun t => t.hart.status = .empty ∧ t.hart.task = none ∧
        Stored s t [(p.pa, 8, (BitVec.ofNat 64 (s.peek p.pa 8) - 1).toNat)])) ∧
    (s.hart.task = none → exec .qyield s = finish (.next s)) ∧
    (∀ r u a v, s.hart.task = some r → dequeRoom s s.cur.1 = true → s.hart.busyVector = false →
      allocArea s s.cur.1 s.cur.2 = (a, u) → a ≠ 0 → ∀ q, (u.thr s.cur.1 s.cur.2).task = some q →
      saveTask u s.cur.1 s.cur.2 q a (s.hart.pc + 4) = .done v →
      Answers (exec .qyield s) (fun t => t.hart.status = .empty ∧ t.hart.task = none ∧ t.mem = v.mem ∧
        ∃ e, (if s.myCore.overflow = [] ∧ s.myCore.deque.length < 64 then t.myCore.deque = e :: s.myCore.deque
              else t.myCore.overflow = e :: s.myCore.overflow) ∧
          e.saved = true ∧ e.area = a ∧ e.savedLen = s.hart.vlen ∧ e.since = s.now)) ∧
    (∀ (o : OpDS), let h := (s.xr o.rs1).toNat
      (∀ f, s.faulted.find? (fun f => f.task.handle == h && h != 0) = some f →
        (f.task.asid ≠ s.hart.std.satp.toNat / 2 ^ 44 % 2 ^ 16 → exec (.qresume o) s = finish (.next (s.setX o.d 2))) ∧
        (f.task.asid = s.hart.std.satp.toNat / 2 ^ 44 % 2 ^ 16 → dequeRoom s (resumeCore s f.core) = true →
          exec (.qresume o) s = finish (.next ((rouseCore (pushTop { s with faulted := s.faulted.filter (fun g => g.task.handle != h) }
            (resumeCore s f.core) { f.task with since := s.now }) (resumeCore s f.core)).setX o.d 0)))) ∧
      (s.faulted.find? (fun f => f.task.handle == h && h != 0) = none →
        exec (.qresume o) s = finish (.next (s.setX o.d
          (if s.liveTasks.any (fun r => r.handle == h && r.asid == s.hart.std.satp.toNat / 2 ^ 44 % 2 ^ 16 && h != 0) then 1 else 2))))) ∧
    (∀ (o : OpR) p, let a := (s.xr o.rs1).toNat
      a % 8 = 0 → PlainRead s s.hart.dataXlat a 8 p → p.cls ≠ .io →
      (s.peek p.pa 8 ≠ (s.xr o.rs2).toNat → s.plain → Answers (exec (.mwait o) s) (fun t =>
        OnlyRead s t (s.hart.setX o.rd (BitVec.ofNat 64 (s.peek p.pa 8))).completed)) ∧
      (s.peek p.pa 8 = (s.xr o.rs2).toNat → exec (.mwait o) s = .next s))

/-- The barrier instructions barv, barw, barvw and barq (R229 to R231, R280 to R284) and the ordering fences ofence and xfence (R232,
R353, R355): when each completes, waits or raises cause 29. ofence and xfence change no register and no byte; they write the core's stash
back, an ofence where its scope is above the die and its predecessors hold W, and record what they order (log 6). An arrival at a barrier
(R282): toward the current phase, which the N-th completes, or held toward the next; not more than two of a core. -/
def Obligations.Barriers : Prop :=
  (∀ (s : State) (rs1 : Reg) (k : BarKey), barKey s.cur.1 (s.xr rs1) = some k →
    let b := s.barrier k
    let c := s.cur.1
    (b.n = 0 → s.hart.barWait = none → (∀ i ∈ [Instr.barv rs1, .barw rs1, .barvw rs1],
      exec i s = .next (takeException s (barFault 3 (s.xr rs1)))) ∧
      ∀ rd, exec (.barq ⟨rd, rs1⟩) s = .next (takeException s (barFault 3 (s.xr rs1)))) ∧
    (b.n ≠ 0 → c ∉ b.members → s.hart.barWait = none → ∀ i ∈ [Instr.barv rs1, .barvw rs1],
      exec i s = .next (takeException s (barFault 1 (s.xr rs1)))) ∧
    (b.n ≠ 0 → c ∈ b.members → s.hart.barWait = none →
      (∀ u, arriveAt (if k.dev then cleanStash s c else s) k c = some u →
        exec (.barv rs1) s = finish (.next u) ∧
        ((u.barrier k).noticed ≤ (waitPhase (u.barrier k) c).1 → exec (.barvw rs1) s = .next (setWait u
          { dev := k.dev, die := k.die, idx := k.idx, seq := (waitPhase (u.barrier k) c).1, epoch := (u.barrier k).epoch,
            arrived := true, own := true }))) ∧
      (c ∈ b.here → c ∈ b.ahead → ∀ i ∈ [Instr.barv rs1, .barvw rs1], Answers (exec i s) (fun t =>
        t.hart.pc = s.hart.pc ∧ t.barrier k = b ∧ t.hart.barWait.isSome = true))) ∧
    (b.n ≠ 0 → s.hart.barWait = none →
      ((waitPhase b c).1 < b.noticed → Answers (exec (.barw rs1) s) (fun t =>
        t.barrier k = { b with marks := (t.barrier k).marks } ∧ SameBytes s t ∧ (s.plain → t.hart = s.hart.completed))) ∧
      (b.noticed ≤ (waitPhase b c).1 → exec (.barw rs1) s = .next (setWait s
        { dev := k.dev, die := k.die, idx := k.idx, seq := (waitPhase b c).1, epoch := b.epoch, arrived := false,
          own := (waitPhase b c).2 }))) ∧
    (∀ w, s.hart.waitAt k = some w →
      (w.ends = some 4 → ∀ i ∈ [Instr.barv rs1, .barw rs1, .barvw rs1], exec i s = .next (takeException s (barFault 4 (s.xr rs1)))) ∧
      (b.n ≠ 0 → w.ends = some 0 ∨ (w.ends = none ∧ w.seq < b.noticed) → ∀ i, i = Instr.barw rs1 ∨
          (i = .barvw rs1 ∧ c ∈ b.members ∧ w.arrived = true) →
        Answers (exec i s) (fun t =>
          t.barrier k = { b with marks := (t.barrier k).marks } ∧ SameBytes s t ∧ (s.plain → t.hart = s.hart.completed)))) ∧
    (∀ rd, b.n ≠ 0 → s.hart.barWait = none → exec (.barq ⟨rd, rs1⟩) s = finish (.next (s.setX rd (BitVec.ofNat 64
      (b.n % 2 ^ 16 * 2 ^ 32 + (b.members.contains c).toNat * 2 ^ 19 + (b.ahead.contains c).toNat * 2 ^ 18 +
        (b.here.contains c).toNat * 2 ^ 17 + b.seq % 2 * 2 ^ 16 + b.here.length % 2 ^ 16))))) ∧
    (∀ scope pred succ, s.plain → Answers (exec (.ofence scope pred succ) s) (fun t =>
      OnlyRead s t (s.hart.fenced pred succ s.past.length s.now).completed ∧
      (4 ≤ scope.toNat → pred.getLsbD 1 = true → ∀ e ∈ t.myCore.sectors, e.2.dirty = false))) ∧
    (∀ scope, s.plain → Answers (exec (.xfence scope) s) (fun t =>
      OnlyRead s { t with past := s.past } (s.hart.fenced 15 15 s.past.length s.now).completed ∧
      (∀ e ∈ t.myCore.sectors, e.2.dirty = false) ∧ t.past.length = s.past.length ∧
      ∀ (i : Nat) (w : Past), s.past[i]? = some w → (w.thread = some (s.threadOf c s.cur.2) → ∃ r : Reach, t.past[i]? = some { w with reach := r :: w.reach } ∧
          r.scope = scope.toNat ∧ r.tick = s.now ∧ r.thread = s.threadOf c s.cur.2) ∧
        (w.thread ≠ some (s.threadOf c s.cur.2) → t.past[i]? = some w)))) ∧
  (∀ (s : State) (k : BarKey) (c : Nat),
    let b := s.barrier k
    (c ∉ b.here → ∃ u, arriveAt s k c = some u ∧
      (b.here.length + 1 < b.n ∨ b.completing = true → (u.barrier k).here = b.here ++ [c] ∧ (u.barrier k).seq = b.seq ∧
        (u.barrier k).ahead = b.ahead) ∧
      (b.n ≤ b.here.length + 1 → b.completing = false → (u.barrier k).here = b.ahead ∧ (u.barrier k).seq = b.seq + 1 ∧
        (u.barrier k).ahead = [])) ∧
    (c ∈ b.here → c ∉ b.ahead → ∃ u, arriveAt s k c = some u ∧ (u.barrier k).ahead = b.ahead ++ [c] ∧ (u.barrier k).here = b.here ∧
      (u.barrier k).seq = b.seq) ∧
    (c ∈ b.here → c ∈ b.ahead → arriveAt s k c = none))

/-- Slice acts (R233 to R239): an act leaves a request for the line and waits; answered, it leaves the routine's result in rd, or on an
abort the status in rd (act.s) or cause 27; vact does so for its active elements, and its lowest abort is raised at the next instruction; act.inst installs and removes routines below user mode. -/
def Obligations.SliceActs : Prop :=
  ∀ (s : State) (o : OpAct),
    (∀ r ∈ [(Instr.act o, false), (Instr.actS o, true)],
      (∀ p, s.hart.act = none → actPlace s (s.xr o.s1).toNat = .done p →
        Answers (exec r.1 s) (fun t => t.hart.pc = s.hart.pc ∧ t.agenda = s.agenda ++ [.actPerform (p.pa / 128)] ∧
          t.acts = s.acts ++ [{ core := s.cur.1, ctx := s.cur.2, elem := 0, id := o.id.toNat, asid := asidOf s.hart.std.satp,
                                satp := s.hart.std.satp, actbase := s.hart.dev.actbase, addr := p.pa / 128 * 128, tag := s.fresh,
                                arg0 := s.xr o.s2, arg1 := BitVec.ofNat 64 ((s.xr o.s1).toNat % 128) }] ∧
          t.hart.act = some { vector := false, status := r.2, vd := o.d.toNat, left := 1, word := s.fetched, tag := s.fresh })) ∧
      (∀ w, s.hart.act = some w → w.left ≠ 0 → exec r.1 s = .next s) ∧
      (∀ w, s.hart.act = some w → w.left = 0 → w.aborts = [] → exec r.1 s =
        finish (.next ((s.modHart (fun t => { t with act := none })).setX o.d (SMap.get 0 w.results 0)))) ∧
      (∀ w e tv l, s.hart.act = some w → w.left = 0 → w.aborts = (e, tv) :: l → exec r.1 s = (if r.2 then
        finish (.next ((s.modHart (fun t => { t with act := none })).setX o.d (BitVec.ofNat 64 (2 ^ 63 + tv % 256))))
        else .next (takeException (s.modHart (fun t => { t with act := none })) { cause := 27, tval := tv })))) ∧
    (∀ r ∈ [(Instr.vact o, false), (Instr.vactS o, true)],
      (s.hart.act = none → s.plain → s.sliced → VecReady s (vactInfo o s) → (∀ k, (s.frame false).on k = false) →
        Answers (exec r.1 s) (fun t =>
          OnlyVector s t (groupRegs o.d.toNat s.shape.g) (vactInfo o s).charge (s.hart.vecDone 0) ∧
          ∀ k, k < s.shape.n → t.elem o.d k = FrameRule s.hart.dev false 0 (s.elem o.d k) s.shape.zero 0 k)) ∧
      (∀ l, s.hart.act = none → VecReady s (vactInfo o s) → l ≠ [] →
        actPlaces s (s.elem o.s1) ((List.range s.hart.dev.vgrant.toNat).filter (s.frame false).on) = .ok l →
        Answers (exec r.1 s) (fun t => t.hart.pc = s.hart.pc ∧ t.acts.length = s.acts.length + l.length ∧
          t.agenda = s.agenda ++ l.map (fun e => .actPerform (e.2.pa / 128)) ∧
          (t.hart.act.map (fun w => (w.left, w.status, w.vd))) = some (l.length, r.2, o.d.toNat))) ∧
      (∀ w, s.hart.act = some w → w.left = 0 → s.hart.isFull w.vd = true → s.hart.binds = [] → (r.2 = true ∨ w.aborts = []) →
        w.status = r.2 →
        exec r.1 s = finish (.next (s.modHart (fun t => { t with act := none, dev := { t.dev with vstart := 0 } })))) ∧
      (∀ w i tv l, s.hart.act = some w → w.left = 0 → s.hart.isFull w.vd = true → s.hart.binds = [] → s.plain → w.status = false →
        w.aborts = (i, tv) :: l → exec r.1 s = .next (takeException
          (s.modHart (fun t => ({ t with act := none, dev := { t.dev with vstart := 0 } } : Ctx).completed))
          { cause := 27, tval := tv + i % 2 ^ 16 * 2 ^ 32 })) ∧
      (∀ w, s.hart.act = some w → w.left ≠ 0 → exec r.1 s = .next s)) ∧
    (∀ rd rs2 id, ∀ i ∈ [Instr.actInst rd rs2 id, .actInstS rd rs2 id],
      (∀ st u, s.hart.priv ≠ .U →
        install s s.cur.1 s.cur.2 (asidOf s.hart.std.satp) s.hart.std.satp s.hart.dev.actbase id.toNat (s.xr rs2) = .done (st, u) →
        exec i s = finish (.next (u.setX rd (BitVec.ofNat 64 st)))) ∧
      (s.hart.priv = .U → exec i s = finish (illegal s)))

/-- The system class of custom-3: the handler bank's moves (R214), the margin window (R240), gangs (R241, R242), vrel (R243), quarantine
(R244). -/
def Obligations.SystemClass : Prop :=
  ∀ (s : State) (rs1 : Reg) (o : OpDS),
    (∀ u, s.hart.priv ≠ .U → (s.xr rs1).toNat % 8 = 0 →
      plainPut s s.hart.dataXlat (s.xr rs1).toNat [s.hart.dev.hvtype, s.hart.dev.hvgrant, s.hart.dev.hvstart] = .done u →
      exec (.hbsave rs1) s = finish (.next (u.modHart (fun h => { h with dev := { h.dev with hvValid := false } })))) ∧
    (∀ ws u, s.hart.priv ≠ .U → (s.xr rs1).toNat % 8 = 0 → plainWords s s.hart.dataXlat (s.xr rs1).toNat 3 = .done (ws, u) →
      exec (.hbload rs1) s = finish (.next (u.modHart (fun h => { h with dev := { h.dev with
        hvtype := wordAt ws 0, hvgrant := wordAt ws 1, hvstart := wordAt ws 2, hvValid := true } })))) ∧
    (s.hart.priv = .U → exec (.hbsave rs1) s = finish (illegal s) ∧ exec (.hbload rs1) s = finish (illegal s)) ∧
    (let n := min (s.xr rs1).toNat (2 ^ 20)
     (n = 0 → exec (.mgnsafe rs1) s = finish (.next s)) ∧
     (n ≠ 0 → s.myCore.margin.hold = true ∨ s.myCore.margin.supply = 0 →
       Answers (exec (.mgnsafe rs1) s) (fun t => t.myCore.margin.safe = max s.myCore.margin.safe (s.coreCycle s.cur.1 + n) ∧
         t.mem = s.mem ∧ (s.plain → t.hart = s.hart.completed))) ∧
     (n ≠ 0 → s.myCore.margin.hold = false → s.myCore.margin.supply ≠ 0 →
       Answers (exec (.mgnsafe rs1) s) (fun t => t.hart = { s.hart with mgnWait := true } ∧ t.mem = s.mem))) ∧
    (Answers (exec .mgnrel s) (fun t => t.myCore.margin.safe = 0 ∧ t.mem = s.mem ∧ (s.plain → t.hart = s.hart.completed))) ∧
    (∀ st, s.hart.joinStatus = some st → exec (.gjoin o) s =
      finish (.next ((s.modHart (fun h => { h with joinStatus := none })).setX o.d (BitVec.ofNat 64 st)))) ∧
    (s.hart.joinStatus = none → s.xr o.rs1 ≠ 1 → s.xr o.rs1 ≠ 2 → exec (.gjoin o) s = finish (.next (s.setX o.d 5))) ∧
    (s.hart.gang = none → exec .gleave s = finish (.next s)) ∧
    (∀ g, s.hart.gang = some g → g.pos = 0 → s.hart.busyVector = false → gangWork s s.cur.1 s.cur.2 = false → s.plain →
      g.members.Nodup → g.members.head? = some s.cur.1 →
      Answers (exec .gleave s) (fun t => t.hart = { s.hart.completed with gang := none } ∧ t.mem = s.mem ∧
        ∀ m ∈ g.members.drop 1, ∀ h, (s.thr m s.cur.2).gang = some h →
          (t.thr m s.cur.2).gang = none ∧ (t.thr m s.cur.2).status = .running ∧ (t.thr m s.cur.2).vlen = h.preVlen ∧
          (t.thr m s.cur.2).pc = (s.thr m s.cur.2).pc + 4)) ∧
    (s.hart.dev.reclPend = false → exec .vrel s = finish (.next s)) ∧
    (s.hart.dev.reclPend = true → s.plain → s.sliced → s.cur.1 ∈ s.slicesOf s.cur.1 s.cur.2 →
      let len := min s.hart.vlen (min (s.hwLen s.cur.1 s.cur.2) (512 * reclClusters s.hart.dev.reclClass * s.members))
      Answers (exec .vrel s) (fun t => t.hart.dev.reclPend = false ∧ t.hart.vlen = len ∧
        (s.hart.dev.vill = false → t.hart.dev.vgrant =
          BitVec.ofNat 16 (min s.hart.dev.vgrant.toNat (len / 512 * (s.hart.dev.grp * 512 / s.hart.dev.ew)))) ∧
        t.hart.cls = min s.hart.cls (reclClusters s.hart.dev.reclClass) ∧ t.mem = s.mem ∧ ∀ r, t.getV r = s.getV r % 2 ^ len)) ∧
    (let q := (s.xr rs1).toNat
     (s.hart.priv ≠ .M ∨ q = s.cur.1 → exec (.cquar rs1) s = finish (illegal s)) ∧
     (s.hart.priv = .M → q ≠ s.cur.1 → s.coreUp q = false → exec (.cquar rs1) s = finish (.next s)) ∧
     (s.hart.priv = .M → q ≠ s.cur.1 → s.coreUp q = true → exec (.cquar rs1) s = finish (.next (quarantineCore s q 3)))) ∧
    (∀ q, q < 384 → s.quarantined q = false → (quarantineCore s q 3).quarantined q = true ∧ ((quarantineCore s q 3).core q).quar.reason = 3 ∧
      ((quarantineCore s q 3).core q).deque = [] ∧ ((quarantineCore s q 3).core q).nodes = [] ∧
      ∀ x, ((quarantineCore s q 3).thr q x).status = .empty)

/-- Decoding the word of any well-formed instruction gives the instruction back, with every operand. -/
def Obligations.DecodeOfEncode : Prop :=
  ∀ (i : Instr) (w : BitVec 32), i.wellFormed = true → encode i = some w → decode w = .ok i

/-- A word the decoder accepts is the word of the one well-formed instruction it gives: no two words mean the same, and no accepted word
has a bit that its instruction does not carry (R75). -/
def Obligations.EncodeOfDecode : Prop :=
  ∀ (i : Instr) (w : BitVec 32), decode w = .ok i → i.wellFormed = true ∧ encode i = some w

/-- The assembled words of Tables 03-16, 04-7, 05-8, 06-7, 07-2, 08-10, 09-8 and 13-6 decode to the instructions of their source lines. -/
def Obligations.AssembledWords : Prop :=
  decode 0x0086120B = .ok (.vadd ⟨4, 8, .vv 12, true⟩) ∧ decode 0x78A5630B = .ok (.vfmadd ⟨6, 10, .vf 10, false⟩) ∧
  decode 0x0405022B = .ok (.vld ⟨4, 10, 0, 2, false⟩) ∧ decode 0x02C5957B = .ok (.qpush ⟨10, 11, 12⟩) ∧
  decode 0x0031B27B = .ok (.ofence 4 3 3) ∧ decode 0x000652AB = .ok (.vstripK ⟨5, 12⟩) ∧
  decode 0x4645B82B = .ok (.vstx ⟨16, 11, 4, 3, true⟩) ∧ decode 0xC033C02B = .ok (.vnest 7 3) ∧
  decode 0x4A40840B = .ok (.vfwid ⟨8, 4, 1, false⟩) ∧ decode 0xB44320DB = .ok (.lfCmpLe ⟨1, 4, .vv 6, false⟩) ∧
  decode 0x0004057B = .ok (.ecmd 10 8 0) ∧ decode 0x46C5C57B = .ok (.actS ⟨10, 11, 12, 3⟩) ∧
  decode 0x3705225B = .ok (.gcov ⟨4, 16, .vx 10, false⟩) ∧ decode 0x0200327B = .ok (.xfence 4)

/-- The next core cycle runs the decoded instruction: with nothing due and no event waiting, the core and context whose cycle comes next
fetch the four bytes at the pc, lowest first, and execute the instruction they decode to; a word that is none raises illegal instruction
(R15, R38, R75). A counting window of the core that has ended is closed before it (R438), and an element group due to be replayed is run
before it (R436). A context that is empty, held or frozen issues nothing; an exception that waited for its redirection (R311), then an
enabled interrupt, comes first. A timing event in the cycle is settled after its instruction (R435, R436). How the body of an instruction
becomes a step: outside the loop buffer a completed one goes on at the next address and counts; a jump goes on at its target; an exception
is taken; an unready instruction is tried again (R38). -/
def Obligations.StepRunsInstruction : Prop :=
  (∀ (s : State) (at' c n : Nat), s.inbox = [] → s.agenda = [] → s.nextCore = some (at', c, n) → (∀ d, s.nextDue = some d → at' < d) →
    (windowEnded (s.core c) n = true → step s = .next { s with now := at', inbox := [.marginWindowEnd c] }) ∧
    (windowEnded (s.core c) n = false →
      (let u := s.beginCycle at' c n
       u.now = at' ∧ u.cur = (c, n % 8) ∧ (u.core c).cycle = n + 1 ∧ (u.core c).ctxs = (s.core c).ctxs ∧ u.mem = s.mem ∧
       ((s.core c).replayDue n = none →
         (u.wasted = true → step s = .next u.passCycle) ∧
         (∀ q, u.wasted = false → u.hart.raised = some q → step s = .next (retryRaised u.calm q)) ∧
         (∀ i toM, u.wasted = false → u.hart.raised = none → u.hart.wfi = false → u.interrupt c (n % 8) = some (i, toM) →
           step s = .next (u.calm.serveInterrupt i toM)))) ∧
      (∀ x, (s.core c).replayDue n = some x → (s.beginReplay at' c x).wasted = true → step s = .next (s.beginReplay at' c x)) ∧
      (∀ u, ((s.core c).replayDue n = none ∧ u = s.beginCycle at' c n ∧ u.hart.raised = none ∧
            (u.hart.wfi = true ∨ u.interrupt c (n % 8) = none)) ∨ (∃ x, (s.core c).replayDue n = some x ∧ u = s.beginReplay at' c x) →
        u.wasted = false →
        (∀ l t, u.myCore.margin.late = some l → runHart u.calm = .next t → step s = .next (settleLate l n u t)) ∧
        (u.myCore.margin.late = none →
          (∀ w v i, fetchWord u = .done (w, v) → v.bodyRefuses w = false → decode w = .ok i → step s = exec i { v with fetched := w }) ∧
          (∀ w v e, fetchWord u = .done (w, v) → decode w = .error e → step s =
            .next (takeException { v with fetched := w } { cause := 2, tval := trapBits w })) ∧
          (∀ e, fetchWord u = .trap e → step s = .next (takeException { u with fetched := 3 } e)))))) ∧
  (∀ u : State, u.hart.act = none → u.plain → ∀ p, translate u u.hart.fetchXlat .fetch u.hart.pc.toNat = .done p → regionOf u p.pa = .dram →
    p.cls ≠ .io → u.ownedIn p.pa 4 = false → u.badIn p.pa 4 = none → u.current u.cur.1 p 4 →
    (∀ w ∈ u.past, w.meets p.pa 4 = true → w.thread = some (u.threadOf u.cur.1 u.cur.2) → w.seq < u.hart.fetchSync) →
    ∃ v, fetchWord u = .done (u.byte (p.pa + 3) ++ u.byte (p.pa + 2) ++ u.byte (p.pa + 1) ++ u.byte p.pa, v) ∧ OnlyTags u v) ∧
  (∀ s : State,
    (s.plain → finish (.next s) = .next (s.modHart Ctx.completed)) ∧
    (∀ pc, finish (.jump s pc) = .next (s.modHart (fun t => t.jumped pc))) ∧
    (∀ e, finish (.trap e s) = .next (takeException s e)) ∧ finish (.wait s) = .next s ∧
    (∀ f, OnlyHart s (s.modHart f) (f s.hart)) ∧
    finish (illegal s) = .next (takeException s { cause := 2, tval := trapBits s.fetched }))

/-- An event or request that is due runs its row of the opcode table (R473): every event's meaning is exec of its row; an event waiting
first comes first; with events of free latency the next step is one of them or a core cycle. That the choice among them is free is the
model's (log 4). -/
def Obligations.EventsRun : Prop :=
  ∀ s : State,
    (∀ e rest, s.inbox = e :: rest → step s = runEvent e { s with inbox := rest }) ∧
    (s.inbox = [] → s.agenda ≠ [] → let u := { s with fresh := s.fresh + 1 }
      (∃ i e, s.agenda[i]? = some e ∧ step s = runEvent e { u with agenda := s.agenda.eraseIdx i }) ∨ step s = coreStep u) ∧
    (s.inbox = [] → s.agenda = [] → ∀ d, s.nextDue = some d → (∀ c n at', s.nextCore = some (at', c, n) → d ≤ at') →
      step s = .next (s.wakeTimers d)) ∧
    (∀ d, let u := s.wakeTimers d
      u.inbox = s.inbox ++ (s.timers.filter (fun e => decide (e.1 ≤ d))).map (fun e => e.2) ∧ u.timers = s.timers.filter (fun e => !decide (e.1 ≤ d)) ∧
      u.now = max s.now d ∧ u.cores = s.cores ∧ u.mem = s.mem) ∧
    (∀ core entry v, runEvent (.stashMapWord0Write core entry v) s = exec (.stashMapWord0Write core entry v) s) ∧
    (∀ core entry v, runEvent (.stashMapWord1Write core entry v) s = exec (.stashMapWord1Write core entry v) s) ∧
    (∀ core v, runEvent (.snapshot core v) s = exec (.snapshot core v) s) ∧
    (∀ core, runEvent (.snapshotEnd core) s = exec (.snapshotEnd core) s) ∧
    (∀ core ctx v, runEvent (.requeue core ctx v) s = exec (.requeue core ctx v) s) ∧
    (∀ core ctx rd, runEvent (.saveareaRead core ctx rd) s = exec (.saveareaRead core ctx rd) s) ∧
    (∀ die v, runEvent (.lvcfgWrite die v) s = exec (.lvcfgWrite die v) s) ∧
    (∀ t, runEvent (.registerWrite t) s = exec (.registerWrite t) s) ∧ (∀ r, runEvent (.queue r) s = exec (.queue r) s) ∧
    (∀ r, runEvent (.turnstile r) s = exec (.turnstile r) s) ∧ (∀ r, runEvent (.pool r) s = exec (.pool r) s) ∧
    (∀ r, runEvent (.barrier r) s = exec (.barrier r) s) ∧ (∀ r, runEvent (.pinned r) s = exec (.pinned r) s) ∧
    (∀ r, runEvent (.sched r) s = exec (.sched r) s) ∧ (∀ r, runEvent (.aspace r) s = exec (.aspace r) s) ∧
    (∀ r, runEvent (.asrel r) s = exec (.asrel r) s) ∧ (∀ r, runEvent (.fenceRequest r) s = exec (.fenceRequest r) s) ∧
    (∀ r, runEvent (.capkey r) s = exec (.capkey r) s) ∧ (∀ r, runEvent (.ring r) s = exec (.ring r) s) ∧
    (∀ r, runEvent (.nvmeqp r) s = exec (.nvmeqp r) s) ∧ (∀ r, runEvent (.waitword r) s = exec (.waitword r) s) ∧
    (∀ r, runEvent (.subscribe r) s = exec (.subscribe r) s) ∧ (∀ r, runEvent (.launch r) s = exec (.launch r) s) ∧
    (∀ r, runEvent (.install r) s = exec (.install r) s) ∧
    (∀ queue size words, runEvent (.hostPush queue size words) s = exec (.hostPush queue size words) s) ∧
    (∀ off wd, runEvent (.hostRead off wd) s = exec (.hostRead off wd) s) ∧
    (∀ off wd v, runEvent (.hostWrite off wd v) s = exec (.hostWrite off wd v) s) ∧
    (∀ page, runEvent (.atsInvalidation page) s = exec (.atsInvalidation page) s) ∧
    (∀ core node, runEvent (.kmma core node) s = exec (.kmma core node) s) ∧
    (∀ core node, runEvent (.kcopy core node) s = exec (.kcopy core node) s) ∧
    (∀ core node, runEvent (.kgath core node) s = exec (.kgath core node) s) ∧
    (∀ core node, runEvent (.kscat core node) s = exec (.kscat core node) s) ∧
    (∀ core node, runEvent (.kfill core node) s = exec (.kfill core node) s) ∧
    (∀ core node, runEvent (.kred core node) s = exec (.kred core node) s) ∧
    (∀ core node, runEvent (.kcoll core node) s = exec (.kcoll core node) s) ∧
    (∀ core node, runEvent (.kdisk core node) s = exec (.kdisk core node) s) ∧
    (∀ core node, runEvent (.knest core node) s = exec (.knest core node) s) ∧
    (∀ core node, runEvent (.ksig core node) s = exec (.ksig core node) s) ∧
    (∀ core node, runEvent (.commandLaunch core node) s = exec (.commandLaunch core node) s) ∧
    (∀ die, runEvent (.leaveAdmit die) s = exec (.leaveAdmit die) s) ∧
    (∀ die core node, runEvent (.leaveWaitExpire die core node) s = exec (.leaveWaitExpire die core node) s) ∧
    (∀ core node, runEvent (.kmmaRowFinish core node) s = exec (.kmmaRowFinish core node) s) ∧
    (∀ core node, runEvent (.commandComplete core node) s = exec (.commandComplete core node) s) ∧
    (∀ core node status, runEvent (.commandFault core node status) s = exec (.commandFault core node status) s) ∧
    (∀ core node ok, runEvent (.enginePageFaultResolved core node ok) s = exec (.enginePageFaultResolved core node ok) s) ∧
    (∀ core node, runEvent (.ownershipWindowTake core node) s = exec (.ownershipWindowTake core node) s) ∧
    (∀ core node target cap, runEvent (.remoteCommandArrive core node target cap) s = exec (.remoteCommandArrive core node target cap) s) ∧
    (∀ core node status progress, runEvent (.remoteCompletion core node status progress) s = exec (.remoteCompletion core node status progress) s) ∧
    (∀ qp cid status, runEvent (.nvmeCompletion qp cid status) s = exec (.nvmeCompletion qp cid status) s) ∧
    (∀ line, runEvent (.actPerform line) s = exec (.actPerform line) s) ∧
    (∀ core ctx, runEvent (.vactComplete core ctx) s = exec (.vactComplete core ctx) s) ∧
    (∀ core ctx vd, runEvent (.vectorLoadComplete core ctx vd) s = exec (.vectorLoadComplete core ctx vd) s) ∧
    (∀ core ctx vd, runEvent (.boundRefillLand core ctx vd) s = exec (.boundRefillLand core ctx vd) s) ∧
    (∀ core ctx vd, runEvent (.channelChunkDeposit core ctx vd) s = exec (.channelChunkDeposit core ctx vd) s) ∧
    (∀ core, runEvent (.vaccPerform core) s = exec (.vaccPerform core) s) ∧ (∀ die, runEvent (.expand die) s = exec (.expand die) s) ∧
    (∀ die, runEvent (.expandResume die) s = exec (.expandResume die) s) ∧
    (∀ core ctx, runEvent (.dispatch core ctx) s = exec (.dispatch core ctx) s) ∧
    (∀ core attempt, runEvent (.stealAttempt core attempt) s = exec (.stealAttempt core attempt) s) ∧
    (∀ victim thief, runEvent (.stealAnswer victim thief) s = exec (.stealAnswer victim thief) s) ∧
    (∀ core, runEvent (.stealBackoffEnd core) s = exec (.stealBackoffEnd core) s) ∧
    (∀ core, runEvent (.dequeRefill core) s = exec (.dequeRefill core) s) ∧
    (∀ core, runEvent (.agingStep core) s = exec (.agingStep core) s) ∧
    (∀ core, runEvent (.reclaimStart core) s = exec (.reclaimStart core) s) ∧
    (∀ core ctx, runEvent (.reclaimTimeout core ctx) s = exec (.reclaimTimeout core ctx) s) ∧
    (∀ core ctx, runEvent (.reclaimInterrupt core ctx) s = exec (.reclaimInterrupt core ctx) s) ∧
    (∀ core ctx, runEvent (.supervisorTimerInterrupt core ctx) s = exec (.supervisorTimerInterrupt core ctx) s) ∧
    (∀ dev die idx, runEvent (.barrierHeldPhaseComplete dev die idx) s = exec (.barrierHeldPhaseComplete dev die idx) s) ∧
    (∀ dev die idx, runEvent (.barrierCompletionNotice dev die idx) s = exec (.barrierCompletionNotice dev die idx) s) ∧
    (∀ dev die idx, runEvent (.barrierTimeout dev die idx) s = exec (.barrierTimeout dev die idx) s) ∧
    (∀ core ctx, runEvent (.gjoinTimeout core ctx) s = exec (.gjoinTimeout core ctx) s) ∧
    (∀ die, runEvent (.powerWindowEnd die) s = exec (.powerWindowEnd die) s) ∧
    (∀ core at', runEvent (.timingEvent core at') s = exec (.timingEvent core at') s) ∧
    (∀ core, runEvent (.marginWindowEnd core) s = exec (.marginWindowEnd core) s) ∧
    (∀ core, runEvent (.mgnsafeExpire core) s = exec (.mgnsafeExpire core) s) ∧
    (∀ core, runEvent (.regulatorStep core) s = exec (.regulatorStep core) s) ∧
    (∀ core, runEvent (.droopDetect core) s = exec (.droopDetect core) s) ∧
    (∀ die, runEvent (.clockHopEnd die) s = exec (.clockHopEnd die) s) ∧ runEvent .coldReset s = exec .coldReset s ∧
    runEvent .warmReset s = exec .warmReset s ∧ runEvent .bootWatchdogExpire s = exec .bootWatchdogExpire s ∧
    (∀ core, runEvent (.oxeilQuarantine core) s = exec (.oxeilQuarantine core) s) ∧
    (∀ u, runEvent (.unitWindowEnd u) s = exec (.unitWindowEnd u) s) ∧
    (∀ u raise quar, runEvent (.oxeilSetThreshold u raise quar) s = exec (.oxeilSetThreshold u raise quar) s) ∧
    (∀ t, runEvent (.oxeilSetTimer t) s = exec (.oxeilSetTimer t) s) ∧
    (∀ u, runEvent (.requalification u) s = exec (.requalification u) s) ∧
    (∀ src, runEvent (.telemetryRead src) s = exec (.telemetryRead src) s) ∧
    (∀ die, runEvent (.telemetrySample die) s = exec (.telemetrySample die) s) ∧
    (∀ slot, runEvent (.subscriptionSample slot) s = exec (.subscriptionSample slot) s) ∧
    (∀ link seq crcOk, runEvent (.laxelFlit link seq crcOk) s = exec (.laxelFlit link seq crcOk) s) ∧
    (∀ link seq, runEvent (.laxelReplayRequest link seq) s = exec (.laxelReplayRequest link seq) s) ∧
    (∀ link, runEvent (.linkDown link) s = exec (.linkDown link) s) ∧
    (∀ src seq age addr f val, runEvent (.e2eRequestArrive src seq age addr f val) s = exec (.e2eRequestArrive src seq age addr f val) s) ∧
    (∀ seq busy val, runEvent (.e2eResponse seq busy val) s = exec (.e2eResponse seq busy val) s) ∧
    (∀ seq, runEvent (.retransmitTimeout seq) s = exec (.retransmitTimeout seq) s) ∧
    (∀ src seq, runEvent (.dedupExpire src seq) s = exec (.dedupExpire src seq) s) ∧
    (∀ seq cap lease, runEvent (.powerCapMessage seq cap lease) s = exec (.powerCapMessage seq cap lease) s) ∧
    runEvent .capLeaseExpire s = exec .capLeaseExpire s ∧ (∀ nonce, runEvent (.spdmRequest nonce) s = exec (.spdmRequest nonce) s) ∧
    (∀ version image, runEvent (.firmwareUpdate version image) s = exec (.firmwareUpdate version image) s) ∧
    runEvent .activate s = exec .activate s ∧ runEvent .commit s = exec .commit s ∧
    (∀ door v, runEvent (.cfgreqDoorbell door v) s = exec (.cfgreqDoorbell door v) s) ∧
    (∀ core node, runEvent (.engineLineWrite core node) s = exec (.engineLineWrite core node) s) ∧
    (∀ die, runEvent (.clockSourceHop die) s = exec (.clockSourceHop die) s) ∧
    (∀ link ok, runEvent (.linkTrained link ok) s = exec (.linkTrained link ok) s) ∧
    (∀ die ctx, runEvent (.machineExternalInterrupt die ctx) s = exec (.machineExternalInterrupt die ctx) s) ∧
    runEvent .powerLoss s = exec .powerLoss s ∧ (∀ core, runEvent (.bucketDrain core) s = exec (.bucketDrain core) s) ∧
    (∀ u, runEvent (.unitReplacement u) s = exec (.unitReplacement u) s)

/-- Every step keeps memory in its one form: addresses rising, no cell listed that reads as an unlisted one (log 2). -/
def Obligations.StepKeepsMemory : Prop :=
  ∀ s t : State, s.memOk → step s = .next t → t.memOk

/-- No step stops the machine: every instruction, event and request of the spec has a next state. -/
def Obligations.StepAlwaysNext : Prop :=
  ∀ s : State, ∃ t, step s = .next t

/-- The state after reset at the values the tables of chapter 01 and of chapters 12, 20 and 21 state in their Reset columns; memory in its
one form; no command, task, queue or barrier. -/
def Obligations.ResetValues : Prop :=
  let s := State.reset
  s.memOk ∧
  (∀ r ∈ [(0x801, 0x8000000000000000), (0x802, 0), (0x803, 0), (0x804, 32), (0x805, 0), (0x806, 0), (0x807, 0), (0x808, 16), (0x809, 0xFFFF),
      (0xCC0, 0), (0xCC1, 0), (0xCC2, 0xFFFFFFFF), (0xCC3, 0), (0xCC4, 0), (0xCC5, 0), (0xCC6, 0), (0xCC7, 0), (0xCC8, 0), (0xCC9, 0), (0xCCA, 0),
      (0xCCB, 0), (0xCCC, 0), (0x5C0, 4), (0x5C1, 0), (0x5C2, 0), (0x5C3, 0), (0x5C4, 0), (0x5C5, 0), (0x5C6, 0), (0x5C7, 0x1000),
      (0x7C0, 0x130000), (0x7C1, 0), (0x7C2, 0xFFFF01000018), (0x7C3, 0xFFFF040000000000), (0x7C5, 0)], devCsr s r.1 = some (r.2 : Word)) ∧
  (∀ off ∈ [0x10, 0x18, 0x20, 0x28], controlRead s off = 0) ∧
  (∀ c, (s.core c).cycle = 0 ∧ esnapc (s.core c).snap = 0x8000000000000000 ∧ (s.core c).snap.addr = 0 ∧ (s.core c).lpwr = 8192 ∧
    (s.core c).capGen = 0 ∧ (s.core c).capKey = List.replicate 32 0 ∧ ∀ e, (s.core c).stashW0 e = 0 ∧ (s.core c).stashW1 e = 0) ∧
  (∀ d, (s.die d).power.pwrtgt = 266000 ∧ (s.die d).power.lvcfg = 0x100006008 ∧ (s.die d).power.pwrstat = 0x0800000000000000 ∧
    (s.die d).aging = 12 ∧ (s.die d).overflowCap = 960 ∧ ∀ i, (SMap.get {} (s.die d).turnstiles i : Turnstile) = {})

/-- Taking an exception in the context itself (R73, R123, R211, R213, R304, R346): one that is not redirected, or finds no save area or no
room in the deque. Taking an interrupt (R73, R309, R446): as an exception
with the top bit of the cause set, no value, and a vectored handler address. A task's fault that is redirected (R311, R312): its context
is saved at its save area with a fault record 448 bytes in, the task is faulted, the context is empty, and its handler is the bottom
record of the core's deque with the task's priority and column class; while a landing or a refill is in flight it waits and the context
issues nothing. -/
def Obligations.ExceptionEntry : Prop :=
  (∀ (s : State) (e : Exc), e.retire = none →
    redirects s.hart e.cause = false ∨ (allocArea s s.cur.1 s.cur.2).1 = 0 ∨ dequeRoom s s.cur.1 = false →
    let toM := trapsToM s.hart e.cause
    let vector := s.fetched.toNat % 128 = 0x0B ∨ s.fetched.toNat % 128 = 0x2B ∨ s.fetched.toNat % 128 = 0x5B
    let d := s.hart.dev
    let bank : DevCsr := if vector then
        { d with hvtype := d.vtype, hvgrant := d.vgrant.zeroExtend 64, hvstart := d.vstart.zeroExtend 64, hvValid := true,
                 hvLost := d.hvLost || d.hvValid }
      else d
    let base := (if toM then s.hart.std.mtvec else s.hart.std.stvec) &&& ~~~3#64
    let t := takeException s e
    t.hart = entered (interrupted { s.hart with dev := bank, lastPrec := if e.cause = 25 then e.words else s.hart.lastPrec })
      toM (BitVec.ofNat 64 e.cause) (BitVec.ofNat 64 e.tval) s.hart.pc base ∧
    SameBytes s t ∧ (∀ c x, c ≠ s.cur.1 ∨ x % 8 ≠ s.cur.2 % 8 → t.thr c x = s.thr c x) ∧
    (∀ c, c ≠ s.cur.1 → t.core c = { s.core c with ctxs := (t.core c).ctxs }) ∧
    t.myCore = { s.myCore with ctxs := t.myCore.ctxs, gate := unclaimed s.myCore.gate s.cur.2 } ∧ t = { s with cores := t.cores }) ∧
  (∀ (s : State) (i : Nat) (toM : Bool), i < 64 →
    let tvec := if toM then s.hart.std.mtvec else s.hart.std.stvec
    let base := tvec &&& ~~~3#64
    let h := entered (interrupted s.hart) toM (BitVec.ofNat 64 (i + 2 ^ 63)) 0 s.hart.pc
      (if tvec.toNat % 4 = 1 then base + BitVec.ofNat 64 (4 * i) else base)
    let t := s.serveInterrupt i toM
    t.hart = (if i = 17 then { h with reentryPend := false } else h) ∧ SameBytes s t ∧
    (∀ c x, c ≠ s.cur.1 ∨ x % 8 ≠ s.cur.2 % 8 → t.thr c x = s.thr c x) ∧ t = { s with cores := t.cores }) ∧
  (∀ (s u v w : State) (e : Exc) (r : TaskRec) (area : Nat), e.retire = none → s.hart.task = some r → redirects s.hart e.cause = true →
    allocArea s s.cur.1 s.cur.2 = (area, u) → area ≠ 0 → dequeRoom s s.cur.1 = true → s.hart.busyVector = false →
    saveTask u s.cur.1 s.cur.2 r area s.hart.pc = .done v →
    storeWords v s.cur.1 s.cur.2 (taskXlat v r) (area + 448) (faultRecord v s.cur r area e s.hart.pc) = .done w →
    let t := takeException s e
    t.hart.status = .empty ∧ t.hart.task = none ∧ t.mem = w.mem ∧
    (∃ f, t.faulted = w.faulted ++ [f] ∧ f.core = s.cur.1 ∧ f.task.area = area ∧ f.task.saved = true ∧ f.task.handle = r.handle) ∧
    (∃ h, t.myCore.deque.getLast? = some h ∧ wordAt h.words 0 = wordAt r.words 7 ∧
      wordAt h.words 1 = BitVec.ofNat 64 (area + 448) ∧ wordAt h.words 2 = wordAt r.words 2 ∧ wordAt h.words 3 = 0 ∧
      recPriority h.w4 = recPriority r.w4 ∧ recColumn h.w4 = recColumn r.w4 ∧ recClass h.w4 = 0 ∧ h.asid = r.asid)) ∧
  (∀ (s : State) (e : Exc), redirects s.hart e.cause = true → (allocArea s s.cur.1 s.cur.2).1 ≠ 0 → dequeRoom s s.cur.1 = true →
    s.hart.busyVector = true →
    let t := takeException s e
    t.hart = { s.hart with raised := some ⟨e, s.hart.pc, s.fetched, false⟩ } ∧ SameBytes s t ∧
    (∀ c x, c ≠ s.cur.1 ∨ x % 8 ≠ s.cur.2 % 8 → t.thr c x = s.thr c x) ∧ t = { s with cores := t.cores })

/-- What stops a vector instruction before it does anything, in this order, shown of every two-source integer row (R33, R37, R75, R121,
R38, R304): illegality; an empty destination, or an empty source without its trap bit, for which it waits; an empty source with its trap
bit; a bound register in a group; the dispatch gate. -/
def Obligations.VectorRefusals : Prop :=
  ∀ r ∈ intRows, ∀ (o : OpB) (s : State),
    let i := intInfo s o r.weight r.acc
    let g := s.hart.dev.grp
    (i.legal s = true ↔ s.hart.dev.vill = false ∧ intTag s.hart.dev = true ∧ o.vd.toNat % g = 0 ∧ o.vs2.toNat % g = 0 ∧
      (∀ v, o.src = .vv v → v.toNat % g = 0) ∧ (o.m = true → s.shape.n ≤ s.hart.vlen ∧ o.vd.toNat ≠ 0)) ∧
    (i.legal s = false → exec (r.instr o) s = finish (illegal s)) ∧
    (i.legal s = true → s.hart.anyEmpty i.dst = true ∨ s.hart.emptyIn false i.reads ≠ none →
      exec (r.instr o) s = .next (dropClaim s s.cur.1 s.cur.2)) ∧
    (∀ v, i.legal s = true → s.hart.anyEmpty i.dst = false → s.hart.emptyIn false i.reads = none →
      s.hart.emptyIn true i.reads = some v → exec (r.instr o) s = .next (takeException s { cause := 24, tval := v % 32 })) ∧
    (∀ v, i.legal s = true → s.hart.anyEmpty (i.reads ++ i.dst) = false → boundGroup s.hart (i.reads ++ i.dst) = some v →
      exec (r.instr o) s = .next (takeException s { cause := 30, tval := v % 32 + 8 * 256 })) ∧
    (i.legal s = true → s.hart.anyEmpty (i.reads ++ i.dst) = false → s.hart.binds = [] → s.gateOpen i.charge = false →
      exec (r.instr o) s = .next (s.modGate (fun q =>
        { q with refused := q.refused + 1, claim := if q.claim = none then some (s.cur.2, i.charge) else q.claim })))

/-- The acting registers of a core's block (R326, R442, R443, R445, R306, R310, R451) and the control window's plain registers (Table
20-1). -/
def Obligations.RegisterBlock : Prop :=
  ∀ (s : State) (c x : Nat) (v : Word),
    let k := s.core c
    (∀ e, e < 64 →
      let on := (k.stashW0 e).getLsbD 0
      let u := writeBack s (if on then (k.sectors.filter (fun p => p.2.entry == e && p.2.dirty)).map (fun p => p.2.sector) else [])
      let left := if on then k.sectors.filter (fun p => p.2.entry != e) else k.sectors
      let kept : Word := v &&& ~~~0xFF#64
      OnlyTags s u ∧
      (¬ v.getLsbD 0 = true → exec (.stashMapWord0Write c e v) s =
        .next (u.setCore c { k with sectors := left, stash0 := k.stash0.put e (kept ||| (k.stashW0 e &&& 2)) })) ∧
      (v.getLsbD 0 = true → mapRefused k e v → exec (.stashMapWord0Write c e v) s =
        .next (u.setCore c { k with sectors := left, stash0 := k.stash0.put e (kept ||| 2) })) ∧
      (v.getLsbD 0 = true → ¬ mapRefused k e v → exec (.stashMapWord0Write c e v) s =
        .next (u.setCore c { k with sectors := left, stash0 := k.stash0.put e (kept ||| 1) })) ∧
      exec (.stashMapWord1Write c e v) s = .next (u.setCore c { k with
        sectors := left, stash1 := k.stash1.put e (v &&& 0xFF000), stash0 := k.stash0.put e (k.stashW0 e &&& ~~~1#64) })) ∧
    (k.snap.done = false → exec (.snapshot c v) s = .next s) ∧
    (k.snap.done = true → Answers (exec (.snapshot c v) s) (fun t =>
      (t.core c).snap = { k.snap with done := false, err := false, count := 0, mask := v.toNat % 256, satp := satpOf s c } ∧
      t.agenda = s.agenda ++ [.snapshotEnd c] ∧ t.mem = s.mem ∧ (t.core c).ctxs = k.ctxs)) ∧
    (k.snap.done = true → exec (.snapshotEnd c) s = .next s) ∧
    (k.snap.done = false → (maskedNodes k).any (fun e => e.2.kind == 7 && e.2.st == .running) = false →
      (maskedNodes k).any (fun e => snapWaits e.2) = true → exec (.snapshotEnd c) s = .next (s.later (.snapshotEnd c))) ∧
    (k.snap.done = false → k.nodes = [] → exec (.snapshotEnd c) s =
      .next ({ s with cur := (c, 0) }.setCore c { k with snap := { k.snap with done := true, err := false, count := 0 } })) ∧
    (∀ e u, k.snap.done = false → maskedNodes k = [e] → e.2.st = .waiting → k.nodes = [e] →
      plainPut { s with cur := (c, 0) } { satp := k.snap.satp, priv := .S } (engVa k.snap.satp k.snap.addr.toNat) (snapRecord s c e.2) = .done u →
      Answers (exec (.snapshotEnd c) s) (fun t => t.mem = u.mem ∧ (t.core c).snap.done = true ∧ (t.core c).snap.err = false ∧
        (t.core c).snap.count = 1 ∧ (t.node c e.1).st = .free ∧ (t.node c e.1).dcount = 0)) ∧
    ((s.thr c x).gang ≠ none ∨ (s.thr c x).task = none → exec (.requeue c x v) s = .next s) ∧
    ((s.thr c x).gang = none → (s.thr c x).task ≠ none → exec (.requeue c x v) s = .next (s.setThr c x
      { s.thr c x with requeue := some (fieldOf v 6 42 * 64, v.getLsbD 1, v.getLsbD 0) })) ∧
    (∀ rd r, (s.thr c x).task = some r → r.area ≠ 0 →
      exec (.saveareaRead c x rd) s = .next (s.setThr c x ((s.thr c x).setX rd (BitVec.ofNat 64 r.area)))) ∧
    (∀ rd r a i, (s.thr c x).task = some r → r.area = 0 → s.aspace r.asid = some a → i < a.poolCount → i ∉ a.used → (∀ j, j < i → j ∈ a.used) →
      let area := a.poolBase + a.poolSize * i
      exec (.saveareaRead c x rd) s = .next ((s.setASpace r.asid { a with used := a.used ++ [i] }).setThr c x
        (({ s.thr c x with task := some { r with area := area } } : Ctx).setX rd (BitVec.ofNat 64 area)))) ∧
    (∀ rd r a, (s.thr c x).task = some r → r.area = 0 → s.aspace r.asid = some a → (∀ j, j < a.poolCount → j ∈ a.used) →
      exec (.saveareaRead c x rd) s = .next (s.setThr c x ((s.thr c x).setX rd 0))) ∧
    (∀ d, let p := (s.die d).power
      let lo := fieldOf v 0 8
      let hi := fieldOf v 8 8
      exec (.lvcfgWrite d v) s = .next ({ (s.setDie d { s.die d with power := { p with
        wait := v.extractLsb' 16 32, ceiling := v.extractLsb' 8 8, floor := v.extractLsb' 0 8,
        limit := if hi < lo then lo else max lo (min hi p.limit) } }) with timers := s.timers ++ p.asking.map (fun (e : Nat × Nat) =>
          (s.now + ((s.node e.1 e.2).leaveSince + sliceTicks (fieldOf v 16 32) - s.now), Event.leaveWaitExpire d e.1 e.2)) }.later
        (.leaveAdmit d))) ∧
    (s.host.pend = none →
      exec (.registerWrite (.bar0 0x18 v)) s = .next { s with host := { s.host with hwbase := v &&& ~~~0xFFF#64 } } ∧
      exec (.registerWrite (.bar0 0x20 v)) s = .next { s with host := { s.host with pdropAny := s.host.pdropAny && !v.getLsbD 63 } } ∧
      exec (.registerWrite (.bar0 0x28 v)) s = .next { s with host := { s.host with
        msiEn := v.getLsbD 15, msiVec := v.extractLsb' 0 11 } }) ∧
    (s.coreUp c = true →
      exec (.registerWrite (.block c 0x410 v)) s =
        .next (s.setCore c { k with snap := { k.snap with addr := BitVec.ofNat 64 (fieldOf v 7 41 * 128) } }) ∧
      exec (.registerWrite (.block c 0x800 v)) s = .next (s.setDie (dieOf c) { s.die (dieOf c) with power :=
        { (s.die (dieOf c)).power with lfloor := v.extractLsb' 32 3, target := v.extractLsb' 0 32 } }) ∧
      exec (.registerWrite (.block c 0x818 v)) s = .next (s.setCore c { k with quar := { k.quar with
        report := k.quar.report && !v.getLsbD 0 } }))

/-- How a request ends (R418, Table 20-3): word 7 takes bit 63, the detail and the status; it leaves its doorbell's queue and is counted;
the next one starts; the host's vector is posted where CFGMSI says so. A request in recovery mode, unreadable, or of an unknown opcode
ends with 0x05, 0x07, 0x01. Doorbells (R415, R418): a write appends the request's address, the first of an empty queue starting at once; a
misaligned address or a full doorbell of the host is marked; a device's store to a full doorbell waits. Which event a request becomes is
its opcode's. -/
def Obligations.RequestsAndDoorbells : Prop :=
  (∀ (s : State) (r : CfgReq) (status detail : Nat),
    (r.addr + 64 ≤ dramTop s → s.host.waits = [] → ∀ a, (completeRequest s r status detail).byte a =
      putBytes s.byte (r.addr + 56) 8 (2 ^ 63 + detail % 2 ^ 16 * 2 ^ 16 + status) a) ∧
    (∀ c, s.host.waits = [] → r.door = some c → (s.core c).bell.queue.head? = some r.addr →
      let t := completeRequest s r status detail
      (t.core c).bell = { (s.core c).bell with queue := (s.core c).bell.queue.drop 1, count := (s.core c).bell.count + 1 } ∧
      t.host = s.host ∧ (∀ a, (s.core c).bell.queue.drop 1 = [a] → ∃ e, t.agenda = s.agenda ++ [e]) ∧
      ((s.core c).bell.queue.drop 1 = [] → t.agenda = s.agenda)) ∧
    (r.door = none → s.host.waits = [] → s.host.bell.queue.head? = some r.addr →
      let t := completeRequest s r status detail
      t.host.bell = { s.host.bell with queue := s.host.bell.queue.drop 1, count := s.host.bell.count + 1 } ∧
      t.host.posts = s.host.posts ++ (if s.host.msiEn then [.msix s.host.msiVec.toNat] else [])) ∧
    (∀ i ∈ [Instr.queue r, .turnstile r, .pool r, .barrier r, .pinned r, .sched r, .aspace r, .asrel r, .fenceRequest r, .capkey r, .ring r,
        .nvmeqp r, .waitword r, .subscribe r, .launch r, .install r],
      (s.boot.recovery = true → Refused i s r 0x05) ∧
      (s.boot.recovery = false → dramTop s < r.addr + 64 → s.badIn r.addr 64 = none → Refused i s r 0x07) ∧
      (∀ k, s.boot.recovery = false → s.badIn r.addr 64 = some k →
        exec i s = .next (completeRequest (s.retirePage (k * 32 / 4096)) r 0x07 0)) ∧
      (s.boot.recovery = false → r.addr + 64 ≤ dramTop s → s.badIn r.addr 64 = none →
        reqWord s r 0 % 256 = 0 ∨ 0x10 < reqWord s r 0 % 256 → Refused i s r 0x01))) ∧
  (∀ (s : State) (v : Word),
    let addr := v.toNat % 2 ^ 48
    (s.host.pend = none →
      let b := s.host.bell
      (addr % 64 ≠ 0 → exec (.cfgreqDoorbell none v) s = .next { s with host := { s.host with bell := { b with mis := true } } }) ∧
      (addr % 64 = 0 → 16 ≤ b.queue.length →
        exec (.cfgreqDoorbell none v) s = .next { s with host := { s.host with bell := { b with ovf := true } } }) ∧
      (addr % 64 = 0 → b.queue.length < 16 →
        let u : State := { s with host := { s.host with bell := { b with queue := b.queue ++ [addr] } } }
        exec (.cfgreqDoorbell none v) s = .next (if b.queue = [] then u.later (requestRow s ⟨none, addr⟩) else u))) ∧
    (∀ c, let k := s.core c
      (addr % 64 ≠ 0 → exec (.cfgreqDoorbell (some c) v) s = .next (s.setCore c { k with bell := { k.bell with mis := true } })) ∧
      (addr % 64 = 0 → 16 ≤ k.bell.queue.length → exec (.cfgreqDoorbell (some c) v) s = .next (s.later (.cfgreqDoorbell (some c) v))) ∧
      (addr % 64 = 0 → k.bell.queue.length < 16 →
        let u := s.setCore c { k with bell := { k.bell with queue := k.bell.queue ++ [addr] } }
        exec (.cfgreqDoorbell (some c) v) s = .next (if k.bell.queue = [] then u.later (requestRow s ⟨some c, addr⟩) else u))) ∧
    (∀ r : CfgReq, ∀ p ∈ requestEvents r, (s.byte r.addr).toNat = p.1 → requestRow s r = p.2))

/-- The requests that configure a die's objects (Table 20-2, R285, R288, R289, R294 to R296, R330): QUEUE, TURNSTILE, POOL, BARRIER, whose
waits end with cause 29, reason 4, PINNED and the ways a pinned size takes, SCHED. -/
def Obligations.ObjectRequests : Prop :=
  ∀ (s : State) (r : CfgReq),
    let w := reqWord s r
    (Asked s r 0x01 [0xFFF, 0x7FFF, 0x1FFFFF001FFFFF, 0xFFFF, 0, 0] →
      let q := queueOfRequest w
      let home := w 1 % 4
      let good := q.mode ≠ 3 ∧ q.priority ≤ 47 ∧ 0 < q.capacity ∧ q.capacity ≤ 2 ^ 20 ∧ 0 < q.threshold ∧ q.threshold ≤ q.capacity
      let old : Queue := SMap.get {} s.queues (w 1)
      ((w 2).testBit 0 = true → ¬ good → Refused (.queue r) s r 0x02) ∧
      (((w 2).testBit 0 = true → good) → s.dieLive home = false → Refused (.queue r) s r 0x05) ∧
      (((w 2).testBit 0 = true → good) → s.dieLive home = true → w 4 ≠ 0 → s.aspace (w 4) = none → Refused (.queue r) s r 0x06) ∧
      (((w 2).testBit 0 = true → good) → s.dieLive home = true → (w 4 = 0 ∨ (s.aspace (w 4)).isSome = true) →
        (old.items ≠ [] → Refused (.queue r) s r 0x03) ∧
        ((w 2).testBit 0 = false → old.items = [] → Done (.queue r) s r (s.setQueue (w 1) {})) ∧
        ((w 2).testBit 0 = true → old.items = [] → pinnedUse s home - queueBytes old + queueBytes q ≤ 2 ^ 25 →
          Done (.queue r) s r (s.setQueue (w 1) q)) ∧
        ((w 2).testBit 0 = true → old.items = [] → 2 ^ 25 < pinnedUse s home - queueBytes old + queueBytes q →
          Refused (.queue r) s r 0x04))) ∧
    (Asked s r 0x02 [0x3FFF, 0, 0, 0, 0, 0] →
      (s.dieLive (w 1 / 4096) = true → Done (.turnstile r) s r (s.setTurn (w 1 / 4096) (w 1 % 4096) {})) ∧
      (s.dieLive (w 1 / 4096) = false → Refused (.turnstile r) s r 0x05)) ∧
    (Asked s r 0x03 [0x1F, 2 ^ 64 - 1, 0, 0, 0, 0] →
      let d := w 1 / 8
      let old : Pool := SMap.get {} (s.die d).pools (w 1 % 8)
      (2 ^ 16 < w 2 → Refused (.pool r) s r 0x02) ∧
      (w 2 ≤ 2 ^ 16 → s.dieLive d = true → old.out ≠ [] → Refused (.pool r) s r 0x03) ∧
      (w 2 ≤ 2 ^ 16 → s.dieLive d = true → old.out = [] → (w 2 = 0 ∨ old.size ≠ 0 ∨ pinnedUse s d + 8192 ≤ 2 ^ 25) →
        Done (.pool r) s r (s.setPool d (w 1 % 8) { size := w 2 }))) ∧
    (Asked s r 0x04 [0x73F, 0xFFFF, 0xFFFFFFFF, 2 ^ 64 - 1, 0xFFFFFFFF, 0] →
      let fresh := fun (k : BarKey) (members : List Nat) => waitsBroken (s.setBarrier k
        { members := members, n := w 2, timeout := w 3, epoch := (s.barrier k).epoch + 1 }) k
      ((w 1).testBit 8 = false → s.dieLive (w 1 / 512) = true →
        let m := ((List.range 96).filter (fun i => (w 4 + w 5 * 2 ^ 64).testBit i)).map (fun i => i + w 1 / 512 * 96)
        (w 2 ≤ m.length → Done (.barrier r) s r (fresh ⟨false, w 1 / 512, w 1 % 64⟩ m)) ∧
        (m.length < w 2 → Refused (.barrier r) s r 0x02)) ∧
      ((w 1).testBit 8 = true → w 1 / 512 = 0 → w 1 % 64 < 16 → w 4 = 0 → w 5 = 0 →
        let m := (List.range 384).filter s.coreUp
        (w 2 ≤ m.length → Done (.barrier r) s r (fresh ⟨true, 0, w 1 % 64⟩ m)) ∧
        (m.length < w 2 → Refused (.barrier r) s r 0x02))) ∧
    (Asked s r 0x05 [3, 2 ^ 64 - 1, 0, 0, 0, 0] → s.dieLive (w 1) = true →
      (2 ^ 25 < w 2 → Refused (.pinned r) s r 0x02) ∧
      (w 2 ≤ 2 ^ 25 → w 2 < pinnedUse s (w 1) → Refused (.pinned r) s r 0x03) ∧
      (w 2 ≤ 2 ^ 25 → pinnedUse s (w 1) ≤ w 2 → Done (.pinned r) s r (s.setDie (w 1) { s.die (w 1) with pinned := w 2 }))) ∧
    (∀ size ways, pinnedWays size ≤ ways ↔ size ≤ 31 * ways * 2 ^ 17) ∧
    (Asked s r 0x06 [3, 0x1F, 0xFFFF, 0, 0, 0] → s.dieLive (w 1) = true →
      let held := s.cores.any (fun e => dieOf e.1 == w 1 && decide (w 3 < e.2.overflow.length))
      (held = true → Refused (.sched r) s r 0x03) ∧
      (held = false → pinnedUse s (w 1) - (s.die (w 1)).overflowCap * 6144 + w 3 * 6144 ≤ 2 ^ 25 →
        Done (.sched r) s r (s.setDie (w 1) { s.die (w 1) with aging := BitVec.ofNat 5 (w 2), overflowCap := w 3 })))

/-- The requests of address spaces, keys, rings, drives, wait words, subscriptions, launches and routines (Table 20-2, R421 to R428, R334,
R233). -/
def Obligations.ServiceRequests : Prop :=
  ∀ (s : State) (r : CfgReq),
    let w := reqWord s r
    let all := 2 ^ 64 - 1
    (Asked s r 0x07 [0xFFFF, all, all, all, 0xFFFFFFFFFFFFF, 0] →
      let size := w 5 % 2 ^ 32
      let good := w 1 ≠ 0 ∧ w 2 / 2 ^ 60 = 9 ∧ w 2 / 2 ^ 44 % 2 ^ 16 = w 1 ∧ w 3 % 4096 = 0 ∧ w 4 % 4096 = 0 ∧ size % 64 = 0 ∧
        512 ≤ size ∧ w 5 / 2 ^ 32 ≠ 0
      (¬ good → Refused (.aspace r) s r 0x02) ∧ (good → (s.aspace (w 1)).isSome = true → Refused (.aspace r) s r 0x06) ∧
      (good → s.aspace (w 1) = none → Done (.aspace r) s r (s.setASpace (w 1)
        { satp := BitVec.ofNat 64 (w 2), actbase := BitVec.ofNat 64 (w 3), poolBase := w 4, poolSize := size, poolCount := w 5 / 2 ^ 32 }))) ∧
    (Asked s r 0x08 [0xFFFF, 0, 0, 0, 0, 0] →
      (s.aspace (w 1) = none → Refused (.asrel r) s r 0x06) ∧
      ((s.aspace (w 1)).isSome = true → spaceInUse s (w 1) = true → Refused (.asrel r) s r 0x03) ∧
      ((s.aspace (w 1)).isSome = true → spaceInUse s (w 1) = false → Done (.asrel r) s r
        { s with aspaces := s.aspaces.del (w 1), installed := s.installed.del (w 1) })) ∧
    (Asked s r 0x09 [0x1FFFF, 0, 0, 0, 0, 0] →
      let everyone := (w 1).testBit 16
      (everyone = false → s.aspace (w 1 % 2 ^ 16) = none → Refused (.fenceRequest r) s r 0x06) ∧
      (∀ u, (everyone = true ∨ (s.aspace (w 1 % 2 ^ 16)).isSome = true) →
        fenceVma s (if everyone then none else some (w 1 % 2 ^ 16)) none (s.cores.map (fun e => e.1)) = .done u →
        Done (.fenceRequest r) s r u) ∧
      ((everyone = true ∨ (s.aspace (w 1 % 2 ^ 16)).isSome = true) →
        fenceVma s (if everyone then none else some (w 1 % 2 ^ 16)) none (s.cores.map (fun e => e.1)) = .wait →
        exec (.fenceRequest r) s = .next (s.later (.fenceRequest r)))) ∧
    (Asked s r 0x0A [0x1FF, 0xFF, all, all, all, all] →
      (∀ e, coreStatus s (w 1) = some e → Refused (.capkey r) s r e) ∧
      (coreStatus s (w 1) = none → Done (.capkey r) s r (s.setCore (w 1) { s.core (w 1) with
        capGen := BitVec.ofNat 8 (w 2),
        capKey := (List.range 32).map (fun i => BitVec.ofNat 8 (w (3 + i / 8) / 2 ^ (8 * (i % 8)))) }))) ∧
    (Asked s r 0x0B [0x1FF, all, 0x1F, all, all, 0] →
      let good := w 2 % 16 = 0 ∧ 4 ≤ w 3 ∧ w 3 ≤ 16 ∧ w 4 % 8 = 0 ∧ w 5 % 8 = 0 ∧ w 2 + 16 * 2 ^ w 3 ≤ dramTop s ∧ w 4 + 8 ≤ dramTop s ∧
        w 5 + 8 ≤ dramTop s
      (w 2 ≠ 0 → ¬ good → Refused (.ring r) s r 0x02) ∧
      (∀ e, (w 2 ≠ 0 → good) → coreStatus s (w 1) = some e → Refused (.ring r) s r e) ∧
      (w 2 ≠ 0 → good → coreStatus s (w 1) = none → Done (.ring r) s r (s.setCore (w 1) { s.core (w 1) with
        ring := { base := w 2, log2 := w 3, tailAt := w 4, headAt := w 5 } })) ∧
      (w 2 = 0 → coreStatus s (w 1) = none → Done (.ring r) s r (s.setCore (w 1) { s.core (w 1) with ring := {} }))) ∧
    (Asked s r 0x0C [0x1FF, all, all, 0xFFFFFFFF, all, 0xFFFFFFFF] →
      let qp := w 1 % 256
      let n := w 4 % 2 ^ 16 + 1
      let pair : NvmePair := { sq := w 2, cq := w 3, entries := n, nvmeId := w 4 / 2 ^ 16, bell := w 5, log2Block := w 6 % 256,
                               log2Xfer := w 6 / 256 % 256, cqBell := w 6 / 2 ^ 16 }
      let good := 9 ≤ w 6 % 256 ∧ w 6 % 256 ≤ 16 ∧ 12 ≤ w 6 / 256 % 256 ∧ w 6 / 256 % 256 ≤ 20 ∧ w 2 + 64 * n ≤ dramTop s ∧
        w 3 + 16 * n ≤ dramTop s ∧ 2 ^ 40 ≤ w 5 ∧ w 5 < 2 ^ 41
      ((w 1).testBit 8 = true → ¬ good → Refused (.nvmeqp r) s r 0x02) ∧
      (((w 1).testBit 8 = true → good) → pairInUse s qp = true → Refused (.nvmeqp r) s r 0x03) ∧
      ((w 1).testBit 8 = true → good → pairInUse s qp = false → Done (.nvmeqp r) s r
        { s with host := { s.host with nvme := s.host.nvme.put qp pair } }) ∧
      ((w 1).testBit 8 = false → pairInUse s qp = false → Done (.nvmeqp r) s r
        { s with host := { s.host with nvme := s.host.nvme.del qp } })) ∧
    (Asked s r 0x0D [0x7FF0303FF, all, 7, all, all, 0] →
      let slot := w 1 % 2 ^ 10
      let word : WaitWord := { addr := w 2, cond := w 3, operand := BitVec.ofNat 64 (w 4), host := w 5,
                               msi := if (w 1).testBit 17 then some (w 1 / 2 ^ 24) else none }
      let good := w 3 ≤ 3 ∧ w 2 % 8 = 0 ∧ w 2 + 8 ≤ dramTop s ∧ w 5 % 8 = 0
      let armed : State := { s with host := { s.host with waits := s.host.waits.put slot word } }
      ((w 1).testBit 16 = false → Done (.waitword r) s r { s with host := { s.host with waits := s.host.waits.del slot } }) ∧
      ((w 1).testBit 16 = true → ¬ good → Refused (.waitword r) s r 0x02) ∧
      ((w 1).testBit 16 = true → good → s.badIn (w 2) 8 = none → Done (.waitword r) s r (testWait armed slot word)) ∧
      (∀ k, (w 1).testBit 16 = true → good → s.badIn (w 2) 8 = some k →
        exec (.waitword r) s = .next (completeRequest (s.retirePage (k * 32 / 4096)) r 0x07 0)) ∧
      (s.badIn (w 2) 8 = none → word.holds (BitVec.ofNat 64 (s.peek (w 2) 8)) = false → testWait armed slot word = armed)) ∧
    (Asked s r 0x0E [0x1FF007F, all, all, all, 0x87FF, 0] →
      let slot := w 1 % 2 ^ 6
      let sub : Subscription := {
        source := w 1 / 2 ^ 16 % 4, die := w 1 / 2 ^ 18 % 4, sensor := w 1 / 2 ^ 20 % 32,
        low := (BitVec.ofNat 64 (w 2)).toInt, high := (BitVec.ofNat 64 (w 3)).toInt, notify := w 4,
        msi := if (w 5).testBit 15 then some (w 5 % 2 ^ 11) else none }
      let good := sub.low < sub.high ∧ w 4 % 8 = 0 ∧ w 4 + 8 ≤ dramTop s
      (sub.high ≤ sub.low → Refused (.subscribe r) s r 0x02) ∧
      (sub.low < sub.high → (w 1).testBit 6 = false →
        Done (.subscribe r) s r { s with host := { s.host with subs := s.host.subs.del slot } }) ∧
      ((w 1).testBit 6 = true → ¬ good → Refused (.subscribe r) s r 0x02) ∧
      ((w 1).testBit 6 = true → good → sub.source ≠ 3 → s.dieLive sub.die = false → Refused (.subscribe r) s r 0x05) ∧
      ((w 1).testBit 6 = true → good → sub.source = 3 ∨ s.dieLive sub.die = true →
        (∀ e ∈ s.timers, e.2 ≠ .subscriptionSample slot) → Done (.subscribe r) s r
          { s with host := { s.host with subs := s.host.subs.put slot sub },
                   timers := s.timers ++ [(s.now + 65536 * 91, .subscriptionSample slot)] })) ∧
    (Asked s r 0x0F [0xFFFF, all, 3, 0, 0, 0] →
      (w 2 % 64 ≠ 0 → Refused (.launch r) s r 0x02) ∧
      (w 2 % 64 = 0 → s.dieLive (w 3) = true → s.aspace (w 1) = none → Refused (.launch r) s r 0x06) ∧
      (∀ a ws u, w 2 % 64 = 0 → s.dieLive (w 3) = true → s.aspace (w 1) = some a →
        plainWords (asRingmaster s (w 3)) (userXlat a.satp) (w 2) 8 = .done (ws, u) →
        ((wordAt ws 4).getLsbD 13 = false → Refused (.launch r) s r 0x02) ∧
        ((wordAt ws 4).getLsbD 13 = true → Done (.launch r) s r (startRequest u (w 3)
          { words := ws, asid := w 1, sup := true, since := s.now }))) ∧
      (∀ a e, w 2 % 64 = 0 → s.dieLive (w 3) = true → s.aspace (w 1) = some a →
        plainWords (asRingmaster s (w 3)) (userXlat a.satp) (w 2) 8 = .trap e → e.retire = none → Refused (.launch r) s r 0x07)) ∧
    (Asked s r 0x10 [0xFFFF, 0x11F, 0, 0, 0, 0] →
      (s.aspace (w 1) = none → Refused (.install r) s r 0x06) ∧
      (∀ a st u, s.aspace (w 1) = some a →
        let c := match r.door with | some d => d | none => 0
        install { s with cur := (c, 0) } c 0 (w 1) a.satp a.actbase (w 2 % 32) (BitVec.ofNat 64 (w 2 / 2 ^ 8)) = .done (st, u) →
        (st = 0 → Done (.install r) s r u) ∧
        (st ≠ 0 → exec (.install r) s = .next (completeRequest { s with retired := u.retired, events := u.events } r 0x08
          (st % 2 ^ 8 + st / 2 ^ 16 % 2 ^ 5 * 2 ^ 8)))))

/-- The host's accesses (R414 to R416, R420): reads and writes of BAR 4 reach device memory, of BAR 0 the control window, pushes the queue
they name, an ATS invalidation drops the page and is answered. One access is behind another that waits (R352). That offsets of the three
BARs follow one another in one operand, and that its bit 39 is the relaxed-ordering attribute, with which an access waits behind none, is
the model's convention (log 23). -/
def Obligations.HostAccesses : Prop :=
  ∀ (s : State) (wd : MemW) (v : Word),
    let n := accessBytes wd
    let open' := s.boot.recovery = false ∧ s.boot.poweredDown = false
    (∀ p off, s.host.pend = some p → off.testBit 39 = false → p ≠ .hostRead off wd ∨ p ∈ s.agenda → exec (.hostRead off wd) s =
      .next { s with host := { s.host with behind := s.host.behind ++ [.hostRead off wd] } }) ∧
    (∀ p off, s.host.pend = some p → off.testBit 39 = false → p ≠ .hostWrite off wd v ∨ p ∈ s.agenda → exec (.hostWrite off wd v) s =
      .next { s with host := { s.host with behind := s.host.behind ++ [.hostWrite off wd v] } }) ∧
    (s.host.pend = none →
      (∀ pa, pa + n ≤ dramTop s →
        (s.ownedIn pa n = true →
          exec (.hostRead pa wd) s = .next ({ s with host := { s.host with pend := some (.hostRead pa wd) } }.later (.hostRead pa wd)) ∧
          exec (.hostWrite pa wd v) s =
            .next ({ s with host := { s.host with pend := some (.hostWrite pa wd v) } }.later (.hostWrite pa wd v))) ∧
        (open' → s.ownedIn pa n = false →
          (s.badIn pa n = none → Answers (exec (.hostRead pa wd) s) (fun t =>
            OnlyTags s t ∧ t.host.posts.getLast? = some (.readReply true (s.peek pa n)))) ∧
          (∀ k, s.badIn pa n = some k →
            exec (.hostRead pa wd) s = .next ((s.retirePage (k * 32 / 4096)).post (.readReply false 0))) ∧
          Answers (exec (.hostWrite pa wd v) s) (fun t => Stored s t [(pa, n, v.toNat)] ∧ OnlyBytes s t))) ∧
      (∀ pa, pa < 2 ^ 38 → dramTop s < pa + n →
        exec (.hostRead pa wd) s = .next (s.post (.readReply false 0)) ∧ exec (.hostWrite pa wd v) s = .next s) ∧
      (∀ o, o < 65536 →
        exec (.hostRead (2 ^ 38 + o) wd) s =
          .next (s.post (.readReply true (if n = 8 ∧ o % 8 = 0 then (controlRead s o).toNat else 0))) ∧
        (n = 8 → o % 8 = 0 → exec (.hostWrite (2 ^ 38 + o) wd v) s = exec (.registerWrite (.bar0 o v)) s) ∧
        (n ≠ 8 ∨ o % 8 ≠ 0 → exec (.hostWrite (2 ^ 38 + o) wd v) s = .next s)) ∧
      (∀ o, o < 262144 → open' →
        exec (.hostRead (2 ^ 38 + 65536 + o) wd) s = .next (s.post (.readReply true 0)) ∧
        exec (.hostWrite (2 ^ 38 + 65536 + o) wd v) s = .next (pushDropped s (o / 64))) ∧
      (∀ i size ws, i < 4096 → open' →
        (size ≠ 64 ∨ ws.length ≠ 8 → exec (.hostPush i size ws) s = .next (pushDropped s i)) ∧
        (size = 64 → ws.length = 8 →
          (s.queueOf (BitVec.ofNat 64 i) = none → exec (.hostPush i size ws) s = .next (pushDropped s i)) ∧
          (∀ m q, s.queueOf (BitVec.ofNat 64 i) = some (m, q) →
            let bad := q.records = true ∧ (q.hostAsid = 0 ∨ (recordReason (wordAt ws 4) true).isSome = true)
            (bad ∨ q.capacity ≤ q.items.length → exec (.hostPush i size ws) s = .next (pushDropped s i)) ∧
            (¬ bad → q.items.length < q.capacity → exec (.hostPush i size ws) s =
              .next (afterPush s m q (hostRecord s q ws))))))) ∧
    (∀ pa, pa + n ≤ dramTop s →
      (s.ownedIn pa n = true → exec (.hostRead (2 ^ 39 + pa) wd) s = .next (s.later (.hostRead (2 ^ 39 + pa) wd)) ∧
        exec (.hostWrite (2 ^ 39 + pa) wd v) s = .next (s.later (.hostWrite (2 ^ 39 + pa) wd v))) ∧
      (open' → s.ownedIn pa n = false →
        (s.badIn pa n = none → Answers (exec (.hostRead (2 ^ 39 + pa) wd) s) (fun t =>
          OnlyTags s t ∧ t.host.posts.getLast? = some (.readReply true (s.peek pa n)))) ∧
        Answers (exec (.hostWrite (2 ^ 39 + pa) wd v) s) (fun t => Stored s t [(pa, n, v.toNat)] ∧ OnlyBytes s t))) ∧
    (∀ page, exec (.atsInvalidation page) s = .next { s with host := { s.host with
      ats := s.host.ats.filter (fun p => p != page), posts := s.host.posts ++ [.atsDone page] } })

/-- Operations that end later (R176, R233 to R239, R473): an act of a line, each instruction's in the order of its elements, runs its
routine, which its slice holds or reads from the table, on the line, or aborts with a status; the last answer of a vact lets it write its
elements; a vacc.x that waited for the ports fills its register. Slice routines (R236 to R238):
what the register operations of Table 08-5 leave; a routine ends with its first adone in y0 and the line; an illegal word, a word 31 that
is no adone, and a cost above 40 cycles abort it. -/
def Obligations.LateOperations : Prop :=
  (∀ s : State,
    (∀ line, (∃ q ∈ s.acts, lineOf q.addr = line) → ∃ q ∈ s.acts, lineOf q.addr = line ∧
      (∀ p ∈ s.acts, lineOf p.addr = line → p.core = q.core → p.ctx = q.ctx → p.tag = q.tag → q.elem ≤ p.elem) ∧
      let s0 := { s with fresh := s.fresh + 1 }
      (s0.blocked q.core q.ctx .A q.addr 128 = true ∨ actEnd s0 q = none →
        exec (.actPerform line) s = .next (s0.later (.actPerform line))) ∧
      (s0.blocked q.core q.ctx .A q.addr 128 = false → (∀ o, regionOf s q.addr ≠ .host o) →
        ∀ w, (s.thr q.core q.ctx).act = some w → w.tag = q.tag →
        let last := if w.vector = true ∧ w.left ≤ 1 then [Event.vactComplete q.core q.ctx] else []
        (∀ r l u, actEnd s0 q = some (.ok r l, u) → Answers (exec (.actPerform line) s) (fun t =>
          t.acts = s.acts.erase q ∧ Stored s t [(q.addr, 128, l)] ∧ t.agenda = s.agenda ++ last ∧
          (t.thr q.core q.ctx).act = some { w with left := w.left - 1, results := w.results.put q.elem (BitVec.ofNat 64 r) })) ∧
        (∀ st i u, actEnd s0 q = some (.abort st i, u) → Answers (exec (.actPerform line) s) (fun t =>
          t.acts = s.acts.erase q ∧ SameBytes s t ∧ t.agenda = s.agenda ++ last ∧
          (t.thr q.core q.ctx).act = some { w with left := w.left - 1,
                                                   aborts := w.aborts.put q.elem (st + q.id * 2 ^ 8 + i * 2 ^ 16) })))) ∧
    (∀ q : ActReq,
      let installed := q.actbase ≠ 0 ∧ (SMap.get 0 s.installed q.asid : BitVec 32).getLsbD q.id = true
      let slice := 31 * homeDie s (lineOf q.addr) + lineOf q.addr % 31
      let cached := (SMap.get [] s.copies.routines slice : List Routine).find? (fun e => e.asid == q.asid && e.id == q.id)
      let place := fun p => translate s (tableXlat q.core q.satp) .load (engVa q.satp (q.actbase.toNat + 128 * q.id)) = .done p
      let runs := fun ws : List Nat =>
        (s.badIn q.addr 128 ≠ none → ∃ u, actEnd s q = some (.abort 4 0, u)) ∧
        (s.badIn q.addr 128 = none → regionOf s q.addr = .dram → ∃ u,
          actEnd s q = some (runRoutine ws q.arg0.toNat q.arg1.toNat (s.peek q.addr 128), u) ∧
          (SMap.get [] u.copies.routines slice : List Routine).head? = some ⟨q.asid, q.id, ws⟩ ∧
          (SMap.get [] u.copies.routines slice : List Routine).length ≤ 32)
      (¬ installed → actEnd s q = some (.abort 1 0, s)) ∧
      (∀ e, installed → cached = some e → runs e.words) ∧
      (∀ e, installed → cached = none → translate s (tableXlat q.core q.satp) .load (engVa q.satp (q.actbase.toNat + 128 * q.id)) = .trap e →
        ∃ u, actEnd s q = some (.abort 5 0, u)) ∧
      (∀ p, installed → cached = none → place p → regionOf s p.pa = .dram →
        (s.blocked q.core q.ctx .A p.pa 128 = true → actEnd s q = none) ∧
        (s.blocked q.core q.ctx .A p.pa 128 = false → s.badIn p.pa 128 ≠ none → ∃ u, actEnd s q = some (.abort 5 0, u)) ∧
        (s.blocked q.core q.ctx .A p.pa 128 = false → s.badIn p.pa 128 = none → s.current q.core p 128 →
          runs ((List.range 32).map (fun i => s.peek p.pa 128 / 2 ^ (32 * i) % 2 ^ 32))))) ∧
    (∀ c x w, (s.thr c x).act = some w → w.vector = true → w.left = 0 → (s.slicesOf c x).Nodup → (s.thr c x).cls ≤ 4 →
      0 < (s.thr c x).vlen → (s.thr c x).vlen % 512 = 0 → (s.thr c x).vlen ≤ s.hwLen c x →
      let h := s.thr c x
      let sh := h.shape
      sh.lf = false → sh.ew = 64 → Answers (exec (.vactComplete c x) s) (fun t => SameBytes s t ∧ t = { s with cores := t.cores } ∧
        (∀ j, j < sh.g → (t.thr c x).isFull (w.vd + j) = true) ∧
        ∀ k, k < sh.n → sh.get (t.groupAt c x w.vd sh.g) k =
          FrameRule h.dev false 0 (sh.get (s.groupAt c x w.vd sh.g) k) sh.zero (actElem w k % 2 ^ sh.ew) k)) ∧
    (∀ d c x vd rest, (s.core d).portBusy = (c, x, vd) :: rest → x < 8 → (portCores s (c, x, vd)).Nodup →
      let ports := portCores s (c, x, vd)
      (∀ h, (∃ e ∈ ports, (s.core e).portHold = h) → (∀ e ∈ ports, (s.core e).portHold ≤ h) → s.now < h →
        exec (.vaccPerform d) s = .next { s with timers := s.timers ++ [(h, .vaccPerform d)] }) ∧
      ((∀ e ∈ ports, (s.core e).portHold ≤ s.now) → (∃ e ∈ ports, (s.core e).portBusy.head? ≠ some (c, x, vd)) →
        exec (.vaccPerform d) s = .next (s.later (.vaccPerform d))) ∧
      (∀ l, (∀ e ∈ ports, (s.core e).portHold ≤ s.now ∧ (s.core e).portBusy.head? = some (c, x, vd)) →
        (s.thr c x).landing.find? (fun l => l.vd == vd) = some l → (s.slicesOf c x).Nodup →
        (s.thr c x).cls ≤ 4 → l.vlen ≤ s.hwLen c x → l.count ≤ 32 →
        Answers (exec (.vaccPerform d) s) (fun t => (∀ e ∈ ports, (t.core e).portBusy = (s.core e).portBusy.tail) ∧ SameBytes s t ∧
          ∀ j, j < l.count → t.rawV c x (vd + j) % 2 ^ l.vlen = l.val / 2 ^ (j * l.vlen) % 2 ^ l.vlen ∧
            (t.thr c x).isFull (vd + j) = true)))) ∧
  ((∀ p ∈ actRows, ∀ (r : ActRun) (d i j : Nat) (a b : Word), r.y.length = 16 → d < 16 → r.reg i = a.toNat → r.reg j = b.toNat →
    actStep { op := p.1, d := d, a := i, b := j, imm := 0 } r = { r with y := r.y.set d (p.2 a b).toNat }) ∧
  (∀ (r : ActRun) (d i imm : Nat) (a : Word), imm < 2048 → r.reg i = a.toNat →
    actStep { op := 6, d := d, a := i, b := 0, imm := imm } r =
      { r with y := r.y.set d (a + (BitVec.ofNat 11 imm).signExtend 64).toNat } ∧
    actStep { op := 1, d := d, a := i, b := 0, imm := imm } r =
      { r with y := r.y.set d (r.line / 2 ^ (64 * ((a + (BitVec.ofNat 11 imm).signExtend 64).toNat % 16)) % 2 ^ 64) } ∧
    actStep { op := 2, d := d, a := i, b := 0, imm := imm } r =
      { r with y := r.y.set d (r.line / 2 ^ (32 * ((a + (BitVec.ofNat 11 imm).signExtend 64).toNat % 32)) % 2 ^ 32) }) ∧
  (∀ (r : ActRun) (i j imm k : Nat) (a b : Word), imm < 2048 → r.reg i = a.toNat → r.reg j = b.toNat → r.line < 2 ^ 1024 → k < 128 →
    ((actStep { op := 3, d := 0, a := i, b := j, imm := imm } r).line / 2 ^ (8 * k) % 256 =
      if k / 8 = (a + (BitVec.ofNat 11 imm).signExtend 64).toNat % 16 then b.toNat / 2 ^ (8 * (k % 8)) % 256
      else r.line / 2 ^ (8 * k) % 256) ∧
    ((actStep { op := 4, d := 0, a := i, b := j, imm := imm } r).line / 2 ^ (8 * k) % 256 =
      if k / 4 = (a + (BitVec.ofNat 11 imm).signExtend 64).toNat % 32 then b.toNat / 2 ^ (8 * (k % 4)) % 256
      else r.line / 2 ^ (8 * k) % 256)) ∧
  (∀ (w : Nat) (rest : List Nat) (i cost : Nat) (r : ActRun),
    let f := actFields w
    (f.legal = false → actLoop i cost r (w :: rest) = .abort 2 i) ∧
    (f.legal = true → f.op ≠ 0 → actLoop 31 cost r (w :: rest) = .abort 2 31) ∧
    (f.legal = true → i < 31 ∨ f.op = 0 → 40 < cost + f.cycles → actLoop i cost r (w :: rest) = .abort 3 i) ∧
    (f.legal = true → f.op = 0 → cost + 1 ≤ 40 → actLoop i cost r (w :: rest) = .ok (r.reg 0) r.line)) ∧
  (∀ (ws : List Nat) (y0 y1 line res l : Nat), y0 < 2 ^ 64 → y1 < 2 ^ 64 → line < 2 ^ 1024 → runRoutine ws y0 y1 line = .ok res l →
    res < 2 ^ 64 ∧ l < 2 ^ 1024))

/-- The life of a command (R187, R188, R193 to R195, R306): it launches when its counter has reached its predecessor count; its completion
frees the node and counts at its successors, launching those it completes; its fault frees what it owned and stalls its waiting
successors; a page fault that the kernel resolved resumes it. That the kernel may decline, which gives status 0x10, is the model's choice
(log 18). -/
def Obligations.CommandLifeCycle : Prop :=
  ∀ (s : State) (c n : Nat),
    let d := s.node c n
    (d.st ≠ .waiting ∨ d.dcount < d.preds → exec (.commandLaunch c n) s = .next s) ∧
    (d.st = .waiting → d.preds ≤ d.dcount → (s.core c).snap.done = true →
      (d.kind = 9 → exec (.commandLaunch c n) s = .next ((s.modNode c n (fun _ => launchedNode s c n)).later (.knest c n))) ∧
      (d.kind = 10 → exec (.commandLaunch c n) s = .next ((s.modNode c n (fun _ => launchedNode s c n)).later (.ksig c n))) ∧
      (∀ t cap, d.kind = 1 → d.remote = some (t, cap) → exec (.commandLaunch c n) s =
        .next ((s.modNode c n (fun _ => { launchedNode s c n with sent := true })).later (.remoteCommandArrive c n t cap))) ∧
      (d.kind = 1 → d.remote = none → Answers (exec (.commandLaunch c n) s) (fun t =>
        (t.node c n).st = .running ∧ (t.node c n).dcount = 0 ∧ (t.node c n).leaveSince = s.now ∧
        ((t.node c n).leave = true ∨ (t.node c n).holdsLeave = true) ∧ SameBytes s t)) ∧
      (d.kind = 6 → nestsLongEnough (launchedNode s c n) = true → exec (.commandLaunch c n) s =
        .next ((s.modNode c n (fun _ => launchedNode s c n)).later (.kred c n))) ∧
      (d.kind = 2 ∨ d.kind = 5 ∨ d.kind = 6 → nestsLongEnough (launchedNode s c n) = false → Answers (exec (.commandLaunch c n) s) (fun t =>
        (t.node c n).st = .running ∧ t.inbox = s.inbox ++ [.commandFault c n 0x14] ∧ SameBytes s t))) ∧
    (d.st = .running → d.pageStop = false → d.kind ≠ 7 → d.remote = none →
      Answers (exec (.commandComplete c n) s) (fun t =>
        (t.node c n).status = 0 ∧ (timesNamed d n = 0 → (t.node c n).st = .free ∧ (t.node c n).owned = []) ∧
        (∀ m, m < 96 → m ≠ n → (s.node c m).st ≠ .waiting → (t.node c m).dcount = (s.node c m).dcount + timesNamed d m) ∧
        (∀ m, m < 96 → m ≠ n → (s.node c m).st = .waiting → timesNamed d m = 1 → (s.node c m).preds ≤ (s.node c m).dcount + 1 →
          (s.core c).snap.done = true → (t.node c m).st = .running ∧ (t.node c m).dcount = 0) ∧
        (d.w0.getLsbD 36 = false → SameBytes s t))) ∧
    (d.st ≠ .running ∨ d.pageStop = true → exec (.commandComplete c n) s = .next s) ∧
    (∀ k, (d.st ≠ .running → exec (.commandFault c n k) s = .next s) ∧
      (d.st = .running → d.remote = none → d.kind ≠ 7 → Answers (exec (.commandFault c n k) s) (fun t =>
        (t.node c n).st = .faulted ∧ (t.node c n).status = k.toNat ∧ (t.node c n).owned = [] ∧ (t.node c n).pend = [] ∧
        (t.node c n).progress = (if d.kind = 1 then max d.progress d.mmaRow0 else d.progress) ∧
        (∀ m, m < 96 → timesNamed d m ≠ 0 → (s.node c m).st = .waiting → (t.node c m).st = .stalled) ∧
        (d.w0.getLsbD 36 = false → SameBytes s t) ∧
        (n < 128 → ∀ e x, x < 8 → e = c ∨ (s.thr e x).task.isSome = true → (t.thr e x).dev.mrowp =
          if d.kind = 1 ∧ s.threadOf e x = d.thread then BitVec.ofNat 16 (2 ^ 15 + n * 2 ^ 8 + max d.progress d.mmaRow0 % 2 ^ 8)
          else (s.thr e x).dev.mrowp)))) ∧
    (d.st = .running → d.pageStop = true →
      (∀ p ∈ [(1, Event.kmmaRowFinish c n), (6, .kred c n), (9, .knest c n), (10, .ksig c n)], d.kind = p.1 →
        exec (.enginePageFaultResolved c n true) s = .next ((s.modNode c n (fun _ => { d with pageStop := false })).later p.2)) ∧
      (d.kind ∈ [2, 3, 4, 5, 7, 8] → d.pend = [] → exec (.enginePageFaultResolved c n true) s =
        .next ((s.modNode c n (fun _ => { d with pageStop := false })).later (.ownershipWindowTake c n))) ∧
      exec (.enginePageFaultResolved c n false) s = exec (.commandFault c n 0x10) s) ∧
    (∀ die, let p := (s.die die).power
      Answers (exec (.leaveAdmit die) s) (fun t =>
        SameBytes s t ∧ (t.die die).power.held ≤ max p.held p.limit ∧ (t.die die).power.asking.length ≤ p.asking.length ∧
        ((t.die die).power.asking = [] ∨ ∃ a l, (t.die die).power.asking = a :: l ∧
          p.limit < (t.die die).power.held + (s.node a.1 a.2).leaveCost)) ∧
      (∀ l, p.asking = (c, n) :: l → (c, n) ∉ l → p.held + d.leaveCost ≤ p.limit →
        Answers (exec (.leaveAdmit die) s) (fun t => (t.node c n).holdsLeave = true ∧ (t.node c n).leave = false)) ∧
      (((c, n) ∉ p.asking ∨ s.now < d.leaveSince + p.wait.toNat * 91) → exec (.leaveWaitExpire die c n) s = .next s) ∧
      ((c, n) ∈ p.asking → d.leaveSince + p.wait.toNat * 91 ≤ s.now → Answers (exec (.leaveWaitExpire die c n) s) (fun t =>
        (t.node c n).holdsLeave = true ∧ (t.node c n).leave = false ∧ (t.die die).power.held = p.held + d.leaveCost ∧
        (t.die die).power.asking = p.asking.filter (fun e => e != (c, n)) ∧ SameBytes s t)))

/-- The copy engine (R195, R202 to R205, R207, R208, R361): a command takes a window of units, reads them, and writes each line of the
window in full before it releases it; kred adds element by element; knest loads a nest register; ksig writes one word. A read may miss the
latest writes that nothing orders before its command (R357; log 6). -/
def Obligations.CopyEngine : Prop :=
  ∀ (s : State) (c n : Nat),
    let d := s.node c n
    (∀ r ∈ [(2, Instr.kcopy c n, Event.kcopy c n), (3, .kgath c n, .kgath c n), (4, .kscat c n, .kscat c n), (5, .kfill c n, .kfill c n),
        (7, .kcoll c n, .kcoll c n)], Goes d → d.kind = r.1 → d.pend ≠ [] → (d.kind = 7 → d.leave = false ∧ collBroken s c d = none ∧ collReady s d = true) →
      s.bad = [] →
      (d.winEnd ≤ d.fetched → exec r.2.1 s = .next ({ s with fresh := s.fresh + 1 }.later (.engineLineWrite c n))) ∧
      (∀ v u, d.fetched + 1 = d.winEnd → unitValue { s with fresh := s.fresh + 1 } d c d.fetched = .ok (v, u) →
        Answers (exec r.2.1 s) (fun t => SameBytes s t ∧ (t.node c n).fetched = d.winEnd ∧
          (t.node c n).pend = d.pend.map (fun w =>
            if w.unit = d.fetched then { w with val := v / 2 ^ (8 * w.off) % 2 ^ (8 * w.len) } else w) ∧
          (t.agenda = s.agenda ++ [.engineLineWrite c n] ∨ t.agenda = s.agenda ++ [r.2.2])))) ∧
    (∀ a k, d.satp = 0 → s.bad = [] → k ∈ [1, 2, 4, 8] → a % k = 0 → a + k ≤ dramTop s →
      let l := s.missable d.misses a k
      ∃ i u, i ≤ l.length ∧ SameBytes s u ∧
        engRead s d c a k k = .ok ((l.take i).foldl (fun v w => w.undo a k v) (s.peek a k), u)) ∧
    (∀ j, BareCommand s d →
      (d.kind = 2 → d.useSrcNest = false → d.base1 + (j + 1) * d.elemBytes ≤ dramTop s →
        ∃ u, unitValue s d c j = .ok (s.peek (d.base1 + j * d.elemBytes) d.elemBytes, u) ∧ OnlyTags s u) ∧
      (d.kind = 3 → d.idxBase + (j + 1) * d.idxBytes ≤ dramTop s →
        let i := s.peek (d.idxBase + j * d.idxBytes) d.idxBytes
        d.base1 + (i + 1) * d.rowLen ≤ dramTop s →
        ∃ u, unitValue s d c j = .ok (s.peek (d.base1 + i * d.rowLen) d.rowLen, u) ∧ OnlyTags s u) ∧
      (d.kind = 4 → d.base1 + (j + 1) * d.rowLen ≤ dramTop s →
        ∃ u, unitValue s d c j = .ok (s.peek (d.base1 + j * d.rowLen) d.rowLen, u) ∧ OnlyTags s u) ∧
      (d.kind = 5 → unitValue s d c j = .ok (d.w2.toNat % 2 ^ (8 * d.elemBytes), s))) ∧
    (let w := (windowFrom d c (d.units s - d.winEnd) s d.winEnd 0 []).1
     let ps := w.pieces.reverse.flatten
     (Goes d → d.pend = [] → d.winEnd < w.last → ps ≠ [] → d.winEnd < d.units s → Answers (exec (.ownershipWindowTake c n) s) (fun t =>
       SameBytes s t ∧ t.node c n = { d with winLo := d.winEnd, winEnd := w.last, fetched := d.winEnd, pend := ps,
                                             owned := linesOf s ps, writing := false } ∧
       (∀ r ∈ kindRows c n, d.kind = r.1 → t.agenda = s.agenda ++ [r.2]) ∧
       ∀ h x l, (s.thr h x).resv = some l → l ∈ linesOf s ps → (t.thr h x).resv = none)) ∧
     (w.last ≤ d.winEnd + 1 ∨ ((ps.map (fun w => w.len)).sum ≤ 4 * 2 ^ 20))) ∧
    (Goes d → d.winEnd ≤ d.fetched → d.pend ≠ [] → (∀ w ∈ d.pend, regionOf s w.pa = .dram) →
      Answers (exec (.engineLineWrite c n) s) (fun t => ∃ w ∈ d.pend, let line := w.pa / 128
        let rest := d.pend.filter (fun e => e.pa / 128 != line)
        Stored s t (writePlaces (d.pend.filter (fun e => e.pa / 128 == line))) ∧ (t.node c n).pend = rest ∧
        (t.node c n).owned = d.owned.filter (fun l => l != line) ∧
        (rest ≠ [] → t.agenda = s.agenda ++ [.engineLineWrite c n]) ∧
        (rest = [] → (t.node c n).progress = (if d.kind = 7 then 0 else d.winEnd) ∧
          t.agenda = s.agenda ++ [if d.units s ≤ d.winEnd then .commandComplete c n else .ownershipWindowTake c n]))) ∧
    (Goes d → d.kind = 6 → BareCommand s d → d.useSrcNest = false → d.useDstNest = false → let j := d.progress
      ∀ p ∈ [(1, 1), (8, 2), (10, 4), (12, 8)], d.fmtByte = p.1 →
        let a := d.base1 + j * p.2
        let b := d.base2 + j * p.2
        a + p.2 ≤ dramTop s → b + p.2 ≤ dramTop s →
        Answers (exec (.kred c n) s) (fun t => Stored s t [(b, p.2, (s.peek b p.2 + s.peek a p.2) % 2 ^ (8 * p.2))] ∧
          (t.node c n).progress = j + 1 ∧
          t.agenda = s.agenda ++ [if j + 1 < d.count40 then .kred c n else .commandComplete c n])) ∧
    (Goes d → d.kind = 9 → BareCommand s d → d.base1 + 32 ≤ dramTop s → let v := s.peek d.base1 32
      let counts := (List.range 6).map (fun i => v / 2 ^ (16 * i) % 2 ^ 16)
      let strides := (List.range 6).map (fun i => (BitVec.ofNat 24 (v / 2 ^ (96 + 24 * i))).toInt)
      (0 ∉ counts → timesNamed d n = 0 → Answers (exec (.knest c n) s) (fun t =>
        (SMap.get {} (t.core c).nests (d.w0.toNat / 2 ^ 45 % 2 ^ 5) : Nest) = { counts := counts, strides := strides } ∧
        (t.node c n).st = .free)) ∧
      (0 ∈ counts → Answers (exec (.knest c n) s) (fun t => t.inbox = s.inbox ++ [.commandFault c n 0x17] ∧ (t.core c).nests = (s.core c).nests))) ∧
    (Goes d → d.kind = 10 → BareCommand s d → d.w0.getLsbD 36 = false → timesNamed d n = 0 → d.base1 + 8 ≤ dramTop s →
      ∀ p ∈ [(0, 8, d.w2.toNat), (1, 8, (BitVec.ofNat 64 (s.peek d.base1 8) + d.w2).toNat), (2, 4, d.w2.toNat % 2 ^ 32)],
        d.w0.toNat / 2 ^ 45 % 4 = p.1 →
        Answers (exec (.ksig c n) s) (fun t => Stored s t [(d.base1, p.2.1, p.2.2)] ∧ (t.node c n).st = .free))

/-- The matrix unit (R67, R176, R196 to R201, R363): a kmma with leave starts, not to complete before its cycles; a row waits for the
accumulator's port and holds it for 4 cycles; its INT8 products, the columns of B held over a group of 32 rows, are added to the
accumulator modulo 2^32 and nothing else is changed; the last row ends the command. -/
def Obligations.MatrixUnit : Prop :=
  ∀ (s : State) (c n : Nat),
    let d := s.node c n
    (d.kind = 1 → d.st = .running → d.holdsLeave = true → d.stopping = false →
      exec (.kmma c n) s = .next ((s.modNode c n (fun _ => { d with
        minEnd := s.now + leastCycles d * Config.corePeriod (classOf (match d.remote with | some (t, _) => t | none => c)) })).later
        (.kmmaRowFinish c n))) ∧
    (d.kind = 1 → d.st ≠ .running ∨ d.holdsLeave = false → exec (.kmma c n) s = .next s) ∧
    (d.kind = 1 → Goes d → d.holdsLeave = true → d.remote = none → d.members = [] → max d.progress d.mmaRow0 < d.mmaM →
      let k := s.core c
      (s.now < k.portHold → exec (.kmmaRowFinish c n) s = .next { s with timers := s.timers ++ [(k.portHold, .kmmaRowFinish c n)] }) ∧
      (k.portHold ≤ s.now → k.portBusy ≠ [] →
        exec (.kmmaRowFinish c n) s = .next { s with timers := s.timers ++ [(s.now + 91, .kmmaRowFinish c n)] })) ∧
    (d.kind = 1 → Goes d → d.holdsLeave = true → d.remote = none → d.members = [] → BareCommand s d → d.fmtByte = 1 → d.mmaFmtB = 1 →
      (s.core c).portHold ≤ s.now → (s.core c).portBusy = [] →
      let row := max d.progress d.mmaRow0
      let rowAt := fun k => d.base1 + if d.mmaTransA then k * d.mmaLda + row else row * d.mmaLda + k
      let colAt := fun k j => d.base2 + if d.mmaTransB then j * d.mmaLdb + k else k * d.mmaLdb + j
      let cell := fun j => 192 * (d.mmaAccRow + row) + d.mmaAccCol + j
      let cols := columnsFor s d row colAt
      row < d.mmaM → (∀ k, k < d.mmaK → rowAt k < dramTop s ∧ ∀ j, j < d.mmaN → colAt k j < dramTop s) →
      cols.length = d.mmaN → (∀ q ∈ cols, q.1.length = d.mmaK) →
      Answers (exec (.kmmaRowFinish c n) s) (fun t =>
        (∀ j, j < d.mmaN → t.cell c (cell j) = (if d.mmaZero then 0 else s.cell c (cell j)) +
          BitVec.ofInt 32 (((List.range d.mmaK).map (fun k =>
            int8At s (rowAt k) * (BitVec.ofNat 8 ((cols.getD j ([], [])).1.getD k 0)).toInt)).sum)) ∧
        (∀ x, (∀ j, j < d.mmaN → x ≠ cell j) → t.cell c x = s.cell c x) ∧ (∀ e x, e ≠ c → t.cell e x = s.cell e x) ∧
        SameBytes s t ∧ t.node c n = { d with progress := row + 1, heldGroup := some (row / 32), held := [cols] } ∧
        (t.core c).portHold = s.now + 4 * Config.corePeriod (classOf c) ∧
        (row + 1 < d.mmaM → t.agenda = s.agenda ++ [.kmmaRowFinish c n] ∧ t.timers = s.timers) ∧
        (d.mmaM ≤ row + 1 → t.agenda = s.agenda ∧ t.timers = s.timers ++ [(max s.now d.minEnd, .commandComplete c n)])))

/-- Commands for another core (R209, R422), and storage reads (R206, R425): the target refuses by Table 07-5 or queues the command; its
report completes or faults the proxy; a kdisk submits reads to its queue pair and each completion of the drive is consumed. What the drive
sees of a queue pair is the model's (log 14). -/
def Obligations.RemoteAndStorage : Prop :=
  ∀ (s : State) (c n : Nat),
    let d := s.node c n
    (∀ tgt cap, d.st = .running → d.sent = true → d.leave = false → d.holdsLeave = false →
      let k := s.core tgt
      let bits := 8 * k.capKey.length
      let genuine := shake256 (ofBytes k.capKey + cap.toNat % 2 ^ 48 * 2 ^ bits) (k.capKey.length + 8) 2 = cap.toNat / 2 ^ 48
      let current := cap.toNat / 2 ^ 40 % 2 ^ 8 = k.capGen.toNat
      let own := cap.toNat / 2 ^ 16 % 2 ^ 16 = d.asid
      let rights := cap.toNat / 2 ^ 32 % 2 ^ 8
      let granted := rights % 2 = 1 ∧ rights < 8 ∧ ∀ i, i < d.mmaM →
        rights.testBit (if d.mmaAccRow + i < 64 then 1 else 2) = true
      let refusedWith := fun e => exec (.remoteCommandArrive c n tgt cap) s =
        .next ((s.modNode c n (fun _ => { d with sent := false })).later (.remoteCompletion c n e 0))
      (s.coreUp tgt = false → refusedWith 0x21) ∧ (s.coreUp tgt = true → ¬ current → refusedWith 0x22) ∧
      (s.coreUp tgt = true → current → ¬ genuine → refusedWith 0x20) ∧
      (s.coreUp tgt = true → current → genuine → ¬ own → refusedWith 0x22) ∧
      (s.coreUp tgt = true → current → genuine → own → ¬ granted → refusedWith 0x23) ∧
      (s.coreUp tgt = true → current → genuine → own → granted → Answers (exec (.remoteCommandArrive c n tgt cap) s) (fun t =>
        (∃ w, (t.core tgt).remotes = k.remotes ++ [w] ∧ w.core = c ∧ w.node = n ∧
          ∀ q, q ∈ w.ahead ↔ ∃ e ∈ k.nodes, e.2.kind = 1 ∧ e.2.st = .running ∧ e.2.remote = none ∧ e.2.serial = q) ∧ SameBytes s t ∧
        ((t.node c n).leave = true ∨ (t.node c n).holdsLeave = true)))) ∧
    (∀ p, d.st = .running → d.remote.isSome = true → d.sent = false →
      (timesNamed d n = 0 → Answers (exec (.remoteCompletion c n 0 p) s) (fun t => (t.node c n).st = .free ∧ (t.node c n).progress = p)) ∧
      (∀ e, e ≠ 0 → d.kind = 1 → Answers (exec (.remoteCompletion c n e p) s) (fun t =>
        (t.node c n).st = .faulted ∧ (t.node c n).status = e.toNat ∧ (t.node c n).progress = max p d.mmaRow0))) ∧
    (∀ q, Goes d → d.kind = 8 → d.detail = 0 → d.fetched < d.winEnd →
      s.host.nvme.find? (fun e => e.1 == d.diskQp) = some (d.diskQp, q) →
      (q.fullAt = true → exec (.kdisk c n) s = .next (s.later (.kdisk c n))) ∧
      (q.fullAt = false → Answers (exec (.kdisk c n) s) (fun t => ∃ cnt, 1 ≤ cnt ∧ (t.node c n).fetched = d.fetched + cnt ∧
        (t.node c n).nvmeLeft = d.nvmeLeft ++ [q.tail] ∧
        (SMap.get q t.host.nvme d.diskQp).tail = (q.tail + 1) % max 1 q.entries ∧
        (SMap.get q t.host.nvme d.diskQp).outstanding = q.outstanding ++ [(q.tail, c, n, d.fetched, cnt)] ∧
        ∃ st, t.agenda = s.agenda ++ [.nvmeCompletion d.diskQp q.tail st] ++
          (if d.fetched + cnt < d.winEnd then [.kdisk c n] else [])))) ∧
    (∀ qp q cid lo cnt, s.host.nvme.find? (fun e => e.1 == qp) = some (qp, q) →
      q.outstanding.find? (fun e => e.1 == cid) = some (cid, c, n, lo, cnt) →
      d.kind = 8 → d.st = .running → cid ∈ d.nvmeLeft → (∃ o, regionOf s (q.bell + q.cqBell) = .host o) →
      let mine := fun w : EngWrite => lo ≤ w.unit ∧ w.unit < lo + cnt
      (∀ w ∈ d.pend, regionOf s w.pa = .dram) →
      (∀ st, Answers (exec (.nvmeCompletion qp cid st) s) (fun t =>
        (SMap.get q t.host.nvme qp).outstanding = q.outstanding.filter (fun e => e.1 != cid) ∧
        (SMap.get q t.host.nvme qp).head = (q.head + 1) % max 1 q.entries)) ∧
      ((∃ x ∈ d.nvmeLeft, x ≠ cid) → d.detail = 0 → Answers (exec (.nvmeCompletion qp cid 0) s) (fun t =>
        (t.node c n).nvmeLeft = d.nvmeLeft.filter (fun x => x != cid) ∧
        (∀ w, w ∈ (t.node c n).pend ↔ w ∈ d.pend ∧ ¬ mine w) ∧
        ∀ a, (∀ w ∈ d.pend, mine w → a < w.pa ∨ w.pa + w.len ≤ a) → (a < q.cq + 16 * q.head ∨ q.cq + 16 * q.head + 16 ≤ a) →
          t.byte a = s.byte a)) ∧
      (d.nvmeLeft = [cid] → d.detail = 0 → (∀ w ∈ d.pend, mine w) → Answers (exec (.nvmeCompletion qp cid 0) s) (fun t =>
        (t.node c n).pend = [] ∧ (t.node c n).progress = d.winEnd ∧
        ∃ e, t.agenda = s.agenda ++ [e] ∧ (e = .commandComplete c n ∨ e = .ownershipWindowTake c n))) ∧
      (∀ st, st ≠ 0 → d.nvmeLeft = [cid] → d.detail = 0 → d.remote = none → Answers (exec (.nvmeCompletion qp cid st) s) (fun t =>
        (t.node c n).st = .faulted ∧ (t.node c n).status = 0x16 ∧ (t.node c n).detail = st.toNat)))

/-- Launches (R265 to R269, R297, Tables 10-1 and 10-2): a header is refused by the first row it meets; an accepted one expands to T
records, record t with the identity of its run and indices, placed one by one; its end is written to word 15. -/
def Obligations.LaunchExpansion : Prop :=
  ∀ (s : State) (die : Nat),
    let d := s.die die
    (∀ h base sup, let rows := headRefusals s h base sup
      (∀ i, i < 6 → (rows.getD i (True, 0)).1 → (∀ j, j < i → ¬ (rows.getD j (True, 0)).1) → headStatus s h base sup = some (0x81 + i)) ∧
      ((∀ i, i < 6 → ¬ (rows.getD i (True, 0)).1) → headStatus s h base sup = none)) ∧
    (∀ (h : List Word) (base : Word) (run i1 i2 i3 i4 i5 : Nat),
      let e := fun i => if fieldW h i = 0 then 1 else fieldE h i
      let chunk := (wordAt h 7).toNat % 2 ^ 16
      let runs := (e 0 + chunk - 1) / chunk
      let off := fun n => ((List.range n).map (fieldW h)).sum
      taskCount h = runs * e 1 * e 2 * e 3 * e 4 * e 5 ∧
      (run < runs → i1 < e 1 → i2 < e 2 → i3 < e 3 → i4 < e 4 → i5 < e 5 →
        taskWid h base (run + runs * (i1 + e 1 * (i2 + e 2 * (i3 + e 3 * (i4 + e 4 * i5))))) =
          base + BitVec.ofNat 64 (run * chunk + i1 * 2 ^ off 1 + i2 * 2 ^ off 2 + i3 * 2 ^ off 3 + i4 * 2 ^ off 4 + i5 * 2 ^ off 5))) ∧
    (d.requests = [] → exec (.expand die) s = .next s) ∧
    (∀ r rest, d.requests = r :: rest →
      let s1 := { s.setDie die { d with requests := rest } with cur := (die * 96, 0) }
      let reads := plainWords s1 (taskXlat s r) (recVa (taskXlat s r) (r.addr 3)) 15
      (reads = .wait → exec (.expand die) s = .next (s.later (.expand die))) ∧
      (∀ e, reads = .trap e → exec (.expand die) s = .next ((retireFor s1 e).notify (.launchError (r.words.take 4) e.cause)))) ∧
    (∀ r rest h u, d.requests = r :: rest → h.length = 15 → (wordAt h 11).toNat % 2 ^ 48 = 0 →
      plainWords { s.setDie die { d with requests := rest } with cur := (die * 96, 0) } (taskXlat s r)
        (recVa (taskXlat s r) (r.addr 3)) 15 = .done (h, u) →
      (∀ code v, headStatus u h (wordAt r.words 2) r.sup = some code →
        plainStore u (taskXlat s r) (recVa (taskXlat s r) (r.addr 3) + 120) 8 code = .done v → exec (.expand die) s = .next v) ∧
      (headStatus u h (wordAt r.words 2) r.sup = none → exec (.expand die) s =
        .next ((u.setDie die { u.die die with expansions := d.expansions ++ [⟨r, h, 0, taskCount h⟩] }).later (.expandResume die)))) ∧
    (d.expansions = [] → exec (.expandResume die) s = .next { s with cur := (die * 96, 0) }) ∧
    (∀ e rest, d.expansions = e :: rest →
      let s1 := { s with cur := (die * 96, 0) }
      let r := e.record s.now e.index
      let go := fun (u : State) (l : List Expansion) => (u.setDie die { u.die die with expansions := l }).later (.expandResume die)
      (e.index < e.total → headQueue e.head = 0 → ∀ c, placeCore s die e.index (headColumn e.head) = some c →
        (dequeRoom s c = true → exec (.expandResume die) s = .next (go (rouseCore (pushTop s1 c r) c) ({ e with index := e.index + 1 } :: rest))) ∧
        (dequeRoom s c = false → exec (.expandResume die) s = .next (go s1 (rest ++ [e])))) ∧
      (e.index < e.total → headQueue e.head ≠ 0 → ∀ n q, s.queueOf (BitVec.ofNat 64 (headQueue e.head - 1)) = some (n, q) → q.records = true →
        (q.items.length < q.capacity → exec (.expandResume die) s =
          .next (go (afterPush s1 n q r) ({ e with index := e.index + 1 } :: rest))) ∧
        (q.capacity ≤ q.items.length → exec (.expandResume die) s = .next (go s1 (rest ++ [e])))) ∧
      (∀ code v, e.index < e.total → e.index < 2 ^ 56 - 1 → (wordAt e.head 11).toNat % 2 ^ 48 = 0 → rest = [] →
        (headQueue e.head ≠ 0 ∧ recordQueue s (headQueue e.head) = none ∧ code = 0x88) ∨
          (headQueue e.head = 0 ∧ placeCore s die e.index (headColumn e.head) = none ∧ code = 0x89) →
        plainStore s1 (taskXlat s e.task) (recVa (taskXlat s e.task) (e.task.addr 3) + 120) 8 (code + e.index * 256) = .done v →
        exec (.expandResume die) s = .next ((v.notify (.launchError (e.task.words.take 4) (code + e.index * 256))).setDie die
          { v.die die with expansions := [] })) ∧
      (∀ v, e.total ≤ e.index → rest = [] →
        plainStore s1 (taskXlat s e.task) (recVa (taskXlat s e.task) (e.task.addr 3) + 120) 8 1 = .done v →
        exec (.expandResume die) s = .next (v.setDie die { v.die die with expansions := [] }))) ∧
    (∀ t cls c, placeCore s die t cls = some c → s.coreUp c = true ∧ classOf c = cls ∧
      ∀ e, s.coreUp e = true → classOf e = cls → e / 96 = c / 96 → taskLoad s c ≤ taskLoad s e) ∧
    (∀ t cls, s.live = 15 → die < 4 → (∃ c, s.coreUp c = true ∧ classOf c = cls ∧ c / 96 = (die + t / 16) % 4) →
      ∃ c, placeCore s die t cls = some c ∧ c / 96 = (die + t / 16) % 4)

/-- Dispatch (R271, R272, R298, R310, R362, R446, R471): an empty context takes the first fitting record of the highest level, unless a
lower core takes it in the same slice cycle; a new task starts as Table 10-4 says, waits for a line it reads that an engine owns, and has
its fault redirected to its handler or enters the supervisor; a task requeued with a hook enters at the re-entry interrupt with its
registers; a launch request goes to its ringmaster. -/
def Obligations.Dispatching : Prop :=
  ∀ (s : State) (c x : Nat),
    (s.coreUp c = false ∨ (s.thr c x).status ≠ .empty → exec (.dispatch c x) s = .next s) ∧
    (∀ l e, topCand l = some e → e ∈ l ∧ ∀ f ∈ l, f.level ≤ e.level) ∧
    (s.coreUp c = true → (s.thr c x).status = .empty → ∀ e, chosen s c x e → lowerTakes s c e = true →
      exec (.dispatch c x) s = .next (s.later (.dispatch c x))) ∧
    (s.coreUp c = true → (s.thr c x).status = .empty → ∀ e, chosen s c x e → lowerTakes s c e = false →
      let r := e.task
      let xl := taskXlat s r
      let handle := if r.handle = 0 then s.handles else r.handle
      let r1 := { r with handle := handle }
      let opened := openThread { takeCand s c e with handles := s.handles + 1, cur := (c, x) } c x r1
      let based := formBase opened c x r1 0
      let taken := fun t : State =>
        (∀ i, e.src = .deque i → (t.core c).sequence = (s.core c).sequence.eraseIdx i) ∧
        (∀ n i, e.src = .queue n i → (SMap.get {} t.queues n : Queue).items = (SMap.get {} s.queues n : Queue).items.erase i)
      (recExpand r.w4 = true → Answers (exec (.dispatch c x) s) (fun t =>
        (t.die (c / 96)).requests = (s.die (c / 96)).requests ++ [r] ∧ taken t ∧ .expand (c / 96) ∈ t.agenda ∧ .dispatch c x ∈ t.agenda)) ∧
      (recExpand r.w4 = false → r.saved = false → recGang r.w4 = 0 →
        (r.addr 3 = 0 → r.addr 6 = 0 → Answers (exec (.dispatch c x) s) (fun t =>
          Started s r handle 1 0 (t.thr c x) ∧ taken t ∧ SameBytes s t ∧ t.handles = s.handles + 1)) ∧
        (∀ h0 h1 h7, r.addr 3 ≠ 0 → r.addr 6 = 0 → wordsRun xl based (recVa xl (r.addr 3)) [h0, h1] →
          (∀ v u, plainWords based xl (recVa xl (r.addr 3)) 2 = .done (v, u) → wordsRun xl u (recVa xl (r.addr 3) + 56) [h7]) → Answers (exec (.dispatch c x) s) (fun t =>
            Started s r handle (runOf h0 h1 h7 (wordAt r.words 2)) (BitVec.ofNat 36 h0.toNat) (t.thr c x) ∧ SameBytes s t)) ∧
        (∀ f u, r.addr 3 = 0 → r.addr 6 ≠ 0 → formHeader opened c x r1 0 = .done (u, none) → wordsRun xl u (recVa xl (r.addr 6)) f →
          f.length = 3 →
          Answers (exec (.dispatch c x) s) (fun t => let d := (t.thr c x).dev
            d.fmta = (wordAt f 0).extractLsb' 0 16 ∧ d.fmtb = (wordAt f 0).extractLsb' 16 16 ∧ d.fmtc = (wordAt f 0).extractLsb' 32 16 ∧
            d.sclpa = wordAt f 1 ∧ d.sclpb = wordAt f 2 ∧ (t.thr c x).pc = BitVec.ofNat 64 (recVa xl (r.addr 0)))) ∧
        (r.addr 3 ≠ 0 → plainWords based xl (recVa xl (r.addr 3)) 2 = .wait → exec (.dispatch c x) s = .next (s.later (.dispatch c x))) ∧
        (∀ f u, r.addr 3 ≠ 0 → r.addr 7 ≠ 0 → translate based xl .load (recVa xl (r.addr 3)) = .trap f →
          redirect based c x r1 f (BitVec.ofNat 64 (recVa xl (r.addr 0))) true = .done (some u) →
          exec (.dispatch c x) s = .next (retireFor u f)) ∧
        (∀ f, r.addr 3 ≠ 0 → r.addr 7 = 0 → translate based xl .load (recVa xl (r.addr 3)) = .trap f →
          Answers (exec (.dispatch c x) s) (fun t => let h := t.thr c x
            h.priv = .S ∧ h.std.scause = BitVec.ofNat 64 f.cause ∧ h.std.stval = BitVec.ofNat 64 f.tval ∧
            h.std.sepc = BitVec.ofNat 64 (recVa xl (r.addr 0)) ∧ h.getX 14 = BitVec.ofNat 64 handle))) ∧
      (recExpand r.w4 = false → r.saved = true → r.hook = true → ∀ v pc xs sh,
        readArea { takeCand s c e with cur := (c, x) } c x xl r.area = .done (.ok (pc, xs, sh, v)) → Answers (exec (.dispatch c x) s) (fun t => let h := t.thr c x
          h.pc = pc ∧ (∀ i, i < 31 → h.getX (BitVec.ofNat 5 (i + 1)) = wordAt xs i) ∧ h.reentry = r.area ∧ h.reentryPend = true ∧
          h.status = .running ∧ h.dev.wid = wordAt sh 5))) ∧
    (s.coreUp c = true → (s.thr c x).status = .empty → dequeCands s c = [] → queueCands s c = [] →
      exec (.dispatch c x) s = .next (wantSteal (armAging s c) c)) ∧
    Answers (exec (.agingStep c) s) (fun t => Wakes s t c) ∧
    (let k := s.core c
     let n := min k.overflow.length (64 - k.deque.length)
     (k.deque.length < 48 → exec (.dequeRefill c) s = .next (s.setCore c { k with
       overflow := k.overflow.take (k.overflow.length - n), deque := k.overflow.drop (k.overflow.length - n) ++ k.deque })) ∧
     (48 ≤ k.deque.length → exec (.dequeRefill c) s = .next (s.setCore c k)))

/-- Steals and lane reclaim (R301, R302, R307 to R309): six attempts on the thief's die and two on others, each answered, after its own
dispatch, by a victim that gives the topmost of its four top records the thief can run; after eight failures a wait; a reclaim names the
victim of lowest priority, and its timeout raises interrupt 16. That a core of another column class is named where it holds a record of
the thief's is the model's reading (log 4). The supervisor timer is the privileged architecture's (log 15). -/
def Obligations.StealsAndReclaims : Prop :=
  ∀ (s : State) (c x : Nat),
    let k := s.core c
    (∀ d v, v ∈ victims s c d ↔ v / 96 = d ∧ v ≠ c ∧ s.coreUp v = true ∧
      (classOf v = classOf c ∨ ∃ r ∈ (s.core v).sequence, stealableBy r (classOf c) = true)) ∧
    (s.idle c = false → exec (.stealAttempt c 0) s = .next s) ∧
    (∀ n, n ≠ 0 ∨ s.idle c = true →
      (stillSteals s c = false → exec (.stealAttempt c n) s = .next (s.setCore c { k with steal := {} })) ∧
      (stillSteals s c = true → n < 6 → victims s c (c / 96) = [] → exec (.stealAttempt c n) s =
        .next ((s.setCore c { k with steal := { attempt := n + 1, pending := true } }).later (.stealAttempt c (n + 1)))) ∧
      (stillSteals s c = true → n < 6 → victims s c (c / 96) ≠ [] → Answers (exec (.stealAttempt c n) s) (fun t =>
        (∃ v ∈ victims s c (c / 96), t.agenda = s.agenda ++ [.stealAnswer v c]) ∧
        t.core c = { k with steal := { attempt := n, pending := true } } ∧ SameBytes s t)) ∧
      (stillSteals s c = true → 6 ≤ n → (∀ d, s.dieLive d = true → d ≠ c / 96 → victims s c d ≠ []) →
        (∃ d, s.dieLive d = true ∧ d ≠ c / 96) → Answers (exec (.stealAttempt c n) s) (fun t =>
          ∃ v d, d ≠ c / 96 ∧ v ∈ victims s c d ∧ t.agenda = s.agenda ++ [.stealAnswer v c])) ∧
      (stillSteals s c = true → n = 7 → (∀ d, s.dieLive d = true → d = c / 96) → exec (.stealAttempt c n) s =
        .next { s.setCore c { k with steal := { backoff := some (s.now + 256 * 91) } } with
                timers := s.timers ++ [(s.now + 256 * 91, .stealBackoffEnd c)] })) ∧
    (∀ v, ownDispatch s v = true → exec (.stealAnswer v c) s = .next (s.later (.stealAnswer v c))) ∧
    (∀ v, v ≠ c → s.coreUp v = true → s.coreUp c = true → ownDispatch s v = false →
      (∀ i r, ((List.range 4).zip (s.core v).sequence).find? (fun e => stealFits s c e.2) = some (i, r) → dequeRoom s c = true →
        Answers (exec (.stealAnswer v c) s) (fun t => (t.core v).sequence = (s.core v).sequence.eraseIdx i ∧
          (t.core c).sequence = r :: k.sequence ∧ (t.core c).steal = {} ∧ SameBytes s t)) ∧
      (((List.range 4).zip (s.core v).sequence).find? (fun e => stealFits s c e.2) = none → k.steal.attempt < 7 →
        exec (.stealAnswer v c) s = .next ((s.setCore c { k with steal := { attempt := k.steal.attempt + 1, pending := true } }).later
          (.stealAttempt c (k.steal.attempt + 1))))) ∧
    (∀ t, k.steal.backoff = some t → (t ≤ s.now → Answers (exec (.stealBackoffEnd c) s) (fun u => Wakes (s.setCore c { k with steal := {} }) u c)) ∧
      (s.now < t → exec (.stealBackoffEnd c) s = .next s)) ∧
    (k.steal.backoff = none → exec (.stealBackoffEnd c) s = .next s) ∧
    (∀ e v, s.coreUp c = true → (∀ y, y < 8 → (s.thr c y).dev.reclPend = false) → topCand (dequeCands s c ++ queueCands s c) = some e →
      (wantsClusters s c e).isSome = true →
      let all := ((List.range 8).map (fun y => victimsAt s c y e.level e.task)).flatten
      firstVictim all = some v →
      (∀ w ∈ all, v.prio ≤ w.prio) ∧ (v.keep = 1 ∨ v.keep = 2) ∧ v.keep < (s.thr c v.ctx).cls ∧ v.prio < e.level ∧
      Answers (exec (.reclaimStart c) s) (fun t => (t.thr c v.ctx).dev =
        { (s.thr c v.ctx).dev with reclPend := true, reclClass := BitVec.ofNat 2 v.keep } ∧ SameBytes s t ∧
        ∀ y, y % 8 ≠ v.ctx % 8 → t.thr c y = s.thr c y)) ∧
    ((∃ y, y < 8 ∧ (s.thr c y).status ≠ .empty ∧ (s.thr c y).dev.reclPend = true) → exec (.reclaimStart c) s = .next s) ∧
    (let h := s.thr c x
     let due := h.dev.reclPend = true ∧ h.std.mip.getLsbD 16 = false ∧ h.reclSince + h.dev.vrclwait.toNat ≤ s.coreCycle c
     (due → exec (.reclaimTimeout c x) s = .next (s.setThr c x { h with std := { h.std with mip := h.std.mip ||| 0x10000 } })) ∧
     (¬ due → exec (.reclaimTimeout c x) s = .next s) ∧
     (∀ toM, s.interrupt c x = some (16, toM) →
       exec (.reclaimInterrupt c x) s = .next ({ s with cur := (c, x) }.serveInterrupt 16 toM)) ∧
     (s.interrupt c x = none → exec (.reclaimInterrupt c x) s = .next s) ∧
     exec (.supervisorTimerInterrupt c x) s = .next (s.setThr c x { h with std := { h.std with mip := h.std.mip ||| 0x20 } }))

/-- Barrier and gang events (R241, R282, R283, R285): a phase whose held arrivals are enough completes in turn; its notice reaches the
cores within 24 or 96 slice cycles and ends every wait on it at once; a timeout is raised once per phase; joiners of a block that a member
has not joined are refused after 65,536 core cycles, by the first case of Table 08-9 that holds. -/
def Obligations.BarrierEvents : Prop :=
  ∀ (s : State) (dev : Bool) (die idx : Nat),
    let k : BarKey := ⟨dev, die, idx⟩
    let b := s.barrier k
    (b.completing = false → exec (.barrierHeldPhaseComplete dev die idx) s = .next s) ∧
    (b.completing = true → Answers (exec (.barrierHeldPhaseComplete dev die idx) s) (fun t => let d := t.barrier k
      d.seq = b.seq + 1 ∧ d.here = b.ahead ∧ d.ahead = [] ∧ d.members = b.members ∧ d.n = b.n ∧ d.noticed = b.noticed ∧
      d.completing = decide (b.n ≤ b.ahead.length) ∧ SameBytes s t ∧ t.cores = s.cores ∧
      ∃ at', s.now ≤ at' ∧ at' ≤ s.now + 91 * (if dev then 96 else 24) ∧ (at', .barrierCompletionNotice dev die idx) ∈ t.timers)) ∧
    Answers (exec (.barrierCompletionNotice dev die idx) s) (fun t => let d := t.barrier k
      d = { b with noticed := b.seq, marks := d.marks } ∧ SameBytes s t ∧
      ∀ c x, x < 8 →
        let waits := fun w : BarWait => (s.thr c x).barWait = some w ∧ w.dev = dev ∧ w.die = die ∧ w.idx = idx ∧ w.ends = none ∧
          w.third = false ∧ w.seq < b.seq
        (∀ w, waits w → t.thr c x = { s.thr c x with barWait := some { w with ends := some 0 } } ∧
          ∀ m, w.own = true → b.marks.find? (fun e => e.1 == c) = some (c, m) → m.seq = w.seq → (SMap.get m d.marks c).waited = true) ∧
        ((∀ w, ¬ waits w) → t.thr c x = s.thr c x)) ∧
    (∀ f, b.first = some f → b.timeout ≠ 0 → b.raised = false → f + 91 * b.timeout ≤ s.now →
      exec (.barrierTimeout dev die idx) s = .next ((s.setBarrier k { b with raised := true }).notify (.barrierTimeout dev die idx))) ∧
    (b.first = none ∨ b.timeout = 0 ∨ b.raised = true ∨ (∃ f, b.first = some f ∧ s.now < f + 91 * b.timeout) →
      exec (.barrierTimeout dev die idx) s = .next s) ∧
    (∀ c x, let j := (s.thr c x).joining
      (j = none → exec (.gjoinTimeout c x) s = .next s) ∧
      (∀ shape first, j = some (shape, first) → s.coreCycle c < first + 2 ^ 16 → exec (.gjoinTimeout c x) s = .next s) ∧
      (∀ shape first, j = some (shape, first) → first + 2 ^ 16 ≤ s.coreCycle c →
        let asked := fun m y => m ∈ gangBlock c shape ∧ y < 8 ∧ ∃ n, (s.thr m y).joining = some (shape, n)
        let apart := (∃ m ∈ gangBlock c shape, s.coreUp m = false) ∨ ∃ m y p z, asked m y ∧ asked p z ∧ y ≠ z
        let unfit := ∃ m y, asked m y ∧ ((s.thr m y).binds ≠ [] ∨ (s.thr m y).loop.active = true ∨ (s.thr m y).gang ≠ none ∨
          ∃ p z, asked p z ∧ (s.thr m y).cls ≠ (s.thr p z).cls)
        (∃ m ∈ gangBlock c shape, ∀ y, ¬ asked m y) → ∀ st, (apart ∧ st = 2) ∨ (¬ apart ∧ unfit ∧ st = 3) ∨ (¬ apart ∧ ¬ unfit ∧ st = 4) →
        Answers (exec (.gjoinTimeout c x) s) (fun t => SameBytes s t ∧ ∀ m y, y < 8 →
          (asked m y → t.thr m y = { s.thr m y with joining := none, joinStatus := some st }) ∧
          (¬ asked m y → t.thr m y = s.thr m y))))

/-- The safety net (R240, R303, R435 to R441, R455): a timing event meets the core's next instruction; one that is unready or past its commit
point meets none, and any other is taken back but for its charge and replayed, an element group in the next core cycle; at the limit of
replays the trim is raised, or cause 48 is taken, reported and held; windows, the margin window's end, the regulator's steps, droops and
hops. -/
def Obligations.SafetyNet : Prop :=
  ∀ (s : State) (c : Nat),
    let k := s.core c
    let m := k.margin
    (s.coreUp c = false → ∀ w, exec (.timingEvent c w) s = .next s) ∧
    (s.coreUp c = true → ∀ w ∈ [EventWhere.scalar, .group], exec (.timingEvent c w) s =
      .next (s.setCore c { k with margin := { m with late := some w } })) ∧
    (s.coreUp c = true → s.nextCycle c k / 2 ^ m.n.toNat = m.win →
      (QuietReplay m → exec (.timingEvent c .rowStep) s = .next (s.setCore c { k with margin := replayed m })) ∧
      ((m.events + 1).toNat = m.raiseth.toNat + 1 → m.stepped = false → m.auto = true → m.floor < m.trim →
        Answers (exec (.timingEvent c .rowStep) s) (fun t =>
          (t.core c).margin.trim = m.trim - 1 ∧ (t.core c).margin.raises = m.raises + 1 ∧ (t.core c).margin.stepped = true)) ∧
      ((m.events + 1).toNat = m.quarth.toNat + 1 → Answers (exec (.timingEvent c .rowStep) s) (fun t =>
        (t.core c).margin.statQuar = true ∧ (t.core c).quar.report = true ∧ (t.core c).quar.reason = 2))) ∧
    (∀ (u : State) (w : EventWhere) (n : Nat), s.cur.1 = c →
      let x := s.cur.2
      let h := s.hart
      let v := u.thr c x
      let t := settleLate w n s u
      let unready := h.ended = v.ended ∧ v.status = .running ∧ v.committed = false
      let first := if h.charged then h.firstIssue else n
      let again := if w = .group ∧ isVectorWord u.fetched = true then some (n + 1) else none
      (h.committed = true ∨ unready → t = u) ∧
      (h.committed = false → ¬ unready → QuietReplay m →
        SameBytes s t ∧
        (h.rc + 1 < max 1 m.limit.toNat →
          t.thr c x = { h with firstIssue := first, rc := h.rc + 1, charged := true, replayAt := again } ∧
          (t.core c).margin = replayed { m with late := none } ∧ (t.core c).gate = (u.core c).gate ∧
          (∀ d, d ≠ c → t.core d = s.core d) ∧ t = { s with cores := t.cores, fetched := u.fetched }) ∧
        (max 1 m.limit.toNat ≤ h.rc + 1 → m.auto = true → m.floor < m.trim →
          t.thr c x = { h with firstIssue := first, rc := 0, charged := true, replayAt := again } ∧
          (t.core c).margin.trim = m.trim - 1 ∧ (t.core c).margin.raises = m.raises + 1 ∧ ∀ d, d ≠ c → t.core d = s.core d) ∧
        (max 1 m.limit.toNat ≤ h.rc + 1 → m.auto = false ∨ ¬ m.floor < m.trim →
          let e := t.thr c x
          e.priv = .M ∧ e.std.mcause = 48 ∧ e.std.mepc = h.pc ∧ e.pc = h.std.mtvec &&& ~~~3#64 ∧
          e.std.mtval = BitVec.ofNat 64 (x + min 255 ((n - first) / 8) * 2 ^ 8) ∧ (t.core c).margin.hold = true ∧
          (t.core c).quar.report = true ∧ (t.core c).quar.reason = 1))) ∧
    (let w := s.nextCycle c k / 2 ^ m.n.toNat
     let crossed := decide (m.raiseth.toNat < m.events.toNat)
     let streak := if crossed then (if m.streak = 7 then 7 else m.streak + 1) else 0
     let fresh := { m with events := 0, stepped := false, win := w }
     (w ≤ m.win + 1 → m.streak ≠ 2 ∨ crossed = false → exec (.marginWindowEnd c) s =
       .next (s.setCore c { k with margin := { fresh with last := m.events, crossed := crossed, streak := streak } })) ∧
     (w ≤ m.win + 1 → m.streak = 2 → crossed = true → exec (.marginWindowEnd c) s =
       .next (s.setCore c { k with margin := { fresh with last := m.events, crossed := true, streak := 3 },
                                   quar := { k.quar with report := true, reason := 2 } })) ∧
     (m.win + 1 < w → Answers (exec (.marginWindowEnd c) s) (fun t =>
       (t.core c).margin = { fresh with last := 0, crossed := false, streak := 0 }))) ∧
    (m.safe ≠ 0 → m.safe ≤ s.coreCycle c → Answers (exec (.mgnsafeExpire c) s) (fun t => (t.core c).margin.safe = 0 ∧ SameBytes s t ∧
      ∀ x, t.thr c x = s.thr c x)) ∧
    (m.safe = 0 ∨ s.coreCycle c < m.safe → exec (.mgnsafeExpire c) s = .next s) ∧
    Answers (exec (.regulatorStep c) s) (fun t => let g := supplyTarget k
      (t.core c).margin.supply = (if m.supply < g then m.supply + 1 else if g < m.supply then m.supply - 1 else m.supply) ∧
      (t.core c).margin.trim = m.trim ∧ ((t.core c).margin.supply = g → t.timers = s.timers) ∧
      ((t.core c).margin.supply ≠ g → t.timers = s.timers ++ [(s.now + 64 * 91, .regulatorStep c)])) ∧
    (let p := Config.corePeriod (classOf c)
     let hopping := ∃ t, (s.die (c / 96)).hop = some t ∧ s.now < t + 64 * p
     s.nextCycle c k / 2 ^ m.n.toNat = m.win →
     (¬ hopping → Answers (exec (.droopDetect c) s) (fun t => ∃ n, t.core c =
       { k with margin := { m with droops := m.droops + 1, stretched := m.stretched + n } })) ∧
     (hopping → Answers (exec (.droopDetect c) s) (fun t => (t.core c).margin.frozen = true ∧ (t.core c).margin.droops = m.droops + 1 ∧
       (t.core c).margin.hopDroops = m.hopDroops + 1 ∧ ∃ n, n ≤ 8 ∧ (t.core c).margin.tevcnt = m.tevcnt + BitVec.ofNat 64 n))) ∧
    (∀ d, exec (.clockSourceHop d) s = .next { s.setDie d { s.die d with hop := some s.now } with
        timers := s.timers ++ [(s.now + 64 * 78, .clockHopEnd d), (s.now + 64 * 91, .clockHopEnd d), (s.now + 64 * 126, .clockHopEnd d)] }) ∧
    (∀ d, Answers (exec (.clockHopEnd d) s) (fun t =>
      (∀ e, (t.core e).margin.frozen = ((s.core e).margin.frozen && !(decide (e / 96 = d) &&
        (match (s.die d).hop with | some q => decide (q + 64 * Config.corePeriod (classOf e) ≤ s.now) | none => true)))) ∧
      (t.die d).hop = (match (s.die d).hop with | some q => if q + 64 * 126 ≤ s.now then none else some q | none => none)))

/-- The power controller and the sensors (R304 to R306, R439, R451, R452): the end of a window halves or doubles L_pwr and moves the
running limit within its range; the dispatch gate drains; the thermal rule; the machine external interrupt of the service core. That a
window's power and the sensors' samples are free values is the model's choice (log 13). Power caps (R464 to R466): a message with a new
sequence number, at least 700 W and a lease of 1,000,000 to 2^40 ticks sets the cap, at most 1,200 W, and every live die's target; any
other is discarded; when the lease expires the cap is 700 W. That a new cap is written to the targets at once is the model's choice (log
13). -/
def Obligations.PowerControl : Prop :=
  (∀ (s : State) (d : Nat),
    let p := (s.die d).power
    let floorL := 512 * 2 ^ min p.lfloor.toNat 4
    Answers (exec (.powerWindowEnd d) s) (fun t => ∃ w, w < 2 ^ 32 ∧
      let above := p.target.toNat < w
      let under := 100 * w < 95 * p.target.toNat
      (t.die d).power.power = BitVec.ofNat 32 w ∧ (s.now + 4096 * 91, Event.powerWindowEnd d) ∈ t.timers ∧ SameBytes s t ∧
      (above → (t.die d).power.limit = limitIn p (p.limit - 1)) ∧
      (under → ¬ above → (t.die d).power.limit = limitIn p (p.limit + 1)) ∧
      (¬ under → ¬ above → (t.die d).power.limit = limitIn p p.limit) ∧
      ∀ c, (t.core c).lpwr =
        if c / 96 ≠ d then (s.core c).lpwr
        else if above then (if floorL < (s.core c).lpwr then (s.core c).lpwr / 2 else (s.core c).lpwr)
        else if under ∧ p.hot = false then min 8192 (2 * (s.core c).lpwr) else (s.core c).lpwr) ∧
    (∀ c, let g := (s.core c).gate
      let n := s.coreCycle c + 1
      exec (.bucketDrain c) s = .next (s.setCore c { s.core c with gate := { g with
        level := g.level - (n - g.drained) * max 1 g.drain.toNat, drained := max g.drained n } })) ∧
    (let h := hottest (s.setDie d { s.die d with sample := s.fresh + 1 }) d
     let hot := 105 * 256 ≤ h ∨ (p.hot = true ∧ 100 * 256 ≤ h)
     (∃ i, i < 32 ∧ h = (Config.sensor (s.fresh + 1) d i).toInt) ∧ (∀ i, i < 32 → (Config.sensor (s.fresh + 1) d i).toInt ≤ h) ∧
     (h < 115 * 256 → Answers (exec (.telemetrySample d) s) (fun t => ((t.die d).power.hot = true ↔ hot) ∧
       t.timers = s.timers ++ [(s.now + 65536 * 91, .telemetrySample d)] ∧ SameBytes s t ∧
       ∀ c, c / 96 = d → (hot → (t.core c).lpwr = floorL) ∧ (¬ hot → (t.core c).lpwr = (s.core c).lpwr))) ∧
     (115 * 256 ≤ h → Answers (exec (.telemetrySample d) s) (fun t => t.boot.poweredDown = true ∧ .thermalTrip d ∈ t.events ∧
       ∀ c x, (t.thr c x).status = .empty))) ∧
    (∀ c, s.serviceCore d = some c ↔ d = c / 96 ∧ s.coreUp c = true ∧ ∀ e, e < c → e / 96 = d → s.coreUp e = false) ∧
    (∀ x, (s.serviceCore d = none → exec (.machineExternalInterrupt d x) s = .next s) ∧
      (∀ c toM, s.serviceCore d = some c → s.interrupt c x = some (11, toM) →
        exec (.machineExternalInterrupt d x) s = .next ({ s with cur := (c, x) }.serveInterrupt 11 toM)) ∧
      (∀ c, s.serviceCore d = some c → s.interrupt c x = none → exec (.machineExternalInterrupt d x) s = .next s) ∧
      ∀ c e, s.serviceCore d = some c → e / 96 = d → s.coreLive e = true → (s.core e).quar.report = true → (s.mipOf c x).getLsbD 11 = true)) ∧
  (∀ (s : State) (seq cap lease : Nat),
    let good := (∀ n, s.fleet.capSeq = some n → n < seq) ∧ 700 ≤ cap ∧ 1000000 ≤ lease ∧ lease ≤ 2 ^ 40
    (¬ good → exec (.powerCapMessage seq cap lease) s = .next s) ∧
    (good → Answers (exec (.powerCapMessage seq cap lease) s) (fun t =>
      t.fleet = { s.fleet with capSeq := some seq, cap := min cap 1200, leaseEnd := some (s.now / 1638 + lease) } ∧
      (∀ d, s.dieLive d = true → (t.die d).power =
        { (s.die d).power with target := BitVec.ofNat 32 (dieTarget (min cap 1200) s.liveDies.length) }) ∧
      (∀ d, s.dieLive d = false → t.die d = s.die d) ∧ t.cores = s.cores ∧ SameBytes s t ∧
      ∃ at', t.timers = s.timers ++ [(at', .capLeaseExpire)] ∧ at' / 1638 = s.now / 1638 + lease)) ∧
    (∀ e, s.fleet.leaseEnd = some e → e ≤ s.now / 1638 → Answers (exec .capLeaseExpire s) (fun t =>
      t.fleet = { s.fleet with cap := 700, leaseEnd := none, failSafe := s.fleet.failSafe + 1 } ∧ t.cores = s.cores ∧
      ∀ d, s.dieLive d = true → (t.die d).power = { (s.die d).power with target := BitVec.ofNat 32 (dieTarget 700 s.liveDies.length) })) ∧
    ((∀ e, s.fleet.leaseEnd = some e → s.now / 1638 < e) → exec .capLeaseExpire s = .next s))

/-- Counting units, thresholds, telemetry and subscriptions (R427, R452, R454 to R458, Table 22-3): a unit is lasting when a third window
in a row crosses its threshold; a lasting link goes down; a reading is answered; a crossing of a subscription is written and signalled.
Links and requests between modules (R459 to R463): a flit is accepted in sequence or asked for again; a request is performed once, its
copies answered from its entry; the third timeout fails the path; links retrain and go down. Which link and what a failed training gives
are free. -/
def Obligations.FleetOperation : Prop :=
  (∀ s : State,
    (∀ c, let u := s.unitOf (.core c)
      let bad := 3 ≤ (s.core c).margin.streak.toNat ∨ s.quarantined c = true
      (bad → u.lasting = false → exec (.unitWindowEnd (.core c)) s =
        .next (withUnit s (.core c) { u with lasting := true, records := u.records + 1 })) ∧
      (¬ bad ∨ u.lasting = true → exec (.unitWindowEnd (.core c)) s = .next s)) ∧
    (∀ l, let u := s.unitOf (.link l)
      let raised := decide (u.raise.getD 1024 < u.events)
      let after : UnitCount := { u with events := 0, hist := (raised :: u.hist).take 2 }
      (raised = false ∨ u.hist ≠ [true, true] → exec (.unitWindowEnd (.link l)) s = .next (withUnit s (.link l) after)) ∧
      (raised = true → u.hist = [true, true] → u.lasting = false → Answers (exec (.unitWindowEnd (.link l)) s) (fun t =>
        t.unitOf (.link l) = { after with lasting := true, records := u.records + 1 } ∧ (l < 18 → (t.link l).up = false) ∧
        .linkDown l ∈ t.events))) ∧
    (∀ i, 0 < i → i < 32 → let u := s.unitOf (.channel i)
      Answers (exec (.unitWindowEnd (.channel i)) s) (fun t => ∃ n, let v := t.unitOf (.channel i)
        v.events = 0 ∧ v.total = u.total + n ∧ v.hist = (decide (u.raise.getD 64 < u.events + n) :: u.hist).take 2 ∧
        (s.dieLive (i / 8) = true → u.quarth.getD 4096 < u.events + n → v.lasting = true) ∧
        (s.dieLive (i / 8) = false → n = 0) ∧ SameBytes s t)) ∧
    Answers (exec (.unitWindowEnd (.channel 0)) s) (fun t => (s.now + 2 ^ 37 * 91, Event.unitWindowEnd (.channel 0)) ∈ t.timers ∧
      (t.unitOf (.channel 0)).events = 0 ∧ ∀ i, 0 < i → i < 32 → Event.unitWindowEnd (.channel i) ∈ t.inbox) ∧
    (∀ d, exec (.unitWindowEnd (.die d)) s = .next s) ∧
    (∀ u raise quar, let known := (∃ i, u = .channel i) ∨ (∃ d, u = .dieArrays d) ∨ (∃ l, u = .link l) ∨ ∃ a b, u = .edge a b
      let ok := known ∧ 1 ≤ raise ∧ raise < 2 ^ 32 ∧ 1 ≤ quar ∧ quar < 2 ^ 32 ∧ s.boot.oxeil = true
      (ok → exec (.oxeilSetThreshold u raise quar) s =
        .next (withUnit s u { s.unitOf u with raise := some raise, quarth := some quar })) ∧
      (¬ ok → exec (.oxeilSetThreshold u raise quar) s = .next s)) ∧
    (∀ n, (1638000 ≤ n → n ≤ 1638000000 → s.boot.oxeil = true →
        exec (.oxeilSetTimer n) s = .next { s with fleet := { s.fleet with timerT := n } }) ∧
      (n < 1638000 ∨ 1638000000 < n ∨ s.boot.oxeil = false → exec (.oxeilSetTimer n) s = .next s)) ∧
    (∀ i, i < 2 ^ 16 → ∀ p ∈ readings s i, s.boot.oxeil = true →
      exec (.telemetryRead (p.1 * 2 ^ 16 + i)) s = .next (s.post (.pldm (p.1 * 2 ^ 16 + i) (p.2 % 2 ^ 64)))) ∧
    (∀ src, s.boot.oxeil = false → exec (.telemetryRead src) s = .next s) ∧
    (∀ slot b, s.host.subs.find? (fun e => e.1 == slot) = some (slot, b) → b.source = 2 →
      let v : Int := ((s.die b.die).power.power.toNat : Int)
      let again := s.timers ++ [(s.now + 65536 * 91, Event.subscriptionSample slot)]
      let set := fun (u : State) (x : Subscription) => { u with host := { u.host with subs := u.host.subs.put slot x } }
      let crossed := fun (rise : Bool) => Answers (exec (.subscriptionSample slot) s) (fun t =>
        Stored s t [(b.notify, 8, v.toNat % 2 ^ 32 * 2 ^ 32 + (b.seq + 1) % 2 ^ 24 * 2 ^ 8 + slot % 2 ^ 6 * 4 + rise.toNat)] ∧
        SMap.get b t.host.subs slot = { b with above := some rise, seq := b.seq + 1 } ∧ t.timers = again ∧
        (∀ m, b.msi = some m → s.host.waits = [] → t.host.posts = s.host.posts ++ [.msix m]))
      (b.above = some false → b.high ≤ v → crossed true) ∧ (b.above = some true → v ≤ b.low → crossed false) ∧
      (b.above = some false ∧ v < b.high ∨ b.above = some true ∧ b.low < v →
        exec (.subscriptionSample slot) s = .next { s with timers := again }) ∧
      (b.above = none → b.high ≤ v → exec (.subscriptionSample slot) s =
        .next (set { s with timers := again, fresh := s.fresh + 1 } { b with above := some true })) ∧
      (b.above = none → v ≤ b.low → v < b.high → exec (.subscriptionSample slot) s =
        .next (set { s with timers := again, fresh := s.fresh + 1 } { b with above := some false }))) ∧
    (∀ slot, s.host.subs.find? (fun e => e.1 == slot) = none → exec (.subscriptionSample slot) s = .next s)) ∧
  (∀ (s : State) (l : Nat),
    let k := s.link l
    let serves := k.up = true ∧ k.retrain = false
    (∀ seq ok, (¬ serves → exec (.laxelFlit l seq ok) s = .next s) ∧
      (serves → ok = true → seq = k.expect → exec (.laxelFlit l seq ok) s =
        .next (s.setLink l { k with expect := k.expect + 1, accepted := k.accepted + 1 })) ∧
      (serves → ok = false ∨ seq ≠ k.expect → exec (.laxelFlit l seq ok) s =
        .next (s.post (.replay l k.expect)))) ∧
    (∀ (seq : BitVec 10), let again := k.window.dropWhile (fun n => n != seq.toNat)
      (¬ serves → exec (.laxelReplayRequest l seq) s = .next s) ∧
      (serves → l < 18 → (s.unitOf (.link l)).events + again.length ≤ (s.unitOf (.link l)).quarth.getD 65536 →
        Answers (exec (.laxelReplayRequest l seq) s) (fun t => (t.link l).replayFlits = k.replayFlits + again.length ∧
          (t.unitOf (.link l)).total = (s.unitOf (.link l)).total + again.length ∧
          (k.replays = [] → again.Nodup → (t.link l).up = true ∧ (t.link l).retrain = false ∧ (t.link l).replays = again.map (fun n => (n, 1))) ∧
          (∀ n, again = [n] → k.replays = [(n, 15)] → ((t.link l).retrain = true ∧ ∃ ok, .linkTrained l ok ∈ t.agenda))))) ∧
    (k.up = true → Answers (exec (.linkDown l) s) (fun t => (t.link l).up = false ∧ .linkDown l ∈ t.events ∧ SameBytes s t)) ∧
    (k.up = false → exec (.linkDown l) s = .next s) ∧
    ((s.unitOf (.link l)).lasting = false →
      exec (.linkTrained l true) s = .next (s.setLink l { k with up := true, retrain := false })) ∧
    (∀ ok, ok = false ∨ (s.unitOf (.link l)).lasting = true → Answers (exec (.linkTrained l ok) s) (fun t =>
      (t.link l).up = false ∧ (t.link l).retrain = false ∧ .linkDown l ∈ t.events)) ∧
    (∀ src seq age addr f val,
      let arrive := exec (.e2eRequestArrive src seq age addr f val) s
      let held := s.fleet.dedup.find? (fun d => d.src == src && d.seq == seq)
      (s.fleet.timerT < age → arrive = .next s) ∧
      (∀ d, age ≤ s.fleet.timerT → held = some d → Answers arrive (fun t => SameBytes s t ∧
        t.host.posts = s.host.posts ++ [.e2e src seq false d.resp] ∧ t.fleet.dedup.length = s.fleet.dedup.length)) ∧
      (age ≤ s.fleet.timerT → held = none → 65536 ≤ s.fleet.dedup.length → arrive = .next (s.post (.e2e src seq true 0))) ∧
      (age ≤ s.fleet.timerT → held = none → s.fleet.dedup.length < 65536 → s.ownedIn addr 8 = false → addr % 8 = 0 →
        addr + 8 ≤ dramTop s → s.badIn addr 8 = none → let old := s.peek addr 8
        Answers arrive (fun t => Stored s t [(addr, 8, (amoResult f 64 (BitVec.ofNat 64 old) val).toNat)] ∧
          t.fleet.dedup = s.fleet.dedup ++ [{ src := src, seq := seq, resp := BitVec.ofNat 64 old, expiry := s.now + 2 * s.fleet.timerT }] ∧
          (s.now + 2 * s.fleet.timerT, .dedupExpire src seq) ∈ t.timers ∧
          (s.host.waits = [] → t.host.posts = s.host.posts ++ [.e2e src seq false (BitVec.ofNat 64 old)])))) ∧
    (∀ src seq, exec (.dedupExpire src seq) s = .next { s with fleet := { s.fleet with
      dedup := s.fleet.dedup.filter (fun d => !(d.src == src && d.seq == seq && decide (d.expiry ≤ s.now))) } }) ∧
    (∀ seq val, exec (.e2eResponse seq false val) s = .next { s with fleet := { s.fleet with
        out := requestsAfter s seq (fun r => { r with done := some val }) } } ∧
      exec (.e2eResponse seq true val) s = .next { s with
        fleet := { s.fleet with out := requestsAfter s seq (fun r => { r with due := s.now + s.fleet.timerT }) },
        timers := s.timers ++ [(s.now + s.fleet.timerT, .retransmitTimeout seq)] }) ∧
    (∀ seq, let due := s.fleet.out.find? (fun r => r.seq == seq && r.done.isNone && r.failed.isNone)
      (due = none → exec (.retransmitTimeout seq) s = .next s) ∧
      (∀ r, due = some r → s.now < r.due → exec (.retransmitTimeout seq) s = .next s) ∧
      (∀ r, due = some r → r.due ≤ s.now → r.timeouts < 2 → s.linksUp ≠ [] → Answers (exec (.retransmitTimeout seq) s) (fun t =>
        (∃ i ∈ s.linksUp, t.host.posts = s.host.posts ++ [.e2eCopy seq i] ∧ (t.link i).retrans = (s.link i).retrans + 1) ∧
        (s.now + s.fleet.timerT, .retransmitTimeout seq) ∈ t.timers ∧
        ∃ q, t.fleet.out.find? (fun r => r.seq == seq && r.done.isNone && r.failed.isNone) = some q ∧ q.timeouts = r.timeouts + 1 ∧
          q.due = s.now + s.fleet.timerT)) ∧
      (∀ r, due = some r → r.due ≤ s.now → 2 ≤ r.timeouts → Answers (exec (.retransmitTimeout seq) s) (fun t =>
        t.events = s.events ++ [.pathFailed r.seq] ∧ (t.link r.link).fails = (s.link r.link).fails + 1 ∧
        t.fleet.out = s.fleet.out.map (fun q => if q.target == r.target && q.done.isNone && q.failed.isNone then
          { q with failed := some (if q.kind = 0 then 5 else if q.kind = 1 then 7 else 0x10) } else q)))))

/-- Resets, boot and firmware (R244, R429 to R434, R449, R456 to R458, R467 to R469): a cold reset clears memory, a warm one keeps it and
the live dies; either writes a new boot-record entry and ends with the kernel's thread, in recovery mode, or with its watchdog running;
power loss keeps flash and fuses. That the kernel's thread is context 0 of the lowest core in machine mode at address 0 is the model's
choice (log 1). -/
def Obligations.BootAndFirmware : Prop :=
  ∀ s : State,
    (∀ r ∈ [(Instr.coldReset, true), (.warmReset, false)], Answers (exec r.1 s) (fun t =>
      t.now = 0 ∧ t.mem = (if r.2 then [] else s.mem) ∧ t.bad = (if r.2 then [] else s.bad) ∧ t.queues = [] ∧ t.devBarriers = [] ∧
      t.acts = [] ∧ t.aspaces = [] ∧ (r.2 = false → t.live = s.live) ∧ (s.boot.requal = false → ∀ c, t.quarantined c = s.quarantined c) ∧
      (∀ p e, newest s.boot.ring = some (p, e) → ∃ f, newest t.boot.ring = some ((p + 1) % 4096, f) ∧ f.seq = e.seq + 1) ∧
      (newest s.boot.ring = none → ∃ f, newest t.boot.ring = some (0, f) ∧ f.seq = 0) ∧
      (t.boot.recovery = true ∨ (t.boot.stageOk = false ∧ ∃ at', (at', .bootWatchdogExpire) ∈ t.timers) ∨
        (t.boot.stage = 9 ∧ t.boot.stageOk = true)) ∧
      ∀ c x, x < 8 → (t.thr c x).status = .empty ∨ (x = 0 ∧ t.thr c 0 = Ctx.boot ∧ t.coreUp c = true ∧ ∀ e, e < c → t.coreUp e = false))) ∧
    (s.boot.stageOk = true ∨ s.boot.recovery = true ∨ s.boot.poweredDown = true → exec .bootWatchdogExpire s = .next s) ∧
    (s.boot.stageOk = false → s.boot.recovery = false → s.boot.poweredDown = false → exec .bootWatchdogExpire s = exec .coldReset s) ∧
    Answers (exec .powerLoss s) (fun t => t.boot.poweredDown = true ∧ t.mem = [] ∧ t.timers = [] ∧ t.boot.ring = s.boot.ring ∧
      t.boot.slotA = s.boot.slotA ∧ t.boot.slotB = s.boot.slotB ∧ t.boot.rollback = s.boot.rollback ∧ t.fleet.units = s.fleet.units ∧
      ∀ c x, (t.thr c x).status = .empty) ∧
    (∀ st begun done', decideStage st begun done' =
      if begun = 0xFFFFFFFFFFFFFFFE then (if done' = 0 then .normal else .alternate)
      else if begun = 0xFFFFFFFFFFFFFFFC then (if done' = 0 then .alternate else if st = 7 ∨ st = 8 then .skipped else .recovery)
      else if begun = 0xFFFFFFFFFFFFFFF8 then .skipped else .normal) ∧
    (∀ u, let c := s.unitOf u
      exec (.unitReplacement u) s = .next (withUnit s u { c with records := 0 }) ∧
      (s.boot.oxeil = false → exec (.requalification u) s = .next s) ∧
      (s.boot.oxeil = true → 2 ≤ c.records → exec (.requalification u) s = .next (s.notify (.serviceFlag u))) ∧
      (s.boot.oxeil = true → c.records < 2 → Answers (exec (.requalification u) s) (fun t =>
        t.mem = [] ∧ ((∀ n, u ≠ .core n) → t.unitOf u = { c with lasting := false, hist := [], events := 0 })))) ∧
    (∀ c, (s.coreUp c = false → exec (.oxeilQuarantine c) s = .next s) ∧
      (s.coreUp c = true → Answers (exec (.oxeilQuarantine c) s) (fun t => t.quarantined c = true ∧ (t.core c).quar.reason = 3 ∧
        (t.core c).nodes = [] ∧ ∀ x, (t.thr c x).status = .empty))) ∧
    (let other := !s.boot.booted
     let v := s.boot.slot other
     let put := fun (n : ImageSlot) => { s with boot := if other then { s.boot with slotB := n } else { s.boot with slotA := n } }
     (v.state = 0xFFFFFFFFFFFFFFFE → exec .activate s = .next (put { v with state := 0xFFFFFFFFFFFFFFFC })) ∧
     (v.state ≠ 0xFFFFFFFFFFFFFFFE → exec .activate s = .next s) ∧
     (∀ (version : Nat) (image : Signed),
       let p : Package := { version := version % 2 ^ 64, minVersion := image.minVersion % 2 ^ 64, key := image.key % 2 ^ 512,
                            image := image.image, signature := image.signature % 2 ^ (8 * 29792) }
       let same := v.state = 0xFFFFFFFFFFFFFFFF ∧ v.pkg = p
       let passes := digestOf p.key = Config.keyDigest ∧
         Config.signatureOk p.key (p.version, p.minVersion) p.image p.signature = true ∧ s.boot.rollback ≤ p.version
       (s.boot.oxeil = false → s.boot.recovery = false → exec (.firmwareUpdate version image) s = .next s) ∧
       (s.boot.oxeil = true ∨ s.boot.recovery = true →
         (same → passes → exec (.firmwareUpdate version image) s = .next (put { v with state := 0xFFFFFFFFFFFFFFFE })) ∧
         (same → ¬ passes → exec (.firmwareUpdate version image) s = .next s) ∧
         (¬ same → exec (.firmwareUpdate version image) s = .next ((put { state := 0xFFFFFFFFFFFFFFFF, pkg := p }).later (.firmwareUpdate version image)))))) ∧
    Answers (exec .commit s) (fun t => SameBytes s t ∧ (t.boot.rollback = s.boot.rollback ∨
        (bootedNormally s.boot = true ∧ s.boot.stageOk = true ∧
          t.boot.rollback = max s.boot.rollback (s.boot.slot s.boot.booted).pkg.minVersion))) ∧
    (∀ nonce, (s.boot.oxeil = false → exec (.spdmRequest nonce) s = .next s) ∧
      (s.boot.oxeil = true → exec (.spdmRequest nonce) s =
        (let nonces := s.boot.transcript ++ [nonce]
         let ms := [[s.boot.digestAt 1], [s.boot.digestAt 2, s.boot.booted.toNat, (s.boot.slot s.boot.booted).pkg.version],
           [s.boot.digestAt 9], [match newest s.boot.ring with | some e => pathCode e.2 | none => 0],
           [s.boot.rollback, s.live.toNat, quarMask s]]
         .next (({ s with boot := { s.boot with transcript := nonces } } : State).post
           (.spdm nonce ms (Config.signature (digestOf (Config.transcript nonces ms)) % 2 ^ (8 * 49856)))))))
end

