-- ==== Sys2Proof/Laws/Decode.lean ====
section
/-! SUPPORT. Laws of the decoder and the encoder: the fields of a word built from fields, and what each form answers. -/
namespace Sys2Proof

/-! ### Words and fields -/

theorem VA.toNat_toWord (opc : Nat) (f : VA) (h : opc < 128) :
    (VA.toWord opc f).toNat = f.op.toNat * 268435456 + f.grp.toNat * 33554432 + f.b.toNat * 1048576 + f.a.toNat * 32768 +
      f.kind.toNat * 8192 + f.m.toNat * 4096 + f.d.toNat * 128 + opc := by
  have := f.op.isLt; have := f.grp.isLt; have := f.b.isLt; have := f.a.isLt; have := f.kind.isLt; have := f.d.isLt
  have := Bool.toNat_lt f.m
  unfold VA.toWord
  rw [BitVec.toNat_ofNat, Nat.mod_eq_of_lt (by omega)]

theorem VA.ofWord_toWord (opc : Nat) (f : VA) (h : opc < 128) : VA.ofWord (VA.toWord opc f) = f := by
  have := f.op.isLt; have := f.grp.isLt; have := f.b.isLt; have := f.a.isLt; have := f.kind.isLt; have := f.d.isLt
  have hm := Bool.toNat_lt f.m
  obtain ⟨op, grp, b, a, kind, m, d⟩ := f
  simp only [VA.ofWord, VA.toNat_toWord opc _ h]
  simp only at *
  congr 1
  · apply BitVec.eq_of_toNat_eq; rw [BitVec.toNat_ofNat]; omega
  · apply BitVec.eq_of_toNat_eq; rw [BitVec.toNat_ofNat]; omega
  · apply BitVec.eq_of_toNat_eq; rw [BitVec.toNat_ofNat]; omega
  · apply BitVec.eq_of_toNat_eq; rw [BitVec.toNat_ofNat]; omega
  · apply BitVec.eq_of_toNat_eq; rw [BitVec.toNat_ofNat]; omega
  · cases m <;> simp only [Bool.toNat_false, Bool.toNat_true, beq_eq_false_iff_ne, beq_iff_eq, ne_eq] <;> omega
  · apply BitVec.eq_of_toNat_eq; rw [BitVec.toNat_ofNat]; omega

theorem VM.toNat_toWord (f : VM) :
    (VM.toWord f).toNat = f.mode.toNat * 536870912 + f.z.toNat * 268435456 + f.width.toNat * 33554432 + f.b.toNat * 1048576 +
      f.a.toNat * 32768 + f.dir.toNat * 8192 + f.m.toNat * 4096 + f.d.toNat * 128 + 43 := by
  have := f.mode.isLt; have := f.width.isLt; have := f.b.isLt; have := f.a.isLt; have := f.dir.isLt; have := f.d.isLt
  have := Bool.toNat_lt f.m; have := Bool.toNat_lt f.z
  unfold VM.toWord
  rw [BitVec.toNat_ofNat, Nat.mod_eq_of_lt (by omega)]

theorem VM.ofWord_toWord (f : VM) : VM.ofWord (VM.toWord f) = f := by
  have := f.mode.isLt; have := f.width.isLt; have := f.b.isLt; have := f.a.isLt; have := f.dir.isLt; have := f.d.isLt
  have := Bool.toNat_lt f.m; have := Bool.toNat_lt f.z
  obtain ⟨mode, z, width, b, a, dir, m, d⟩ := f
  simp only [VM.ofWord, VM.toNat_toWord]
  simp only at *
  congr 1
  · apply BitVec.eq_of_toNat_eq; rw [BitVec.toNat_ofNat]; omega
  · cases z <;> simp only [Bool.toNat_false, Bool.toNat_true, beq_eq_false_iff_ne, beq_iff_eq, ne_eq] <;> omega
  · apply BitVec.eq_of_toNat_eq; rw [BitVec.toNat_ofNat]; omega
  · apply BitVec.eq_of_toNat_eq; rw [BitVec.toNat_ofNat]; omega
  · apply BitVec.eq_of_toNat_eq; rw [BitVec.toNat_ofNat]; omega
  · apply BitVec.eq_of_toNat_eq; rw [BitVec.toNat_ofNat]; omega
  · cases m <;> simp only [Bool.toNat_false, Bool.toNat_true, beq_eq_false_iff_ne, beq_iff_eq, ne_eq] <;> omega
  · apply BitVec.eq_of_toNat_eq; rw [BitVec.toNat_ofNat]; omega

theorem SF.toNat_toWord (opc : Nat) (f : SF) (h : opc < 128) :
    (SF.toWord opc f).toNat = f.f7.toNat * 33554432 + f.b.toNat * 1048576 + f.a.toNat * 32768 + f.cls.toNat * 4096 +
      f.d.toNat * 128 + opc := by
  have := f.f7.isLt; have := f.b.isLt; have := f.a.isLt; have := f.cls.isLt; have := f.d.isLt
  unfold SF.toWord
  rw [BitVec.toNat_ofNat, Nat.mod_eq_of_lt (by omega)]

theorem SF.ofWord_toWord (opc : Nat) (f : SF) (h : opc < 128) : SF.ofWord (SF.toWord opc f) = f := by
  have := f.f7.isLt; have := f.b.isLt; have := f.a.isLt; have := f.cls.isLt; have := f.d.isLt
  obtain ⟨f7, b, a, cls, d⟩ := f
  simp only [SF.ofWord, SF.toNat_toWord opc _ h]
  simp only at *
  congr 1 <;> (apply BitVec.eq_of_toNat_eq; rw [BitVec.toNat_ofNat]; omega)

/-! ### The major opcodes -/

theorem decode_custom0 (f : VA) : decode (VA.toWord 0x0B f) = decodeCustom0 f := by
  have h : (VA.toWord 0x0B f).toNat % 128 = 0x0B := by rw [VA.toNat_toWord _ _ (by decide)]; omega
  unfold decode; rw [h, VA.ofWord_toWord _ _ (by decide)]; rfl

theorem decode_custom2 (f : VA) : decode (VA.toWord 0x5B f) = decodeCustom2 f := by
  have h : (VA.toWord 0x5B f).toNat % 128 = 0x5B := by rw [VA.toNat_toWord _ _ (by decide)]; omega
  unfold decode; rw [h, VA.ofWord_toWord _ _ (by decide)]; rfl

theorem decode_custom1 (f : VM) : decode (VM.toWord f) = decodeCustom1 f := by
  have h : (VM.toWord f).toNat % 128 = 0x2B := by rw [VM.toNat_toWord]; omega
  unfold decode; rw [h, VM.ofWord_toWord]; rfl

theorem SF.opcode (opc : Nat) (f : SF) (h : opc < 128) : (SF.toWord opc f).toNat % 128 = opc := by
  rw [SF.toNat_toWord _ _ h]; omega

theorem decode_custom3 (f : SF) : decode (SF.toWord 0x7B f) = decodeCustom3 f := by
  unfold decode; rw [SF.opcode _ _ (by decide), SF.ofWord_toWord _ _ (by decide)]; rfl
theorem decode_load (f : SF) : decode (SF.toWord 0x03 f) = decodeLoad f := by
  unfold decode; rw [SF.opcode _ _ (by decide), SF.ofWord_toWord _ _ (by decide)]; rfl
theorem decode_miscMem (f : SF) : decode (SF.toWord 0x0F f) = decodeMiscMem f := by
  unfold decode; rw [SF.opcode _ _ (by decide), SF.ofWord_toWord _ _ (by decide)]; rfl
theorem decode_opImm (f : SF) : decode (SF.toWord 0x13 f) = decodeOpImm f := by
  unfold decode; rw [SF.opcode _ _ (by decide), SF.ofWord_toWord _ _ (by decide)]; rfl
theorem decode_auipc (f : SF) : decode (SF.toWord 0x17 f) = .ok (.baseInstruction (.auipc f.d f.immU)) := by
  unfold decode; rw [SF.opcode _ _ (by decide), SF.ofWord_toWord _ _ (by decide)]; rfl
theorem decode_opImmW (f : SF) : decode (SF.toWord 0x1B f) = decodeOpImmW f := by
  unfold decode; rw [SF.opcode _ _ (by decide), SF.ofWord_toWord _ _ (by decide)]; rfl
theorem decode_store (f : SF) : decode (SF.toWord 0x23 f) = decodeStore f := by
  unfold decode; rw [SF.opcode _ _ (by decide), SF.ofWord_toWord _ _ (by decide)]; rfl
theorem decode_amo (f : SF) : decode (SF.toWord 0x2F f) = decodeAmo f := by
  unfold decode; rw [SF.opcode _ _ (by decide), SF.ofWord_toWord _ _ (by decide)]; rfl
theorem decode_op (f : SF) : decode (SF.toWord 0x33 f) = decodeOp f := by
  unfold decode; rw [SF.opcode _ _ (by decide), SF.ofWord_toWord _ _ (by decide)]; rfl
theorem decode_lui (f : SF) : decode (SF.toWord 0x37 f) = .ok (.baseInstruction (.lui f.d f.immU)) := by
  unfold decode; rw [SF.opcode _ _ (by decide), SF.ofWord_toWord _ _ (by decide)]; rfl
theorem decode_opW (f : SF) : decode (SF.toWord 0x3B f) = decodeOpW f := by
  unfold decode; rw [SF.opcode _ _ (by decide), SF.ofWord_toWord _ _ (by decide)]; rfl
theorem decode_branch (f : SF) : decode (SF.toWord 0x63 f) = decodeBranch f := by
  unfold decode; rw [SF.opcode _ _ (by decide), SF.ofWord_toWord _ _ (by decide)]; rfl
theorem decode_jalr (f : SF) : decode (SF.toWord 0x67 f) =
    if f.cls == 0 then .ok (.baseInstruction (.jalr f.d f.a f.immI)) else .error .reserved := by
  unfold decode; rw [SF.opcode _ _ (by decide), SF.ofWord_toWord _ _ (by decide)]; rfl
theorem decode_jal (f : SF) : decode (SF.toWord 0x6F f) = .ok (.baseInstruction (.jal f.d f.immJ)) := by
  unfold decode; rw [SF.opcode _ _ (by decide), SF.ofWord_toWord _ _ (by decide)]; rfl
theorem decode_system (f : SF) : decode (SF.toWord 0x73 f) = decodeSystem f := by
  unfold decode; rw [SF.opcode _ _ (by decide), SF.ofWord_toWord _ _ (by decide)]; rfl

/-! ### Forms -/

theorem VA.src_of (op : BitVec 4) (grp : BitVec 3) (b : BitVec 5) (m : Bool) (d : BitVec 5) (s : Src) :
    VA.src ⟨op, grp, b, s.field, s.kindCode, m, d⟩ = s := by
  cases s <;> rfl

theorem VA.formB_ok {op : BitVec 4} {grp : BitVec 3} {ks : Kinds} {mr : MaskRule} {o : OpB} (c : OpB → Instr)
    (h : (ks.admits o.src && mr.admits o.m) = true) :
    VA.formB ⟨op, grp, o.vs2, o.src.field, o.src.kindCode, o.m, o.vd⟩ ks mr c = .ok (c o) := by
  rw [Bool.and_eq_true] at h
  simp [VA.formB, VA.src_of, h.1, h.2]

theorem VA.formU_ok {op : BitVec 4} {grp : BitVec 3} {mr : MaskRule} {o : OpU} (c : OpU → Instr) (h : mr.admits o.m = true) :
    VA.formU ⟨op, grp, o.vs2, 0, 0, o.m, o.vd⟩ mr c = .ok (c o) := by simp [VA.formU, h]

theorem VA.formS_ok {op : BitVec 4} {grp : BitVec 3} {sr : SelRule} {o : OpS} (c : OpS → Instr) (h : sr.admits o.sel = true) :
    VA.formS ⟨op, grp, o.vs2, o.sel, 0, o.m, o.vd⟩ sr c = .ok (c o) := by simp [VA.formS, h]

theorem VA.formXR_ok {op : BitVec 4} {grp : BitVec 3} {mr : MaskRule} {o : OpXR} (c : OpXR → Instr) (h : mr.admits o.m = true) :
    VA.formXR ⟨op, grp, o.vs2, 0, 0, o.m, o.rd⟩ mr c = .ok (c o) := by simp [VA.formXR, h]

theorem VA.formD_ok {op : BitVec 4} {grp : BitVec 3} {ks : Kinds} {o : OpD} (c : OpD → Instr) (h : ks.admits o.src = true) :
    VA.formD ⟨op, grp, 0, o.src.field, o.src.kindCode, false, o.vd⟩ ks c = .ok (c o) := by
  simp [VA.formD, VA.src_of, h]

theorem VM.mem_ok {mode : BitVec 3} {dir : BitVec 2} {indexed : Bool} {wr : WidthRule} {o : OpM} (c : OpM → Instr)
    (h : (wr.admits o.width && (indexed || o.idx == 0)) = true) :
    VM.mem ⟨mode, false, o.width, o.idx, o.rs1, dir, o.m, o.v⟩ indexed wr c = .ok (c o) := by
  rw [Bool.and_eq_true] at h
  cases indexed
  · obtain ⟨v, rs1, idx, width, m⟩ := o
    have h2 : idx = 0 := by simpa using h.2
    subst h2
    simp [VM.mem, h.1]
  · simp [VM.mem, h.1]

theorem VM.plain_ok {mode : BitVec 3} {dir : BitVec 2} (d a : BitVec 5) (c : OpDS → Instr) :
    VM.plain ⟨mode, false, 0, 0, a, dir, false, d⟩ c = .ok (c ⟨d, a⟩) := by simp [VM.plain]

/-! ### Immediates and the standard base -/

theorem SF.immI_of (imm : BitVec 12) (cls : BitVec 3) (a d : BitVec 5) :
    SF.immI ⟨BitVec.ofNat 7 (imm.toNat / 32), BitVec.ofNat 5 imm.toNat, a, cls, d⟩ = imm := by
  have := imm.isLt
  apply BitVec.eq_of_toNat_eq
  simp only [SF.immI, BitVec.toNat_ofNat]
  omega

theorem SF.immS_of (imm : BitVec 12) (b a : BitVec 5) (cls : BitVec 3) :
    SF.immS ⟨BitVec.ofNat 7 (imm.toNat / 32), b, a, cls, BitVec.ofNat 5 imm.toNat⟩ = imm := by
  have := imm.isLt
  apply BitVec.eq_of_toNat_eq
  simp only [SF.immS, BitVec.toNat_ofNat]
  omega

theorem SF.immB_of (imm : BitVec 12) (b a : BitVec 5) (cls : BitVec 3) :
    SF.immB ⟨BitVec.ofNat 7 (imm.toNat / 2048 * 64 + imm.toNat / 16 % 64), b, a, cls,
      BitVec.ofNat 5 (imm.toNat % 16 * 2 + imm.toNat / 1024 % 2)⟩ = imm := by
  have := imm.isLt
  have hA : imm.toNat / 2048 < 2 := by omega
  have hB : imm.toNat / 1024 % 2 < 2 := Nat.mod_lt _ (by decide)
  have hC : imm.toNat / 16 % 64 < 64 := Nat.mod_lt _ (by decide)
  have hD : imm.toNat % 16 < 16 := Nat.mod_lt _ (by decide)
  have hv : imm.toNat = imm.toNat / 2048 * 2048 + imm.toNat / 1024 % 2 * 1024 + imm.toNat / 16 % 64 * 16 + imm.toNat % 16 := by
    omega
  apply BitVec.eq_of_toNat_eq
  simp only [SF.immB, BitVec.toNat_ofNat]
  generalize imm.toNat / 2048 = A at *
  generalize imm.toNat / 1024 % 2 = B at *
  generalize imm.toNat / 16 % 64 = C at *
  generalize imm.toNat % 16 = D at *
  have e1 : (A * 64 + C) % 2 ^ 7 = A * 64 + C := Nat.mod_eq_of_lt (by omega)
  have e2 : (D * 2 + B) % 2 ^ 5 = D * 2 + B := Nat.mod_eq_of_lt (by omega)
  have e3 : (A * 64 + C) / 64 = A := by omega
  have e4 : (A * 64 + C) % 64 = C := by omega
  have e5 : (D * 2 + B) % 2 = B := by omega
  have e6 : (D * 2 + B) / 2 = D := by omega
  rw [e1, e2, e3, e4, e5, e6, hv]
  exact Nat.mod_eq_of_lt (by omega)

theorem SF.immU_of {d : BitVec 5} (u : Nat) (h : u < 1048576) :
    SF.immU ⟨BitVec.ofNat 7 (u / 8192), BitVec.ofNat 5 (u / 256), BitVec.ofNat 5 (u / 8), BitVec.ofNat 3 (u % 8), d⟩ =
      BitVec.ofNat 20 u := by
  apply BitVec.eq_of_toNat_eq
  simp only [SF.immU, BitVec.toNat_ofNat]
  omega

/-- The bits [31:12] of a jal with the immediate's bits [20:1]. -/
def jalBits (v : Nat) : Nat := v / 524288 * 524288 + v % 1024 * 512 + v / 1024 % 2 * 256 + v / 2048 % 256

theorem SF.immJ_of {d : BitVec 5} (imm : BitVec 20) :
    SF.immJ ⟨BitVec.ofNat 7 (jalBits imm.toNat / 8192), BitVec.ofNat 5 (jalBits imm.toNat / 256),
      BitVec.ofNat 5 (jalBits imm.toNat / 8), BitVec.ofNat 3 (jalBits imm.toNat % 8), d⟩ = imm := by
  have := imm.isLt
  have hA : imm.toNat / 524288 < 2 := by omega
  have hB : imm.toNat / 2048 % 256 < 256 := Nat.mod_lt _ (by decide)
  have hC : imm.toNat / 1024 % 2 < 2 := Nat.mod_lt _ (by decide)
  have hD : imm.toNat % 1024 < 1024 := Nat.mod_lt _ (by decide)
  have hv : imm.toNat = imm.toNat / 524288 * 524288 + imm.toNat / 2048 % 256 * 2048 + imm.toNat / 1024 % 2 * 1024 +
      imm.toNat % 1024 := by omega
  apply BitVec.eq_of_toNat_eq
  simp only [SF.immJ, BitVec.toNat_ofNat, jalBits]
  generalize imm.toNat / 524288 = A at *
  generalize imm.toNat / 2048 % 256 = B at *
  generalize imm.toNat / 1024 % 2 = C at *
  generalize imm.toNat % 1024 = D at *
  have a1 : (A * 524288 + D * 512 + C * 256 + B) / 8 = A * 65536 + D * 64 + C * 32 + B / 8 := by omega
  have a2 : (A * 524288 + D * 512 + C * 256 + B) / 256 = A * 2048 + D * 2 + C := by omega
  have a3 : (A * 524288 + D * 512 + C * 256 + B) / 8192 = A * 64 + D / 16 := by
    have := Nat.div_div_eq_div_mul (A * 524288 + D * 512 + C * 256 + B) 256 32
    omega
  have e1 : (A * 524288 + D * 512 + C * 256 + B) / 8192 % 2 ^ 7 = A * 64 + D / 16 := by
    rw [a3]; exact Nat.mod_eq_of_lt (show A * 64 + D / 16 < 128 by omega)
  have e2 : (A * 524288 + D * 512 + C * 256 + B) / 256 % 2 ^ 5 = D % 16 * 2 + C := by rw [a2]; omega
  have e3 : (A * 524288 + D * 512 + C * 256 + B) / 8 % 2 ^ 5 = B / 8 := by rw [a1]; omega
  have e4 : (A * 524288 + D * 512 + C * 256 + B) % 8 % 2 ^ 3 = B % 8 := by omega
  have f1 : (A * 64 + D / 16) / 64 = A := by omega
  have f2 : (A * 64 + D / 16) % 64 = D / 16 := by omega
  have f3 : (D % 16 * 2 + C) % 2 = C := by omega
  have f4 : (D % 16 * 2 + C) / 2 = D % 16 := by omega
  rw [e1, e2, e3, e4, f1, f2, f3, f4]
  rw [Nat.mod_eq_of_lt (by omega)]
  omega

theorem decodeMiscMem_fence (o : OpFence) :
    decodeMiscMem ⟨BitVec.ofNat 7 (o.fm.toNat * 8 + o.pred.toNat / 2),
        BitVec.ofNat 5 (o.pred.toNat % 2 * 16 + o.succ.toNat), o.rs1, 0, o.rd⟩ =
      if o.fm == 8#4 && o.pred == 3#4 && o.succ == 3#4 then .ok (.fenceTso o) else .ok (.fence o) := by
  obtain ⟨fm, pred, succ, rd, rs1⟩ := o
  have h1 := fm.isLt; have h2 := pred.isLt; have h3 := succ.isLt
  have e1 : BitVec.ofNat 4 ((BitVec.ofNat 7 (fm.toNat * 8 + pred.toNat / 2)).toNat / 8) = fm := by
    apply BitVec.eq_of_toNat_eq; simp only [BitVec.toNat_ofNat]; omega
  have e2 : BitVec.ofNat 4 ((BitVec.ofNat 7 (fm.toNat * 8 + pred.toNat / 2)).toNat % 8 * 2 +
      (BitVec.ofNat 5 (pred.toNat % 2 * 16 + succ.toNat)).toNat / 16) = pred := by
    apply BitVec.eq_of_toNat_eq; simp only [BitVec.toNat_ofNat]; omega
  have e3 : BitVec.ofNat 4 (BitVec.ofNat 5 (pred.toNat % 2 * 16 + succ.toNat)).toNat = succ := by
    apply BitVec.eq_of_toNat_eq; simp only [BitVec.toNat_ofNat]; omega
  refine Eq.trans (b := (let o : OpFence := ⟨_, _, _, rd, rs1⟩
    if o.fm == 8#4 && o.pred == 3#4 && o.succ == 3#4 then .ok (.fenceTso o) else .ok (.fence o))) rfl ?_
  simp only [e1, e2, e3]

/-- The instruction of a CSR word. -/
def csrTarget (o : OpCsr) : Instr :=
  if !o.writes then .baseInstruction (.csrRead o.fn o.imm o.csr o.rd)
  else if o.csr == 0x801#12 then .vtypeWrite o
  else if o.csr == 0x5C6#12 then .vreclaimWrite o
  else if o.csr == 0x180#12 then .satpWrite o
  else if o.csr == 0x7C0#12 then .mgnctlWrite o
  else .registerWrite (.csr o)

theorem decodeCsr_eq (fn : CsrFn) (imm : Bool) (csr : BitVec 12) (rd src : Reg) (cls : BitVec 3) :
    decodeCsr fn imm ⟨BitVec.ofNat 7 (csr.toNat / 32), BitVec.ofNat 5 csr.toNat, src, cls, rd⟩ =
      .ok (csrTarget ⟨fn, imm, csr, rd, src⟩) := by
  unfold decodeCsr csrTarget
  simp only [SF.immI_of]
  repeat' split
  all_goals first | rfl | simp_all

theorem decodeSystem_csr (fn : CsrFn) (imm : Bool) (f7 : BitVec 7) (b a d : BitVec 5) :
    decodeSystem ⟨f7, b, a, BitVec.ofNat 3 (fn.code + if imm then 4 else 0), d⟩ =
      decodeCsr fn imm ⟨f7, b, a, BitVec.ofNat 3 (fn.code + if imm then 4 else 0), d⟩ := by
  cases fn <;> cases imm <;> rfl

theorem decode_csrWord (o : OpCsr) : decode (csrWord o.fn o.imm o.csr o.rd o.src) = .ok (csrTarget o) :=
  (decode_system _).trans ((decodeSystem_csr _ _ _ _ _ _).trans (decodeCsr_eq _ _ _ _ _ _))

theorem decodeOpImm_1 {F : SF} (h : F.cls = 1#3) : decodeOpImm F =
    if F.immI.toNat < 64 then .ok (.baseInstruction (.opImm .slli F.d F.a F.immI)) else .error .reserved := by
  unfold decodeOpImm; rw [h]; rfl

theorem decodeOpImm_5 {F : SF} (h : F.cls = 5#3) : decodeOpImm F =
    if F.immI.toNat < 64 then .ok (.baseInstruction (.opImm .srli F.d F.a F.immI))
    else if F.immI.toNat / 64 == 16 then
      .ok (.baseInstruction (.opImm .srai F.d F.a (BitVec.ofNat 12 (F.immI.toNat % 64))))
    else .error .reserved := by
  unfold decodeOpImm; rw [h]; rfl

theorem decodeOpImmW_1 {F : SF} (h : F.cls = 1#3) : decodeOpImmW F =
    if F.immI.toNat < 32 then .ok (.baseInstruction (.opImmW .slliw F.d F.a F.immI)) else .error .reserved := by
  unfold decodeOpImmW; rw [h]; rfl

theorem decodeOpImmW_5 {F : SF} (h : F.cls = 5#3) : decodeOpImmW F =
    if F.immI.toNat < 32 then .ok (.baseInstruction (.opImmW .srliw F.d F.a F.immI))
    else if F.immI.toNat / 32 == 32 then
      .ok (.baseInstruction (.opImmW .sraiw F.d F.a (BitVec.ofNat 12 (F.immI.toNat % 32))))
    else .error .reserved := by
  unfold decodeOpImmW; rw [h]; rfl

/-- The fields of a word of the I format. -/
def iFields (imm : BitVec 12) (cls : Nat) (a d : BitVec 5) : SF :=
  ⟨BitVec.ofNat 7 (imm.toNat / 32), BitVec.ofNat 5 imm.toNat, a, BitVec.ofNat 3 cls, d⟩

theorem iFields_immI (imm : BitVec 12) (cls : Nat) (a d : BitVec 5) : (iFields imm cls a d).immI = imm :=
  SF.immI_of _ _ _ _

theorem decodeOpImm_sll {F : SF} {imm : BitVec 12} (h : F.cls = 1#3) (hi : F.immI = imm) (h6 : imm.toNat < 64) :
    decodeOpImm F = .ok (.baseInstruction (.opImm .slli F.d F.a imm)) := by
  subst hi; rw [decodeOpImm_1 h, if_pos h6]

theorem decodeOpImm_srl {F : SF} {imm : BitVec 12} (h : F.cls = 5#3) (hi : F.immI = imm) (h6 : imm.toNat < 64) :
    decodeOpImm F = .ok (.baseInstruction (.opImm .srli F.d F.a imm)) := by
  subst hi; rw [decodeOpImm_5 h, if_pos h6]

theorem decodeOpImm_sra {F : SF} {imm : BitVec 12} (h : F.cls = 5#3) (hi : F.immI = BitVec.ofNat 12 (1024 + imm.toNat))
    (h6 : imm.toNat < 64) : decodeOpImm F = .ok (.baseInstruction (.opImm .srai F.d F.a imm)) := by
  have e : F.immI.toNat = 1024 + imm.toNat := by rw [hi]; simp; omega
  have e3 : BitVec.ofNat 12 (F.immI.toNat % 64) = imm := by
    apply BitVec.eq_of_toNat_eq; simp only [BitVec.toNat_ofNat]; omega
  rw [decodeOpImm_5 h, if_neg (by omega), if_pos (by simp; omega), e3]

theorem decodeOpImmW_sll {F : SF} {imm : BitVec 12} (h : F.cls = 1#3) (hi : F.immI = imm) (h6 : imm.toNat < 32) :
    decodeOpImmW F = .ok (.baseInstruction (.opImmW .slliw F.d F.a imm)) := by
  subst hi; rw [decodeOpImmW_1 h, if_pos h6]

theorem decodeOpImmW_srl {F : SF} {imm : BitVec 12} (h : F.cls = 5#3) (hi : F.immI = imm) (h6 : imm.toNat < 32) :
    decodeOpImmW F = .ok (.baseInstruction (.opImmW .srliw F.d F.a imm)) := by
  subst hi; rw [decodeOpImmW_5 h, if_pos h6]

theorem decodeOpImmW_sra {F : SF} {imm : BitVec 12} (h : F.cls = 5#3) (hi : F.immI = BitVec.ofNat 12 (1024 + imm.toNat))
    (h6 : imm.toNat < 32) : decodeOpImmW F = .ok (.baseInstruction (.opImmW .sraiw F.d F.a imm)) := by
  have e : F.immI.toNat = 1024 + imm.toNat := by rw [hi]; simp; omega
  have e3 : BitVec.ofNat 12 (F.immI.toNat % 32) = imm := by
    apply BitVec.eq_of_toNat_eq; simp only [BitVec.toNat_ofNat]; omega
  rw [decodeOpImmW_5 h, if_neg (by omega), if_pos (by simp; omega), e3]

theorem opImm_ok (f : ImmOp) (rd rs1 : Reg) (imm : BitVec 12) (h : (Base.opImm f rd rs1 imm).wellFormed = true) :
    decodeOpImm (iFields (BitVec.ofNat 12 (f.high + imm.toNat)) f.cls rs1 rd) =
      .ok (.baseInstruction (.opImm f rd rs1 imm)) := by
  have hz : BitVec.ofNat 12 (0 + imm.toNat) = imm := by simp
  cases f
  case srai => exact decodeOpImm_sra rfl (iFields_immI _ _ _ _) (by simpa [Base.wellFormed] using h)
  case slli => exact decodeOpImm_sll rfl ((iFields_immI _ _ _ _).trans hz) (by simpa [Base.wellFormed] using h)
  case srli => exact decodeOpImm_srl rfl ((iFields_immI _ _ _ _).trans hz) (by simpa [Base.wellFormed] using h)
  all_goals
    exact congrArg (fun i => Except.ok (Instr.baseInstruction (.opImm _ rd rs1 i))) ((iFields_immI _ _ _ _).trans hz)

theorem opImmW_ok (f : ImmOpW) (rd rs1 : Reg) (imm : BitVec 12) (h : (Base.opImmW f rd rs1 imm).wellFormed = true) :
    decodeOpImmW (iFields (BitVec.ofNat 12 (f.high + imm.toNat)) f.cls rs1 rd) =
      .ok (.baseInstruction (.opImmW f rd rs1 imm)) := by
  have hz : BitVec.ofNat 12 (0 + imm.toNat) = imm := by simp
  cases f
  case sraiw => exact decodeOpImmW_sra rfl (iFields_immI _ _ _ _) (by simpa [Base.wellFormed] using h)
  case slliw => exact decodeOpImmW_sll rfl ((iFields_immI _ _ _ _).trans hz) (by simpa [Base.wellFormed] using h)
  case srliw => exact decodeOpImmW_srl rfl ((iFields_immI _ _ _ _).trans hz) (by simpa [Base.wellFormed] using h)
  all_goals
    exact congrArg (fun i => Except.ok (Instr.baseInstruction (.opImmW _ rd rs1 i))) ((iFields_immI _ _ _ _).trans hz)

end Sys2Proof
end

