-- ==== Sys2Proof/Laws/Dispatch.lean ====
section
/-! SUPPORT. The meaning each constructor runs, as equations to rewrite with. -/
namespace Sys2Proof.Machine

theorem exec_vadd (o : OpB) (s : State) : exec (.vadd o) s = execVadd o s := rfl
theorem exec_vsub (o : OpB) (s : State) : exec (.vsub o) s = execVsub o s := rfl
theorem exec_vrsub (o : OpB) (s : State) : exec (.vrsub o) s = execVrsub o s := rfl
theorem exec_vmul (o : OpB) (s : State) : exec (.vmul o) s = execVmul o s := rfl
theorem exec_vmulh (o : OpB) (s : State) : exec (.vmulh o) s = execVmulh o s := rfl
theorem exec_vmulhu (o : OpB) (s : State) : exec (.vmulhu o) s = execVmulhu o s := rfl
theorem exec_vmacc (o : OpB) (s : State) : exec (.vmacc o) s = execVmacc o s := rfl
theorem exec_vnmsac (o : OpB) (s : State) : exec (.vnmsac o) s = execVnmsac o s := rfl
theorem exec_vdiv (o : OpB) (s : State) : exec (.vdiv o) s = execVdiv o s := rfl
theorem exec_vdivu (o : OpB) (s : State) : exec (.vdivu o) s = execVdivu o s := rfl
theorem exec_vrem (o : OpB) (s : State) : exec (.vrem o) s = execVrem o s := rfl
theorem exec_vremu (o : OpB) (s : State) : exec (.vremu o) s = execVremu o s := rfl
theorem exec_vmin (o : OpB) (s : State) : exec (.vmin o) s = execVmin o s := rfl
theorem exec_vminu (o : OpB) (s : State) : exec (.vminu o) s = execVminu o s := rfl
theorem exec_vmax (o : OpB) (s : State) : exec (.vmax o) s = execVmax o s := rfl
theorem exec_vmaxu (o : OpB) (s : State) : exec (.vmaxu o) s = execVmaxu o s := rfl
theorem exec_vand (o : OpB) (s : State) : exec (.vand o) s = execVand o s := rfl
theorem exec_vor (o : OpB) (s : State) : exec (.vor o) s = execVor o s := rfl
theorem exec_vxor (o : OpB) (s : State) : exec (.vxor o) s = execVxor o s := rfl
theorem exec_vsll (o : OpB) (s : State) : exec (.vsll o) s = execVsll o s := rfl
theorem exec_vsrl (o : OpB) (s : State) : exec (.vsrl o) s = execVsrl o s := rfl
theorem exec_vsra (o : OpB) (s : State) : exec (.vsra o) s = execVsra o s := rfl
theorem exec_vsadd (o : OpB) (s : State) : exec (.vsadd o) s = execVsadd o s := rfl
theorem exec_vsaddu (o : OpB) (s : State) : exec (.vsaddu o) s = execVsaddu o s := rfl
theorem exec_vssub (o : OpB) (s : State) : exec (.vssub o) s = execVssub o s := rfl
theorem exec_vssubu (o : OpB) (s : State) : exec (.vssubu o) s = execVssubu o s := rfl
theorem exec_vsmul (o : OpB) (s : State) : exec (.vsmul o) s = execVsmul o s := rfl
theorem exec_vclz (o : OpU) (s : State) : exec (.vclz o) s = execVclz o s := rfl
theorem exec_vcpop (o : OpU) (s : State) : exec (.vcpop o) s = execVcpop o s := rfl
theorem exec_vabsd (o : OpB) (s : State) : exec (.vabsd o) s = execVabsd o s := rfl
theorem exec_vmerge (o : OpB) (s : State) : exec (.vmerge o) s = execVmerge o s := rfl
theorem exec_vmv (o : OpD) (s : State) : exec (.vmv o) s = execVmv o s := rfl
theorem exec_vmseq (o : OpB) (s : State) : exec (.vmseq o) s = execVmseq o s := rfl
theorem exec_vmsne (o : OpB) (s : State) : exec (.vmsne o) s = execVmsne o s := rfl
theorem exec_vmslt (o : OpB) (s : State) : exec (.vmslt o) s = execVmslt o s := rfl
theorem exec_vmsltu (o : OpB) (s : State) : exec (.vmsltu o) s = execVmsltu o s := rfl
theorem exec_vmsle (o : OpB) (s : State) : exec (.vmsle o) s = execVmsle o s := rfl
theorem exec_vmsleu (o : OpB) (s : State) : exec (.vmsleu o) s = execVmsleu o s := rfl
theorem exec_vmsgt (o : OpB) (s : State) : exec (.vmsgt o) s = execVmsgt o s := rfl
theorem exec_vmsgtu (o : OpB) (s : State) : exec (.vmsgtu o) s = execVmsgtu o s := rfl
theorem exec_vmfeq (o : OpB) (s : State) : exec (.vmfeq o) s = execVmfeq o s := rfl
theorem exec_vmfne (o : OpB) (s : State) : exec (.vmfne o) s = execVmfne o s := rfl
theorem exec_vmflt (o : OpB) (s : State) : exec (.vmflt o) s = execVmflt o s := rfl
theorem exec_vmfle (o : OpB) (s : State) : exec (.vmfle o) s = execVmfle o s := rfl
theorem exec_vmfgt (o : OpB) (s : State) : exec (.vmfgt o) s = execVmfgt o s := rfl
theorem exec_vmfge (o : OpB) (s : State) : exec (.vmfge o) s = execVmfge o s := rfl
theorem exec_vmand (o : OpB) (s : State) : exec (.vmand o) s = execVmand o s := rfl
theorem exec_vmor (o : OpB) (s : State) : exec (.vmor o) s = execVmor o s := rfl
theorem exec_vmxor (o : OpB) (s : State) : exec (.vmxor o) s = execVmxor o s := rfl
theorem exec_vmandn (o : OpB) (s : State) : exec (.vmandn o) s = execVmandn o s := rfl
theorem exec_vmsbf (o : OpU) (s : State) : exec (.vmsbf o) s = execVmsbf o s := rfl
theorem exec_vmsif (o : OpU) (s : State) : exec (.vmsif o) s = execVmsif o s := rfl
theorem exec_vmsof (o : OpU) (s : State) : exec (.vmsof o) s = execVmsof o s := rfl
theorem exec_viota (o : OpU) (s : State) : exec (.viota o) s = execViota o s := rfl
theorem exec_vid (o : OpZ) (s : State) : exec (.vid o) s = execVid o s := rfl
theorem exec_vmcnt (o : OpXR) (s : State) : exec (.vmcnt o) s = execVmcnt o s := rfl
theorem exec_vmfirst (o : OpXR) (s : State) : exec (.vmfirst o) s = execVmfirst o s := rfl
theorem exec_vmtox (o : OpXR) (s : State) : exec (.vmtox o) s = execVmtox o s := rfl
theorem exec_vmfromx (o : OpD) (s : State) : exec (.vmfromx o) s = execVmfromx o s := rfl
theorem exec_vfadd (o : OpB) (s : State) : exec (.vfadd o) s = execVfadd o s := rfl
theorem exec_vfsub (o : OpB) (s : State) : exec (.vfsub o) s = execVfsub o s := rfl
theorem exec_vfmul (o : OpB) (s : State) : exec (.vfmul o) s = execVfmul o s := rfl
theorem exec_vfdiv (o : OpB) (s : State) : exec (.vfdiv o) s = execVfdiv o s := rfl
theorem exec_vfsqrt (o : OpU) (s : State) : exec (.vfsqrt o) s = execVfsqrt o s := rfl
theorem exec_vfmin (o : OpB) (s : State) : exec (.vfmin o) s = execVfmin o s := rfl
theorem exec_vfmax (o : OpB) (s : State) : exec (.vfmax o) s = execVfmax o s := rfl
theorem exec_vfmadd (o : OpB) (s : State) : exec (.vfmadd o) s = execVfmadd o s := rfl
theorem exec_vfnmadd (o : OpB) (s : State) : exec (.vfnmadd o) s = execVfnmadd o s := rfl
theorem exec_vfmsub (o : OpB) (s : State) : exec (.vfmsub o) s = execVfmsub o s := rfl
theorem exec_vfnmsub (o : OpB) (s : State) : exec (.vfnmsub o) s = execVfnmsub o s := rfl
theorem exec_vfsgnj (o : OpB) (s : State) : exec (.vfsgnj o) s = execVfsgnj o s := rfl
theorem exec_vfsgnjn (o : OpB) (s : State) : exec (.vfsgnjn o) s = execVfsgnjn o s := rfl
theorem exec_vfsgnjx (o : OpB) (s : State) : exec (.vfsgnjx o) s = execVfsgnjx o s := rfl
theorem exec_vfrece (o : OpU) (s : State) : exec (.vfrece o) s = execVfrece o s := rfl
theorem exec_vfrsqe (o : OpU) (s : State) : exec (.vfrsqe o) s = execVfrsqe o s := rfl
theorem exec_vfcvtFX (o : OpS) (s : State) : exec (.vfcvtFX o) s = execVfcvtFX o s := rfl
theorem exec_vfcvtFXu (o : OpS) (s : State) : exec (.vfcvtFXu o) s = execVfcvtFXu o s := rfl
theorem exec_vfcvtXF (o : OpS) (s : State) : exec (.vfcvtXF o) s = execVfcvtXF o s := rfl
theorem exec_vfcvtXuF (o : OpS) (s : State) : exec (.vfcvtXuF o) s = execVfcvtXuF o s := rfl
theorem exec_vfwid (o : OpS) (s : State) : exec (.vfwid o) s = execVfwid o s := rfl
theorem exec_vfnar (o : OpS) (s : State) : exec (.vfnar o) s = execVfnar o s := rfl
theorem exec_vsext (o : OpS) (s : State) : exec (.vsext o) s = execVsext o s := rfl
theorem exec_vzext (o : OpS) (s : State) : exec (.vzext o) s = execVzext o s := rfl
theorem exec_vnclip (o : OpU) (s : State) : exec (.vnclip o) s = execVnclip o s := rfl
theorem exec_vfclass (o : OpU) (s : State) : exec (.vfclass o) s = execVfclass o s := rfl
theorem exec_vfcvtBfF (o : OpU) (s : State) : exec (.vfcvtBfF o) s = execVfcvtBfF o s := rfl
theorem exec_vfcvtFBf (o : OpU) (s : State) : exec (.vfcvtFBf o) s = execVfcvtFBf o s := rfl
theorem exec_vslideup (o : OpB) (s : State) : exec (.vslideup o) s = execVslideup o s := rfl
theorem exec_vslidedn (o : OpB) (s : State) : exec (.vslidedn o) s = execVslidedn o s := rfl
theorem exec_vslide1up (o : OpB) (s : State) : exec (.vslide1up o) s = execVslide1up o s := rfl
theorem exec_vslide1dn (o : OpB) (s : State) : exec (.vslide1dn o) s = execVslide1dn o s := rfl
theorem exec_vrgather (o : OpB) (s : State) : exec (.vrgather o) s = execVrgather o s := rfl
theorem exec_vcompress (o : OpB) (s : State) : exec (.vcompress o) s = execVcompress o s := rfl
theorem exec_vredsum (o : OpB) (s : State) : exec (.vredsum o) s = execVredsum o s := rfl
theorem exec_vredmin (o : OpB) (s : State) : exec (.vredmin o) s = execVredmin o s := rfl
theorem exec_vredmax (o : OpB) (s : State) : exec (.vredmax o) s = execVredmax o s := rfl
theorem exec_vredand (o : OpB) (s : State) : exec (.vredand o) s = execVredand o s := rfl
theorem exec_vredor (o : OpB) (s : State) : exec (.vredor o) s = execVredor o s := rfl
theorem exec_vfredo (o : OpB) (s : State) : exec (.vfredo o) s = execVfredo o s := rfl
theorem exec_vfredt (o : OpB) (s : State) : exec (.vfredt o) s = execVfredt o s := rfl
theorem exec_vfredmin (o : OpB) (s : State) : exec (.vfredmin o) s = execVfredmin o s := rfl
theorem exec_vfredmax (o : OpB) (s : State) : exec (.vfredmax o) s = execVfredmax o s := rfl
theorem exec_vscan (o : OpS) (s : State) : exec (.vscan o) s = execVscan o s := rfl
theorem exec_vmvXS (o : OpXR) (s : State) : exec (.vmvXS o) s = execVmvXS o s := rfl
theorem exec_vmvSX (o : OpD) (s : State) : exec (.vmvSX o) s = execVmvSX o s := rfl
theorem exec_vgperm (o : OpB) (s : State) : exec (.vgperm o) s = execVgperm o s := rfl
theorem exec_vgred (o : OpS) (s : State) : exec (.vgred o) s = execVgred o s := rfl
theorem exec_vgbcast (o : OpB) (s : State) : exec (.vgbcast o) s = execVgbcast o s := rfl
theorem exec_vqE4m3 (o : OpB) (s : State) : exec (.vqE4m3 o) s = execVqE4m3 o s := rfl
theorem exec_vqE5m2 (o : OpB) (s : State) : exec (.vqE5m2 o) s = execVqE5m2 o s := rfl
theorem exec_vqE2m1 (o : OpB) (s : State) : exec (.vqE2m1 o) s = execVqE2m1 o s := rfl
theorem exec_vdq (o : OpB) (s : State) : exec (.vdq o) s = execVdq o s := rfl
theorem exec_vsclmk (o : OpU) (s : State) : exec (.vsclmk o) s = execVsclmk o s := rfl
theorem exec_vmxdot (o : OpB) (s : State) : exec (.vmxdot o) s = execVmxdot o s := rfl
theorem exec_vmxmm (o : OpB) (s : State) : exec (.vmxmm o) s = execVmxmm o s := rfl
theorem exec_vpkscl (o : OpB) (s : State) : exec (.vpkscl o) s = execVpkscl o s := rfl
theorem exec_vaccX (o : OpD) (s : State) : exec (.vaccX o) s = execVaccX o s := rfl
theorem exec_vaccI (vs2 rs1 : Reg) (s : State) : exec (.vaccI vs2 rs1) s = execVaccI vs2 rs1 s := rfl
theorem exec_vaccZ (rs1 : Reg) (s : State) : exec (.vaccZ rs1) s = execVaccZ rs1 s := rfl
theorem exec_lfAdd (o : OpB) (s : State) : exec (.lfAdd o) s = execLfAdd o s := rfl
theorem exec_lfSub (o : OpB) (s : State) : exec (.lfSub o) s = execLfSub o s := rfl
theorem exec_lfMul (o : OpB) (s : State) : exec (.lfMul o) s = execLfMul o s := rfl
theorem exec_lfFma (o : OpB) (s : State) : exec (.lfFma o) s = execLfFma o s := rfl
theorem exec_lfDiv (o : OpB) (s : State) : exec (.lfDiv o) s = execLfDiv o s := rfl
theorem exec_lfSqrt (o : OpU) (s : State) : exec (.lfSqrt o) s = execLfSqrt o s := rfl
theorem exec_lfRnd (o : OpU) (s : State) : exec (.lfRnd o) s = execLfRnd o s := rfl
theorem exec_lfFromf (o : OpS) (s : State) : exec (.lfFromf o) s = execLfFromf o s := rfl
theorem exec_lfTof (o : OpS) (s : State) : exec (.lfTof o) s = execLfTof o s := rfl
theorem exec_lfFromx (o : OpS) (s : State) : exec (.lfFromx o) s = execLfFromx o s := rfl
theorem exec_lfTox (o : OpS) (s : State) : exec (.lfTox o) s = execLfTox o s := rfl
theorem exec_lfCmpLt (o : OpB) (s : State) : exec (.lfCmpLt o) s = execLfCmpLt o s := rfl
theorem exec_lfCmpLe (o : OpB) (s : State) : exec (.lfCmpLe o) s = execLfCmpLe o s := rfl
theorem exec_lfCmpEq (o : OpB) (s : State) : exec (.lfCmpEq o) s = execLfCmpEq o s := rfl
theorem exec_lfCmpUn (o : OpB) (s : State) : exec (.lfCmpUn o) s = execLfCmpUn o s := rfl
theorem exec_lfLen (o : OpU) (s : State) : exec (.lfLen o) s = execLfLen o s := rfl
theorem exec_lfSgnj (o : OpB) (s : State) : exec (.lfSgnj o) s = execLfSgnj o s := rfl
theorem exec_gbox (o : OpB) (s : State) : exec (.gbox o) s = execGbox o s := rfl
theorem exec_gtri (o : OpB) (s : State) : exec (.gtri o) s = execGtri o s := rfl
theorem exec_gsetup (o : OpU) (s : State) : exec (.gsetup o) s = execGsetup o s := rfl
theorem exec_gcov (o : OpB) (s : State) : exec (.gcov o) s = execGcov o s := rfl
theorem exec_gtex (o : OpB) (s : State) : exec (.gtex o) s = execGtex o s := rfl
theorem exec_gblend (o : OpB) (s : State) : exec (.gblend o) s = execGblend o s := rfl
theorem exec_grsvUpd (o : OpB) (s : State) : exec (.grsvUpd o) s = execGrsvUpd o s := rfl
theorem exec_grsvMrg (o : OpB) (s : State) : exec (.grsvMrg o) s = execGrsvMrg o s := rfl
theorem exec_gpack (o : OpU) (s : State) : exec (.gpack o) s = execGpack o s := rfl
theorem exec_vdsegL2 (o : OpB) (s : State) : exec (.vdsegL2 o) s = execVdsegL2 o s := rfl
theorem exec_vdsegIp (o : OpB) (s : State) : exec (.vdsegIp o) s = execVdsegIp o s := rfl
theorem exec_vtopk (o : OpB) (s : State) : exec (.vtopk o) s = execVtopk o s := rfl
theorem exec_vtopkM (o : OpU) (s : State) : exec (.vtopkM o) s = execVtopkM o s := rfl
theorem exec_vld (o : OpM) (s : State) : exec (.vld o) s = execVld o s := rfl
theorem exec_vlds (o : OpM) (s : State) : exec (.vlds o) s = execVlds o s := rfl
theorem exec_vldx (o : OpM) (s : State) : exec (.vldx o) s = execVldx o s := rfl
theorem exec_vldff (o : OpM) (s : State) : exec (.vldff o) s = execVldff o s := rfl
theorem exec_vldxff (o : OpM) (s : State) : exec (.vldxff o) s = execVldxff o s := rfl
theorem exec_vldr (o : OpDS) (s : State) : exec (.vldr o) s = execVldr o s := rfl
theorem exec_vst (o : OpM) (s : State) : exec (.vst o) s = execVst o s := rfl
theorem exec_vsts (o : OpM) (s : State) : exec (.vsts o) s = execVsts o s := rfl
theorem exec_vstx (o : OpM) (s : State) : exec (.vstx o) s = execVstx o s := rfl
theorem exec_vstxo (o : OpM) (s : State) : exec (.vstxo o) s = execVstxo o s := rfl
theorem exec_vstr (o : OpDS) (s : State) : exec (.vstr o) s = execVstr o s := rfl
theorem exec_vstrip (o : OpDS) (s : State) : exec (.vstrip o) s = execVstrip o s := rfl
theorem exec_vstripK (o : OpDS) (s : State) : exec (.vstripK o) s = execVstripK o s := rfl
theorem exec_vcfg (o : OpDS) (s : State) : exec (.vcfg o) s = execVcfg o s := rfl
theorem exec_vcfgi (rd : Reg) (vt : BitVec 14) (s : State) : exec (.vcfgi rd vt) s = execVcfgi rd vt s := rfl
theorem exec_vbind (o : OpDS) (s : State) : exec (.vbind o) s = execVbind o s := rfl
theorem exec_vunbind (vd : Reg) (s : State) : exec (.vunbind vd) s = execVunbind vd s := rfl
theorem exec_vbend (rd vd : Reg) (s : State) : exec (.vbend rd vd) s = execVbend rd vd s := rfl
theorem exec_vnest (rs1 : Reg) (len1 : BitVec 4) (s : State) : exec (.vnest rs1 len1) s = execVnest rs1 len1 s := rfl
theorem exec_vctxs (rs1 : Reg) (s : State) : exec (.vctxs rs1) s = execVctxs rs1 s := rfl
theorem exec_vctxl (rs1 : Reg) (s : State) : exec (.vctxl rs1) s = execVctxl rs1 s := rfl
theorem exec_ecmd (rd vs1 rs2 : Reg) (s : State) : exec (.ecmd rd vs1 rs2) s = execEcmd rd vs1 rs2 s := rfl
theorem exec_ecommit (b : BitVec 3) (s : State) : exec (.ecommit b) s = execEcommit b s := rfl
theorem exec_ewait (b : BitVec 3) (s : State) : exec (.ewait b) s = execEwait b s := rfl
theorem exec_ewaitn (rs1 : Reg) (s : State) : exec (.ewaitn rs1) s = execEwaitn rs1 s := rfl
theorem exec_epoll (o : OpDS) (s : State) : exec (.epoll o) s = execEpoll o s := rfl
theorem exec_qspawn (o : OpDS) (s : State) : exec (.qspawn o) s = execQspawn o s := rfl
theorem exec_qpush (o : OpR) (s : State) : exec (.qpush o) s = execQpush o s := rfl
theorem exec_qpushNb (o : OpR) (s : State) : exec (.qpushNb o) s = execQpushNb o s := rfl
theorem exec_qpushGate (o : OpR) (s : State) : exec (.qpushGate o) s = execQpushGate o s := rfl
theorem exec_qpop (o : OpR) (s : State) : exec (.qpop o) s = execQpop o s := rfl
theorem exec_qpopNb (o : OpR) (s : State) : exec (.qpopNb o) s = execQpopNb o s := rfl
theorem exec_qyield (s : State) : exec .qyield s = execQyield s := rfl
theorem exec_qexit (s : State) : exec .qexit s = execQexit s := rfl
theorem exec_qresume (o : OpDS) (s : State) : exec (.qresume o) s = execQresume o s := rfl
theorem exec_qticket (o : OpDS) (s : State) : exec (.qticket o) s = execQticket o s := rfl
theorem exec_qturn (rs1 rs2 : Reg) (s : State) : exec (.qturn rs1 rs2) s = execQturn rs1 rs2 s := rfl
theorem exec_qnext (rs1 : Reg) (s : State) : exec (.qnext rs1) s = execQnext rs1 s := rfl
theorem exec_slotget (o : OpDS) (s : State) : exec (.slotget o) s = execSlotget o s := rfl
theorem exec_slotret (rs1 rs2 : Reg) (s : State) : exec (.slotret rs1 rs2) s = execSlotret rs1 rs2 s := rfl
theorem exec_qlen (o : OpDS) (s : State) : exec (.qlen o) s = execQlen o s := rfl
theorem exec_mwait (o : OpR) (s : State) : exec (.mwait o) s = execMwait o s := rfl
theorem exec_barv (rs1 : Reg) (s : State) : exec (.barv rs1) s = execBarv rs1 s := rfl
theorem exec_barw (rs1 : Reg) (s : State) : exec (.barw rs1) s = execBarw rs1 s := rfl
theorem exec_barvw (rs1 : Reg) (s : State) : exec (.barvw rs1) s = execBarvw rs1 s := rfl
theorem exec_barq (o : OpDS) (s : State) : exec (.barq o) s = execBarq o s := rfl
theorem exec_ofence (scope : Reg) (pred succ : BitVec 4) (s : State) : exec (.ofence scope pred succ) s = execOfence scope pred succ s := rfl
theorem exec_xfence (scope : Reg) (s : State) : exec (.xfence scope) s = execXfence scope s := rfl
theorem exec_act (o : OpAct) (s : State) : exec (.act o) s = execAct o s := rfl
theorem exec_actS (o : OpAct) (s : State) : exec (.actS o) s = execActS o s := rfl
theorem exec_vact (o : OpAct) (s : State) : exec (.vact o) s = execVact o s := rfl
theorem exec_vactS (o : OpAct) (s : State) : exec (.vactS o) s = execVactS o s := rfl
theorem exec_actInst (rd rs2 : Reg) (id : BitVec 5) (s : State) : exec (.actInst rd rs2 id) s = execActInst rd rs2 id s := rfl
theorem exec_actInstS (rd rs2 : Reg) (id : BitVec 5) (s : State) : exec (.actInstS rd rs2 id) s = execActInstS rd rs2 id s := rfl
theorem exec_hbsave (rs1 : Reg) (s : State) : exec (.hbsave rs1) s = execHbsave rs1 s := rfl
theorem exec_hbload (rs1 : Reg) (s : State) : exec (.hbload rs1) s = execHbload rs1 s := rfl
theorem exec_mgnsafe (rs1 : Reg) (s : State) : exec (.mgnsafe rs1) s = execMgnsafe rs1 s := rfl
theorem exec_mgnrel (s : State) : exec .mgnrel s = execMgnrel s := rfl
theorem exec_gjoin (o : OpDS) (s : State) : exec (.gjoin o) s = execGjoin o s := rfl
theorem exec_gleave (s : State) : exec .gleave s = execGleave s := rfl
theorem exec_vrel (s : State) : exec .vrel s = execVrel s := rfl
theorem exec_cquar (rs1 : Reg) (s : State) : exec (.cquar rs1) s = execCquar rs1 s := rfl
theorem exec_load (o : OpLoad) (s : State) : exec (.load o) s = execLoad o s := rfl
theorem exec_store (o : OpStore) (s : State) : exec (.store o) s = execStore o s := rfl
theorem exec_lr (o : OpAmo) (s : State) : exec (.lr o) s = execLr o s := rfl
theorem exec_sc (o : OpAmo) (s : State) : exec (.sc o) s = execSc o s := rfl
theorem exec_amo (f : AmoOp) (o : OpAmo) (s : State) : exec (.amo f o) s = execAmo f o s := rfl
theorem exec_fence (o : OpFence) (s : State) : exec (.fence o) s = execFence o s := rfl
theorem exec_fenceTso (o : OpFence) (s : State) : exec (.fenceTso o) s = execFenceTso o s := rfl
theorem exec_fenceI (rd rs1 : Reg) (imm : BitVec 12) (s : State) : exec (.fenceI rd rs1 imm) s = execFenceI rd rs1 imm s := rfl
theorem exec_sfenceVma (rs1 rs2 : Reg) (s : State) : exec (.sfenceVma rs1 rs2) s = execSfenceVma rs1 rs2 s := rfl
theorem exec_wfi (s : State) : exec .wfi s = execWfi s := rfl
theorem exec_sret (s : State) : exec .sret s = execSret s := rfl
theorem exec_mret (s : State) : exec .mret s = execMret s := rfl
theorem exec_ecall (s : State) : exec .ecall s = execEcall s := rfl
theorem exec_ebreak (s : State) : exec .ebreak s = execEbreak s := rfl
theorem exec_baseInstruction (b : Base) (s : State) : exec (.baseInstruction b) s = execBaseInstruction b s := rfl
theorem exec_vtypeWrite (o : OpCsr) (s : State) : exec (.vtypeWrite o) s = execVtypeWrite o s := rfl
theorem exec_vreclaimWrite (o : OpCsr) (s : State) : exec (.vreclaimWrite o) s = execVreclaimWrite o s := rfl
theorem exec_satpWrite (o : OpCsr) (s : State) : exec (.satpWrite o) s = execSatpWrite o s := rfl
theorem exec_mgnctlWrite (o : OpCsr) (s : State) : exec (.mgnctlWrite o) s = execMgnctlWrite o s := rfl
theorem exec_stashMapWord0Write (core entry : Nat) (v : Word) (s : State) : exec (.stashMapWord0Write core entry v) s = execStashMapWord0Write core entry v s := rfl
theorem exec_stashMapWord1Write (core entry : Nat) (v : Word) (s : State) : exec (.stashMapWord1Write core entry v) s = execStashMapWord1Write core entry v s := rfl
theorem exec_snapshot (core : Nat) (v : Word) (s : State) : exec (.snapshot core v) s = execSnapshot core v s := rfl
theorem exec_snapshotEnd (core : Nat) (s : State) : exec (.snapshotEnd core) s = execSnapshotEnd core s := rfl
theorem exec_requeue (core ctx : Nat) (v : Word) (s : State) : exec (.requeue core ctx v) s = execRequeue core ctx v s := rfl
theorem exec_saveareaRead (core ctx : Nat) (rd : Reg) (s : State) : exec (.saveareaRead core ctx rd) s = execSaveareaRead core ctx rd s := rfl
theorem exec_lvcfgWrite (die : Nat) (v : Word) (s : State) : exec (.lvcfgWrite die v) s = execLvcfgWrite die v s := rfl
theorem exec_registerWrite (t : RegTarget) (s : State) : exec (.registerWrite t) s = execRegisterWrite t s := rfl
theorem exec_queue (r : CfgReq) (s : State) : exec (.queue r) s = execQueue r s := rfl
theorem exec_turnstile (r : CfgReq) (s : State) : exec (.turnstile r) s = execTurnstile r s := rfl
theorem exec_pool (r : CfgReq) (s : State) : exec (.pool r) s = execPool r s := rfl
theorem exec_barrier (r : CfgReq) (s : State) : exec (.barrier r) s = execBarrier r s := rfl
theorem exec_pinned (r : CfgReq) (s : State) : exec (.pinned r) s = execPinned r s := rfl
theorem exec_sched (r : CfgReq) (s : State) : exec (.sched r) s = execSched r s := rfl
theorem exec_aspace (r : CfgReq) (s : State) : exec (.aspace r) s = execAspace r s := rfl
theorem exec_asrel (r : CfgReq) (s : State) : exec (.asrel r) s = execAsrel r s := rfl
theorem exec_fenceRequest (r : CfgReq) (s : State) : exec (.fenceRequest r) s = execFenceRequest r s := rfl
theorem exec_capkey (r : CfgReq) (s : State) : exec (.capkey r) s = execCapkey r s := rfl
theorem exec_ring (r : CfgReq) (s : State) : exec (.ring r) s = execRing r s := rfl
theorem exec_nvmeqp (r : CfgReq) (s : State) : exec (.nvmeqp r) s = execNvmeqp r s := rfl
theorem exec_waitword (r : CfgReq) (s : State) : exec (.waitword r) s = execWaitword r s := rfl
theorem exec_subscribe (r : CfgReq) (s : State) : exec (.subscribe r) s = execSubscribe r s := rfl
theorem exec_launch (r : CfgReq) (s : State) : exec (.launch r) s = execLaunch r s := rfl
theorem exec_install (r : CfgReq) (s : State) : exec (.install r) s = execInstall r s := rfl
theorem exec_hostPush (queue size : Nat) (words : List Word) (s : State) : exec (.hostPush queue size words) s = execHostPush queue size words s := rfl
theorem exec_hostRead (off : Nat) (wd : MemW) (s : State) : exec (.hostRead off wd) s = execHostRead off wd s := rfl
theorem exec_hostWrite (off : Nat) (wd : MemW) (v : Word) (s : State) : exec (.hostWrite off wd v) s = execHostWrite off wd v s := rfl
theorem exec_atsInvalidation (page : Nat) (s : State) : exec (.atsInvalidation page) s = execAtsInvalidation page s := rfl
theorem exec_kmma (core node : Nat) (s : State) : exec (.kmma core node) s = execKmma core node s := rfl
theorem exec_kcopy (core node : Nat) (s : State) : exec (.kcopy core node) s = execKcopy core node s := rfl
theorem exec_kgath (core node : Nat) (s : State) : exec (.kgath core node) s = execKgath core node s := rfl
theorem exec_kscat (core node : Nat) (s : State) : exec (.kscat core node) s = execKscat core node s := rfl
theorem exec_kfill (core node : Nat) (s : State) : exec (.kfill core node) s = execKfill core node s := rfl
theorem exec_kred (core node : Nat) (s : State) : exec (.kred core node) s = execKred core node s := rfl
theorem exec_kcoll (core node : Nat) (s : State) : exec (.kcoll core node) s = execKcoll core node s := rfl
theorem exec_kdisk (core node : Nat) (s : State) : exec (.kdisk core node) s = execKdisk core node s := rfl
theorem exec_knest (core node : Nat) (s : State) : exec (.knest core node) s = execKnest core node s := rfl
theorem exec_ksig (core node : Nat) (s : State) : exec (.ksig core node) s = execKsig core node s := rfl
theorem exec_commandLaunch (core node : Nat) (s : State) : exec (.commandLaunch core node) s = execCommandLaunch core node s := rfl
theorem exec_leaveAdmit (die : Nat) (s : State) : exec (.leaveAdmit die) s = execLeaveAdmit die s := rfl
theorem exec_leaveWaitExpire (die : Nat) (core node : Nat) (s : State) : exec (.leaveWaitExpire die core node) s = execLeaveWaitExpire die core node s := rfl
theorem exec_kmmaRowFinish (core node : Nat) (s : State) : exec (.kmmaRowFinish core node) s = execKmmaRowFinish core node s := rfl
theorem exec_commandComplete (core node : Nat) (s : State) : exec (.commandComplete core node) s = execCommandComplete core node s := rfl
theorem exec_commandFault (core node : Nat) (status : BitVec 8) (s : State) : exec (.commandFault core node status) s = execCommandFault core node status s := rfl
theorem exec_enginePageFaultResolved (core node : Nat) (ok : Bool) (s : State) : exec (.enginePageFaultResolved core node ok) s = execEnginePageFaultResolved core node ok s := rfl
theorem exec_ownershipWindowTake (core node : Nat) (s : State) : exec (.ownershipWindowTake core node) s = execOwnershipWindowTake core node s := rfl
theorem exec_remoteCommandArrive (core node target : Nat) (cap : Word) (s : State) : exec (.remoteCommandArrive core node target cap) s = execRemoteCommandArrive core node target cap s := rfl
theorem exec_remoteCompletion (core node : Nat) (status : BitVec 8) (progress : Nat) (s : State) : exec (.remoteCompletion core node status progress) s = execRemoteCompletion core node status progress s := rfl
theorem exec_nvmeCompletion (qp : Nat) (cid : Nat) (status : BitVec 16) (s : State) : exec (.nvmeCompletion qp cid status) s = execNvmeCompletion qp cid status s := rfl
theorem exec_actPerform (line : Nat) (s : State) : exec (.actPerform line) s = execActPerform line s := rfl
theorem exec_vactComplete (core ctx : Nat) (s : State) : exec (.vactComplete core ctx) s = execVactComplete core ctx s := rfl
theorem exec_vectorLoadComplete (core ctx : Nat) (vd : Reg) (s : State) : exec (.vectorLoadComplete core ctx vd) s = execVectorLoadComplete core ctx vd s := rfl
theorem exec_boundRefillLand (core ctx : Nat) (vd : Reg) (s : State) : exec (.boundRefillLand core ctx vd) s = execBoundRefillLand core ctx vd s := rfl
theorem exec_channelChunkDeposit (core ctx : Nat) (vd : Reg) (s : State) : exec (.channelChunkDeposit core ctx vd) s = execChannelChunkDeposit core ctx vd s := rfl
theorem exec_vaccPerform (core : Nat) (s : State) : exec (.vaccPerform core) s = execVaccPerform core s := rfl
theorem exec_expand (die : Nat) (s : State) : exec (.expand die) s = execExpand die s := rfl
theorem exec_expandResume (die : Nat) (s : State) : exec (.expandResume die) s = execExpandResume die s := rfl
theorem exec_dispatch (core ctx : Nat) (s : State) : exec (.dispatch core ctx) s = execDispatch core ctx s := rfl
theorem exec_stealAttempt (core attempt : Nat) (s : State) : exec (.stealAttempt core attempt) s = execStealAttempt core attempt s := rfl
theorem exec_stealAnswer (victim thief : Nat) (s : State) : exec (.stealAnswer victim thief) s = execStealAnswer victim thief s := rfl
theorem exec_stealBackoffEnd (core : Nat) (s : State) : exec (.stealBackoffEnd core) s = execStealBackoffEnd core s := rfl
theorem exec_dequeRefill (core : Nat) (s : State) : exec (.dequeRefill core) s = execDequeRefill core s := rfl
theorem exec_agingStep (core : Nat) (s : State) : exec (.agingStep core) s = execAgingStep core s := rfl
theorem exec_reclaimStart (core : Nat) (s : State) : exec (.reclaimStart core) s = execReclaimStart core s := rfl
theorem exec_reclaimTimeout (core ctx : Nat) (s : State) : exec (.reclaimTimeout core ctx) s = execReclaimTimeout core ctx s := rfl
theorem exec_reclaimInterrupt (core ctx : Nat) (s : State) : exec (.reclaimInterrupt core ctx) s = execReclaimInterrupt core ctx s := rfl
theorem exec_supervisorTimerInterrupt (core ctx : Nat) (s : State) : exec (.supervisorTimerInterrupt core ctx) s = execSupervisorTimerInterrupt core ctx s := rfl
theorem exec_barrierHeldPhaseComplete (dev : Bool) (die idx : Nat) (s : State) : exec (.barrierHeldPhaseComplete dev die idx) s = execBarrierHeldPhaseComplete dev die idx s := rfl
theorem exec_barrierCompletionNotice (dev : Bool) (die idx : Nat) (s : State) : exec (.barrierCompletionNotice dev die idx) s = execBarrierCompletionNotice dev die idx s := rfl
theorem exec_barrierTimeout (dev : Bool) (die idx : Nat) (s : State) : exec (.barrierTimeout dev die idx) s = execBarrierTimeout dev die idx s := rfl
theorem exec_gjoinTimeout (core ctx : Nat) (s : State) : exec (.gjoinTimeout core ctx) s = execGjoinTimeout core ctx s := rfl
theorem exec_powerWindowEnd (die : Nat) (s : State) : exec (.powerWindowEnd die) s = execPowerWindowEnd die s := rfl
theorem exec_timingEvent (core : Nat) (at' : EventWhere) (s : State) : exec (.timingEvent core at') s = execTimingEvent core at' s := rfl
theorem exec_marginWindowEnd (core : Nat) (s : State) : exec (.marginWindowEnd core) s = execMarginWindowEnd core s := rfl
theorem exec_mgnsafeExpire (core : Nat) (s : State) : exec (.mgnsafeExpire core) s = execMgnsafeExpire core s := rfl
theorem exec_regulatorStep (core : Nat) (s : State) : exec (.regulatorStep core) s = execRegulatorStep core s := rfl
theorem exec_droopDetect (core : Nat) (s : State) : exec (.droopDetect core) s = execDroopDetect core s := rfl
theorem exec_clockHopEnd (die : Nat) (s : State) : exec (.clockHopEnd die) s = execClockHopEnd die s := rfl
theorem exec_coldReset (s : State) : exec .coldReset s = execColdReset s := rfl
theorem exec_warmReset (s : State) : exec .warmReset s = execWarmReset s := rfl
theorem exec_bootWatchdogExpire (s : State) : exec .bootWatchdogExpire s = execBootWatchdogExpire s := rfl
theorem exec_oxeilQuarantine (core : Nat) (s : State) : exec (.oxeilQuarantine core) s = execOxeilQuarantine core s := rfl
theorem exec_unitWindowEnd (u : Unit22) (s : State) : exec (.unitWindowEnd u) s = execUnitWindowEnd u s := rfl
theorem exec_oxeilSetThreshold (u : Unit22) (raise quar : Nat) (s : State) : exec (.oxeilSetThreshold u raise quar) s = execOxeilSetThreshold u raise quar s := rfl
theorem exec_oxeilSetTimer (t : Nat) (s : State) : exec (.oxeilSetTimer t) s = execOxeilSetTimer t s := rfl
theorem exec_requalification (u : Unit22) (s : State) : exec (.requalification u) s = execRequalification u s := rfl
theorem exec_telemetryRead (src : Nat) (s : State) : exec (.telemetryRead src) s = execTelemetryRead src s := rfl
theorem exec_telemetrySample (die : Nat) (s : State) : exec (.telemetrySample die) s = execTelemetrySample die s := rfl
theorem exec_subscriptionSample (slot : Nat) (s : State) : exec (.subscriptionSample slot) s = execSubscriptionSample slot s := rfl
theorem exec_laxelFlit (link : Nat) (seq : BitVec 10) (crcOk : Bool) (s : State) : exec (.laxelFlit link seq crcOk) s = execLaxelFlit link seq crcOk s := rfl
theorem exec_laxelReplayRequest (link : Nat) (seq : BitVec 10) (s : State) : exec (.laxelReplayRequest link seq) s = execLaxelReplayRequest link seq s := rfl
theorem exec_linkDown (link : Nat) (s : State) : exec (.linkDown link) s = execLinkDown link s := rfl
theorem exec_e2eRequestArrive (src : Nat) (seq : BitVec 32) (age addr : Nat) (f : AmoOp) (val : Word) (s : State) : exec (.e2eRequestArrive src seq age addr f val) s = execE2eRequestArrive src seq age addr f val s := rfl
theorem exec_e2eResponse (seq : BitVec 32) (busy : Bool) (val : Word) (s : State) : exec (.e2eResponse seq busy val) s = execE2eResponse seq busy val s := rfl
theorem exec_retransmitTimeout (seq : BitVec 32) (s : State) : exec (.retransmitTimeout seq) s = execRetransmitTimeout seq s := rfl
theorem exec_dedupExpire (src : Nat) (seq : BitVec 32) (s : State) : exec (.dedupExpire src seq) s = execDedupExpire src seq s := rfl
theorem exec_powerCapMessage (seq cap lease : Nat) (s : State) : exec (.powerCapMessage seq cap lease) s = execPowerCapMessage seq cap lease s := rfl
theorem exec_capLeaseExpire (s : State) : exec .capLeaseExpire s = execCapLeaseExpire s := rfl
theorem exec_spdmRequest (nonce : Nat) (s : State) : exec (.spdmRequest nonce) s = execSpdmRequest nonce s := rfl
theorem exec_firmwareUpdate (version : Nat) (image : Signed) (s : State) :
    exec (.firmwareUpdate version image) s = execFirmwareUpdate version image s := rfl
theorem exec_activate (s : State) : exec .activate s = execActivate s := rfl
theorem exec_commit (s : State) : exec .commit s = execCommit s := rfl
theorem exec_cfgreqDoorbell (door : Option Nat) (v : Word) (s : State) : exec (.cfgreqDoorbell door v) s = execCfgreqDoorbell door v s := rfl
theorem exec_engineLineWrite (core node : Nat) (s : State) : exec (.engineLineWrite core node) s = execEngineLineWrite core node s := rfl
theorem exec_clockSourceHop (die : Nat) (s : State) : exec (.clockSourceHop die) s = execClockSourceHop die s := rfl
theorem exec_linkTrained (link : Nat) (ok : Bool) (s : State) : exec (.linkTrained link ok) s = execLinkTrained link ok s := rfl
theorem exec_machineExternalInterrupt (die ctx : Nat) (s : State) : exec (.machineExternalInterrupt die ctx) s = execMachineExternalInterrupt die ctx s := rfl
theorem exec_powerLoss (s : State) : exec .powerLoss s = execPowerLoss s := rfl
theorem exec_bucketDrain (core : Nat) (s : State) : exec (.bucketDrain core) s = execBucketDrain core s := rfl
theorem exec_unitReplacement (u : Unit22) (s : State) : exec (.unitReplacement u) s = execUnitReplacement u s := rfl

end Sys2Proof.Machine
end

