-- ==== Sys2Proof/Laws/Map.lean ====
section
/-! SUPPORT. Laws of the finite maps: reading after an update, and the canonical form. -/
namespace Sys2Proof.Machine

section
variable {α : Type}

@[simp] theorem SMap.get_nil (d : α) (k : Nat) : SMap.get d ([] : SMap α) k = d := rfl

theorem SMap.get_cons (d : α) (k' : Nat) (v : α) (m : SMap α) (k : Nat) :
    SMap.get d ((k', v) :: m) k = if k' = k then v else SMap.get d m k := rfl

@[simp] theorem SMap.get_put (d : α) (m : SMap α) (k : Nat) (v : α) : SMap.get d (SMap.put m k v) k = v := by
  induction m with
  | nil => simp [SMap.put, SMap.get]
  | cons e m ih =>
    obtain ⟨k', w⟩ := e
    unfold SMap.put
    split
    · next h => simp [SMap.get_cons, Nat.ne_of_lt h, ih]
    · split <;> simp [SMap.get_cons]

theorem SMap.get_put_ne {d : α} (m : SMap α) {k j : Nat} (v : α) (h : j ≠ k) :
    SMap.get d (SMap.put m k v) j = SMap.get d m j := by
  induction m with
  | nil => simp [SMap.put, SMap.get, Ne.symm h]
  | cons e m ih =>
    obtain ⟨k', w⟩ := e
    unfold SMap.put
    split
    · simp [SMap.get_cons, ih]
    · split
      · next h2 => simp [SMap.get_cons, h2, Ne.symm h]
      · simp [SMap.get_cons, Ne.symm h]

/-- A second update at the same key replaces the first. -/
@[simp] theorem SMap.put_put (m : SMap α) (k : Nat) (v w : α) : SMap.put (SMap.put m k v) k w = SMap.put m k w := by
  induction m with
  | nil => simp [SMap.put]
  | cons e m ih =>
    obtain ⟨k', u⟩ := e
    by_cases h1 : k' < k
    · simp [SMap.put, h1, ih]
    · by_cases h2 : k' = k
      · simp [SMap.put, h2]
      · simp [SMap.put, h1, h2]

theorem SMap.get_of_le [DecidableEq α] {d : α} {lo : Nat} {m : SMap α} (h : SMap.wfFrom d lo m = true) {k : Nat}
    (hk : k < lo) : SMap.get d m k = d := by
  induction m generalizing lo with
  | nil => rfl
  | cons e m ih =>
    obtain ⟨k', w⟩ := e
    simp only [SMap.wfFrom, Bool.and_eq_true, decide_eq_true_eq] at h
    have hne : k' ≠ k := by omega
    simp [SMap.get_cons, hne, ih h.2 (by omega)]

theorem SMap.wfFrom_mono [DecidableEq α] {d : α} {lo lo' : Nat} {m : SMap α} (hl : lo' ≤ lo) (h : SMap.wfFrom d lo m = true) :
    SMap.wfFrom d lo' m = true := by
  cases m with
  | nil => rfl
  | cons e m =>
    obtain ⟨k', w⟩ := e
    simp only [SMap.wfFrom, Bool.and_eq_true, decide_eq_true_eq] at h ⊢
    exact ⟨⟨by omega, h.1.2⟩, h.2⟩

theorem SMap.wfFrom_put [DecidableEq α] {d : α} {lo k : Nat} {m : SMap α} {v : α} (hv : v ≠ d) (hk : lo ≤ k)
    (h : SMap.wfFrom d lo m = true) : SMap.wfFrom d lo (SMap.put m k v) = true := by
  induction m generalizing lo with
  | nil => simp [SMap.put, SMap.wfFrom, hv, hk]
  | cons e m ih =>
    obtain ⟨k', w⟩ := e
    simp only [SMap.wfFrom, Bool.and_eq_true, decide_eq_true_eq] at h
    unfold SMap.put
    split
    · next h1 => simp [SMap.wfFrom, h.1.1, h.1.2, ih (show k' + 1 ≤ k by omega) h.2]
    · split
      · next h2 => subst h2; simp [SMap.wfFrom, hv, hk, h.2]
      · next h1 h2 => simp [SMap.wfFrom, hv, hk, h.1.2, h.2, show k + 1 ≤ k' by omega]

theorem SMap.wfFrom_del [DecidableEq α] {d : α} {lo k : Nat} {m : SMap α} (h : SMap.wfFrom d lo m = true) :
    SMap.wfFrom d lo (SMap.del m k) = true := by
  induction m generalizing lo with
  | nil => rfl
  | cons e m ih =>
    obtain ⟨k', w⟩ := e
    simp only [SMap.wfFrom, Bool.and_eq_true, decide_eq_true_eq] at h
    by_cases hk : k' = k
    · subst hk
      simpa [SMap.del] using SMap.wfFrom_mono (show lo ≤ k' + 1 by omega) (ih h.2)
    · simpa [SMap.del, hk, SMap.wfFrom, h.1.1, h.1.2] using ih h.2

/-- An update keeps the canonical form. -/
theorem SMap.wf_set [DecidableEq α] {d : α} {m : SMap α} (k : Nat) (v : α) (h : SMap.wf d m = true) :
    SMap.wf d (SMap.set d m k v) = true := by
  unfold SMap.set
  split
  · exact SMap.wfFrom_del h
  · next hv => exact SMap.wfFrom_put hv (Nat.zero_le _) h

theorem SMap.get_del_ne {d : α} (m : SMap α) {k j : Nat} (h : j ≠ k) : SMap.get d (SMap.del m k) j = SMap.get d m j := by
  induction m with
  | nil => rfl
  | cons e m ih =>
    obtain ⟨k', w⟩ := e
    by_cases hk : k' = k
    · subst hk
      simpa [SMap.del, SMap.get_cons, Ne.symm h] using ih
    · simp only [SMap.del, List.filter_cons] at ih ⊢
      simp [hk, SMap.get_cons, ih]

theorem SMap.get_del (d : α) (m : SMap α) (k : Nat) : SMap.get d (SMap.del m k) k = d := by
  induction m with
  | nil => rfl
  | cons e m ih =>
    obtain ⟨k', w⟩ := e
    by_cases hk : k' = k
    · subst hk
      simpa [SMap.del] using ih
    · simp only [SMap.del, List.filter_cons] at ih ⊢
      simp [hk, SMap.get_cons, ih]

@[simp] theorem SMap.get_set [DecidableEq α] (d : α) (m : SMap α) (k : Nat) (v : α) :
    SMap.get d (SMap.set d m k v) k = v := by
  unfold SMap.set
  split
  · next h => rw [SMap.get_del, h]
  · exact SMap.get_put d m k v

theorem SMap.get_set_ne [DecidableEq α] {d : α} (m : SMap α) {k j : Nat} (v : α) (h : j ≠ k) :
    SMap.get d (SMap.set d m k v) j = SMap.get d m j := by
  unfold SMap.set
  split
  · exact SMap.get_del_ne m h
  · exact SMap.get_put_ne m v h

end
end Sys2Proof.Machine
end

