-- ==== Sys2Proof/Laws/State.lean ====
section
/-! SUPPORT. What each update of State, Core and Ctx leaves as it was and what it sets: one lemma per field per update. -/
namespace Sys2Proof.Machine

/-! `State.setCore` -/
@[simp] theorem State.setCore_now (s : State) (c : Nat) (k : Core) : (s.setCore c k).now = s.now := rfl
@[simp] theorem State.setCore_cur (s : State) (c : Nat) (k : Core) : (s.setCore c k).cur = s.cur := rfl
@[simp] theorem State.setCore_fetched (s : State) (c : Nat) (k : Core) : (s.setCore c k).fetched = s.fetched := rfl
@[simp] theorem State.setCore_fresh (s : State) (c : Nat) (k : Core) : (s.setCore c k).fresh = s.fresh := rfl
@[simp] theorem State.setCore_dies (s : State) (c : Nat) (k : Core) : (s.setCore c k).dies = s.dies := rfl
@[simp] theorem State.setCore_mem (s : State) (c : Nat) (k : Core) : (s.setCore c k).mem = s.mem := rfl
@[simp] theorem State.setCore_past (s : State) (c : Nat) (k : Core) : (s.setCore c k).past = s.past := rfl
@[simp] theorem State.setCore_copies (s : State) (c : Nat) (k : Core) : (s.setCore c k).copies = s.copies := rfl
@[simp] theorem State.setCore_bad (s : State) (c : Nat) (k : Core) : (s.setCore c k).bad = s.bad := rfl
@[simp] theorem State.setCore_retired (s : State) (c : Nat) (k : Core) : (s.setCore c k).retired = s.retired := rfl
@[simp] theorem State.setCore_queues (s : State) (c : Nat) (k : Core) : (s.setCore c k).queues = s.queues := rfl
@[simp] theorem State.setCore_devBarriers (s : State) (c : Nat) (k : Core) : (s.setCore c k).devBarriers = s.devBarriers := rfl
@[simp] theorem State.setCore_aspaces (s : State) (c : Nat) (k : Core) : (s.setCore c k).aspaces = s.aspaces := rfl
@[simp] theorem State.setCore_installed (s : State) (c : Nat) (k : Core) : (s.setCore c k).installed = s.installed := rfl
@[simp] theorem State.setCore_acts (s : State) (c : Nat) (k : Core) : (s.setCore c k).acts = s.acts := rfl
@[simp] theorem State.setCore_faulted (s : State) (c : Nat) (k : Core) : (s.setCore c k).faulted = s.faulted := rfl
@[simp] theorem State.setCore_handles (s : State) (c : Nat) (k : Core) : (s.setCore c k).handles = s.handles := rfl
@[simp] theorem State.setCore_live (s : State) (c : Nat) (k : Core) : (s.setCore c k).live = s.live := rfl
@[simp] theorem State.setCore_host (s : State) (c : Nat) (k : Core) : (s.setCore c k).host = s.host := rfl
@[simp] theorem State.setCore_boot (s : State) (c : Nat) (k : Core) : (s.setCore c k).boot = s.boot := rfl
@[simp] theorem State.setCore_fleet (s : State) (c : Nat) (k : Core) : (s.setCore c k).fleet = s.fleet := rfl
@[simp] theorem State.setCore_events (s : State) (c : Nat) (k : Core) : (s.setCore c k).events = s.events := rfl
@[simp] theorem State.setCore_nestSaves (s : State) (c : Nat) (k : Core) : (s.setCore c k).nestSaves = s.nestSaves := rfl
@[simp] theorem State.setCore_timers (s : State) (c : Nat) (k : Core) : (s.setCore c k).timers = s.timers := rfl
@[simp] theorem State.setCore_inbox (s : State) (c : Nat) (k : Core) : (s.setCore c k).inbox = s.inbox := rfl
@[simp] theorem State.setCore_agenda (s : State) (c : Nat) (k : Core) : (s.setCore c k).agenda = s.agenda := rfl

/-! `State.modCore` -/
@[simp] theorem State.modCore_now (s : State) (c : Nat) (f : Core → Core) : (s.modCore c f).now = s.now := rfl
@[simp] theorem State.modCore_cur (s : State) (c : Nat) (f : Core → Core) : (s.modCore c f).cur = s.cur := rfl
@[simp] theorem State.modCore_fetched (s : State) (c : Nat) (f : Core → Core) : (s.modCore c f).fetched = s.fetched := rfl
@[simp] theorem State.modCore_fresh (s : State) (c : Nat) (f : Core → Core) : (s.modCore c f).fresh = s.fresh := rfl
@[simp] theorem State.modCore_dies (s : State) (c : Nat) (f : Core → Core) : (s.modCore c f).dies = s.dies := rfl
@[simp] theorem State.modCore_mem (s : State) (c : Nat) (f : Core → Core) : (s.modCore c f).mem = s.mem := rfl
@[simp] theorem State.modCore_past (s : State) (c : Nat) (f : Core → Core) : (s.modCore c f).past = s.past := rfl
@[simp] theorem State.modCore_copies (s : State) (c : Nat) (f : Core → Core) : (s.modCore c f).copies = s.copies := rfl
@[simp] theorem State.modCore_bad (s : State) (c : Nat) (f : Core → Core) : (s.modCore c f).bad = s.bad := rfl
@[simp] theorem State.modCore_retired (s : State) (c : Nat) (f : Core → Core) : (s.modCore c f).retired = s.retired := rfl
@[simp] theorem State.modCore_queues (s : State) (c : Nat) (f : Core → Core) : (s.modCore c f).queues = s.queues := rfl
@[simp] theorem State.modCore_devBarriers (s : State) (c : Nat) (f : Core → Core) : (s.modCore c f).devBarriers = s.devBarriers := rfl
@[simp] theorem State.modCore_aspaces (s : State) (c : Nat) (f : Core → Core) : (s.modCore c f).aspaces = s.aspaces := rfl
@[simp] theorem State.modCore_installed (s : State) (c : Nat) (f : Core → Core) : (s.modCore c f).installed = s.installed := rfl
@[simp] theorem State.modCore_acts (s : State) (c : Nat) (f : Core → Core) : (s.modCore c f).acts = s.acts := rfl
@[simp] theorem State.modCore_faulted (s : State) (c : Nat) (f : Core → Core) : (s.modCore c f).faulted = s.faulted := rfl
@[simp] theorem State.modCore_handles (s : State) (c : Nat) (f : Core → Core) : (s.modCore c f).handles = s.handles := rfl
@[simp] theorem State.modCore_live (s : State) (c : Nat) (f : Core → Core) : (s.modCore c f).live = s.live := rfl
@[simp] theorem State.modCore_host (s : State) (c : Nat) (f : Core → Core) : (s.modCore c f).host = s.host := rfl
@[simp] theorem State.modCore_boot (s : State) (c : Nat) (f : Core → Core) : (s.modCore c f).boot = s.boot := rfl
@[simp] theorem State.modCore_fleet (s : State) (c : Nat) (f : Core → Core) : (s.modCore c f).fleet = s.fleet := rfl
@[simp] theorem State.modCore_events (s : State) (c : Nat) (f : Core → Core) : (s.modCore c f).events = s.events := rfl
@[simp] theorem State.modCore_nestSaves (s : State) (c : Nat) (f : Core → Core) : (s.modCore c f).nestSaves = s.nestSaves := rfl
@[simp] theorem State.modCore_timers (s : State) (c : Nat) (f : Core → Core) : (s.modCore c f).timers = s.timers := rfl
@[simp] theorem State.modCore_inbox (s : State) (c : Nat) (f : Core → Core) : (s.modCore c f).inbox = s.inbox := rfl
@[simp] theorem State.modCore_agenda (s : State) (c : Nat) (f : Core → Core) : (s.modCore c f).agenda = s.agenda := rfl

/-! `State.setDie` -/
@[simp] theorem State.setDie_now (s : State) (d : Nat) (k : Die) : (s.setDie d k).now = s.now := rfl
@[simp] theorem State.setDie_cur (s : State) (d : Nat) (k : Die) : (s.setDie d k).cur = s.cur := rfl
@[simp] theorem State.setDie_fetched (s : State) (d : Nat) (k : Die) : (s.setDie d k).fetched = s.fetched := rfl
@[simp] theorem State.setDie_fresh (s : State) (d : Nat) (k : Die) : (s.setDie d k).fresh = s.fresh := rfl
@[simp] theorem State.setDie_cores (s : State) (d : Nat) (k : Die) : (s.setDie d k).cores = s.cores := rfl
@[simp] theorem State.setDie_mem (s : State) (d : Nat) (k : Die) : (s.setDie d k).mem = s.mem := rfl
@[simp] theorem State.setDie_past (s : State) (d : Nat) (k : Die) : (s.setDie d k).past = s.past := rfl
@[simp] theorem State.setDie_copies (s : State) (d : Nat) (k : Die) : (s.setDie d k).copies = s.copies := rfl
@[simp] theorem State.setDie_bad (s : State) (d : Nat) (k : Die) : (s.setDie d k).bad = s.bad := rfl
@[simp] theorem State.setDie_retired (s : State) (d : Nat) (k : Die) : (s.setDie d k).retired = s.retired := rfl
@[simp] theorem State.setDie_queues (s : State) (d : Nat) (k : Die) : (s.setDie d k).queues = s.queues := rfl
@[simp] theorem State.setDie_devBarriers (s : State) (d : Nat) (k : Die) : (s.setDie d k).devBarriers = s.devBarriers := rfl
@[simp] theorem State.setDie_aspaces (s : State) (d : Nat) (k : Die) : (s.setDie d k).aspaces = s.aspaces := rfl
@[simp] theorem State.setDie_installed (s : State) (d : Nat) (k : Die) : (s.setDie d k).installed = s.installed := rfl
@[simp] theorem State.setDie_acts (s : State) (d : Nat) (k : Die) : (s.setDie d k).acts = s.acts := rfl
@[simp] theorem State.setDie_faulted (s : State) (d : Nat) (k : Die) : (s.setDie d k).faulted = s.faulted := rfl
@[simp] theorem State.setDie_handles (s : State) (d : Nat) (k : Die) : (s.setDie d k).handles = s.handles := rfl
@[simp] theorem State.setDie_live (s : State) (d : Nat) (k : Die) : (s.setDie d k).live = s.live := rfl
@[simp] theorem State.setDie_host (s : State) (d : Nat) (k : Die) : (s.setDie d k).host = s.host := rfl
@[simp] theorem State.setDie_boot (s : State) (d : Nat) (k : Die) : (s.setDie d k).boot = s.boot := rfl
@[simp] theorem State.setDie_fleet (s : State) (d : Nat) (k : Die) : (s.setDie d k).fleet = s.fleet := rfl
@[simp] theorem State.setDie_events (s : State) (d : Nat) (k : Die) : (s.setDie d k).events = s.events := rfl
@[simp] theorem State.setDie_nestSaves (s : State) (d : Nat) (k : Die) : (s.setDie d k).nestSaves = s.nestSaves := rfl
@[simp] theorem State.setDie_timers (s : State) (d : Nat) (k : Die) : (s.setDie d k).timers = s.timers := rfl
@[simp] theorem State.setDie_inbox (s : State) (d : Nat) (k : Die) : (s.setDie d k).inbox = s.inbox := rfl
@[simp] theorem State.setDie_agenda (s : State) (d : Nat) (k : Die) : (s.setDie d k).agenda = s.agenda := rfl

/-! `State.modDie` -/
@[simp] theorem State.modDie_now (s : State) (d : Nat) (f : Die → Die) : (s.modDie d f).now = s.now := rfl
@[simp] theorem State.modDie_cur (s : State) (d : Nat) (f : Die → Die) : (s.modDie d f).cur = s.cur := rfl
@[simp] theorem State.modDie_fetched (s : State) (d : Nat) (f : Die → Die) : (s.modDie d f).fetched = s.fetched := rfl
@[simp] theorem State.modDie_fresh (s : State) (d : Nat) (f : Die → Die) : (s.modDie d f).fresh = s.fresh := rfl
@[simp] theorem State.modDie_cores (s : State) (d : Nat) (f : Die → Die) : (s.modDie d f).cores = s.cores := rfl
@[simp] theorem State.modDie_mem (s : State) (d : Nat) (f : Die → Die) : (s.modDie d f).mem = s.mem := rfl
@[simp] theorem State.modDie_past (s : State) (d : Nat) (f : Die → Die) : (s.modDie d f).past = s.past := rfl
@[simp] theorem State.modDie_copies (s : State) (d : Nat) (f : Die → Die) : (s.modDie d f).copies = s.copies := rfl
@[simp] theorem State.modDie_bad (s : State) (d : Nat) (f : Die → Die) : (s.modDie d f).bad = s.bad := rfl
@[simp] theorem State.modDie_retired (s : State) (d : Nat) (f : Die → Die) : (s.modDie d f).retired = s.retired := rfl
@[simp] theorem State.modDie_queues (s : State) (d : Nat) (f : Die → Die) : (s.modDie d f).queues = s.queues := rfl
@[simp] theorem State.modDie_devBarriers (s : State) (d : Nat) (f : Die → Die) : (s.modDie d f).devBarriers = s.devBarriers := rfl
@[simp] theorem State.modDie_aspaces (s : State) (d : Nat) (f : Die → Die) : (s.modDie d f).aspaces = s.aspaces := rfl
@[simp] theorem State.modDie_installed (s : State) (d : Nat) (f : Die → Die) : (s.modDie d f).installed = s.installed := rfl
@[simp] theorem State.modDie_acts (s : State) (d : Nat) (f : Die → Die) : (s.modDie d f).acts = s.acts := rfl
@[simp] theorem State.modDie_faulted (s : State) (d : Nat) (f : Die → Die) : (s.modDie d f).faulted = s.faulted := rfl
@[simp] theorem State.modDie_handles (s : State) (d : Nat) (f : Die → Die) : (s.modDie d f).handles = s.handles := rfl
@[simp] theorem State.modDie_live (s : State) (d : Nat) (f : Die → Die) : (s.modDie d f).live = s.live := rfl
@[simp] theorem State.modDie_host (s : State) (d : Nat) (f : Die → Die) : (s.modDie d f).host = s.host := rfl
@[simp] theorem State.modDie_boot (s : State) (d : Nat) (f : Die → Die) : (s.modDie d f).boot = s.boot := rfl
@[simp] theorem State.modDie_fleet (s : State) (d : Nat) (f : Die → Die) : (s.modDie d f).fleet = s.fleet := rfl
@[simp] theorem State.modDie_events (s : State) (d : Nat) (f : Die → Die) : (s.modDie d f).events = s.events := rfl
@[simp] theorem State.modDie_nestSaves (s : State) (d : Nat) (f : Die → Die) : (s.modDie d f).nestSaves = s.nestSaves := rfl
@[simp] theorem State.modDie_timers (s : State) (d : Nat) (f : Die → Die) : (s.modDie d f).timers = s.timers := rfl
@[simp] theorem State.modDie_inbox (s : State) (d : Nat) (f : Die → Die) : (s.modDie d f).inbox = s.inbox := rfl
@[simp] theorem State.modDie_agenda (s : State) (d : Nat) (f : Die → Die) : (s.modDie d f).agenda = s.agenda := rfl

/-! `State.setThr` -/
@[simp] theorem State.setThr_now (s : State) (c x : Nat) (t : Ctx) : (s.setThr c x t).now = s.now := rfl
@[simp] theorem State.setThr_cur (s : State) (c x : Nat) (t : Ctx) : (s.setThr c x t).cur = s.cur := rfl
@[simp] theorem State.setThr_fetched (s : State) (c x : Nat) (t : Ctx) : (s.setThr c x t).fetched = s.fetched := rfl
@[simp] theorem State.setThr_fresh (s : State) (c x : Nat) (t : Ctx) : (s.setThr c x t).fresh = s.fresh := rfl
@[simp] theorem State.setThr_dies (s : State) (c x : Nat) (t : Ctx) : (s.setThr c x t).dies = s.dies := rfl
@[simp] theorem State.setThr_mem (s : State) (c x : Nat) (t : Ctx) : (s.setThr c x t).mem = s.mem := rfl
@[simp] theorem State.setThr_past (s : State) (c x : Nat) (t : Ctx) : (s.setThr c x t).past = s.past := rfl
@[simp] theorem State.setThr_copies (s : State) (c x : Nat) (t : Ctx) : (s.setThr c x t).copies = s.copies := rfl
@[simp] theorem State.setThr_bad (s : State) (c x : Nat) (t : Ctx) : (s.setThr c x t).bad = s.bad := rfl
@[simp] theorem State.setThr_retired (s : State) (c x : Nat) (t : Ctx) : (s.setThr c x t).retired = s.retired := rfl
@[simp] theorem State.setThr_queues (s : State) (c x : Nat) (t : Ctx) : (s.setThr c x t).queues = s.queues := rfl
@[simp] theorem State.setThr_devBarriers (s : State) (c x : Nat) (t : Ctx) : (s.setThr c x t).devBarriers = s.devBarriers := rfl
@[simp] theorem State.setThr_aspaces (s : State) (c x : Nat) (t : Ctx) : (s.setThr c x t).aspaces = s.aspaces := rfl
@[simp] theorem State.setThr_installed (s : State) (c x : Nat) (t : Ctx) : (s.setThr c x t).installed = s.installed := rfl
@[simp] theorem State.setThr_acts (s : State) (c x : Nat) (t : Ctx) : (s.setThr c x t).acts = s.acts := rfl
@[simp] theorem State.setThr_faulted (s : State) (c x : Nat) (t : Ctx) : (s.setThr c x t).faulted = s.faulted := rfl
@[simp] theorem State.setThr_handles (s : State) (c x : Nat) (t : Ctx) : (s.setThr c x t).handles = s.handles := rfl
@[simp] theorem State.setThr_live (s : State) (c x : Nat) (t : Ctx) : (s.setThr c x t).live = s.live := rfl
@[simp] theorem State.setThr_host (s : State) (c x : Nat) (t : Ctx) : (s.setThr c x t).host = s.host := rfl
@[simp] theorem State.setThr_boot (s : State) (c x : Nat) (t : Ctx) : (s.setThr c x t).boot = s.boot := rfl
@[simp] theorem State.setThr_fleet (s : State) (c x : Nat) (t : Ctx) : (s.setThr c x t).fleet = s.fleet := rfl
@[simp] theorem State.setThr_events (s : State) (c x : Nat) (t : Ctx) : (s.setThr c x t).events = s.events := rfl
@[simp] theorem State.setThr_nestSaves (s : State) (c x : Nat) (t : Ctx) : (s.setThr c x t).nestSaves = s.nestSaves := rfl
@[simp] theorem State.setThr_timers (s : State) (c x : Nat) (t : Ctx) : (s.setThr c x t).timers = s.timers := rfl
@[simp] theorem State.setThr_inbox (s : State) (c x : Nat) (t : Ctx) : (s.setThr c x t).inbox = s.inbox := rfl
@[simp] theorem State.setThr_agenda (s : State) (c x : Nat) (t : Ctx) : (s.setThr c x t).agenda = s.agenda := rfl

/-! `State.modThr` -/
@[simp] theorem State.modThr_now (s : State) (c x : Nat) (f : Ctx → Ctx) : (s.modThr c x f).now = s.now := rfl
@[simp] theorem State.modThr_cur (s : State) (c x : Nat) (f : Ctx → Ctx) : (s.modThr c x f).cur = s.cur := rfl
@[simp] theorem State.modThr_fetched (s : State) (c x : Nat) (f : Ctx → Ctx) : (s.modThr c x f).fetched = s.fetched := rfl
@[simp] theorem State.modThr_fresh (s : State) (c x : Nat) (f : Ctx → Ctx) : (s.modThr c x f).fresh = s.fresh := rfl
@[simp] theorem State.modThr_dies (s : State) (c x : Nat) (f : Ctx → Ctx) : (s.modThr c x f).dies = s.dies := rfl
@[simp] theorem State.modThr_mem (s : State) (c x : Nat) (f : Ctx → Ctx) : (s.modThr c x f).mem = s.mem := rfl
@[simp] theorem State.modThr_past (s : State) (c x : Nat) (f : Ctx → Ctx) : (s.modThr c x f).past = s.past := rfl
@[simp] theorem State.modThr_copies (s : State) (c x : Nat) (f : Ctx → Ctx) : (s.modThr c x f).copies = s.copies := rfl
@[simp] theorem State.modThr_bad (s : State) (c x : Nat) (f : Ctx → Ctx) : (s.modThr c x f).bad = s.bad := rfl
@[simp] theorem State.modThr_retired (s : State) (c x : Nat) (f : Ctx → Ctx) : (s.modThr c x f).retired = s.retired := rfl
@[simp] theorem State.modThr_queues (s : State) (c x : Nat) (f : Ctx → Ctx) : (s.modThr c x f).queues = s.queues := rfl
@[simp] theorem State.modThr_devBarriers (s : State) (c x : Nat) (f : Ctx → Ctx) : (s.modThr c x f).devBarriers = s.devBarriers := rfl
@[simp] theorem State.modThr_aspaces (s : State) (c x : Nat) (f : Ctx → Ctx) : (s.modThr c x f).aspaces = s.aspaces := rfl
@[simp] theorem State.modThr_installed (s : State) (c x : Nat) (f : Ctx → Ctx) : (s.modThr c x f).installed = s.installed := rfl
@[simp] theorem State.modThr_acts (s : State) (c x : Nat) (f : Ctx → Ctx) : (s.modThr c x f).acts = s.acts := rfl
@[simp] theorem State.modThr_faulted (s : State) (c x : Nat) (f : Ctx → Ctx) : (s.modThr c x f).faulted = s.faulted := rfl
@[simp] theorem State.modThr_handles (s : State) (c x : Nat) (f : Ctx → Ctx) : (s.modThr c x f).handles = s.handles := rfl
@[simp] theorem State.modThr_live (s : State) (c x : Nat) (f : Ctx → Ctx) : (s.modThr c x f).live = s.live := rfl
@[simp] theorem State.modThr_host (s : State) (c x : Nat) (f : Ctx → Ctx) : (s.modThr c x f).host = s.host := rfl
@[simp] theorem State.modThr_boot (s : State) (c x : Nat) (f : Ctx → Ctx) : (s.modThr c x f).boot = s.boot := rfl
@[simp] theorem State.modThr_fleet (s : State) (c x : Nat) (f : Ctx → Ctx) : (s.modThr c x f).fleet = s.fleet := rfl
@[simp] theorem State.modThr_events (s : State) (c x : Nat) (f : Ctx → Ctx) : (s.modThr c x f).events = s.events := rfl
@[simp] theorem State.modThr_nestSaves (s : State) (c x : Nat) (f : Ctx → Ctx) : (s.modThr c x f).nestSaves = s.nestSaves := rfl
@[simp] theorem State.modThr_timers (s : State) (c x : Nat) (f : Ctx → Ctx) : (s.modThr c x f).timers = s.timers := rfl
@[simp] theorem State.modThr_inbox (s : State) (c x : Nat) (f : Ctx → Ctx) : (s.modThr c x f).inbox = s.inbox := rfl
@[simp] theorem State.modThr_agenda (s : State) (c x : Nat) (f : Ctx → Ctx) : (s.modThr c x f).agenda = s.agenda := rfl

/-! `State.setHart` -/
@[simp] theorem State.setHart_now (s : State) (t : Ctx) : (s.setHart t).now = s.now := rfl
@[simp] theorem State.setHart_cur (s : State) (t : Ctx) : (s.setHart t).cur = s.cur := rfl
@[simp] theorem State.setHart_fetched (s : State) (t : Ctx) : (s.setHart t).fetched = s.fetched := rfl
@[simp] theorem State.setHart_fresh (s : State) (t : Ctx) : (s.setHart t).fresh = s.fresh := rfl
@[simp] theorem State.setHart_dies (s : State) (t : Ctx) : (s.setHart t).dies = s.dies := rfl
@[simp] theorem State.setHart_mem (s : State) (t : Ctx) : (s.setHart t).mem = s.mem := rfl
@[simp] theorem State.setHart_past (s : State) (t : Ctx) : (s.setHart t).past = s.past := rfl
@[simp] theorem State.setHart_copies (s : State) (t : Ctx) : (s.setHart t).copies = s.copies := rfl
@[simp] theorem State.setHart_bad (s : State) (t : Ctx) : (s.setHart t).bad = s.bad := rfl
@[simp] theorem State.setHart_retired (s : State) (t : Ctx) : (s.setHart t).retired = s.retired := rfl
@[simp] theorem State.setHart_queues (s : State) (t : Ctx) : (s.setHart t).queues = s.queues := rfl
@[simp] theorem State.setHart_devBarriers (s : State) (t : Ctx) : (s.setHart t).devBarriers = s.devBarriers := rfl
@[simp] theorem State.setHart_aspaces (s : State) (t : Ctx) : (s.setHart t).aspaces = s.aspaces := rfl
@[simp] theorem State.setHart_installed (s : State) (t : Ctx) : (s.setHart t).installed = s.installed := rfl
@[simp] theorem State.setHart_acts (s : State) (t : Ctx) : (s.setHart t).acts = s.acts := rfl
@[simp] theorem State.setHart_faulted (s : State) (t : Ctx) : (s.setHart t).faulted = s.faulted := rfl
@[simp] theorem State.setHart_handles (s : State) (t : Ctx) : (s.setHart t).handles = s.handles := rfl
@[simp] theorem State.setHart_live (s : State) (t : Ctx) : (s.setHart t).live = s.live := rfl
@[simp] theorem State.setHart_host (s : State) (t : Ctx) : (s.setHart t).host = s.host := rfl
@[simp] theorem State.setHart_boot (s : State) (t : Ctx) : (s.setHart t).boot = s.boot := rfl
@[simp] theorem State.setHart_fleet (s : State) (t : Ctx) : (s.setHart t).fleet = s.fleet := rfl
@[simp] theorem State.setHart_events (s : State) (t : Ctx) : (s.setHart t).events = s.events := rfl
@[simp] theorem State.setHart_nestSaves (s : State) (t : Ctx) : (s.setHart t).nestSaves = s.nestSaves := rfl
@[simp] theorem State.setHart_timers (s : State) (t : Ctx) : (s.setHart t).timers = s.timers := rfl
@[simp] theorem State.setHart_inbox (s : State) (t : Ctx) : (s.setHart t).inbox = s.inbox := rfl
@[simp] theorem State.setHart_agenda (s : State) (t : Ctx) : (s.setHart t).agenda = s.agenda := rfl

/-! `State.modHart` -/
@[simp] theorem State.modHart_now (s : State) (f : Ctx → Ctx) : (s.modHart f).now = s.now := rfl
@[simp] theorem State.modHart_cur (s : State) (f : Ctx → Ctx) : (s.modHart f).cur = s.cur := rfl
@[simp] theorem State.modHart_fetched (s : State) (f : Ctx → Ctx) : (s.modHart f).fetched = s.fetched := rfl
@[simp] theorem State.modHart_fresh (s : State) (f : Ctx → Ctx) : (s.modHart f).fresh = s.fresh := rfl
@[simp] theorem State.modHart_dies (s : State) (f : Ctx → Ctx) : (s.modHart f).dies = s.dies := rfl
@[simp] theorem State.modHart_mem (s : State) (f : Ctx → Ctx) : (s.modHart f).mem = s.mem := rfl
@[simp] theorem State.modHart_past (s : State) (f : Ctx → Ctx) : (s.modHart f).past = s.past := rfl
@[simp] theorem State.modHart_copies (s : State) (f : Ctx → Ctx) : (s.modHart f).copies = s.copies := rfl
@[simp] theorem State.modHart_bad (s : State) (f : Ctx → Ctx) : (s.modHart f).bad = s.bad := rfl
@[simp] theorem State.modHart_retired (s : State) (f : Ctx → Ctx) : (s.modHart f).retired = s.retired := rfl
@[simp] theorem State.modHart_queues (s : State) (f : Ctx → Ctx) : (s.modHart f).queues = s.queues := rfl
@[simp] theorem State.modHart_devBarriers (s : State) (f : Ctx → Ctx) : (s.modHart f).devBarriers = s.devBarriers := rfl
@[simp] theorem State.modHart_aspaces (s : State) (f : Ctx → Ctx) : (s.modHart f).aspaces = s.aspaces := rfl
@[simp] theorem State.modHart_installed (s : State) (f : Ctx → Ctx) : (s.modHart f).installed = s.installed := rfl
@[simp] theorem State.modHart_acts (s : State) (f : Ctx → Ctx) : (s.modHart f).acts = s.acts := rfl
@[simp] theorem State.modHart_faulted (s : State) (f : Ctx → Ctx) : (s.modHart f).faulted = s.faulted := rfl
@[simp] theorem State.modHart_handles (s : State) (f : Ctx → Ctx) : (s.modHart f).handles = s.handles := rfl
@[simp] theorem State.modHart_live (s : State) (f : Ctx → Ctx) : (s.modHart f).live = s.live := rfl
@[simp] theorem State.modHart_host (s : State) (f : Ctx → Ctx) : (s.modHart f).host = s.host := rfl
@[simp] theorem State.modHart_boot (s : State) (f : Ctx → Ctx) : (s.modHart f).boot = s.boot := rfl
@[simp] theorem State.modHart_fleet (s : State) (f : Ctx → Ctx) : (s.modHart f).fleet = s.fleet := rfl
@[simp] theorem State.modHart_events (s : State) (f : Ctx → Ctx) : (s.modHart f).events = s.events := rfl
@[simp] theorem State.modHart_nestSaves (s : State) (f : Ctx → Ctx) : (s.modHart f).nestSaves = s.nestSaves := rfl
@[simp] theorem State.modHart_timers (s : State) (f : Ctx → Ctx) : (s.modHart f).timers = s.timers := rfl
@[simp] theorem State.modHart_inbox (s : State) (f : Ctx → Ctx) : (s.modHart f).inbox = s.inbox := rfl
@[simp] theorem State.modHart_agenda (s : State) (f : Ctx → Ctx) : (s.modHart f).agenda = s.agenda := rfl

/-! `State.modMyCore` -/
@[simp] theorem State.modMyCore_now (s : State) (f : Core → Core) : (s.modMyCore f).now = s.now := rfl
@[simp] theorem State.modMyCore_cur (s : State) (f : Core → Core) : (s.modMyCore f).cur = s.cur := rfl
@[simp] theorem State.modMyCore_fetched (s : State) (f : Core → Core) : (s.modMyCore f).fetched = s.fetched := rfl
@[simp] theorem State.modMyCore_fresh (s : State) (f : Core → Core) : (s.modMyCore f).fresh = s.fresh := rfl
@[simp] theorem State.modMyCore_dies (s : State) (f : Core → Core) : (s.modMyCore f).dies = s.dies := rfl
@[simp] theorem State.modMyCore_mem (s : State) (f : Core → Core) : (s.modMyCore f).mem = s.mem := rfl
@[simp] theorem State.modMyCore_past (s : State) (f : Core → Core) : (s.modMyCore f).past = s.past := rfl
@[simp] theorem State.modMyCore_copies (s : State) (f : Core → Core) : (s.modMyCore f).copies = s.copies := rfl
@[simp] theorem State.modMyCore_bad (s : State) (f : Core → Core) : (s.modMyCore f).bad = s.bad := rfl
@[simp] theorem State.modMyCore_retired (s : State) (f : Core → Core) : (s.modMyCore f).retired = s.retired := rfl
@[simp] theorem State.modMyCore_queues (s : State) (f : Core → Core) : (s.modMyCore f).queues = s.queues := rfl
@[simp] theorem State.modMyCore_devBarriers (s : State) (f : Core → Core) : (s.modMyCore f).devBarriers = s.devBarriers := rfl
@[simp] theorem State.modMyCore_aspaces (s : State) (f : Core → Core) : (s.modMyCore f).aspaces = s.aspaces := rfl
@[simp] theorem State.modMyCore_installed (s : State) (f : Core → Core) : (s.modMyCore f).installed = s.installed := rfl
@[simp] theorem State.modMyCore_acts (s : State) (f : Core → Core) : (s.modMyCore f).acts = s.acts := rfl
@[simp] theorem State.modMyCore_faulted (s : State) (f : Core → Core) : (s.modMyCore f).faulted = s.faulted := rfl
@[simp] theorem State.modMyCore_handles (s : State) (f : Core → Core) : (s.modMyCore f).handles = s.handles := rfl
@[simp] theorem State.modMyCore_live (s : State) (f : Core → Core) : (s.modMyCore f).live = s.live := rfl
@[simp] theorem State.modMyCore_host (s : State) (f : Core → Core) : (s.modMyCore f).host = s.host := rfl
@[simp] theorem State.modMyCore_boot (s : State) (f : Core → Core) : (s.modMyCore f).boot = s.boot := rfl
@[simp] theorem State.modMyCore_fleet (s : State) (f : Core → Core) : (s.modMyCore f).fleet = s.fleet := rfl
@[simp] theorem State.modMyCore_events (s : State) (f : Core → Core) : (s.modMyCore f).events = s.events := rfl
@[simp] theorem State.modMyCore_nestSaves (s : State) (f : Core → Core) : (s.modMyCore f).nestSaves = s.nestSaves := rfl
@[simp] theorem State.modMyCore_timers (s : State) (f : Core → Core) : (s.modMyCore f).timers = s.timers := rfl
@[simp] theorem State.modMyCore_inbox (s : State) (f : Core → Core) : (s.modMyCore f).inbox = s.inbox := rfl
@[simp] theorem State.modMyCore_agenda (s : State) (f : Core → Core) : (s.modMyCore f).agenda = s.agenda := rfl

/-! `State.modNode` -/
@[simp] theorem State.modNode_now (s : State) (c n : Nat) (f : Node → Node) : (s.modNode c n f).now = s.now := rfl
@[simp] theorem State.modNode_cur (s : State) (c n : Nat) (f : Node → Node) : (s.modNode c n f).cur = s.cur := rfl
@[simp] theorem State.modNode_fetched (s : State) (c n : Nat) (f : Node → Node) : (s.modNode c n f).fetched = s.fetched := rfl
@[simp] theorem State.modNode_fresh (s : State) (c n : Nat) (f : Node → Node) : (s.modNode c n f).fresh = s.fresh := rfl
@[simp] theorem State.modNode_dies (s : State) (c n : Nat) (f : Node → Node) : (s.modNode c n f).dies = s.dies := rfl
@[simp] theorem State.modNode_mem (s : State) (c n : Nat) (f : Node → Node) : (s.modNode c n f).mem = s.mem := rfl
@[simp] theorem State.modNode_past (s : State) (c n : Nat) (f : Node → Node) : (s.modNode c n f).past = s.past := rfl
@[simp] theorem State.modNode_copies (s : State) (c n : Nat) (f : Node → Node) : (s.modNode c n f).copies = s.copies := rfl
@[simp] theorem State.modNode_bad (s : State) (c n : Nat) (f : Node → Node) : (s.modNode c n f).bad = s.bad := rfl
@[simp] theorem State.modNode_retired (s : State) (c n : Nat) (f : Node → Node) : (s.modNode c n f).retired = s.retired := rfl
@[simp] theorem State.modNode_queues (s : State) (c n : Nat) (f : Node → Node) : (s.modNode c n f).queues = s.queues := rfl
@[simp] theorem State.modNode_devBarriers (s : State) (c n : Nat) (f : Node → Node) : (s.modNode c n f).devBarriers = s.devBarriers := rfl
@[simp] theorem State.modNode_aspaces (s : State) (c n : Nat) (f : Node → Node) : (s.modNode c n f).aspaces = s.aspaces := rfl
@[simp] theorem State.modNode_installed (s : State) (c n : Nat) (f : Node → Node) : (s.modNode c n f).installed = s.installed := rfl
@[simp] theorem State.modNode_acts (s : State) (c n : Nat) (f : Node → Node) : (s.modNode c n f).acts = s.acts := rfl
@[simp] theorem State.modNode_faulted (s : State) (c n : Nat) (f : Node → Node) : (s.modNode c n f).faulted = s.faulted := rfl
@[simp] theorem State.modNode_handles (s : State) (c n : Nat) (f : Node → Node) : (s.modNode c n f).handles = s.handles := rfl
@[simp] theorem State.modNode_live (s : State) (c n : Nat) (f : Node → Node) : (s.modNode c n f).live = s.live := rfl
@[simp] theorem State.modNode_host (s : State) (c n : Nat) (f : Node → Node) : (s.modNode c n f).host = s.host := rfl
@[simp] theorem State.modNode_boot (s : State) (c n : Nat) (f : Node → Node) : (s.modNode c n f).boot = s.boot := rfl
@[simp] theorem State.modNode_fleet (s : State) (c n : Nat) (f : Node → Node) : (s.modNode c n f).fleet = s.fleet := rfl
@[simp] theorem State.modNode_events (s : State) (c n : Nat) (f : Node → Node) : (s.modNode c n f).events = s.events := rfl
@[simp] theorem State.modNode_nestSaves (s : State) (c n : Nat) (f : Node → Node) : (s.modNode c n f).nestSaves = s.nestSaves := rfl
@[simp] theorem State.modNode_timers (s : State) (c n : Nat) (f : Node → Node) : (s.modNode c n f).timers = s.timers := rfl
@[simp] theorem State.modNode_inbox (s : State) (c n : Nat) (f : Node → Node) : (s.modNode c n f).inbox = s.inbox := rfl
@[simp] theorem State.modNode_agenda (s : State) (c n : Nat) (f : Node → Node) : (s.modNode c n f).agenda = s.agenda := rfl

/-! `State.setX` -/
@[simp] theorem State.setX_now (s : State) (r : Reg) (w : Word) : (s.setX r w).now = s.now := rfl
@[simp] theorem State.setX_cur (s : State) (r : Reg) (w : Word) : (s.setX r w).cur = s.cur := rfl
@[simp] theorem State.setX_fetched (s : State) (r : Reg) (w : Word) : (s.setX r w).fetched = s.fetched := rfl
@[simp] theorem State.setX_fresh (s : State) (r : Reg) (w : Word) : (s.setX r w).fresh = s.fresh := rfl
@[simp] theorem State.setX_dies (s : State) (r : Reg) (w : Word) : (s.setX r w).dies = s.dies := rfl
@[simp] theorem State.setX_mem (s : State) (r : Reg) (w : Word) : (s.setX r w).mem = s.mem := rfl
@[simp] theorem State.setX_past (s : State) (r : Reg) (w : Word) : (s.setX r w).past = s.past := rfl
@[simp] theorem State.setX_copies (s : State) (r : Reg) (w : Word) : (s.setX r w).copies = s.copies := rfl
@[simp] theorem State.setX_bad (s : State) (r : Reg) (w : Word) : (s.setX r w).bad = s.bad := rfl
@[simp] theorem State.setX_retired (s : State) (r : Reg) (w : Word) : (s.setX r w).retired = s.retired := rfl
@[simp] theorem State.setX_queues (s : State) (r : Reg) (w : Word) : (s.setX r w).queues = s.queues := rfl
@[simp] theorem State.setX_devBarriers (s : State) (r : Reg) (w : Word) : (s.setX r w).devBarriers = s.devBarriers := rfl
@[simp] theorem State.setX_aspaces (s : State) (r : Reg) (w : Word) : (s.setX r w).aspaces = s.aspaces := rfl
@[simp] theorem State.setX_installed (s : State) (r : Reg) (w : Word) : (s.setX r w).installed = s.installed := rfl
@[simp] theorem State.setX_acts (s : State) (r : Reg) (w : Word) : (s.setX r w).acts = s.acts := rfl
@[simp] theorem State.setX_faulted (s : State) (r : Reg) (w : Word) : (s.setX r w).faulted = s.faulted := rfl
@[simp] theorem State.setX_handles (s : State) (r : Reg) (w : Word) : (s.setX r w).handles = s.handles := rfl
@[simp] theorem State.setX_live (s : State) (r : Reg) (w : Word) : (s.setX r w).live = s.live := rfl
@[simp] theorem State.setX_host (s : State) (r : Reg) (w : Word) : (s.setX r w).host = s.host := rfl
@[simp] theorem State.setX_boot (s : State) (r : Reg) (w : Word) : (s.setX r w).boot = s.boot := rfl
@[simp] theorem State.setX_fleet (s : State) (r : Reg) (w : Word) : (s.setX r w).fleet = s.fleet := rfl
@[simp] theorem State.setX_events (s : State) (r : Reg) (w : Word) : (s.setX r w).events = s.events := rfl
@[simp] theorem State.setX_nestSaves (s : State) (r : Reg) (w : Word) : (s.setX r w).nestSaves = s.nestSaves := rfl
@[simp] theorem State.setX_timers (s : State) (r : Reg) (w : Word) : (s.setX r w).timers = s.timers := rfl
@[simp] theorem State.setX_inbox (s : State) (r : Reg) (w : Word) : (s.setX r w).inbox = s.inbox := rfl
@[simp] theorem State.setX_agenda (s : State) (r : Reg) (w : Word) : (s.setX r w).agenda = s.agenda := rfl

/-! `State.after` -/
@[simp] theorem State.after_now (s : State) (n : Nat) (e : Event) : (s.after n e).now = s.now := rfl
@[simp] theorem State.after_cur (s : State) (n : Nat) (e : Event) : (s.after n e).cur = s.cur := rfl
@[simp] theorem State.after_fetched (s : State) (n : Nat) (e : Event) : (s.after n e).fetched = s.fetched := rfl
@[simp] theorem State.after_fresh (s : State) (n : Nat) (e : Event) : (s.after n e).fresh = s.fresh := rfl
@[simp] theorem State.after_cores (s : State) (n : Nat) (e : Event) : (s.after n e).cores = s.cores := rfl
@[simp] theorem State.after_dies (s : State) (n : Nat) (e : Event) : (s.after n e).dies = s.dies := rfl
@[simp] theorem State.after_mem (s : State) (n : Nat) (e : Event) : (s.after n e).mem = s.mem := rfl
@[simp] theorem State.after_past (s : State) (n : Nat) (e : Event) : (s.after n e).past = s.past := rfl
@[simp] theorem State.after_copies (s : State) (n : Nat) (e : Event) : (s.after n e).copies = s.copies := rfl
@[simp] theorem State.after_bad (s : State) (n : Nat) (e : Event) : (s.after n e).bad = s.bad := rfl
@[simp] theorem State.after_retired (s : State) (n : Nat) (e : Event) : (s.after n e).retired = s.retired := rfl
@[simp] theorem State.after_queues (s : State) (n : Nat) (e : Event) : (s.after n e).queues = s.queues := rfl
@[simp] theorem State.after_devBarriers (s : State) (n : Nat) (e : Event) : (s.after n e).devBarriers = s.devBarriers := rfl
@[simp] theorem State.after_aspaces (s : State) (n : Nat) (e : Event) : (s.after n e).aspaces = s.aspaces := rfl
@[simp] theorem State.after_installed (s : State) (n : Nat) (e : Event) : (s.after n e).installed = s.installed := rfl
@[simp] theorem State.after_acts (s : State) (n : Nat) (e : Event) : (s.after n e).acts = s.acts := rfl
@[simp] theorem State.after_faulted (s : State) (n : Nat) (e : Event) : (s.after n e).faulted = s.faulted := rfl
@[simp] theorem State.after_handles (s : State) (n : Nat) (e : Event) : (s.after n e).handles = s.handles := rfl
@[simp] theorem State.after_live (s : State) (n : Nat) (e : Event) : (s.after n e).live = s.live := rfl
@[simp] theorem State.after_host (s : State) (n : Nat) (e : Event) : (s.after n e).host = s.host := rfl
@[simp] theorem State.after_boot (s : State) (n : Nat) (e : Event) : (s.after n e).boot = s.boot := rfl
@[simp] theorem State.after_fleet (s : State) (n : Nat) (e : Event) : (s.after n e).fleet = s.fleet := rfl
@[simp] theorem State.after_events (s : State) (n : Nat) (e : Event) : (s.after n e).events = s.events := rfl
@[simp] theorem State.after_nestSaves (s : State) (n : Nat) (e : Event) : (s.after n e).nestSaves = s.nestSaves := rfl
@[simp] theorem State.after_inbox (s : State) (n : Nat) (e : Event) : (s.after n e).inbox = s.inbox := rfl
@[simp] theorem State.after_agenda (s : State) (n : Nat) (e : Event) : (s.after n e).agenda = s.agenda := rfl

/-! `State.later` -/
@[simp] theorem State.later_now (s : State) (e : Event) : (s.later e).now = s.now := rfl
@[simp] theorem State.later_cur (s : State) (e : Event) : (s.later e).cur = s.cur := rfl
@[simp] theorem State.later_fetched (s : State) (e : Event) : (s.later e).fetched = s.fetched := rfl
@[simp] theorem State.later_fresh (s : State) (e : Event) : (s.later e).fresh = s.fresh := rfl
@[simp] theorem State.later_cores (s : State) (e : Event) : (s.later e).cores = s.cores := rfl
@[simp] theorem State.later_dies (s : State) (e : Event) : (s.later e).dies = s.dies := rfl
@[simp] theorem State.later_mem (s : State) (e : Event) : (s.later e).mem = s.mem := rfl
@[simp] theorem State.later_past (s : State) (e : Event) : (s.later e).past = s.past := rfl
@[simp] theorem State.later_copies (s : State) (e : Event) : (s.later e).copies = s.copies := rfl
@[simp] theorem State.later_bad (s : State) (e : Event) : (s.later e).bad = s.bad := rfl
@[simp] theorem State.later_retired (s : State) (e : Event) : (s.later e).retired = s.retired := rfl
@[simp] theorem State.later_queues (s : State) (e : Event) : (s.later e).queues = s.queues := rfl
@[simp] theorem State.later_devBarriers (s : State) (e : Event) : (s.later e).devBarriers = s.devBarriers := rfl
@[simp] theorem State.later_aspaces (s : State) (e : Event) : (s.later e).aspaces = s.aspaces := rfl
@[simp] theorem State.later_installed (s : State) (e : Event) : (s.later e).installed = s.installed := rfl
@[simp] theorem State.later_acts (s : State) (e : Event) : (s.later e).acts = s.acts := rfl
@[simp] theorem State.later_faulted (s : State) (e : Event) : (s.later e).faulted = s.faulted := rfl
@[simp] theorem State.later_handles (s : State) (e : Event) : (s.later e).handles = s.handles := rfl
@[simp] theorem State.later_live (s : State) (e : Event) : (s.later e).live = s.live := rfl
@[simp] theorem State.later_host (s : State) (e : Event) : (s.later e).host = s.host := rfl
@[simp] theorem State.later_boot (s : State) (e : Event) : (s.later e).boot = s.boot := rfl
@[simp] theorem State.later_fleet (s : State) (e : Event) : (s.later e).fleet = s.fleet := rfl
@[simp] theorem State.later_events (s : State) (e : Event) : (s.later e).events = s.events := rfl
@[simp] theorem State.later_nestSaves (s : State) (e : Event) : (s.later e).nestSaves = s.nestSaves := rfl
@[simp] theorem State.later_timers (s : State) (e : Event) : (s.later e).timers = s.timers := rfl
@[simp] theorem State.later_inbox (s : State) (e : Event) : (s.later e).inbox = s.inbox := rfl

/-! `State.notify` -/
@[simp] theorem State.notify_now (s : State) (e : KernelEvent) : (s.notify e).now = s.now := rfl
@[simp] theorem State.notify_cur (s : State) (e : KernelEvent) : (s.notify e).cur = s.cur := rfl
@[simp] theorem State.notify_fetched (s : State) (e : KernelEvent) : (s.notify e).fetched = s.fetched := rfl
@[simp] theorem State.notify_fresh (s : State) (e : KernelEvent) : (s.notify e).fresh = s.fresh := rfl
@[simp] theorem State.notify_cores (s : State) (e : KernelEvent) : (s.notify e).cores = s.cores := rfl
@[simp] theorem State.notify_dies (s : State) (e : KernelEvent) : (s.notify e).dies = s.dies := rfl
@[simp] theorem State.notify_mem (s : State) (e : KernelEvent) : (s.notify e).mem = s.mem := rfl
@[simp] theorem State.notify_past (s : State) (e : KernelEvent) : (s.notify e).past = s.past := rfl
@[simp] theorem State.notify_copies (s : State) (e : KernelEvent) : (s.notify e).copies = s.copies := rfl
@[simp] theorem State.notify_bad (s : State) (e : KernelEvent) : (s.notify e).bad = s.bad := rfl
@[simp] theorem State.notify_retired (s : State) (e : KernelEvent) : (s.notify e).retired = s.retired := rfl
@[simp] theorem State.notify_queues (s : State) (e : KernelEvent) : (s.notify e).queues = s.queues := rfl
@[simp] theorem State.notify_devBarriers (s : State) (e : KernelEvent) : (s.notify e).devBarriers = s.devBarriers := rfl
@[simp] theorem State.notify_aspaces (s : State) (e : KernelEvent) : (s.notify e).aspaces = s.aspaces := rfl
@[simp] theorem State.notify_installed (s : State) (e : KernelEvent) : (s.notify e).installed = s.installed := rfl
@[simp] theorem State.notify_acts (s : State) (e : KernelEvent) : (s.notify e).acts = s.acts := rfl
@[simp] theorem State.notify_faulted (s : State) (e : KernelEvent) : (s.notify e).faulted = s.faulted := rfl
@[simp] theorem State.notify_handles (s : State) (e : KernelEvent) : (s.notify e).handles = s.handles := rfl
@[simp] theorem State.notify_live (s : State) (e : KernelEvent) : (s.notify e).live = s.live := rfl
@[simp] theorem State.notify_host (s : State) (e : KernelEvent) : (s.notify e).host = s.host := rfl
@[simp] theorem State.notify_boot (s : State) (e : KernelEvent) : (s.notify e).boot = s.boot := rfl
@[simp] theorem State.notify_fleet (s : State) (e : KernelEvent) : (s.notify e).fleet = s.fleet := rfl
@[simp] theorem State.notify_nestSaves (s : State) (e : KernelEvent) : (s.notify e).nestSaves = s.nestSaves := rfl
@[simp] theorem State.notify_timers (s : State) (e : KernelEvent) : (s.notify e).timers = s.timers := rfl
@[simp] theorem State.notify_inbox (s : State) (e : KernelEvent) : (s.notify e).inbox = s.inbox := rfl
@[simp] theorem State.notify_agenda (s : State) (e : KernelEvent) : (s.notify e).agenda = s.agenda := rfl

/-! `State.post` -/
@[simp] theorem State.post_now (s : State) (p : Post) : (s.post p).now = s.now := rfl
@[simp] theorem State.post_cur (s : State) (p : Post) : (s.post p).cur = s.cur := rfl
@[simp] theorem State.post_fetched (s : State) (p : Post) : (s.post p).fetched = s.fetched := rfl
@[simp] theorem State.post_fresh (s : State) (p : Post) : (s.post p).fresh = s.fresh := rfl
@[simp] theorem State.post_cores (s : State) (p : Post) : (s.post p).cores = s.cores := rfl
@[simp] theorem State.post_dies (s : State) (p : Post) : (s.post p).dies = s.dies := rfl
@[simp] theorem State.post_mem (s : State) (p : Post) : (s.post p).mem = s.mem := rfl
@[simp] theorem State.post_past (s : State) (p : Post) : (s.post p).past = s.past := rfl
@[simp] theorem State.post_copies (s : State) (p : Post) : (s.post p).copies = s.copies := rfl
@[simp] theorem State.post_bad (s : State) (p : Post) : (s.post p).bad = s.bad := rfl
@[simp] theorem State.post_retired (s : State) (p : Post) : (s.post p).retired = s.retired := rfl
@[simp] theorem State.post_queues (s : State) (p : Post) : (s.post p).queues = s.queues := rfl
@[simp] theorem State.post_devBarriers (s : State) (p : Post) : (s.post p).devBarriers = s.devBarriers := rfl
@[simp] theorem State.post_aspaces (s : State) (p : Post) : (s.post p).aspaces = s.aspaces := rfl
@[simp] theorem State.post_installed (s : State) (p : Post) : (s.post p).installed = s.installed := rfl
@[simp] theorem State.post_acts (s : State) (p : Post) : (s.post p).acts = s.acts := rfl
@[simp] theorem State.post_faulted (s : State) (p : Post) : (s.post p).faulted = s.faulted := rfl
@[simp] theorem State.post_handles (s : State) (p : Post) : (s.post p).handles = s.handles := rfl
@[simp] theorem State.post_live (s : State) (p : Post) : (s.post p).live = s.live := rfl
@[simp] theorem State.post_boot (s : State) (p : Post) : (s.post p).boot = s.boot := rfl
@[simp] theorem State.post_fleet (s : State) (p : Post) : (s.post p).fleet = s.fleet := rfl
@[simp] theorem State.post_events (s : State) (p : Post) : (s.post p).events = s.events := rfl
@[simp] theorem State.post_nestSaves (s : State) (p : Post) : (s.post p).nestSaves = s.nestSaves := rfl
@[simp] theorem State.post_timers (s : State) (p : Post) : (s.post p).timers = s.timers := rfl
@[simp] theorem State.post_inbox (s : State) (p : Post) : (s.post p).inbox = s.inbox := rfl
@[simp] theorem State.post_agenda (s : State) (p : Post) : (s.post p).agenda = s.agenda := rfl

/-! What the updates set -/

@[simp] theorem State.later_agenda (s : State) (e : Event) : (s.later e).agenda = s.agenda ++ [e] := rfl
@[simp] theorem State.after_timers (s : State) (n : Nat) (e : Event) :
    (s.after n e).timers = s.timers ++ [(s.now + n, e)] := rfl
@[simp] theorem State.notify_events (s : State) (e : KernelEvent) : (s.notify e).events = s.events ++ [e] := rfl
@[simp] theorem State.post_posts (s : State) (p : Post) : (s.post p).host.posts = s.host.posts ++ [p] := rfl

@[simp] theorem State.setCore_core (s : State) (c : Nat) (k : Core) : (s.setCore c k).core c = k := by
  simp [State.core, State.setCore]

theorem State.setCore_core_ne (s : State) {c d : Nat} (k : Core) (h : d ≠ c) : (s.setCore c k).core d = s.core d := by
  simp [State.core, State.setCore, SMap.get_put_ne _ _ h]

@[simp] theorem State.modCore_core (s : State) (c : Nat) (f : Core → Core) : (s.modCore c f).core c = f (s.core c) := by
  simp [State.modCore]

theorem State.modCore_core_ne (s : State) {c d : Nat} (f : Core → Core) (h : d ≠ c) :
    (s.modCore c f).core d = s.core d := s.setCore_core_ne _ h

@[simp] theorem State.setDie_die (s : State) (d : Nat) (k : Die) : (s.setDie d k).die d = k := by
  simp [State.die, State.setDie]

theorem State.setDie_die_ne (s : State) {c d : Nat} (k : Die) (h : d ≠ c) : (s.setDie c k).die d = s.die d := by
  simp [State.die, State.setDie, SMap.get_put_ne _ _ h]

@[simp] theorem State.modDie_die (s : State) (d : Nat) (f : Die → Die) : (s.modDie d f).die d = f (s.die d) := by
  simp [State.modDie]

/-! Cores and contexts -/

@[simp] theorem Core.setCtx_ctx (k : Core) (x : Nat) (t : Ctx) : (k.setCtx x t).ctx x = t := by
  simp [Core.ctx, Core.setCtx]

theorem Core.setCtx_ctx_ne (k : Core) {x y : Nat} (t : Ctx) (h : y % 8 ≠ x % 8) : (k.setCtx x t).ctx y = k.ctx y := by
  have h' : ((ctxIx x : Fin 8) : Nat) ≠ (ctxIx y : Fin 8) := fun e => h e.symm
  simp [Core.ctx, Core.setCtx, h']

@[simp] theorem State.setThr_thr (s : State) (c x : Nat) (t : Ctx) : (s.setThr c x t).thr c x = t := by
  simp [State.thr, State.setThr]

theorem State.setThr_thr_ne (s : State) {c x d y : Nat} (t : Ctx) (h : d ≠ c ∨ y % 8 ≠ x % 8) :
    (s.setThr c x t).thr d y = s.thr d y := by
  by_cases e : d = c
  · subst e
    simp [State.thr, State.setThr, Core.setCtx_ctx_ne _ _ (h.resolve_left (fun n => n rfl))]
  · simp [State.thr, State.setThr, State.setCore_core_ne _ _ e]

@[simp] theorem State.modThr_thr (s : State) (c x : Nat) (f : Ctx → Ctx) : (s.modThr c x f).thr c x = f (s.thr c x) := by
  simp [State.modThr]

theorem State.modThr_thr_ne (s : State) {c x d y : Nat} (f : Ctx → Ctx) (h : d ≠ c ∨ y % 8 ≠ x % 8) :
    (s.modThr c x f).thr d y = s.thr d y := s.setThr_thr_ne _ h

@[simp] theorem State.setHart_hart (s : State) (t : Ctx) : (s.setHart t).hart = t := by
  show (s.setThr s.cur.1 s.cur.2 t).thr s.cur.1 s.cur.2 = t
  simp

@[simp] theorem State.modHart_hart (s : State) (f : Ctx → Ctx) : (s.modHart f).hart = f s.hart := by
  simp [State.modHart]

theorem State.setHart_thr_ne (s : State) {d y : Nat} (t : Ctx) (h : d ≠ s.cur.1 ∨ y % 8 ≠ s.cur.2 % 8) :
    (s.setHart t).thr d y = s.thr d y := s.setThr_thr_ne _ h

theorem State.modHart_thr_ne (s : State) {d y : Nat} (f : Ctx → Ctx) (h : d ≠ s.cur.1 ∨ y % 8 ≠ s.cur.2 % 8) :
    (s.modHart f).thr d y = s.thr d y := s.setThr_thr_ne _ h

/-- Two updates of the running hart are one. -/
@[simp] theorem State.setHart_setHart (s : State) (t u : Ctx) : (s.setHart t).setHart u = s.setHart u := by
  simp [State.setHart, State.setThr, State.setCore, State.core, Core.setCtx]

@[simp] theorem State.modHart_modHart (s : State) (f g : Ctx → Ctx) :
    (s.modHart f).modHart g = s.modHart (fun t => g (f t)) := by
  simp [State.modHart]

@[simp] theorem State.setHart_setX (s : State) (t : Ctx) (r : Reg) (w : Word) :
    (s.setHart t).setX r w = s.setHart (t.setX r w) := by
  simp [State.setX, State.modHart]

/-! The x registers (R25) -/

@[simp] theorem Ctx.getX_zero (t : Ctx) : t.getX 0 = 0 := rfl
@[simp] theorem Ctx.setX_zero (t : Ctx) (w : Word) : t.setX 0 w = t := rfl

theorem Ctx.getX_setX (t : Ctx) (r q : Reg) (w : Word) :
    (t.setX r w).getX q = if q = r ∧ r ≠ 0 then w else t.getX q := by
  by_cases hr : r = 0
  · subst hr
    simp [Ctx.setX]
  · by_cases hq : q = 0
    · subst hq
      rw [if_neg (fun h => hr h.1.symm)]
      rfl
    · rw [Ctx.getX, if_neg hq, Ctx.setX, if_neg hr, Ctx.getX, if_neg hq]
      by_cases e : q = r
      · subst e
        rw [if_pos ⟨rfl, hr⟩]
        simp
      · rw [if_neg (fun h => e h.1)]
        have h' : r.toNat ≠ q.toNat := fun h => e (BitVec.eq_of_toNat_eq h.symm)
        simp [h']

@[simp] theorem State.setX_hart (s : State) (r : Reg) (w : Word) : (s.setX r w).hart = s.hart.setX r w := by
  simp [State.setX]

@[simp] theorem State.xr_setX_same (s : State) (r : Reg) (w : Word) (h : r ≠ 0) : (s.setX r w).xr r = w := by
  rw [State.xr, State.setX_hart, Ctx.getX_setX, if_pos ⟨rfl, h⟩]

theorem State.xr_setX_ne (s : State) {r q : Reg} (w : Word) (h : q ≠ r) : (s.setX r w).xr q = s.xr q := by
  simp [State.xr, Ctx.getX_setX, h]

@[simp] theorem State.setX_zero (s : State) (w : Word) : s.setX 0 w = s.modHart (fun t => t) := rfl

/-! `Ctx.setX` -/

@[simp] theorem Ctx.setX_status (t : Ctx) (r : Reg) (w : Word) : (t.setX r w).status = t.status := by
  unfold Ctx.setX; split <;> rfl
@[simp] theorem Ctx.setX_priv (t : Ctx) (r : Reg) (w : Word) : (t.setX r w).priv = t.priv := by
  unfold Ctx.setX; split <;> rfl
@[simp] theorem Ctx.setX_pc (t : Ctx) (r : Reg) (w : Word) : (t.setX r w).pc = t.pc := by
  unfold Ctx.setX; split <;> rfl
@[simp] theorem Ctx.setX_v (t : Ctx) (r : Reg) (w : Word) : (t.setX r w).v = t.v := by
  unfold Ctx.setX; split <;> rfl
@[simp] theorem Ctx.setX_full (t : Ctx) (r : Reg) (w : Word) : (t.setX r w).full = t.full := by
  unfold Ctx.setX; split <;> rfl
@[simp] theorem Ctx.setX_vlen (t : Ctx) (r : Reg) (w : Word) : (t.setX r w).vlen = t.vlen := by
  unfold Ctx.setX; split <;> rfl
@[simp] theorem Ctx.setX_cls (t : Ctx) (r : Reg) (w : Word) : (t.setX r w).cls = t.cls := by
  unfold Ctx.setX; split <;> rfl
@[simp] theorem Ctx.setX_clusters (t : Ctx) (r : Reg) (w : Word) : (t.setX r w).clusters = t.clusters := by
  unfold Ctx.setX; split <;> rfl
@[simp] theorem Ctx.setX_std (t : Ctx) (r : Reg) (w : Word) : (t.setX r w).std = t.std := by
  unfold Ctx.setX; split <;> rfl
@[simp] theorem Ctx.setX_dev (t : Ctx) (r : Reg) (w : Word) : (t.setX r w).dev = t.dev := by
  unfold Ctx.setX; split <;> rfl
@[simp] theorem Ctx.setX_binds (t : Ctx) (r : Reg) (w : Word) : (t.setX r w).binds = t.binds := by
  unfold Ctx.setX; split <;> rfl
@[simp] theorem Ctx.setX_loop (t : Ctx) (r : Reg) (w : Word) : (t.setX r w).loop = t.loop := by
  unfold Ctx.setX; split <;> rfl
@[simp] theorem Ctx.setX_landing (t : Ctx) (r : Reg) (w : Word) : (t.setX r w).landing = t.landing := by
  unfold Ctx.setX; split <;> rfl
@[simp] theorem Ctx.setX_resv (t : Ctx) (r : Reg) (w : Word) : (t.setX r w).resv = t.resv := by
  unfold Ctx.setX; split <;> rfl
@[simp] theorem Ctx.setX_batchOpen (t : Ctx) (r : Reg) (w : Word) : (t.setX r w).batchOpen = t.batchOpen := by
  unfold Ctx.setX; split <;> rfl
@[simp] theorem Ctx.setX_batchSet (t : Ctx) (r : Reg) (w : Word) : (t.setX r w).batchSet = t.batchSet := by
  unfold Ctx.setX; split <;> rfl
@[simp] theorem Ctx.setX_task (t : Ctx) (r : Reg) (w : Word) : (t.setX r w).task = t.task := by
  unfold Ctx.setX; split <;> rfl
@[simp] theorem Ctx.setX_gang (t : Ctx) (r : Reg) (w : Word) : (t.setX r w).gang = t.gang := by
  unfold Ctx.setX; split <;> rfl
@[simp] theorem Ctx.setX_joining (t : Ctx) (r : Reg) (w : Word) : (t.setX r w).joining = t.joining := by
  unfold Ctx.setX; split <;> rfl
@[simp] theorem Ctx.setX_joinRd (t : Ctx) (r : Reg) (w : Word) : (t.setX r w).joinRd = t.joinRd := by
  unfold Ctx.setX; split <;> rfl
@[simp] theorem Ctx.setX_joinStatus (t : Ctx) (r : Reg) (w : Word) : (t.setX r w).joinStatus = t.joinStatus := by
  unfold Ctx.setX; split <;> rfl
@[simp] theorem Ctx.setX_act (t : Ctx) (r : Reg) (w : Word) : (t.setX r w).act = t.act := by
  unfold Ctx.setX; split <;> rfl
@[simp] theorem Ctx.setX_barWait (t : Ctx) (r : Reg) (w : Word) : (t.setX r w).barWait = t.barWait := by
  unfold Ctx.setX; split <;> rfl
@[simp] theorem Ctx.setX_mgnWait (t : Ctx) (r : Reg) (w : Word) : (t.setX r w).mgnWait = t.mgnWait := by
  unfold Ctx.setX; split <;> rfl
@[simp] theorem Ctx.setX_reclSince (t : Ctx) (r : Reg) (w : Word) : (t.setX r w).reclSince = t.reclSince := by
  unfold Ctx.setX; split <;> rfl
@[simp] theorem Ctx.setX_rc (t : Ctx) (r : Reg) (w : Word) : (t.setX r w).rc = t.rc := by
  unfold Ctx.setX; split <;> rfl
@[simp] theorem Ctx.setX_firstIssue (t : Ctx) (r : Reg) (w : Word) : (t.setX r w).firstIssue = t.firstIssue := by
  unfold Ctx.setX; split <;> rfl
@[simp] theorem Ctx.setX_requeue (t : Ctx) (r : Reg) (w : Word) : (t.setX r w).requeue = t.requeue := by
  unfold Ctx.setX; split <;> rfl
@[simp] theorem Ctx.setX_reentry (t : Ctx) (r : Reg) (w : Word) : (t.setX r w).reentry = t.reentry := by
  unfold Ctx.setX; split <;> rfl
@[simp] theorem Ctx.setX_reentryPend (t : Ctx) (r : Reg) (w : Word) : (t.setX r w).reentryPend = t.reentryPend := by
  unfold Ctx.setX; split <;> rfl
@[simp] theorem Ctx.setX_wfi (t : Ctx) (r : Reg) (w : Word) : (t.setX r w).wfi = t.wfi := by
  unfold Ctx.setX; split <;> rfl
@[simp] theorem Ctx.setX_fenceW (t : Ctx) (r : Reg) (w : Word) : (t.setX r w).fenceW = t.fenceW := by
  unfold Ctx.setX; split <;> rfl
@[simp] theorem Ctx.setX_fenceA (t : Ctx) (r : Reg) (w : Word) : (t.setX r w).fenceA = t.fenceA := by
  unfold Ctx.setX; split <;> rfl
@[simp] theorem Ctx.setX_fenceER (t : Ctx) (r : Reg) (w : Word) : (t.setX r w).fenceER = t.fenceER := by
  unfold Ctx.setX; split <;> rfl
@[simp] theorem Ctx.setX_fenceEW (t : Ctx) (r : Reg) (w : Word) : (t.setX r w).fenceEW = t.fenceEW := by
  unfold Ctx.setX; split <;> rfl
@[simp] theorem Ctx.setX_fenceEA (t : Ctx) (r : Reg) (w : Word) : (t.setX r w).fenceEA = t.fenceEA := by
  unfold Ctx.setX; split <;> rfl
@[simp] theorem Ctx.setX_fetchSync (t : Ctx) (r : Reg) (w : Word) : (t.setX r w).fetchSync = t.fetchSync := by
  unfold Ctx.setX; split <;> rfl
@[simp] theorem Ctx.setX_charged (t : Ctx) (r : Reg) (w : Word) : (t.setX r w).charged = t.charged := by
  unfold Ctx.setX; split <;> rfl
@[simp] theorem Ctx.setX_replayAt (t : Ctx) (r : Reg) (w : Word) : (t.setX r w).replayAt = t.replayAt := by
  unfold Ctx.setX; split <;> rfl
@[simp] theorem Ctx.setX_raised (t : Ctx) (r : Reg) (w : Word) : (t.setX r w).raised = t.raised := by
  unfold Ctx.setX; split <;> rfl
@[simp] theorem Ctx.setX_midway (t : Ctx) (r : Reg) (w : Word) : (t.setX r w).midway = t.midway := by
  unfold Ctx.setX; split <;> rfl
@[simp] theorem Ctx.setX_ended (t : Ctx) (r : Reg) (w : Word) : (t.setX r w).ended = t.ended := by
  unfold Ctx.setX; split <;> rfl
@[simp] theorem Ctx.setX_lastPrec (t : Ctx) (r : Reg) (w : Word) : (t.setX r w).lastPrec = t.lastPrec := by
  unfold Ctx.setX; split <;> rfl

/-! `Ctx.retired` -/

@[simp] theorem Ctx.retired_status (t : Ctx) : t.retired.status = t.status := rfl
@[simp] theorem Ctx.retired_priv (t : Ctx) : t.retired.priv = t.priv := rfl
@[simp] theorem Ctx.retired_pc (t : Ctx) : t.retired.pc = t.pc := rfl
@[simp] theorem Ctx.retired_x (t : Ctx) : t.retired.x = t.x := rfl
@[simp] theorem Ctx.retired_v (t : Ctx) : t.retired.v = t.v := rfl
@[simp] theorem Ctx.retired_full (t : Ctx) : t.retired.full = t.full := rfl
@[simp] theorem Ctx.retired_vlen (t : Ctx) : t.retired.vlen = t.vlen := rfl
@[simp] theorem Ctx.retired_cls (t : Ctx) : t.retired.cls = t.cls := rfl
@[simp] theorem Ctx.retired_clusters (t : Ctx) : t.retired.clusters = t.clusters := rfl
@[simp] theorem Ctx.retired_dev (t : Ctx) : t.retired.dev = t.dev := rfl
@[simp] theorem Ctx.retired_binds (t : Ctx) : t.retired.binds = t.binds := rfl
@[simp] theorem Ctx.retired_loop (t : Ctx) : t.retired.loop = t.loop := rfl
@[simp] theorem Ctx.retired_landing (t : Ctx) : t.retired.landing = t.landing := rfl
@[simp] theorem Ctx.retired_resv (t : Ctx) : t.retired.resv = t.resv := rfl
@[simp] theorem Ctx.retired_batchOpen (t : Ctx) : t.retired.batchOpen = t.batchOpen := rfl
@[simp] theorem Ctx.retired_batchSet (t : Ctx) : t.retired.batchSet = t.batchSet := rfl
@[simp] theorem Ctx.retired_task (t : Ctx) : t.retired.task = t.task := rfl
@[simp] theorem Ctx.retired_gang (t : Ctx) : t.retired.gang = t.gang := rfl
@[simp] theorem Ctx.retired_joinRd (t : Ctx) : t.retired.joinRd = t.joinRd := rfl
@[simp] theorem Ctx.retired_joinStatus (t : Ctx) : t.retired.joinStatus = t.joinStatus := rfl
@[simp] theorem Ctx.retired_act (t : Ctx) : t.retired.act = t.act := rfl
@[simp] theorem Ctx.retired_reclSince (t : Ctx) : t.retired.reclSince = t.reclSince := rfl
@[simp] theorem Ctx.retired_firstIssue (t : Ctx) : t.retired.firstIssue = t.firstIssue := rfl
@[simp] theorem Ctx.retired_requeue (t : Ctx) : t.retired.requeue = t.requeue := rfl
@[simp] theorem Ctx.retired_reentry (t : Ctx) : t.retired.reentry = t.reentry := rfl
@[simp] theorem Ctx.retired_reentryPend (t : Ctx) : t.retired.reentryPend = t.reentryPend := rfl
@[simp] theorem Ctx.retired_wfi (t : Ctx) : t.retired.wfi = t.wfi := rfl
@[simp] theorem Ctx.retired_fenceW (t : Ctx) : t.retired.fenceW = t.fenceW := rfl
@[simp] theorem Ctx.retired_fenceA (t : Ctx) : t.retired.fenceA = t.fenceA := rfl
@[simp] theorem Ctx.retired_fenceER (t : Ctx) : t.retired.fenceER = t.fenceER := rfl
@[simp] theorem Ctx.retired_fenceEW (t : Ctx) : t.retired.fenceEW = t.fenceEW := rfl
@[simp] theorem Ctx.retired_fenceEA (t : Ctx) : t.retired.fenceEA = t.fenceEA := rfl
@[simp] theorem Ctx.retired_fetchSync (t : Ctx) : t.retired.fetchSync = t.fetchSync := rfl
@[simp] theorem Ctx.retired_raised (t : Ctx) : t.retired.raised = t.raised := rfl
@[simp] theorem Ctx.retired_lastPrec (t : Ctx) : t.retired.lastPrec = t.lastPrec := rfl

/-! `Core.setCtx` -/

@[simp] theorem Core.setCtx_cycle (k : Core) (x : Nat) (t : Ctx) : (k.setCtx x t).cycle = k.cycle := rfl
@[simp] theorem Core.setCtx_acc (k : Core) (x : Nat) (t : Ctx) : (k.setCtx x t).acc = k.acc := rfl
@[simp] theorem Core.setCtx_portBusy (k : Core) (x : Nat) (t : Ctx) : (k.setCtx x t).portBusy = k.portBusy := rfl
@[simp] theorem Core.setCtx_nests (k : Core) (x : Nat) (t : Ctx) : (k.setCtx x t).nests = k.nests := rfl
@[simp] theorem Core.setCtx_nodes (k : Core) (x : Nat) (t : Ctx) : (k.setCtx x t).nodes = k.nodes := rfl
@[simp] theorem Core.setCtx_serial (k : Core) (x : Nat) (t : Ctx) : (k.setCtx x t).serial = k.serial := rfl
@[simp] theorem Core.setCtx_colls (k : Core) (x : Nat) (t : Ctx) : (k.setCtx x t).colls = k.colls := rfl
@[simp] theorem Core.setCtx_collBad (k : Core) (x : Nat) (t : Ctx) : (k.setCtx x t).collBad = k.collBad := rfl
@[simp] theorem Core.setCtx_capKey (k : Core) (x : Nat) (t : Ctx) : (k.setCtx x t).capKey = k.capKey := rfl
@[simp] theorem Core.setCtx_capGen (k : Core) (x : Nat) (t : Ctx) : (k.setCtx x t).capGen = k.capGen := rfl
@[simp] theorem Core.setCtx_ring (k : Core) (x : Nat) (t : Ctx) : (k.setCtx x t).ring = k.ring := rfl
@[simp] theorem Core.setCtx_margin (k : Core) (x : Nat) (t : Ctx) : (k.setCtx x t).margin = k.margin := rfl
@[simp] theorem Core.setCtx_quar (k : Core) (x : Nat) (t : Ctx) : (k.setCtx x t).quar = k.quar := rfl
@[simp] theorem Core.setCtx_gate (k : Core) (x : Nat) (t : Ctx) : (k.setCtx x t).gate = k.gate := rfl
@[simp] theorem Core.setCtx_lpwr (k : Core) (x : Nat) (t : Ctx) : (k.setCtx x t).lpwr = k.lpwr := rfl
@[simp] theorem Core.setCtx_stash0 (k : Core) (x : Nat) (t : Ctx) : (k.setCtx x t).stash0 = k.stash0 := rfl
@[simp] theorem Core.setCtx_stash1 (k : Core) (x : Nat) (t : Ctx) : (k.setCtx x t).stash1 = k.stash1 := rfl
@[simp] theorem Core.setCtx_sectors (k : Core) (x : Nat) (t : Ctx) : (k.setCtx x t).sectors = k.sectors := rfl
@[simp] theorem Core.setCtx_deque (k : Core) (x : Nat) (t : Ctx) : (k.setCtx x t).deque = k.deque := rfl
@[simp] theorem Core.setCtx_overflow (k : Core) (x : Nat) (t : Ctx) : (k.setCtx x t).overflow = k.overflow := rfl
@[simp] theorem Core.setCtx_snap (k : Core) (x : Nat) (t : Ctx) : (k.setCtx x t).snap = k.snap := rfl
@[simp] theorem Core.setCtx_bell (k : Core) (x : Nat) (t : Ctx) : (k.setCtx x t).bell = k.bell := rfl
@[simp] theorem Core.setCtx_steal (k : Core) (x : Nat) (t : Ctx) : (k.setCtx x t).steal = k.steal := rfl
@[simp] theorem Core.setCtx_portHold (k : Core) (x : Nat) (t : Ctx) : (k.setCtx x t).portHold = k.portHold := rfl
@[simp] theorem Core.setCtx_lvdef (k : Core) (x : Nat) (t : Ctx) : (k.setCtx x t).lvdef = k.lvdef := rfl
@[simp] theorem Core.setCtx_lvwait (k : Core) (x : Nat) (t : Ctx) : (k.setCtx x t).lvwait = k.lvwait := rfl
@[simp] theorem Core.setCtx_remotes (k : Core) (x : Nat) (t : Ctx) : (k.setCtx x t).remotes = k.remotes := rfl
@[simp] theorem State.setThr_core_cycle (s : State) (c x d : Nat) (t : Ctx) :
    ((s.setThr c x t).core d).cycle = (s.core d).cycle := by
  by_cases e : d = c
  · subst e; simp [State.setThr]
  · simp [State.setThr, State.setCore_core_ne _ _ e]
@[simp] theorem State.setThr_core_acc (s : State) (c x d : Nat) (t : Ctx) :
    ((s.setThr c x t).core d).acc = (s.core d).acc := by
  by_cases e : d = c
  · subst e; simp [State.setThr]
  · simp [State.setThr, State.setCore_core_ne _ _ e]
@[simp] theorem State.setThr_core_portBusy (s : State) (c x d : Nat) (t : Ctx) :
    ((s.setThr c x t).core d).portBusy = (s.core d).portBusy := by
  by_cases e : d = c
  · subst e; simp [State.setThr]
  · simp [State.setThr, State.setCore_core_ne _ _ e]
@[simp] theorem State.setThr_core_nests (s : State) (c x d : Nat) (t : Ctx) :
    ((s.setThr c x t).core d).nests = (s.core d).nests := by
  by_cases e : d = c
  · subst e; simp [State.setThr]
  · simp [State.setThr, State.setCore_core_ne _ _ e]
@[simp] theorem State.setThr_core_nodes (s : State) (c x d : Nat) (t : Ctx) :
    ((s.setThr c x t).core d).nodes = (s.core d).nodes := by
  by_cases e : d = c
  · subst e; simp [State.setThr]
  · simp [State.setThr, State.setCore_core_ne _ _ e]
@[simp] theorem State.setThr_core_serial (s : State) (c x d : Nat) (t : Ctx) :
    ((s.setThr c x t).core d).serial = (s.core d).serial := by
  by_cases e : d = c
  · subst e; simp [State.setThr]
  · simp [State.setThr, State.setCore_core_ne _ _ e]
@[simp] theorem State.setThr_core_colls (s : State) (c x d : Nat) (t : Ctx) :
    ((s.setThr c x t).core d).colls = (s.core d).colls := by
  by_cases e : d = c
  · subst e; simp [State.setThr]
  · simp [State.setThr, State.setCore_core_ne _ _ e]
@[simp] theorem State.setThr_core_collBad (s : State) (c x d : Nat) (t : Ctx) :
    ((s.setThr c x t).core d).collBad = (s.core d).collBad := by
  by_cases e : d = c
  · subst e; simp [State.setThr]
  · simp [State.setThr, State.setCore_core_ne _ _ e]
@[simp] theorem State.setThr_core_capKey (s : State) (c x d : Nat) (t : Ctx) :
    ((s.setThr c x t).core d).capKey = (s.core d).capKey := by
  by_cases e : d = c
  · subst e; simp [State.setThr]
  · simp [State.setThr, State.setCore_core_ne _ _ e]
@[simp] theorem State.setThr_core_capGen (s : State) (c x d : Nat) (t : Ctx) :
    ((s.setThr c x t).core d).capGen = (s.core d).capGen := by
  by_cases e : d = c
  · subst e; simp [State.setThr]
  · simp [State.setThr, State.setCore_core_ne _ _ e]
@[simp] theorem State.setThr_core_ring (s : State) (c x d : Nat) (t : Ctx) :
    ((s.setThr c x t).core d).ring = (s.core d).ring := by
  by_cases e : d = c
  · subst e; simp [State.setThr]
  · simp [State.setThr, State.setCore_core_ne _ _ e]
@[simp] theorem State.setThr_core_margin (s : State) (c x d : Nat) (t : Ctx) :
    ((s.setThr c x t).core d).margin = (s.core d).margin := by
  by_cases e : d = c
  · subst e; simp [State.setThr]
  · simp [State.setThr, State.setCore_core_ne _ _ e]
@[simp] theorem State.setThr_core_quar (s : State) (c x d : Nat) (t : Ctx) :
    ((s.setThr c x t).core d).quar = (s.core d).quar := by
  by_cases e : d = c
  · subst e; simp [State.setThr]
  · simp [State.setThr, State.setCore_core_ne _ _ e]
@[simp] theorem State.setThr_core_gate (s : State) (c x d : Nat) (t : Ctx) :
    ((s.setThr c x t).core d).gate = (s.core d).gate := by
  by_cases e : d = c
  · subst e; simp [State.setThr]
  · simp [State.setThr, State.setCore_core_ne _ _ e]
@[simp] theorem State.setThr_core_lpwr (s : State) (c x d : Nat) (t : Ctx) :
    ((s.setThr c x t).core d).lpwr = (s.core d).lpwr := by
  by_cases e : d = c
  · subst e; simp [State.setThr]
  · simp [State.setThr, State.setCore_core_ne _ _ e]
@[simp] theorem State.setThr_core_stash0 (s : State) (c x d : Nat) (t : Ctx) :
    ((s.setThr c x t).core d).stash0 = (s.core d).stash0 := by
  by_cases e : d = c
  · subst e; simp [State.setThr]
  · simp [State.setThr, State.setCore_core_ne _ _ e]
@[simp] theorem State.setThr_core_stash1 (s : State) (c x d : Nat) (t : Ctx) :
    ((s.setThr c x t).core d).stash1 = (s.core d).stash1 := by
  by_cases e : d = c
  · subst e; simp [State.setThr]
  · simp [State.setThr, State.setCore_core_ne _ _ e]
@[simp] theorem State.setThr_core_sectors (s : State) (c x d : Nat) (t : Ctx) :
    ((s.setThr c x t).core d).sectors = (s.core d).sectors := by
  by_cases e : d = c
  · subst e; simp [State.setThr]
  · simp [State.setThr, State.setCore_core_ne _ _ e]
@[simp] theorem State.setThr_core_deque (s : State) (c x d : Nat) (t : Ctx) :
    ((s.setThr c x t).core d).deque = (s.core d).deque := by
  by_cases e : d = c
  · subst e; simp [State.setThr]
  · simp [State.setThr, State.setCore_core_ne _ _ e]
@[simp] theorem State.setThr_core_overflow (s : State) (c x d : Nat) (t : Ctx) :
    ((s.setThr c x t).core d).overflow = (s.core d).overflow := by
  by_cases e : d = c
  · subst e; simp [State.setThr]
  · simp [State.setThr, State.setCore_core_ne _ _ e]
@[simp] theorem State.setThr_core_snap (s : State) (c x d : Nat) (t : Ctx) :
    ((s.setThr c x t).core d).snap = (s.core d).snap := by
  by_cases e : d = c
  · subst e; simp [State.setThr]
  · simp [State.setThr, State.setCore_core_ne _ _ e]
@[simp] theorem State.setThr_core_bell (s : State) (c x d : Nat) (t : Ctx) :
    ((s.setThr c x t).core d).bell = (s.core d).bell := by
  by_cases e : d = c
  · subst e; simp [State.setThr]
  · simp [State.setThr, State.setCore_core_ne _ _ e]
@[simp] theorem State.setThr_core_steal (s : State) (c x d : Nat) (t : Ctx) :
    ((s.setThr c x t).core d).steal = (s.core d).steal := by
  by_cases e : d = c
  · subst e; simp [State.setThr]
  · simp [State.setThr, State.setCore_core_ne _ _ e]
@[simp] theorem State.setThr_core_portHold (s : State) (c x d : Nat) (t : Ctx) :
    ((s.setThr c x t).core d).portHold = (s.core d).portHold := by
  by_cases e : d = c
  · subst e; simp [State.setThr]
  · simp [State.setThr, State.setCore_core_ne _ _ e]
@[simp] theorem State.setThr_core_lvdef (s : State) (c x d : Nat) (t : Ctx) :
    ((s.setThr c x t).core d).lvdef = (s.core d).lvdef := by
  by_cases e : d = c
  · subst e; simp [State.setThr]
  · simp [State.setThr, State.setCore_core_ne _ _ e]
@[simp] theorem State.setThr_core_lvwait (s : State) (c x d : Nat) (t : Ctx) :
    ((s.setThr c x t).core d).lvwait = (s.core d).lvwait := by
  by_cases e : d = c
  · subst e; simp [State.setThr]
  · simp [State.setThr, State.setCore_core_ne _ _ e]
@[simp] theorem State.setThr_core_remotes (s : State) (c x d : Nat) (t : Ctx) :
    ((s.setThr c x t).core d).remotes = (s.core d).remotes := by
  by_cases e : d = c
  · subst e; simp [State.setThr]
  · simp [State.setThr, State.setCore_core_ne _ _ e]

end Sys2Proof.Machine
end

