-- ==== Sys2Proof/Laws/Memory.lean ====
section
/-! SUPPORT. Laws of physical memory: the canonical form is kept by every memory operation, a read after a write gives the
written bytes, and a write leaves every other byte alone. -/
namespace Sys2Proof.Machine

/-! ### Bytes -/

theorem wf_setByte {m : List Host.Cell} (a : Nat) (b : BitVec 8) (h : Memory.wf m = true) :
    Memory.wf (setByte m a b) = true := SMap.wf_set a b h

theorem wf_pokeBytes {m : List Host.Cell} (n a v : Nat) (h : Memory.wf m = true) : Memory.wf (pokeBytes m a n v) = true := by
  induction n generalizing m a v with
  | zero => exact h
  | succ n ih => exact ih _ _ (wf_setByte a _ h)

/-- A write leaves every byte outside its own alone. -/
theorem get_pokeBytes_out (m : List Host.Cell) (n : Nat) {a b : Nat} (v : Nat) (h : b < a ∨ a + n ≤ b) :
    SMap.get emptyByte (pokeBytes m a n v) b = SMap.get emptyByte m b := by
  induction n generalizing m a v with
  | zero => rfl
  | succ n ih =>
    show SMap.get emptyByte (pokeBytes (setByte m a (BitVec.ofNat 8 v)) (a + 1) n (v / 256)) b = _
    rw [ih _ _ (by omega)]
    exact SMap.get_set_ne m _ (by omega)

/-- Byte i of a write of n bytes is byte i of the value, little-endian (R15). -/
theorem get_pokeBytes_in (m : List Host.Cell) {n i : Nat} (a v : Nat) (h : i < n) :
    SMap.get emptyByte (pokeBytes m a n v) (a + i) = BitVec.ofNat 8 (v / 256 ^ i) := by
  induction n generalizing m a v i with
  | zero => omega
  | succ n ih =>
    show SMap.get emptyByte (pokeBytes (setByte m a (BitVec.ofNat 8 v)) (a + 1) n (v / 256)) (a + i) = _
    cases i with
    | zero =>
      rw [get_pokeBytes_out _ _ _ (by omega)]
      simp [setByte]
    | succ i =>
      have := ih (setByte m a (BitVec.ofNat 8 v)) (a + 1) (v / 256) (i := i) (by omega)
      rw [show a + (i + 1) = a + 1 + i by omega, this, Nat.div_div_eq_div_mul, Nat.pow_succ, Nat.mul_comm]

/-- What the n bytes at an address read as depends on those bytes only. -/
theorem State.peek_congr {s t : State} (n a : Nat) (h : ∀ b, a ≤ b → b < a + n → s.byte b = t.byte b) :
    s.peek a n = t.peek a n := by
  induction n generalizing a with
  | zero => rfl
  | succ n ih => simp [State.peek, h a (by omega) (by omega), ih (a + 1) (fun b h1 h2 => h b (by omega) (by omega))]

/-- A read after a write to the same place gives the value written. -/
theorem State.peek_pokeBytes (s : State) (n a v : Nat) : ({ s with mem := pokeBytes s.mem a n v } : State).peek a n = v % 256 ^ n := by
  suffices H : ∀ (t : State) (n a v : Nat), (∀ i, i < n → t.byte (a + i) = BitVec.ofNat 8 (v / 256 ^ i)) →
      t.peek a n = v % 256 ^ n from
    H _ n a v (fun i hi => get_pokeBytes_in s.mem a v hi)
  intro t n
  induction n with
  | zero => intro a v _; simp [State.peek, Nat.mod_one]
  | succ n ih =>
    intro a v h
    have h0 := h 0 (by omega)
    simp only [Nat.add_zero, Nat.pow_zero, Nat.div_one] at h0
    have h1 := ih (a + 1) (v / 256) (fun i hi => by
      rw [show a + 1 + i = a + (i + 1) by omega, h (i + 1) (by omega), Nat.div_div_eq_div_mul, Nat.pow_succ, Nat.mul_comm])
    rw [State.peek, h0, h1, Nat.pow_succ, Nat.mul_comm (256 ^ n), Nat.mod_mul]
    simp

/-! ### What else a write does -/

@[simp] theorem State.retirePage_mem (s : State) (p : Nat) : (s.retirePage p).mem = s.mem := by
  unfold State.retirePage; split <;> rfl
@[simp] theorem State.retirePage_cores (s : State) (p : Nat) : (s.retirePage p).cores = s.cores := by
  unfold State.retirePage; split <;> rfl
@[simp] theorem State.retirePage_cur (s : State) (p : Nat) : (s.retirePage p).cur = s.cur := by
  unfold State.retirePage; split <;> rfl
@[simp] theorem State.retirePage_bad (s : State) (p : Nat) : (s.retirePage p).bad = s.bad := by
  unfold State.retirePage; split <;> rfl
@[simp] theorem State.retirePage_past (s : State) (p : Nat) : (s.retirePage p).past = s.past := by
  unfold State.retirePage; split <;> rfl
@[simp] theorem State.retirePage_copies (s : State) (p : Nat) : (s.retirePage p).copies = s.copies := by
  unfold State.retirePage; split <;> rfl

/-- What a test of a wait word can do: disarm it, post to the host, and queue a page. -/
theorem testWait_cases (s : State) (k : Nat) (w : WaitWord) :
    testWait s k w = s ∨ (∃ p, testWait s k w = s.retirePage p) ∨ ∃ h, testWait s k w = { s with host := h } := by
  simp only [testWait]
  split
  · exact .inr (.inl ⟨_, rfl⟩)
  · split
    · split <;> exact .inr (.inr ⟨_, rfl⟩)
    · exact .inl rfl

/-- What queueing a page and posting to the host keep, testing wait words keeps. -/
theorem testWaits_keeps {α : Type} (f : State → α) (hp : ∀ s p, f (State.retirePage s p) = f s)
    (hh : ∀ (s : State) h, f { s with host := h } = f s) (s : State) (a n : Nat) : f (testWaits s a n) = f s := by
  have hf : ∀ t k w, f (testWait t k w) = f t := fun t k w => by
    obtain h | ⟨p, h⟩ | ⟨q, h⟩ := testWait_cases t k w <;> simp [h, hp, hh]
  unfold testWaits
  generalize s.host.waits = l
  induction l generalizing s with
  | nil => rfl
  | cons e l ih =>
    rw [List.foldl_cons, ih]
    split
    · exact hf _ _ _
    · rfl

@[simp] theorem testWaits_mem (s : State) (a n : Nat) : (testWaits s a n).mem = s.mem :=
  testWaits_keeps State.mem (by simp) (fun _ _ => rfl) s a n
@[simp] theorem testWaits_cores (s : State) (a n : Nat) : (testWaits s a n).cores = s.cores :=
  testWaits_keeps State.cores (by simp) (fun _ _ => rfl) s a n
@[simp] theorem testWaits_cur (s : State) (a n : Nat) : (testWaits s a n).cur = s.cur :=
  testWaits_keeps State.cur (by simp) (fun _ _ => rfl) s a n
@[simp] theorem testWaits_bad (s : State) (a n : Nat) : (testWaits s a n).bad = s.bad :=
  testWaits_keeps State.bad (by simp) (fun _ _ => rfl) s a n
@[simp] theorem testWaits_past (s : State) (a n : Nat) : (testWaits s a n).past = s.past :=
  testWaits_keeps State.past (by simp) (fun _ _ => rfl) s a n
@[simp] theorem testWaits_copies (s : State) (a n : Nat) : (testWaits s a n).copies = s.copies :=
  testWaits_keeps State.copies (by simp) (fun _ _ => rfl) s a n

/-- What testing wait words keeps, a write-back keeps. -/
theorem writeBack_keeps {α : Type} (f : State → α) (hf : ∀ s a n, f (testWaits s a n) = f s) (s : State) (l : List Nat) :
    f (writeBack s l) = f s := by
  unfold writeBack
  induction l generalizing s with
  | nil => rfl
  | cons k l ih => rw [List.foldl_cons, ih, hf]

@[simp] theorem writeBack_mem (s : State) (l : List Nat) : (writeBack s l).mem = s.mem := writeBack_keeps _ testWaits_mem s l
@[simp] theorem writeBack_cores (s : State) (l : List Nat) : (writeBack s l).cores = s.cores := writeBack_keeps _ testWaits_cores s l
@[simp] theorem writeBack_cur (s : State) (l : List Nat) : (writeBack s l).cur = s.cur := writeBack_keeps _ testWaits_cur s l
@[simp] theorem writeBack_bad (s : State) (l : List Nat) : (writeBack s l).bad = s.bad := writeBack_keeps _ testWaits_bad s l
@[simp] theorem writeBack_past (s : State) (l : List Nat) : (writeBack s l).past = s.past := writeBack_keeps _ testWaits_past s l
@[simp] theorem writeBack_copies (s : State) (l : List Nat) : (writeBack s l).copies = s.copies :=
  writeBack_keeps _ testWaits_copies s l

@[simp] theorem killReservations_mem (s : State) (w : Option (Nat × Nat)) (a n : Nat) : (killReservations s w a n).mem = s.mem := rfl
@[simp] theorem killReservations_host (s : State) (w : Option (Nat × Nat)) (a n : Nat) : (killReservations s w a n).host = s.host := rfl
@[simp] theorem killReservations_bad (s : State) (w : Option (Nat × Nat)) (a n : Nat) : (killReservations s w a n).bad = s.bad := rfl
@[simp] theorem killReservations_past (s : State) (w : Option (Nat × Nat)) (a n : Nat) : (killReservations s w a n).past = s.past := rfl
@[simp] theorem killReservations_copies (s : State) (w : Option (Nat × Nat)) (a n : Nat) :
    (killReservations s w a n).copies = s.copies := rfl
@[simp] theorem killReservations_cur (s : State) (w : Option (Nat × Nat)) (a n : Nat) : (killReservations s w a n).cur = s.cur := rfl

@[simp] theorem recallWrite_mem (s : State) (v : Option Nat) (a n : Nat) : (recallWrite s v a n).mem = s.mem := writeBack_mem s _
@[simp] theorem recallWrite_bad (s : State) (v : Option Nat) (a n : Nat) : (recallWrite s v a n).bad = s.bad := writeBack_bad s _
@[simp] theorem recallWrite_cur (s : State) (v : Option Nat) (a n : Nat) : (recallWrite s v a n).cur = s.cur := writeBack_cur s _
@[simp] theorem recallWrite_past (s : State) (v : Option Nat) (a n : Nat) : (recallWrite s v a n).past = s.past := writeBack_past s _
@[simp] theorem recallWrite_copies (s : State) (v : Option Nat) (a n : Nat) : (recallWrite s v a n).copies = s.copies :=
  writeBack_copies s _
@[simp] theorem recallRead_mem (s : State) (v : Option Nat) (a n : Nat) : (recallRead s v a n).mem = s.mem := writeBack_mem s _
@[simp] theorem recallRead_cur (s : State) (v : Option Nat) (a n : Nat) : (recallRead s v a n).cur = s.cur := writeBack_cur s _
@[simp] theorem recallRead_bad (s : State) (v : Option Nat) (a n : Nat) : (recallRead s v a n).bad = s.bad := writeBack_bad s _
@[simp] theorem recallRead_past (s : State) (v : Option Nat) (a n : Nat) : (recallRead s v a n).past = s.past := writeBack_past s _
@[simp] theorem recallRead_copies (s : State) (v : Option Nat) (a n : Nat) : (recallRead s v a n).copies = s.copies :=
  writeBack_copies s _

/-! ### The store -/

/-- A write changes its own bytes and no other. -/
@[simp] theorem State.storePhys_mem (s : State) (w : Option (Nat × Nat)) (via : Option Nat) (a n v : Nat) (act : Bool)
    (eng : Option (Nat × Nat)) : (s.storePhys w via a n v act eng).mem = pokeBytes s.mem a n v := by
  cases via <;> simp [State.storePhys]

@[simp] theorem State.storePhys_cur (s : State) (w : Option (Nat × Nat)) (via : Option Nat) (a n v : Nat) (act : Bool)
    (eng : Option (Nat × Nat)) : (s.storePhys w via a n v act eng).cur = s.cur := by
  cases via <;> simp [State.storePhys]

theorem State.storePhys_byte_out (s : State) (w : Option (Nat × Nat)) (via : Option Nat) {a n b : Nat} (v : Nat) (act : Bool)
    (eng : Option (Nat × Nat)) (h : b < a ∨ a + n ≤ b) : (s.storePhys w via a n v act eng).byte b = s.byte b := by
  simp only [State.byte, State.storePhys_mem]
  exact get_pokeBytes_out _ _ _ h

theorem State.storePhys_byte_in (s : State) (w : Option (Nat × Nat)) (via : Option Nat) {n i : Nat} (a v : Nat) (act : Bool)
    (eng : Option (Nat × Nat)) (h : i < n) : (s.storePhys w via a n v act eng).byte (a + i) = BitVec.ofNat 8 (v / 256 ^ i) := by
  simp only [State.byte, State.storePhys_mem]
  exact get_pokeBytes_in _ _ _ h

theorem State.peek_mem {s t : State} (h : s.mem = t.mem) (a n : Nat) : s.peek a n = t.peek a n :=
  State.peek_congr n a (fun b _ _ => by simp [State.byte, h])

/-- A read of the written bytes gives the value written. -/
theorem State.storePhys_peek (s : State) (w : Option (Nat × Nat)) (via : Option Nat) (a n v : Nat) (act : Bool)
    (eng : Option (Nat × Nat)) : (s.storePhys w via a n v act eng).peek a n = v % 256 ^ n := by
  rw [State.peek_mem (t := { s with mem := pokeBytes s.mem a n v }) (by simp), State.peek_pokeBytes]

theorem State.storePhys_wf (s : State) (w : Option (Nat × Nat)) (via : Option Nat) (a n v : Nat) (act : Bool)
    (eng : Option (Nat × Nat)) (h : Memory.wf s.mem = true) : Memory.wf (s.storePhys w via a n v act eng).mem = true := by
  rw [State.storePhys_mem]; exact wf_pokeBytes n a v h

/-- Memory after reset is in canonical form. -/
theorem reset_wf : Memory.wf State.reset.mem = true := rfl

end Sys2Proof.Machine
end

