-- ==== Sys2Proof/Laws/Vector.lean ====
section
/-! SUPPORT. Laws of the v registers: what a read of a register or a group gives after a write of one, alone or in a gang, and
what the shared wrapper of vector instructions comes to when the instruction is ready. -/
namespace Sys2Proof.Machine

/-! ### Bits -/

theorem lowBits_lt (v n : Nat) : lowBits v n < 2 ^ n := by
  simp only [lowBits, Nat.one_shiftLeft]; exact Nat.mod_lt _ (Nat.two_pow_pos n)

theorem lowBits_of_lt {v n : Nat} (h : v < 2 ^ n) : lowBits v n = v := by
  simp only [lowBits, Nat.one_shiftLeft]; exact Nat.mod_eq_of_lt h

@[simp] theorem lowBits_zero_width (v : Nat) : lowBits v 0 = 0 := by simp [lowBits, Nat.mod_one]

theorem testBit_lowBits (v n i : Nat) : (lowBits v n).testBit i = (decide (i < n) && v.testBit i) := by
  simp only [lowBits, Nat.one_shiftLeft, Nat.testBit_mod_two_pow]

/-- Two fields laid side by side. -/
theorem lowBits_add_shift (a b n m : Nat) (ha : a < 2 ^ n) : lowBits (a + b <<< n) (n + m) = a + lowBits b m <<< n := by
  apply Nat.eq_of_testBit_eq
  intro i
  have h1 : ∀ x : Nat, a + x <<< n = 2 ^ n * x + a := fun x => by rw [Nat.shiftLeft_eq]; ac_rfl
  rw [testBit_lowBits, h1, h1, Nat.testBit_two_pow_mul_add _ ha, Nat.testBit_two_pow_mul_add _ ha]
  by_cases h : i < n
  · simp [h, Nat.lt_add_right m h]
  · simp only [h, if_false, testBit_lowBits]
    congr 1
    simp; omega

theorem lowBits_split (v n m : Nat) : lowBits v (n + m) = lowBits v n + lowBits (v >>> n) m <<< n := by
  have h : v = lowBits v n + (v >>> n) <<< n := by
    simp only [lowBits, Nat.one_shiftLeft, Nat.shiftRight_eq_div_pow]
    rw [Nat.shiftLeft_eq, Nat.mul_comm]; exact (Nat.mod_add_div _ _).symm
  conv => lhs; rw [h]
  exact lowBits_add_shift _ _ _ _ (lowBits_lt v n)

theorem add_shift_shiftRight (a b n : Nat) (ha : a < 2 ^ n) : (a + b <<< n) >>> n = b := by
  rw [Nat.shiftRight_eq_div_pow, Nat.shiftLeft_eq, Nat.mul_comm, Nat.add_mul_div_left _ _ (Nat.two_pow_pos n),
    Nat.div_eq_of_lt ha, Nat.zero_add]

theorem lowBits_lowBits (v : Nat) {n m : Nat} (h : m ≤ n) : lowBits (lowBits v n) m = lowBits v m := by
  apply Nat.eq_of_testBit_eq; intro i
  simp only [testBit_lowBits]
  by_cases hi : i < m
  · simp [hi, Nat.lt_of_lt_of_le hi h]
  · simp [hi]

theorem lowBits_shiftRight (v n k m : Nat) (h : k + m ≤ n) : lowBits (lowBits v n >>> k) m = lowBits (v >>> k) m := by
  apply Nat.eq_of_testBit_eq; intro i
  simp only [testBit_lowBits, Nat.testBit_shiftRight]
  by_cases hi : i < m
  · simp [hi, show k + i < n by omega]
  · simp [hi]

/-- The low bits of a value whose bits from vl on are kept. -/
theorem lowBits_keep_high (old w vl : Nat) : lowBits (old / (1 <<< vl) * (1 <<< vl) + lowBits w vl) vl = lowBits w vl := by
  have hl := lowBits_lt w vl
  rw [Nat.one_shiftLeft]
  show lowBits _ vl = _
  rw [lowBits, Nat.one_shiftLeft, Nat.add_comm, Nat.mul_comm, Nat.add_mul_mod_self_left, Nat.mod_eq_of_lt hl]

/-! ### One register over its slices (R26) -/

theorem Ctx.ownV_setOwnV (t : Ctx) (r : Nat) (w : BitVec 2048) : (t.setOwnV r w).ownV r = w := by
  simp [Ctx.ownV, Ctx.setOwnV]

theorem Ctx.ownV_setOwnV_ne (t : Ctx) {r q : Nat} (w : BitVec 2048) (h : q % 32 ≠ r % 32) :
    (t.setOwnV r w).ownV q = t.ownV q := by
  have h' : ((vIx r : Fin 32) : Nat) ≠ (vIx q : Fin 32) := fun e => h e.symm
  simp [Ctx.ownV, Ctx.setOwnV, h']

/-- A write of a slice: its low bits replaced. -/
def Ctx.putSlice (t : Ctx) (r bits w : Nat) : Ctx :=
  t.setOwnV r (BitVec.ofNat 2048 ((t.ownV r).toNat / (1 <<< bits) * (1 <<< bits) + lowBits w bits))

/-- A number below 2^(k+n) with its low n bits replaced stays below. -/
theorem keepHigh_lt {a b k n : Nat} (h1 : a < 2 ^ (k + n)) (h2 : b < 2 ^ n) : a / 2 ^ n * 2 ^ n + b < 2 ^ (k + n) := by
  rw [Nat.pow_add] at *
  have : a / 2 ^ n < 2 ^ k := (Nat.div_lt_iff_lt_mul (Nat.two_pow_pos _)).2 h1
  calc a / 2 ^ n * 2 ^ n + b < a / 2 ^ n * 2 ^ n + 2 ^ n := by omega
    _ = (a / 2 ^ n + 1) * 2 ^ n := by rw [Nat.add_mul, Nat.one_mul]
    _ ≤ 2 ^ k * 2 ^ n := Nat.mul_le_mul_right _ this

theorem Ctx.putSlice_toNat (t : Ctx) {r bits w : Nat} (hb : bits ≤ 2048) :
    ((t.putSlice r bits w).ownV r).toNat = (t.ownV r).toNat / (1 <<< bits) * (1 <<< bits) + lowBits w bits := by
  rw [Ctx.putSlice, Ctx.ownV_setOwnV, BitVec.toNat_ofNat, Nat.one_shiftLeft]
  apply Nat.mod_eq_of_lt
  have h1 := (t.ownV r).isLt
  have h2 := lowBits_lt w bits
  have hk : 2048 = (2048 - bits) + bits := (Nat.sub_add_cancel hb).symm
  generalize 2048 - bits = k at hk
  generalize (t.ownV r).toNat = a at *
  rw [hk] at h1 ⊢
  exact keepHigh_lt h1 h2

theorem scatterV_cons (s : State) (x r bits w m : Nat) (ms : List Nat) :
    scatterV s x r bits w (m :: ms) = scatterV (s.modThr m x (fun t => t.putSlice r bits w)) x r bits (w >>> bits) ms := rfl

/-- A scatter leaves every context alone that holds none of its slices. -/
theorem scatterV_thr_ne (s : State) {x r bits w : Nat} {ms : List Nat} {c y : Nat} (h : c ∉ ms ∨ y % 8 ≠ x % 8) :
    (scatterV s x r bits w ms).thr c y = s.thr c y := by
  induction ms generalizing s w with
  | nil => rfl
  | cons m ms ih =>
    rw [scatterV_cons, ih _ (by rcases h with h | h; exact .inl (fun e => h (.tail _ e)); exact .inr h)]
    apply State.modThr_thr_ne
    rcases h with h | h
    · exact .inl (fun e => h (e ▸ .head _))
    · exact .inr h

/-- A scatter changes v registers only. -/
theorem scatterV_thr_v (s : State) (x r bits w : Nat) (ms : List Nat) (c y : Nat) :
    (scatterV s x r bits w ms).thr c y = { s.thr c y with v := ((scatterV s x r bits w ms).thr c y).v } := by
  induction ms generalizing s w with
  | nil => rfl
  | cons m ms ih =>
    rw [scatterV_cons, ih]
    by_cases e : c = m ∧ y % 8 = x % 8
    · have : (s.modThr m x (fun t => t.putSlice r bits w)).thr c y = (s.thr c y).putSlice r bits w := by
        have hx : ctxIx y = ctxIx x := Fin.ext e.2
        obtain ⟨rfl, -⟩ := e
        have h1 : ∀ u : State, u.thr c y = u.thr c x := fun u => by simp [State.thr, Core.ctx, hx]
        rw [h1, State.modThr_thr, h1]
      rw [this]; rfl
    · rw [State.modThr_thr_ne]
      exact Decidable.not_and_iff_not_or_not.1 e

theorem scatterV_ownV_ne (s : State) {x r q bits w : Nat} (ms : List Nat) (c y : Nat) (h : q % 32 ≠ r % 32) :
    ((scatterV s x r bits w ms).thr c y).ownV q = (s.thr c y).ownV q := by
  induction ms generalizing s w with
  | nil => rfl
  | cons m ms ih =>
    rw [scatterV_cons, ih]
    by_cases e : c = m ∧ y % 8 = x % 8
    · have hx : ctxIx y = ctxIx x := Fin.ext e.2
      obtain ⟨rfl, -⟩ := e
      have h1 : ∀ u : State, u.thr c y = u.thr c x := fun u => by simp [State.thr, Core.ctx, hx]
      rw [h1, State.modThr_thr, h1]
      exact Ctx.ownV_setOwnV_ne _ _ h
    · rw [State.modThr_thr_ne]
      exact Decidable.not_and_iff_not_or_not.1 e

/-- Everything but contexts, and in a core everything but its contexts, stays. -/
theorem scatterV_rest (s : State) (x r bits w : Nat) (ms : List Nat) :
    scatterV s x r bits w ms = { s with cores := (scatterV s x r bits w ms).cores } := by
  induction ms generalizing s w with
  | nil => rfl
  | cons m ms ih => rw [scatterV_cons, ih]; rfl

theorem scatterV_core (s : State) (x r bits w : Nat) (ms : List Nat) (c : Nat) :
    (scatterV s x r bits w ms).core c = { s.core c with ctxs := ((scatterV s x r bits w ms).core c).ctxs } := by
  induction ms generalizing s w with
  | nil => rfl
  | cons m ms ih =>
    rw [scatterV_cons, ih]
    by_cases e : c = m
    · subst e; simp [State.modThr, State.setThr, Core.setCtx]
    · have : (s.modThr m x (fun t => t.putSlice r bits w)).core c = s.core c := by
        simp [State.modThr, State.setThr, State.setCore_core_ne _ _ e]
      rw [this]

theorem gatherV_congr {s t : State} {x r bits : Nat} {ms : List Nat} (h : ∀ m ∈ ms, (t.thr m x).ownV r = (s.thr m x).ownV r) :
    gatherV t x r bits ms = gatherV s x r bits ms := by
  induction ms with
  | nil => rfl
  | cons m ms ih =>
    simp only [gatherV, h m (.head _), ih (fun q hq => h q (.tail _ hq))]

theorem gatherV_lt (s : State) (x r bits : Nat) (ms : List Nat) : gatherV s x r bits ms < 2 ^ (bits * ms.length) := by
  induction ms with
  | nil => simp [gatherV]
  | cons m ms ih =>
    simp only [gatherV, List.length_cons, Nat.shiftLeft_eq, Nat.mul_succ, Nat.pow_add]
    have h := lowBits_lt ((s.thr m x).ownV r).toNat bits
    have : gatherV s x r bits ms + 1 ≤ 2 ^ (bits * ms.length) := ih
    calc _ < 2 ^ bits + gatherV s x r bits ms * 2 ^ bits := by omega
      _ = (gatherV s x r bits ms + 1) * 2 ^ bits := by rw [Nat.add_mul, Nat.one_mul, Nat.add_comm]
      _ ≤ _ := Nat.mul_le_mul_right _ this

/-- What a scatter wrote reads back. -/
theorem gatherV_scatterV (s : State) {x r bits : Nat} (w : Nat) {ms : List Nat} (hn : ms.Nodup) (hb : bits ≤ 2048) :
    gatherV (scatterV s x r bits w ms) x r bits ms = lowBits w (bits * ms.length) := by
  induction ms generalizing s w with
  | nil => simp [gatherV]
  | cons m ms ih =>
    obtain ⟨hm, hn⟩ := List.nodup_cons.1 hn
    rw [scatterV_cons]
    simp only [gatherV, List.length_cons]
    rw [ih _ _ hn, scatterV_thr_ne _ (.inl hm), State.modThr_thr, Ctx.putSlice_toNat _ hb, lowBits_keep_high,
      Nat.mul_succ, Nat.add_comm (bits * _), lowBits_split]

/-! ### The running hart's registers -/

theorem State.hart_scatterV (s : State) (x r bits w : Nat) (ms : List Nat) :
    (scatterV s x r bits w ms).hart = { s.hart with v := (scatterV s x r bits w ms).hart.v } := by
  have h := scatterV_rest s x r bits w ms
  have hc : (scatterV s x r bits w ms).cur = s.cur := by rw [h]
  simp only [State.hart, hc]
  exact scatterV_thr_v ..

theorem State.setV_eq (s : State) (r w : Nat) : ∃ v, s.setV r w = scatterV s s.cur.2 r s.hart.ownBits v (s.slicesOf s.cur.1 s.cur.2) ∧
    v = s.rawV s.cur.1 s.cur.2 r / (1 <<< s.hart.vlen) * (1 <<< s.hart.vlen) + lowBits w s.hart.vlen := ⟨_, rfl, rfl⟩

theorem State.setV_cur (s : State) (r w : Nat) : (s.setV r w).cur = s.cur := by
  rw [State.setV, scatterV_rest]

/-- A write of a register changes no field of the running hart's context but its v registers. -/
theorem State.setV_hart (s : State) (r w : Nat) : (s.setV r w).hart = { s.hart with v := (s.setV r w).hart.v } :=
  s.hart_scatterV ..

theorem State.setV_slicesOf (s : State) (r w c x : Nat) : (s.setV r w).slicesOf c x = s.slicesOf c x := by
  unfold State.slicesOf
  rw [show ((s.setV r w).thr c x).gang = (s.thr c x).gang by rw [State.setV, scatterV_thr_v]]

theorem State.setV_vlen (s : State) (r w : Nat) : (s.setV r w).hart.vlen = s.hart.vlen := by rw [s.setV_hart]
theorem State.setV_ownBits (s : State) (r w : Nat) : (s.setV r w).hart.ownBits = s.hart.ownBits := by
  simp only [Ctx.ownBits]; rw [s.setV_hart]

theorem State.hart_def (s : State) : s.thr s.cur.1 s.cur.2 = s.hart := rfl

theorem State.sliced.bits {s : State} (h : s.sliced) : s.hart.ownBits ≤ 2048 := by
  have := h.2.1
  simp only [Ctx.ownBits]; omega

/-- A register reads what was written to it, over its visible length. -/
theorem State.getV_setV (s : State) (h : s.sliced) (r w : Nat) : (s.setV r w).getV r = lowBits w s.hart.vlen := by
  have hb := h.bits
  obtain ⟨hn, -, -, -, hl⟩ := h
  simp only [State.getV, State.rawV, State.setV_cur, State.setV_slicesOf, State.setV_vlen]
  rw [show ((s.setV r w).thr s.cur.1 s.cur.2).ownBits = s.hart.ownBits by
    have := s.setV_ownBits r w; rw [State.hart, State.setV_cur] at this; exact this]
  rw [State.setV, gatherV_scatterV _ _ hn hb]
  have hl' : s.hart.vlen ≤ s.hart.ownBits * (s.slicesOf s.cur.1 s.cur.2).length := hl
  rw [lowBits_lowBits _ hl', lowBits_keep_high]

theorem State.getV_setV_ne (s : State) {r q : Nat} (w : Nat) (h : q % 32 ≠ r % 32) : (s.setV r w).getV q = s.getV q := by
  simp only [State.getV, State.rawV, State.setV_cur, State.setV_slicesOf, State.setV_vlen]
  rw [show ((s.setV r w).thr s.cur.1 s.cur.2).ownBits = s.hart.ownBits by
    have := s.setV_ownBits r w; rw [State.hart, State.setV_cur] at this; exact this]
  congr 1
  exact gatherV_congr (fun m _ => scatterV_ownV_ne s _ _ _ h)

theorem State.setV_sliced (s : State) (h : s.sliced) (r w : Nat) : (s.setV r w).sliced := by
  obtain ⟨h1, h2, h3, h4, h5⟩ := h
  refine ⟨?_, ?_, ?_, ?_, ?_⟩
  · rw [State.setV_cur, State.setV_slicesOf]; exact h1
  · rw [State.setV_hart]; exact h2
  · rw [State.setV_vlen]; exact h3
  · rw [State.setV_vlen]; exact h4
  · simp only [State.hwLen, State.setV_vlen, State.setV_cur, State.setV_slicesOf]
    rw [show ((s.setV r w).thr s.cur.1 s.cur.2).ownBits = s.hart.ownBits by
      have := s.setV_ownBits r w; rw [State.hart, State.setV_cur] at this; exact this]
    exact h5

/-! ### Groups (R28) -/

theorem State.setGroup_hart (s : State) (r n w : Nat) : (s.setGroup r n w).hart = { s.hart with v := (s.setGroup r n w).hart.v } := by
  induction n generalizing s r w with
  | zero => rfl
  | succ n ih => rw [State.setGroup, ih, State.setV_hart]

theorem State.setGroup_cur (s : State) (r n w : Nat) : (s.setGroup r n w).cur = s.cur := by
  induction n generalizing s r w with
  | zero => rfl
  | succ n ih => rw [State.setGroup, ih, State.setV_cur]

theorem State.setGroup_vlen (s : State) (r n w : Nat) : (s.setGroup r n w).hart.vlen = s.hart.vlen := by rw [s.setGroup_hart]
theorem State.setGroup_dev (s : State) (r n w : Nat) : (s.setGroup r n w).hart.dev = s.hart.dev := by rw [s.setGroup_hart]

theorem State.setGroup_rest (s : State) (r n w : Nat) : s.setGroup r n w = { s with cores := (s.setGroup r n w).cores } := by
  induction n generalizing s r w with
  | zero => rfl
  | succ n ih => rw [State.setGroup, ih, State.setV, scatterV_rest]

theorem State.setGroup_core (s : State) (r n w c : Nat) :
    (s.setGroup r n w).core c = { s.core c with ctxs := ((s.setGroup r n w).core c).ctxs } := by
  induction n generalizing s r w with
  | zero => rfl
  | succ n ih => rw [State.setGroup, ih, State.setV, scatterV_core]

theorem State.setGroup_thr_v (s : State) (r n w c x : Nat) :
    (s.setGroup r n w).thr c x = { s.thr c x with v := ((s.setGroup r n w).thr c x).v } := by
  induction n generalizing s r w with
  | zero => rfl
  | succ n ih => rw [State.setGroup, ih, State.setV, scatterV_thr_v]

theorem State.setGroup_slicesOf (s : State) (r n w c x : Nat) : (s.setGroup r n w).slicesOf c x = s.slicesOf c x := by
  unfold State.slicesOf
  rw [show ((s.setGroup r n w).thr c x).gang = (s.thr c x).gang by rw [State.setGroup_thr_v]]

theorem State.setGroup_thr_ne (s : State) (r n w : Nat) {c x : Nat}
    (h : c ∉ s.slicesOf s.cur.1 s.cur.2 ∨ x % 8 ≠ s.cur.2 % 8) : (s.setGroup r n w).thr c x = s.thr c x := by
  induction n generalizing s r w with
  | zero => rfl
  | succ n ih =>
    rw [State.setGroup, ih _ _ _ (by rw [State.setV_cur, State.setV_slicesOf]; exact h), State.setV, scatterV_thr_ne _ h]

theorem State.setGroup_sliced (s : State) (h : s.sliced) (r n w : Nat) : (s.setGroup r n w).sliced := by
  induction n generalizing s r w with
  | zero => exact h
  | succ n ih => exact ih _ (s.setV_sliced h r w) _ _

/-- A register outside a group keeps its value in every slice. -/
theorem State.setGroup_ownV (s : State) {r n w q : Nat} (h : q % 32 ∉ groupRegs r n) (c x : Nat) :
    ((s.setGroup r n w).thr c x).ownV q = (s.thr c x).ownV q := by
  induction n generalizing s r w with
  | zero => rfl
  | succ n ih =>
    have hr : q % 32 ≠ r % 32 := fun e => h (by simp only [groupRegs, List.mem_map, List.mem_range]; exact ⟨0, by omega, by simpa using e.symm⟩)
    have ht : q % 32 ∉ groupRegs (r + 1) n := fun e => h (by
      simp only [groupRegs, List.mem_map, List.mem_range] at e ⊢
      obtain ⟨j, hj, e⟩ := e
      exact ⟨j + 1, by omega, by rw [← e]; congr 1; omega⟩)
    rw [State.setGroup, ih _ ht, State.setV, scatterV_ownV_ne _ _ _ _ hr]

theorem State.getV_setGroup (s : State) {r n w q : Nat} (h : q % 32 ∉ groupRegs r n) : (s.setGroup r n w).getV q = s.getV q := by
  induction n generalizing s r w with
  | zero => rfl
  | succ n ih =>
    have hr : q % 32 ≠ r % 32 := fun e => h (by simp only [groupRegs, List.mem_map, List.mem_range]; exact ⟨0, by omega, by simpa using e.symm⟩)
    have ht : q % 32 ∉ groupRegs (r + 1) n := fun e => h (by
      simp only [groupRegs, List.mem_map, List.mem_range] at e ⊢
      obtain ⟨j, hj, e⟩ := e
      exact ⟨j + 1, by omega, by rw [← e]; congr 1; omega⟩)
    rw [State.setGroup, ih _ ht, State.getV_setV_ne _ _ hr]

/-- A group of at most 32 registers reads what was written to it. -/
theorem State.getGroup_setGroup (s : State) (h : s.sliced) {n : Nat} (hn : n ≤ 32) (r w : Nat) :
    (s.setGroup r n w).getGroup r n = lowBits w (s.hart.vlen * n) := by
  induction n generalizing s r w with
  | zero => simp [State.getGroup]
  | succ n ih =>
    have hnot : r % 32 ∉ groupRegs (r + 1) n := by
      simp only [groupRegs, List.mem_map, List.mem_range]
      rintro ⟨j, hj, e⟩; omega
    rw [State.setGroup, State.getGroup, State.getV_setGroup _ hnot, State.getV_setV s h, State.setGroup_vlen, State.setV_vlen,
      ih _ (s.setV_sliced h r w) (by omega), State.setV_vlen, Nat.mul_succ, Nat.add_comm (_ * n), lowBits_split]

theorem State.getGroup_congr {s t : State} (hv : t.hart.vlen = s.hart.vlen) {r n : Nat}
    (h : ∀ j, j < n → t.getV (r + j) = s.getV (r + j)) : t.getGroup r n = s.getGroup r n := by
  induction n generalizing r with
  | zero => rfl
  | succ n ih =>
    rw [State.getGroup, State.getGroup, hv, show t.getV r = s.getV r from h 0 (by omega),
      ih (fun j hj => by rw [show r + 1 + j = r + (j + 1) by omega]; exact h _ (by omega))]

/-- A group that meets no register of another keeps its value. -/
theorem State.getGroup_setGroup_ne (s : State) {r n w q m : Nat} (h : ∀ j, j < m → (q + j) % 32 ∉ groupRegs r n) :
    (s.setGroup r n w).getGroup q m = s.getGroup q m :=
  State.getGroup_congr (s.setGroup_vlen r n w) (fun j hj => s.getV_setGroup (h j hj))

theorem State.getV_lt (s : State) (r : Nat) : s.getV r < 2 ^ s.hart.vlen := lowBits_lt ..

theorem State.getGroup_lt (s : State) (r n : Nat) : s.getGroup r n < 2 ^ (s.hart.vlen * n) := by
  induction n generalizing r with
  | zero => simp [State.getGroup]
  | succ n ih =>
    have h1 := s.getV_lt r
    have h2 : s.getGroup (r + 1) n + 1 ≤ 2 ^ (s.hart.vlen * n) := ih (r + 1)
    simp only [State.getGroup, Nat.shiftLeft_eq, Nat.mul_succ, Nat.pow_add]
    calc _ < 2 ^ s.hart.vlen + s.getGroup (r + 1) n * 2 ^ s.hart.vlen := by omega
      _ = (s.getGroup (r + 1) n + 1) * 2 ^ s.hart.vlen := by rw [Nat.add_mul, Nat.one_mul, Nat.add_comm]
      _ ≤ _ := Nat.mul_le_mul_right _ h2

/-! ### Elements (R28, R32) -/

theorem assemble_lt (w : Nat) (f : Nat → Nat) (n : Nat) : assemble w f n < 2 ^ (w * n) := by
  induction n with
  | zero => simp [assemble]
  | succ n ih =>
    simp only [assemble, Nat.shiftLeft_eq, Nat.mul_succ, Nat.pow_add]
    have h1 : lowBits (f n) w + 1 ≤ 2 ^ w := lowBits_lt (f n) w
    calc _ < 2 ^ (w * n) + lowBits (f n) w * 2 ^ (w * n) := by omega
      _ = 2 ^ (w * n) * (lowBits (f n) w + 1) := by rw [Nat.mul_add, Nat.mul_one, Nat.mul_comm (lowBits _ _), Nat.add_comm]
      _ ≤ _ := Nat.mul_le_mul_left _ h1

/-- Field i of an assembled number is its value there. -/
theorem assemble_field (w : Nat) (f : Nat → Nat) {n i : Nat} (h : i < n) : lowBits (assemble w f n >>> (i * w)) w = lowBits (f i) w := by
  have hlt := assemble_lt w f
  induction n with
  | zero => omega
  | succ n ih =>
    simp only [assemble]
    by_cases e : i = n
    · subst e
      rw [Nat.mul_comm i, add_shift_shiftRight _ _ _ (hlt _), lowBits_lowBits _ (Nat.le_refl _)]
    · rw [← ih (by omega)]
      apply Nat.eq_of_testBit_eq; intro b
      simp only [testBit_lowBits, Nat.testBit_shiftRight]
      by_cases hb : b < w
      · simp only [hb, decide_true, Bool.true_and]
        rw [Nat.shiftLeft_eq, Nat.mul_comm (lowBits (f n) w), Nat.add_comm, Nat.testBit_two_pow_mul_add _ (hlt n)]
        have : i * w + b < w * n := by
          have : (i + 1) * w ≤ n * w := Nat.mul_le_mul_right _ (by omega)
          rw [Nat.add_mul, Nat.one_mul] at this
          rw [Nat.mul_comm w]; omega
        simp [this]
      · simp [hb]

theorem bitOf_eq_testBit (n i : Nat) : bitOf n i = n.testBit i := by
  simp only [bitOf, Nat.one_shiftLeft, Nat.testBit_eq_decide_div_mod_eq]
  by_cases h : n / 2 ^ i % 2 = 1 <;> simp [h]

/-- A shape of R27: whole slices, and long floats of whole words. -/
def Shape.good (sh : Shape) : Prop := sh.vlen % 512 = 0 ∧ 0 < sh.ew ∧ (sh.lf = true → sh.ew % 64 = 0 ∧ sh.k < 8)

/-- Words at places that hold the words of a value give the value. -/
theorem readAt_words (v e m : Nat) (p : Nat → Nat) (h : ∀ w, w < m → lowBits (v >>> p w) 64 = lowBits (e >>> (64 * w)) 64) :
    readAt v ((List.range m).map (fun w => (p w, 64))) = lowBits e (64 * m) := by
  induction m generalizing e p with
  | zero => simp [readAt]
  | succ m ih =>
    rw [List.range_succ_eq_map]
    simp only [List.map_cons, List.map_map, readAt]
    have h0 := h 0 (by omega)
    rw [Nat.mul_zero, Nat.shiftRight_zero] at h0
    have hs := ih (e >>> 64) (fun w => p (w + 1)) (fun w hw => by
      rw [h (w + 1) (by omega), ← Nat.shiftRight_add]; congr 2; omega)
    rw [h0, show ((fun w => (p w, 64)) ∘ Nat.succ : Nat → Nat × Nat) = (fun w => (p (w + 1), 64)) from rfl, hs,
      show 64 * (m + 1) = 64 + 64 * m by omega, lowBits_split]

theorem Shape.n_mul_ew (sh : Shape) : sh.n * sh.ew ≤ sh.vlen * sh.g := by
  have h1 : sh.g * 512 / sh.ew * sh.ew ≤ sh.g * 512 := Nat.div_mul_le_self _ _
  have h2 : sh.vlen / 512 * 512 ≤ sh.vlen := Nat.div_mul_le_self _ _
  calc sh.n * sh.ew = sh.vlen / 512 * (sh.g * 512 / sh.ew * sh.ew) := by
        simp only [Shape.n, vlmaxAt, perSlice]; rw [Nat.mul_assoc]
    _ ≤ sh.vlen / 512 * (sh.g * 512) := Nat.mul_le_mul_left _ h1
    _ = sh.vlen / 512 * 512 * sh.g := by ac_rfl
    _ ≤ _ := Nat.mul_le_mul_right _ h2

/-- The place of a word of a long-float element (R28): inside the group, at a multiple of 64, in slice i / per. -/
theorem lf_place {vlen g ew i w : Nat} (hv : vlen % 512 = 0) (he : 0 < ew) (h64 : ew % 64 = 0)
    (hi : i < vlen / 512 * (g * 512 / ew)) (hw : w < ew / 64) :
    let per := g * 512 / ew
    let b := i % per * ew + 64 * w
    let p := b / 512 * vlen + 512 * (i / per) + b % 512
    p % 64 = 0 ∧ p + 64 ≤ vlen * g ∧ p / 64 * 64 % vlen / 512 = i / per ∧ p / 64 * 64 / vlen * 512 + p / 64 * 64 % 512 = b ∧
      b / ew = i % per ∧ b % ew = 64 * w ∧ b < per * ew := by
  intro per b p
  have hper : 0 < per := by
    rcases Nat.eq_zero_or_pos per with h | h
    · simp only [per] at h; rw [h, Nat.mul_zero] at hi; omega
    · exact h
  have hj : i / per < vlen / 512 := (Nat.div_lt_iff_lt_mul hper).2 hi
  have hm : i % per < per := Nat.mod_lt _ hper
  have hw' : 64 * w + 64 ≤ ew := by omega
  have hb1 : b < per * ew := by
    have : (i % per + 1) * ew ≤ per * ew := Nat.mul_le_mul_right _ hm
    rw [Nat.add_mul, Nat.one_mul] at this; simp only [b]; omega
  have hpe : per * ew ≤ g * 512 := Nat.div_mul_le_self _ _
  have hb64 : b % 64 = 0 := by
    obtain ⟨q, hq⟩ : ∃ q, ew = 64 * q := ⟨ew / 64, by omega⟩
    simp only [b, hq]
    rw [show i % per * (64 * q) = 64 * (i % per * q) by ac_rfl]; omega
  have hbg : b / 512 < g := (Nat.div_lt_iff_lt_mul (by decide)).2 (by omega)
  obtain ⟨q, hq⟩ : ∃ q, vlen = 512 * q := ⟨vlen / 512, by omega⟩
  have hin : 512 * (i / per) + b % 512 < vlen := by omega
  have hvp : 0 < vlen := by omega
  have hp : p = vlen * (b / 512) + (512 * (i / per) + b % 512) := by simp only [p]; rw [Nat.mul_comm vlen]; omega
  have hp64 : p % 64 = 0 := by
    have : vlen * (b / 512) = 512 * (q * (b / 512)) := by rw [hq]; ac_rfl
    rw [hp, this]; omega
  have hpp : p / 64 * 64 = p := by omega
  refine ⟨hp64, ?_, ?_, ?_, ?_, ?_, hb1⟩
  · have h1 : vlen * (b / 512) + vlen ≤ vlen * g := by
      calc vlen * (b / 512) + vlen = vlen * (b / 512 + 1) := by rw [Nat.mul_add, Nat.mul_one]
        _ ≤ _ := Nat.mul_le_mul_left _ hbg
    omega
  · rw [hpp, hp, Nat.mul_add_mod, Nat.mod_eq_of_lt hin]; omega
  · have h5 : p % 512 = b % 512 := by
      have : vlen * (b / 512) = 512 * (q * (b / 512)) := by rw [hq]; ac_rfl
      rw [hp, this]; omega
    rw [hpp, h5, hp, Nat.mul_add_div hvp, Nat.div_eq_of_lt hin]; omega
  · simp only [b]; rw [Nat.mul_comm, Nat.mul_add_div he, Nat.div_eq_of_lt (by omega)]; omega
  · simp only [b]; rw [Nat.mul_comm, Nat.mul_add_mod, Nat.mod_eq_of_lt (by omega)]

theorem readAt_congr {u v : Nat} {l : List (Nat × Nat)} (h : ∀ q ∈ l, lowBits (v >>> q.1) q.2 = lowBits (u >>> q.1) q.2) :
    readAt v l = readAt u l := by
  induction l with
  | nil => rfl
  | cons q l ih => simp only [readAt, h q (.head _), ih (fun r hr => h r (.tail _ hr))]

/-- The places of an element below VLMAX lie in its group. -/
theorem Shape.places_in (sh : Shape) (h : sh.good) {i : Nat} (hi : i < sh.n) :
    ∀ q ∈ elemPos sh.vlen sh.g sh.ew sh.lf i, q.1 + q.2 ≤ sh.vlen * sh.g := by
  obtain ⟨hv, he, hl⟩ := h
  intro q hq
  unfold elemPos at hq
  cases hlf : sh.lf
  · rw [hlf] at hq
    simp only [Bool.false_eq_true, if_false, List.mem_singleton] at hq
    subst hq
    have h1 := sh.n_mul_ew
    have : (i + 1) * sh.ew ≤ sh.n * sh.ew := Nat.mul_le_mul_right _ hi
    rw [Nat.add_mul, Nat.one_mul] at this
    show i * sh.ew + sh.ew ≤ _
    omega
  · rw [hlf] at hq
    simp only [if_true, List.mem_map, List.mem_range] at hq
    obtain ⟨w, hw, rfl⟩ := hq
    exact (lf_place hv he (hl hlf).1 hi hw).2.1

/-- An element below VLMAX depends on the group's bits only. -/
theorem Shape.get_lowBits (sh : Shape) (h : sh.good) (v : Nat) {i : Nat} (hi : i < sh.n) :
    sh.get (lowBits v (sh.vlen * sh.g)) i = sh.get v i :=
  readAt_congr (fun q hq => lowBits_shiftRight _ _ _ _ (sh.places_in h hi q hq))

theorem readAt_lt (v w : Nat) (l : List (Nat × Nat)) (h : ∀ q ∈ l, q.2 = w) : readAt v l < 2 ^ (w * l.length) := by
  induction l with
  | nil => simp [readAt]
  | cons q l ih =>
    have h1 := lowBits_lt (v >>> q.1) w
    have h2 := ih (fun r hr => h r (.tail _ hr))
    rw [readAt, h q (.head _), List.length_cons, Nat.shiftLeft_eq, Nat.mul_succ, Nat.pow_add]
    calc _ < 2 ^ w + readAt v l * 2 ^ w := by omega
      _ = (readAt v l + 1) * 2 ^ w := by rw [Nat.add_mul, Nat.one_mul, Nat.add_comm]
      _ ≤ _ := Nat.mul_le_mul_right _ h2

theorem Shape.get_lt (sh : Shape) (h : sh.good) (v i : Nat) : sh.get v i < 2 ^ sh.ew := by
  obtain ⟨hv, he, hl⟩ := h
  unfold Shape.get readElem elemPos
  cases hlf : sh.lf
  · simp only [Bool.false_eq_true, if_false, readAt, Nat.zero_shiftLeft, Nat.add_zero]
    exact lowBits_lt ..
  · simp only [if_true]
    have h64 := (hl hlf).1
    have h3 := readAt_lt v 64 ((List.range (sh.ew / 64)).map (fun w =>
      ((i % perSlice sh.g sh.ew * sh.ew + 64 * w) / 512 * sh.vlen + 512 * (i / perSlice sh.g sh.ew) +
        (i % perSlice sh.g sh.ew * sh.ew + 64 * w) % 512, 64))) (fun q hq => by
      obtain ⟨w, -, rfl⟩ := List.mem_map.1 hq; rfl)
    rw [List.length_map, List.length_range, show 64 * (sh.ew / 64) = sh.ew by omega] at h3
    exact h3

/-- An element of a written group is the value written, at its width (R28, R32). -/
theorem Shape.get_writeGroup (sh : Shape) (h : sh.good) (ta : Bool) (old : Nat) (elem : Nat → Nat) {i : Nat} (hi : i < sh.n) :
    sh.get (writeGroup sh ta old elem) i = lowBits (elem i) sh.ew := by
  obtain ⟨hv, he, hl⟩ := h
  unfold Shape.get readElem elemPos writeGroup
  cases hlf : sh.lf
  · simp only [Bool.false_eq_true, if_false, readAt, Nat.zero_shiftLeft, Nat.add_zero]
    exact assemble_field _ _ hi
  · obtain ⟨h64, -⟩ := hl hlf
    simp only [if_true]
    rw [readAt_words _ (elem i), show 64 * (sh.ew / 64) = sh.ew by omega]
    intro w hw
    obtain ⟨p1, p2, p3, p4, p5, p6, p7⟩ := lf_place hv he h64 hi hw
    generalize hp : (i % (sh.g * 512 / sh.ew) * sh.ew + 64 * w) / 512 * sh.vlen + 512 * (i / (sh.g * 512 / sh.ew)) +
      (i % (sh.g * 512 / sh.ew) * sh.ew + 64 * w) % 512 = p at *
    simp only [perSlice, hp]
    rw [show p = p / 64 * 64 by omega, assemble_field _ _ (by rw [Nat.mul_comm sh.g]; omega)]
    congr 1
    simp only [lfGroupWord, perSlice, p3, p4, p5, p6]
    have hlt : i % (sh.g * 512 / sh.ew) < sh.g * 512 / sh.ew := by
      rcases Nat.eq_zero_or_pos (sh.g * 512 / sh.ew) with h0 | h0
      · simp only [Shape.n, vlmaxAt, perSlice, h0] at hi; omega
      · exact Nat.mod_lt _ h0
    rw [if_pos hlt, Nat.mul_comm (i / _), Nat.div_add_mod]

theorem Shape.zero_lt (sh : Shape) (h : sh.good) : sh.zero < 2 ^ sh.ew := by
  obtain ⟨hv, he, hl⟩ := h
  unfold Shape.zero zeroElem
  cases hlf : sh.lf
  · exact Nat.two_pow_pos _
  · obtain ⟨h64, hk⟩ := hl hlf
    simp only [if_true, Nat.one_shiftLeft]
    calc sh.k * 2 ^ 60 < 2 ^ 64 := by omega
      _ ≤ 2 ^ sh.ew := Nat.pow_le_pow_right (by decide) (by omega)

/-- What R32 leaves in position i of a destination written through the common frame. -/
theorem Shape.get_writeFrame (sh : Shape) (h : sh.good) (t : Ctx) (m : Bool) (mask old : Nat) (res : Nat → Nat)
    {i : Nat} (hi : i < sh.n) :
    sh.get (writeFrame sh (t.frameOf m mask) old res) i =
      FrameRule t.dev m mask (sh.get old i) sh.zero (res i % 2 ^ sh.ew) i := by
  have ho := sh.get_lt h old i
  have hz := sh.zero_lt h
  have hiff : (t.frameOf m mask).idle = true ↔ (0 < t.dev.vstart.toNat ∧ t.dev.vgrant.toNat ≤ t.dev.vstart.toNat) := by
    rw [Frame.idle, Bool.and_eq_true, decide_eq_true_iff, decide_eq_true_iff]; rfl
  have hon : (!(t.frameOf m mask).masked || bitOf (t.frameOf m mask).mask i) = true ↔ ¬(m = true ∧ mask.testBit i = false) := by
    rw [bitOf_eq_testBit]
    show (!m || mask.testBit i) = true ↔ _
    cases m <;> cases mask.testBit i <;> decide
  by_cases hid : (t.frameOf m mask).idle = true
  · rw [writeFrame, if_pos hid, FrameRule, if_pos (hiff.1 hid)]
  · have hl : ∀ v, v < 2 ^ sh.ew → lowBits v sh.ew = v := fun v hv => lowBits_of_lt hv
    rw [writeFrame, if_neg hid, FrameRule, if_neg (fun e => hid (hiff.2 e)), sh.get_writeGroup h _ _ _ hi, Frame.pick]
    show lowBits (if i < t.dev.vstart.toNat then _ else if i < t.dev.vgrant.toNat then _ else _) sh.ew = _
    split
    · exact hl _ ho
    · split
      · by_cases hm : (m = true ∧ mask.testBit i = false)
        · rw [if_neg (fun e => hon.1 e hm), if_pos hm]
          show lowBits (if t.dev.ma = true then _ else _) _ = _
          split <;> exact hl _ (by assumption)
        · rw [if_pos (hon.2 hm), if_neg hm, lowBits, Nat.one_shiftLeft]
      · show lowBits (if t.dev.ta = true then _ else _) _ = _
        split <;> exact hl _ (by assumption)

/-! ### States with the same contexts -/

/-- Two states agree on every context and on the hart that runs. -/
def SameThreads (s t : State) : Prop := t.cur = s.cur ∧ ∀ c x, t.thr c x = s.thr c x

theorem SameThreads.hart {s t : State} (h : SameThreads s t) : t.hart = s.hart := by
  simp only [State.hart, h.1, h.2]

theorem SameThreads.slicesOf {s t : State} (h : SameThreads s t) (c x : Nat) : t.slicesOf c x = s.slicesOf c x := by
  simp only [State.slicesOf, h.2]

theorem SameThreads.getV {s t : State} (h : SameThreads s t) (r : Nat) : t.getV r = s.getV r := by
  simp only [State.getV, State.rawV, h.hart, h.1, h.2, h.slicesOf]
  congr 1
  exact gatherV_congr (fun m _ => by rw [h.2])

theorem SameThreads.getGroup {s t : State} (h : SameThreads s t) (r n : Nat) : t.getGroup r n = s.getGroup r n :=
  State.getGroup_congr (by rw [h.hart]) (fun j _ => h.getV _)

theorem SameThreads.shape {s t : State} (h : SameThreads s t) : t.shape = s.shape := by
  simp only [State.shape, h.hart]

theorem SameThreads.frame {s t : State} (h : SameThreads s t) (m : Bool) : t.frame m = s.frame m := by
  simp only [State.frame, h.hart, h.getV]

theorem SameThreads.xr {s t : State} (h : SameThreads s t) (r : Reg) : t.xr r = s.xr r := by
  simp only [State.xr, h.hart]

theorem SameThreads.elemEnv {s t : State} (h : SameThreads s t) : t.elemEnv = s.elemEnv := by
  simp only [State.elemEnv, h.hart]

theorem SameThreads.op1 {s t : State} (h : SameThreads s t) (sh : Shape) (src : Src) : op1 t sh src = op1 s sh src := by
  cases src <;> simp only [Machine.op1, h.getGroup, h.xr]

theorem SameThreads.members {s t : State} (h : SameThreads s t) : t.members = s.members := by
  simp only [State.members, h.1, h.slicesOf]

theorem SameThreads.seg {s t : State} (h : SameThreads s t) : t.seg = s.seg := by
  simp only [State.seg, h.shape, h.members]

theorem SameThreads.sliced {s t : State} (h : SameThreads s t) (hs : s.sliced) : t.sliced := by
  simpa only [State.sliced, h.hart, h.1, h.slicesOf, State.hwLen, h.2] using hs

/-- The dispatch gate's charge changes no context. -/
theorem State.modGate_same (s : State) (f : Gate → Gate) : SameThreads s (s.modGate f) := by
  refine ⟨rfl, fun c x => ?_⟩
  by_cases e : c = s.cur.1
  · subst e
    simp [State.thr, State.modGate, State.modMyCore, Core.ctx]
  · simp [State.thr, State.modGate, State.modMyCore, State.modCore_core_ne _ _ e]

/-- The charge changes no context, and of the cores only the running one's gate (R303). -/
theorem State.chargeGate_same (s : State) (n : Nat) : SameThreads s (s.chargeGate n) := by
  unfold State.chargeGate
  split
  · exact ⟨rfl, fun _ _ => rfl⟩
  · exact s.modGate_same _

@[simp] theorem State.chargeGate_cur (s : State) (n : Nat) : (s.chargeGate n).cur = s.cur := (s.chargeGate_same n).1
@[simp] theorem State.chargeGate_hart (s : State) (n : Nat) : (s.chargeGate n).hart = s.hart := (s.chargeGate_same n).hart

theorem State.chargeGate_core_ne (s : State) (n : Nat) {c : Nat} (h : c ≠ s.cur.1) : (s.chargeGate n).core c = s.core c := by
  unfold State.chargeGate
  split
  · rfl
  · simp [State.modGate, State.modMyCore, State.modCore_core_ne _ _ h]

theorem State.chargeGate_core (s : State) (n : Nat) :
    (s.chargeGate n).core s.cur.1 = { s.myCore with gate := s.gateAfter n } := by
  unfold State.chargeGate State.gateAfter
  split
  · rfl
  · simp [State.modGate, State.modMyCore, State.myCore]

theorem State.chargeGate_rest (s : State) (n : Nat) : s.chargeGate n = { s with cores := (s.chargeGate n).cores } := by
  unfold State.chargeGate
  split <;> rfl

/-! ### The wrapper of charged instructions -/

theorem Ctx.emptyIn_of_not_anyEmpty {t : Ctx} {b : Bool} {gs : List (Nat × Nat)} (h : t.anyEmpty gs = false) :
    t.emptyIn b gs = none := by
  have full : ∀ n r, t.firstEmpty r n = none → ∀ j, j < n → t.isFull (r + j) = true := by
    intro n
    induction n with
    | zero => intro r _ j hj; omega
    | succ n ih =>
      intro r hr j hj
      rw [Ctx.firstEmpty] at hr
      split at hr
      · cases j with
        | zero => assumption
        | succ j => rw [show r + (j + 1) = r + 1 + j by omega]; exact ih _ hr j (by omega)
      · cases hr
  simp only [Ctx.emptyIn, List.findSome?_eq_none_iff, List.find?_eq_none, List.mem_map, List.mem_range]
  rintro g hg r ⟨j, hj, rfl⟩
  have hg' : t.firstEmpty g.1 g.2 = none := by
    rw [Ctx.anyEmpty, List.any_eq_false] at h
    simpa using h g hg
  have := full _ _ hg' j hj
  rw [Nat.add_comm] at this
  simp [this]

theorem Ctx.anyEmpty_append {t : Ctx} {a b : List (Nat × Nat)} (h : t.anyEmpty (a ++ b) = false) : t.anyEmpty a = false := by
  simp only [Ctx.anyEmpty, List.any_append, Bool.or_eq_false_iff] at h
  exact h.1

/-- A ready instruction pays its charge and has its effect. -/
theorem vec_ready {s : State} {i : VInfo} (h : VecReady s i) (f : State → Body) :
    vec s i f =
      (match closeVec (s.chargeGate i.charge) i
          (f (s.chargeGate i.charge)) with
       | .wait s3 => waitUnready (s3.modGate (fun _ => s.myCore.gate))
       | done => done) := by
  obtain ⟨h1, h2, h3, h4⟩ := h
  have hb : readyBound s i = .ok s := by simp [readyBound, h3]
  have hr : s.hart.anyEmpty i.reads = false := Ctx.anyEmpty_append h2
  have hd : s.hart.anyEmpty i.dst = false := by
    simp only [Ctx.anyEmpty, List.any_append, Bool.or_eq_false_iff] at h2
    exact h2.2
  have hu : s.hart.unreadyFor i = false := by simp [Ctx.unreadyFor, hd, Ctx.emptyIn_of_not_anyEmpty hr]
  simp only [vec, vecChecked, h1, Bool.not_true, Bool.false_eq_true, if_false, hu, Ctx.emptyIn_of_not_anyEmpty hr, hb, h4, if_true] <;> rfl

/-- An update of the running hart changes nothing of any core but contexts. -/
theorem State.modHart_core (s : State) (g : Ctx → Ctx) (c : Nat) :
    (s.modHart g).core c = { s.core c with ctxs := ((s.modHart g).core c).ctxs } := by
  by_cases e : c = s.cur.1
  · subst e
    simp [State.modHart, State.setHart, State.setThr, Core.setCtx]
  · simp [State.modHart, State.setHart, State.setThr, State.setCore_core_ne _ _ e]

/-- Outside the loop buffer completion moves the running hart past the instruction and counts it. -/
theorem State.complete_plain (s : State) (h : s.plain) : s.nextPc.modHart Ctx.retired = s.modHart Ctx.completed := by
  have h' : (s.hart.loop.active && !s.hart.loop.suspended) = false := h
  rw [State.nextPc]
  simp only [h', Bool.false_eq_true, if_false]
  rw [State.modHart, State.setHart_setHart, State.modHart, State.setHart_hart]
  congr 1
  simp only [Ctx.retired, Ctx.completed]
  cases s.hart.std.mcountinhibit.getLsbD 2 <;> simp

/-- A ready instruction whose effect is a next state completes: vstart is 0 and the hart moves on. -/
theorem vec_next {s u : State} {i : VInfo} {f : State → Body} (h : VecReady s i) (hu : u.plain)
    (hf : f (s.chargeGate i.charge) = .next u) :
    finish (vec s i f) = .next (u.modHart (fun t => t.zeroStart.completed)) := by
  have hb : (s.chargeGate i.charge).hart.binds.isEmpty = true := by
    rw [s.chargeGate_hart, h.2.2.1]; rfl
  have hp : (u.modHart Ctx.zeroStart).plain := by
    simpa [State.plain, Ctx.zeroStart] using hu
  rw [vec_ready h, hf]
  simp only [closeVec, closeBound, hb, if_true, finish, State.complete_plain _ hp, State.modHart_modHart]

/-- The next state of a ready instruction that writes a group and raises flags. -/
theorem vec_setGroup {s : State} {i : VInfo} {f : State → Body} (h : VecReady s i) (hp : s.plain) (hs : s.sliced)
    {r n w fl : Nat} (hn : n ≤ 32)
    (hf : f (s.chargeGate i.charge) =
      .next (((s.chargeGate i.charge).setGroup r n w).modHart (fun t => t.raise fl))) :
    Answers (finish (vec s i f)) (fun t =>
      OnlyVector s t (groupRegs r n) i.charge (s.hart.vecDone (BitVec.ofNat 10 fl)) ∧
      t.getGroup r n = lowBits w (s.hart.vlen * n) ∧ ∀ q, q % 32 ∉ groupRegs r n → t.getV q = s.getV q) := by
  have sm := s.chargeGate_same i.charge
  have sc : ∀ c, c ≠ s.cur.1 → (s.chargeGate i.charge).core c = s.core c := fun c hc => s.chargeGate_core_ne _ hc
  have sg := s.chargeGate_core i.charge
  have sr := s.chargeGate_rest i.charge
  generalize hs2 : s.chargeGate i.charge = s2 at *
  have gh := s2.setGroup_hart r n w
  have gr := s2.setGroup_rest r n w
  have gcur := s2.setGroup_cur r n w
  generalize hu : s2.setGroup r n w = u at *
  have hpu : (u.modHart (fun t => t.raise fl)).plain := by
    show (_ && _) = false
    rw [State.modHart_hart, gh, sm.hart]; exact hp
  refine ⟨_, vec_next h hpu (by rw [hs2]; exact hf), ?_⟩
  rw [State.modHart_modHart]
  have tr : ∀ g : Ctx → Ctx, u.modHart g = { s with cores := (u.modHart g).cores } := by
    intro g
    show { u with cores := (u.modHart g).cores } = _
    rw [gr, sr]
  have tother : ∀ g : Ctx → Ctx, ∀ c x, c ≠ s.cur.1 ∨ x % 8 ≠ s.cur.2 % 8 → (u.modHart g).thr c x = u.thr c x := by
    intro g c x hc
    exact State.modHart_thr_ne _ _ (by rw [gcur, sm.1]; exact hc)
  have tv : ∀ c x, ((u.modHart (fun t => (t.raise fl).zeroStart.completed)).thr c x).v = (u.thr c x).v := by
    intro c x
    by_cases hc : c ≠ s.cur.1 ∨ x % 8 ≠ s.cur.2 % 8
    · rw [tother _ c x hc]
    · have e1 : c = s.cur.1 := by omega
      have e2 : x % 8 = s.cur.2 % 8 := by omega
      have hx : ∀ v : State, v.thr c x = v.thr s.cur.1 s.cur.2 := by
        intro v
        have : ctxIx x = ctxIx s.cur.2 := Fin.ext e2
        simp [State.thr, Core.ctx, e1, this]
      rw [hx, hx u]
      have : u.cur = s.cur := by rw [gcur, sm.1]
      have h1 : ∀ v : State, v.cur = s.cur → v.thr s.cur.1 s.cur.2 = v.hart := by
        intro v hv; rw [State.hart, hv]
      rw [h1 _ (by rw [tr]), h1 u this, State.modHart_hart]; rfl
  have tgetV : ∀ q, (u.modHart (fun t => (t.raise fl).zeroStart.completed)).getV q = u.getV q := by
    intro q
    have hsl : ∀ c x, ((u.modHart (fun t => (t.raise fl).zeroStart.completed)).thr c x).gang = (u.thr c x).gang ∧
        ((u.modHart (fun t => (t.raise fl).zeroStart.completed)).thr c x).cls = (u.thr c x).cls := by
      intro c x
      by_cases hc : c ≠ s.cur.1 ∨ x % 8 ≠ s.cur.2 % 8
      · rw [tother _ c x hc]; exact ⟨rfl, rfl⟩
      · have e1 : c = s.cur.1 := by omega
        have e2 : x % 8 = s.cur.2 % 8 := by omega
        have hx : ∀ v : State, v.thr c x = v.thr s.cur.1 s.cur.2 := by
          intro v
          have : ctxIx x = ctxIx s.cur.2 := Fin.ext e2
          simp [State.thr, Core.ctx, e1, this]
        rw [hx, hx u]
        have : u.cur = s.cur := by rw [gcur, sm.1]
        have h1 : ∀ v : State, v.cur = s.cur → v.thr s.cur.1 s.cur.2 = v.hart := by
          intro v hv; rw [State.hart, hv]
        rw [h1 _ (by rw [tr]), h1 u this, State.modHart_hart]; exact ⟨rfl, rfl⟩
    have hcur : (u.modHart (fun t => (t.raise fl).zeroStart.completed)).cur = u.cur := rfl
    simp only [State.getV, State.rawV, State.slicesOf, Ctx.ownBits, hsl, hcur]
    rw [show (u.modHart (fun t => (t.raise fl).zeroStart.completed)).hart.vlen = u.hart.vlen by rw [State.modHart_hart]; rfl]
    congr 1
    exact gatherV_congr (fun m _ => by
      simp only [Ctx.ownV]; rw [tv])
  refine ⟨⟨?_, ?_, ?_, ?_, ?_, ?_, ?_, tr _⟩, ?_, ?_⟩
  · rw [State.modHart_hart, gh, sm.hart]; rfl
  · intro a; rw [tr]; rfl
  · intro q hq c x
    have := s2.setGroup_ownV (w := w) hq c x
    rw [hu, sm.2] at this
    rw [← this]; simp only [Ctx.ownV]; rw [tv]
  · intro c x hc
    rw [tother _ c x hc, ← hu, State.setGroup_thr_v, sm.2]
  · intro c x hc
    rw [tv, ← hu, State.setGroup_thr_ne, sm.2]
    rw [sm.1, sm.slicesOf]; exact hc
  · intro c hc
    have : (u.modHart (fun t => (t.raise fl).zeroStart.completed)).core c = u.core c := by
      rw [State.modHart, State.setHart, State.setThr, State.setCore_core_ne]
      rw [gcur, sm.1]; exact hc
    rw [this, ← hu, State.setGroup_core, sc c hc]
  · have hc : (u.modHart (fun t => (t.raise fl).zeroStart.completed)).cur = s.cur := by rw [tr]
    simp only [State.myCore, hc]
    rw [State.modHart_core, ← hu, State.setGroup_core, sg]; rfl
  · rw [State.getGroup_congr (by rw [State.modHart_hart]; rfl) (fun j _ => tgetV _), ← hu,
      State.getGroup_setGroup _ (sm.sliced hs) hn, sm.hart]
  · intro q hq
    rw [tgetV, ← hu, State.getV_setGroup _ hq, sm.getV]

end Sys2Proof.Machine
end

