-- ==== Sys2Proof/Laws/Elements.lean ====
section
/-! SUPPORT. What a ready elementwise instruction does: each element by R32, the flags of the active elements, nothing else. -/
namespace Sys2Proof.Machine

/-- The shape of a hart whose registers hold its length is good. -/
theorem State.sliced.good {s : State} (h : s.sliced) : s.shape.good := by
  refine ⟨h.2.2.2.1, ?_, ?_⟩
  · show 0 < ewBits _ _
    unfold ewBits
    split <;> omega
  · intro hl
    have hl' : (s.hart.dev.ewCode == 5) = true := hl
    have h5 : s.hart.dev.ewCode = 5 := by simpa using hl'
    constructor
    · show ewBits s.hart.dev.ewCode s.hart.dev.k % 64 = 0
      rw [h5]
      show 64 * (_ + 1) % 64 = 0
      omega
    · exact Nat.mod_lt _ (by decide)

theorem State.shape_g_le (s : State) : s.shape.g ≤ 8 := by
  show 1 <<< (s.hart.dev.vtype.toNat / 16 % 4) ≤ 8
  have : s.hart.dev.vtype.toNat / 16 % 4 < 4 := Nat.mod_lt _ (by decide)
  generalize s.hart.dev.vtype.toNat / 16 % 4 = q at *
  have : q = 0 ∨ q = 1 ∨ q = 2 ∨ q = 3 := by omega
  rcases this with rfl | rfl | rfl | rfl <;> decide

theorem OnlyVector.shape {s t : State} {rs : List Nat} {c : Nat} {fl : BitVec 10}
    (h : OnlyVector s t rs c (s.hart.vecDone fl)) : t.shape = s.shape := by
  simp only [State.shape]; rw [h.1]; rfl

/-- A ready instruction that writes its destination group of another shape through the common frame. -/
theorem writeElems_done {s : State} {i : VInfo} {f : State → Body} (h : VecReady s i) (hp : s.plain) (hs : s.sliced)
    {sh : Shape} (hsh : sh.good) (hv : sh.vlen = s.hart.vlen) (hg : sh.g ≤ 32) {m : Bool} {vd : Reg}
    {res : Nat → Nat × Nat}
    (hf : f (s.chargeGate i.charge) =
      .next (writeElems (s.chargeGate i.charge) sh m vd res)) :
    Answers (finish (vec s i f)) (fun t =>
      OnlyVector s t (groupRegs vd.toNat sh.g) i.charge
        (s.hart.vecDone (BitVec.ofNat 10 (flagsOver (s.frame m) (fun k => (res k).2)))) ∧
      (∀ q, q % 32 ∉ groupRegs vd.toNat sh.g → t.getV q = s.getV q) ∧
      ∀ k, k < sh.n → sh.get (t.getGroup vd.toNat sh.g) k =
        FrameRule s.hart.dev m (s.getV 0) (sh.get (s.getGroup vd.toNat sh.g) k) sh.zero ((res k).1 % 2 ^ sh.ew) k) := by
  have sm := s.chargeGate_same i.charge
  obtain ⟨t, ht, h1, h2, h3⟩ := vec_setGroup h hp hs (f := f) (r := vd.toNat) (n := sh.g)
    (w := writeFrame sh (s.frame m) (s.getGroup vd.toNat sh.g) (fun i => (res i).1))
    (fl := flagsOver (s.frame m) (fun k => (res k).2)) hg (by rw [hf, writeElems, sm.frame, sm.getGroup])
  refine ⟨t, ht, h1, h3, fun k hk => ?_⟩
  rw [h2, ← hv, sh.get_lowBits hsh _ hk]
  exact sh.get_writeFrame hsh _ _ _ _ _ hk

/-- The operand of an element lies within the element's width. -/
theorem operand_lt (s : State) (hs : s.sliced) (src : Src) (k : Nat) : s.operand src k < 2 ^ s.shape.ew := by
  cases src with
  | vv r => exact s.shape.get_lt hs.good _ _
  | vx r => exact Nat.mod_lt _ (Nat.two_pow_pos _)
  | vf r => exact Nat.mod_lt _ (Nat.two_pow_pos _)
  | vi i => exact (i.signExtend _).isLt

theorem sext5_eq (i : Reg) (w : Nat) : sext5 i w = (i.signExtend w).toNat := by
  have hi := i.isLt
  have hm : i.msb = decide (16 ≤ i.toNat) := by
    simp [BitVec.msb_eq_decide]
  rw [sext5, BitVec.toNat_signExtend, BitVec.toNat_signExtend, hm]
  simp only [BitVec.toNat_setWidth, lowBits, Nat.one_shiftLeft, ge_iff_le]
  by_cases h16 : 16 ≤ i.toNat
  · simp only [h16, true_and, decide_true, if_true]
    have e64 : i.toNat % 2 ^ 64 = i.toNat := Nat.mod_eq_of_lt (by omega)
    rw [e64]
    by_cases hw : 64 < w
    · rw [if_pos hw]
      have hp : 2 ^ 64 < 2 ^ w := Nat.pow_lt_pow_right (by decide) hw
      rw [Nat.mod_eq_of_lt (a := i.toNat) (b := 2 ^ w) (by omega), Nat.mod_eq_of_lt (b := 2 ^ w) (by omega)]
      omega
    · rw [if_neg hw, Nat.add_zero]
      have hd : 2 ^ 64 = 2 ^ w * 2 ^ (64 - w) := by rw [← Nat.pow_add]; congr 1; omega
      by_cases h5 : 5 ≤ w
      · have hp : 2 ^ 5 ≤ 2 ^ w := Nat.pow_le_pow_right (by decide) h5
        rw [Nat.mod_eq_of_lt (a := i.toNat) (b := 2 ^ w) (by omega)]
        have : i.toNat + (2 ^ 64 - 2 ^ 5) = i.toNat + (2 ^ w - 2 ^ 5) + 2 ^ w * (2 ^ (64 - w) - 1) := by
          rw [hd, Nat.mul_sub, Nat.mul_one]
          have : 2 ^ w ≤ 2 ^ w * 2 ^ (64 - w) := Nat.le_mul_of_pos_right _ (Nat.two_pow_pos _)
          omega
        rw [this, Nat.add_mul_mod_self_left, Nat.mod_eq_of_lt (by omega)]
      · have : w = 0 ∨ w = 1 ∨ w = 2 ∨ w = 3 ∨ w = 4 := by omega
        rcases this with rfl | rfl | rfl | rfl | rfl <;> omega
  · simp only [h16, false_and, decide_false, if_false, Nat.add_zero, Bool.false_eq_true]
    rw [Nat.mod_eq_of_lt (a := i.toNat) (b := 2 ^ 64) (by omega)]

/-- The machine's second operand is that of R127. -/
theorem op1_operand (s : State) (src : Src) (k : Nat) : op1 s s.shape src k = s.operand src k := by
  cases src with
  | vv r => rfl
  | vx r => simp [op1, State.operand, lowBits, Nat.one_shiftLeft]
  | vf r => simp [op1, State.operand, lowBits, Nat.one_shiftLeft]
  | vi i => exact sext5_eq i _

/-! ### Mask destinations and x results (R137, R143) -/

theorem State.setGroup_one (s : State) (r w : Nat) : s.setGroup r 1 w = s.setV r w := rfl

theorem testBit_assemble_one (f : Nat → Nat) {n i : Nat} (h : i < n) : (assemble 1 f n).testBit i = decide (f i % 2 = 1) := by
  have := assemble_field 1 f h
  rw [Nat.mul_one] at this
  have h2 : (lowBits (assemble 1 f n >>> i) 1).testBit 0 = (lowBits (f i) 1).testBit 0 := by rw [this]
  rw [testBit_lowBits, testBit_lowBits, Nat.testBit_shiftRight, Nat.add_zero] at h2
  simpa [Nat.testBit_zero] using h2

/-- What R137 leaves in bit k of a mask destination. -/
theorem testBit_writeMask (t : Ctx) (m : Bool) (mask old vlen : Nat) (res : Nat → Bool) {k : Nat} (hk : k < vlen) :
    (writeMask vlen (t.frameOf m mask) old res).testBit k =
      (FrameRule t.dev m mask (old.testBit k).toNat 0 (res k).toNat k == 1) := by
  have hiff : (t.frameOf m mask).idle = true ↔ (0 < t.dev.vstart.toNat ∧ t.dev.vgrant.toNat ≤ t.dev.vstart.toNat) := by
    rw [Frame.idle, Bool.and_eq_true, decide_eq_true_iff, decide_eq_true_iff]; rfl
  have hon : (!(t.frameOf m mask).masked || bitOf (t.frameOf m mask).mask k) = true ↔ ¬(m = true ∧ mask.testBit k = false) := by
    rw [bitOf_eq_testBit]
    show (!m || mask.testBit k) = true ↔ _
    cases m <;> cases mask.testBit k <;> decide
  have hb : ∀ b : Bool, (decide (b.toNat % 2 = 1)) = (b.toNat == 1) := by decide
  by_cases hid : (t.frameOf m mask).idle = true
  · rw [writeMask, if_pos hid, FrameRule, if_pos (hiff.1 hid)]
    cases old.testBit k <;> rfl
  · rw [writeMask, if_neg hid, FrameRule, if_neg (fun e => hid (hiff.2 e)), testBit_assemble_one _ hk, Frame.pick, bitOf_eq_testBit]
    show (decide ((if k < t.dev.vstart.toNat then _ else if k < t.dev.vgrant.toNat then _ else _) % 2 = 1)) = _
    split
    · exact hb _
    · split
      · by_cases ho : (m = true ∧ mask.testBit k = false)
        · rw [if_neg (fun e => hon.1 e ho), if_pos ho]
          show decide ((if t.dev.ma = true then _ else _) % 2 = 1) = _
          split
          · rfl
          · exact hb _
        · rw [if_pos (hon.2 ho), if_neg ho]
          exact hb _
      · show decide ((if t.dev.ta = true then _ else _) % 2 = 1) = _
        split
        · rfl
        · exact hb _

/-- A ready instruction with a mask destination. -/
theorem writeMaskElems_done {s : State} {i : VInfo} {f : State → Body} (h : VecReady s i) (hp : s.plain) (hs : s.sliced)
    {m : Bool} {vd : Reg} {res : Nat → Bool × Nat}
    (hf : f (s.chargeGate i.charge) =
      .next (writeMaskElems (s.chargeGate i.charge) m vd res)) :
    Answers (finish (vec s i f)) (fun t =>
      OnlyVector s t (groupRegs vd.toNat 1) i.charge
        (s.hart.vecDone (BitVec.ofNat 10 (flagsOver (s.frame m) (fun k => (res k).2)))) ∧
      ∀ k, k < s.hart.vlen → (t.getV vd.toNat).testBit k =
        (FrameRule s.hart.dev m (s.getV 0) ((s.getV vd.toNat).testBit k).toNat 0 (res k).1.toNat k == 1)) := by
  have sm := s.chargeGate_same i.charge
  obtain ⟨t, ht, h1, h2, -⟩ := vec_setGroup h hp hs (f := f) (r := vd.toNat) (n := 1)
    (w := writeMask s.hart.vlen (s.frame m) (s.getV vd.toNat) (fun i => (res i).1))
    (fl := flagsOver (s.frame m) (fun k => (res k).2)) (by decide) (by
      rw [hf, writeMaskElems, sm.frame, sm.getV, sm.hart]; rfl)
  refine ⟨t, ht, h1, fun k hk => ?_⟩
  have : t.getV vd.toNat = lowBits (writeMask s.hart.vlen (s.frame m) (s.getV vd.toNat) (fun i => (res i).1)) s.hart.vlen := by
    have := h2
    simpa [State.getGroup] using this
  rw [this, testBit_lowBits]
  simp only [hk, decide_true, Bool.true_and]
  exact testBit_writeMask _ _ _ _ _ _ hk

/-- A ready instruction that writes an x register only. -/
theorem writeX_done {s : State} {i : VInfo} {f : State → Body} (h : VecReady s i) (hp : s.plain) {rd : Reg} {w : Word}
    (hf : f (s.chargeGate i.charge) =
      .next ((s.chargeGate i.charge).setX rd w)) :
    Answers (finish (vec s i f)) (fun t => OnlyVector s t [] i.charge ((s.hart.setX rd w).vecDone 0)) := by
  have sm := s.chargeGate_same i.charge
  have sc : ∀ c, c ≠ s.cur.1 → (s.chargeGate i.charge).core c = s.core c := fun c hc => s.chargeGate_core_ne _ hc
  have sg := s.chargeGate_core i.charge
  have sr := s.chargeGate_rest i.charge
  have hq : ((s.chargeGate i.charge).setX rd w).plain := by
    show (_ && _) = false
    rw [State.setX_hart, sm.hart]
    have : ∀ t : Ctx, (t.setX rd w).loop = t.loop := fun t => by unfold Ctx.setX; split <;> rfl
    rw [this]; exact hp
  have key := vec_next h hq hf
  generalize hs2 : s.chargeGate i.charge = s2 at *
  rw [State.setX, State.modHart_modHart] at key
  refine ⟨_, key, ?_, ?_, ?_, ?_, ?_, ?_, ?_, ?_⟩
  · rw [State.modHart_hart, sm.hart]
    have : ∀ t : Ctx, t = { t with v := t.v } := fun _ => rfl
    have e : (s.hart.setX rd w).zeroStart.completed = (s.hart.setX rd w).vecDone 0 := by
      simp [Ctx.vecDone, Ctx.zeroStart]
    rw [← e]
  · intro a; rw [sr]; rfl
  · intro r _ c x
    by_cases hc : c ≠ s.cur.1 ∨ x % 8 ≠ s.cur.2 % 8
    · rw [State.modHart_thr_ne _ _ (by rw [sm.1]; exact hc), sm.2]
    · have e1 : c = s.cur.1 := by omega
      have hx : ∀ v : State, v.thr c x = v.thr s.cur.1 s.cur.2 := by
        intro v
        have : ctxIx x = ctxIx s.cur.2 := Fin.ext (by show x % 8 = s.cur.2 % 8; omega)
        simp [State.thr, Core.ctx, e1, this]
      rw [hx, hx s, ← sm.1]
      show ((s2.modHart _).hart).ownV r = (s.thr s2.cur.1 s2.cur.2).ownV r
      rw [State.modHart_hart, sm.1, State.hart_def, sm.hart]
      have : ∀ t : Ctx, (t.setX rd w).zeroStart.completed.v = t.v := fun t => by unfold Ctx.setX; split <;> rfl
      simp only [Ctx.ownV, this]
  · intro c x hc
    rw [State.modHart_thr_ne _ _ (by rw [sm.1]; exact hc), sm.2]
  · intro c x _
    by_cases hc : c ≠ s.cur.1 ∨ x % 8 ≠ s.cur.2 % 8
    · rw [State.modHart_thr_ne _ _ (by rw [sm.1]; exact hc), sm.2]
    · have e1 : c = s.cur.1 := by omega
      have hx : ∀ v : State, v.thr c x = v.thr s.cur.1 s.cur.2 := by
        intro v
        have : ctxIx x = ctxIx s.cur.2 := Fin.ext (by show x % 8 = s.cur.2 % 8; omega)
        simp [State.thr, Core.ctx, e1, this]
      rw [hx, hx s, ← sm.1]
      show ((s2.modHart _).hart).v = (s.thr s2.cur.1 s2.cur.2).v
      rw [State.modHart_hart, sm.1, State.hart_def, sm.hart]
      have : ∀ t : Ctx, (t.setX rd w).zeroStart.completed.v = t.v := fun t => by unfold Ctx.setX; split <;> rfl
      rw [this]
  · intro c hc
    rw [State.modHart_core, sc c hc]
  · have hc : (s2.modHart (fun t => (t.setX rd w).zeroStart.completed)).cur = s.cur := by rw [sr]; rfl
    simp only [State.myCore, hc]
    rw [State.modHart_core, sg]; rfl
  · show { s2 with cores := _ } = _
    rw [sr]; rfl

/-! ### The forms of a completion -/

theorem flagsOver_zero (fr : Frame) : flagsOver fr (fun _ => 0) = 0 := by
  have : ∀ l : List Nat, l.foldl (fun a i => if fr.on i then a ||| 0 else a) 0 = 0 := by
    intro l; induction l with
    | nil => rfl
    | cons x l ih => rw [List.foldl_cons]; split <;> exact ih
  exact this _

/-- An instruction whose effect is one write through the common frame has the form `Writes`. -/
theorem writes_of {i : Instr} {s : State} {info : VInfo} {sh : Shape} {m : Bool} {vd : Reg} {res : Nat → Nat × Nat}
    {f : State → Body} (he : exec i s = finish (vec s info f)) (hg : VecReady s info → s.sliced → sh.good ∧ sh.g ≤ 32)
    (hv : sh.vlen = s.hart.vlen)
    (hf : f (s.chargeGate info.charge) =
      .next (writeElems (s.chargeGate info.charge) sh m vd res)) :
    Writes i s info sh m vd (flagsOver (s.frame m) (fun k => (res k).2)) (fun k => (res k).1) := by
  intro hp hs h
  rw [he]
  obtain ⟨t, ht, h1, h2, h3⟩ := writeElems_done h hp hs (hg h hs).1 hv (hg h hs).2 (m := m) (vd := vd) (res := res) hf
  exact ⟨t, ht, h1, h3⟩

/-- The same at vtype's own shape, for an instruction that raises no flag. -/
theorem writes_quiet {i : Instr} {s : State} {info : VInfo} {m : Bool} {vd : Reg} {res : Nat → Nat} {f : State → Body}
    (he : exec i s = finish (vec s info f))
    (hf : f (s.chargeGate info.charge) =
      .next (writeElems (s.chargeGate info.charge) s.shape m vd (fun k => (res k, 0)))) :
    Writes i s info s.shape m vd 0 res := by
  have := writes_of he (fun _ hs => ⟨hs.good, Nat.le_trans s.shape_g_le (by decide)⟩) rfl hf
  rw [flagsOver_zero] at this
  exact this

/-- An instruction whose effect is one write of a mask has the form `WritesMask`. -/
theorem writesMask_of {i : Instr} {s : State} {info : VInfo} {m : Bool} {vd : Reg} {res : Nat → Bool × Nat} {f : State → Body}
    (he : exec i s = finish (vec s info f))
    (hf : f (s.chargeGate info.charge) =
      .next (writeMaskElems (s.chargeGate info.charge) m vd res)) :
    WritesMask i s info m vd (flagsOver (s.frame m) (fun k => (res k).2)) (fun k => (res k).1) := by
  intro hp hs h
  rw [he]
  exact writeMaskElems_done h hp hs hf

/-- An instruction whose effect is one write of a group has the form `WritesGroup`. -/
theorem writesGroup_of {i : Instr} {s : State} {info : VInfo} {vd : Reg} {n fl w : Nat} {f : State → Body} (hn : n ≤ 32)
    (he : exec i s = finish (vec s info f))
    (hf : f (s.chargeGate info.charge) =
      .next (((s.chargeGate info.charge).setGroup vd.toNat n w).modHart (fun t => t.raise fl))) :
    WritesGroup i s info vd n fl w := by
  intro hp hs h
  rw [he]
  obtain ⟨t, ht, h1, h2, -⟩ := vec_setGroup h hp hs (f := f) hn hf
  exact ⟨t, ht, h1, by rw [h2, lowBits, Nat.one_shiftLeft]⟩

/-- An instruction whose effect is one write of x[rd] has the form `WritesX`. -/
theorem writesX_of {i : Instr} {s : State} {info : VInfo} {rd : Reg} {w : Word} {f : State → Body}
    (he : exec i s = finish (vec s info f))
    (hf : f (s.chargeGate info.charge) =
      .next ((s.chargeGate info.charge).setX rd w)) :
    WritesX i s info rd w := by
  intro hp h
  rw [he]
  exact writeX_done h hp hf

end Sys2Proof.Machine
end

