-- ==== Sys2Proof/Laws/PerInstr.lean ====
section
/-! SUPPORT. The family RoundTrip: decoding the word of a well-formed instruction gives the instruction back, one lemma for
each constructor. -/
namespace Sys2Proof.Laws.RoundTrip

/-- A well-formed instruction that has a word decodes from it to itself. -/
def Statement (i : Instr) : Prop := i.wellFormed = true → ∀ w, encode i = some w → decode w = .ok i

/-- An event or a request has no word. -/
theorem of_none {i : Instr} (h : encode i = none) : Statement i := by
  intro _ w hw
  rw [h] at hw
  exact absurd hw (by simp)

/-- From the instruction's word. -/
theorem of_word {i : Instr} {v : BitVec 32} (h : encode i = some v) (hd : i.wellFormed = true → decode v = .ok i) :
    Statement i := by
  intro hw w e
  rw [h] at e
  cases e
  exact hd hw

theorem vadd (o : OpB) : Statement (.vadd o) :=
  of_word rfl (fun h => (decode_custom0 _).trans (VA.formB_ok .vadd h))
theorem vsub (o : OpB) : Statement (.vsub o) :=
  of_word rfl (fun h => (decode_custom0 _).trans (VA.formB_ok .vsub h))
theorem vrsub (o : OpB) : Statement (.vrsub o) :=
  of_word rfl (fun h => (decode_custom0 _).trans (VA.formB_ok .vrsub h))
theorem vmul (o : OpB) : Statement (.vmul o) :=
  of_word rfl (fun h => (decode_custom0 _).trans (VA.formB_ok .vmul h))
theorem vmulh (o : OpB) : Statement (.vmulh o) :=
  of_word rfl (fun h => (decode_custom0 _).trans (VA.formB_ok .vmulh h))
theorem vmulhu (o : OpB) : Statement (.vmulhu o) :=
  of_word rfl (fun h => (decode_custom0 _).trans (VA.formB_ok .vmulhu h))
theorem vmacc (o : OpB) : Statement (.vmacc o) :=
  of_word rfl (fun h => (decode_custom0 _).trans (VA.formB_ok .vmacc h))
theorem vnmsac (o : OpB) : Statement (.vnmsac o) :=
  of_word rfl (fun h => (decode_custom0 _).trans (VA.formB_ok .vnmsac h))
theorem vdiv (o : OpB) : Statement (.vdiv o) :=
  of_word rfl (fun h => (decode_custom0 _).trans (VA.formB_ok .vdiv h))
theorem vdivu (o : OpB) : Statement (.vdivu o) :=
  of_word rfl (fun h => (decode_custom0 _).trans (VA.formB_ok .vdivu h))
theorem vrem (o : OpB) : Statement (.vrem o) :=
  of_word rfl (fun h => (decode_custom0 _).trans (VA.formB_ok .vrem h))
theorem vremu (o : OpB) : Statement (.vremu o) :=
  of_word rfl (fun h => (decode_custom0 _).trans (VA.formB_ok .vremu h))
theorem vmin (o : OpB) : Statement (.vmin o) :=
  of_word rfl (fun h => (decode_custom0 _).trans (VA.formB_ok .vmin h))
theorem vminu (o : OpB) : Statement (.vminu o) :=
  of_word rfl (fun h => (decode_custom0 _).trans (VA.formB_ok .vminu h))
theorem vmax (o : OpB) : Statement (.vmax o) :=
  of_word rfl (fun h => (decode_custom0 _).trans (VA.formB_ok .vmax h))
theorem vmaxu (o : OpB) : Statement (.vmaxu o) :=
  of_word rfl (fun h => (decode_custom0 _).trans (VA.formB_ok .vmaxu h))
theorem vand (o : OpB) : Statement (.vand o) :=
  of_word rfl (fun h => (decode_custom0 _).trans (VA.formB_ok .vand h))
theorem vor (o : OpB) : Statement (.vor o) :=
  of_word rfl (fun h => (decode_custom0 _).trans (VA.formB_ok .vor h))
theorem vxor (o : OpB) : Statement (.vxor o) :=
  of_word rfl (fun h => (decode_custom0 _).trans (VA.formB_ok .vxor h))
theorem vsll (o : OpB) : Statement (.vsll o) :=
  of_word rfl (fun h => (decode_custom0 _).trans (VA.formB_ok .vsll h))
theorem vsrl (o : OpB) : Statement (.vsrl o) :=
  of_word rfl (fun h => (decode_custom0 _).trans (VA.formB_ok .vsrl h))
theorem vsra (o : OpB) : Statement (.vsra o) :=
  of_word rfl (fun h => (decode_custom0 _).trans (VA.formB_ok .vsra h))
theorem vsadd (o : OpB) : Statement (.vsadd o) :=
  of_word rfl (fun h => (decode_custom0 _).trans (VA.formB_ok .vsadd h))
theorem vsaddu (o : OpB) : Statement (.vsaddu o) :=
  of_word rfl (fun h => (decode_custom0 _).trans (VA.formB_ok .vsaddu h))
theorem vssub (o : OpB) : Statement (.vssub o) :=
  of_word rfl (fun h => (decode_custom0 _).trans (VA.formB_ok .vssub h))
theorem vssubu (o : OpB) : Statement (.vssubu o) :=
  of_word rfl (fun h => (decode_custom0 _).trans (VA.formB_ok .vssubu h))
theorem vsmul (o : OpB) : Statement (.vsmul o) :=
  of_word rfl (fun h => (decode_custom0 _).trans (VA.formB_ok .vsmul h))
theorem vclz (o : OpU) : Statement (.vclz o) :=
  of_word rfl (fun h => (decode_custom0 _).trans (VA.formU_ok (mr := .optional) (o := o) .vclz h))
theorem vcpop (o : OpU) : Statement (.vcpop o) :=
  of_word rfl (fun h => (decode_custom0 _).trans (VA.formU_ok (mr := .optional) (o := o) .vcpop h))
theorem vabsd (o : OpB) : Statement (.vabsd o) :=
  of_word rfl (fun h => (decode_custom0 _).trans (VA.formB_ok .vabsd h))
theorem vmerge (o : OpB) : Statement (.vmerge o) :=
  of_word rfl (fun h => (decode_custom0 _).trans (VA.formB_ok .vmerge h))
theorem vmv (o : OpD) : Statement (.vmv o) :=
  of_word rfl (fun h => (decode_custom0 _).trans (VA.formD_ok .vmv h))
theorem vmseq (o : OpB) : Statement (.vmseq o) :=
  of_word rfl (fun h => (decode_custom0 _).trans (VA.formB_ok .vmseq h))
theorem vmsne (o : OpB) : Statement (.vmsne o) :=
  of_word rfl (fun h => (decode_custom0 _).trans (VA.formB_ok .vmsne h))
theorem vmslt (o : OpB) : Statement (.vmslt o) :=
  of_word rfl (fun h => (decode_custom0 _).trans (VA.formB_ok .vmslt h))
theorem vmsltu (o : OpB) : Statement (.vmsltu o) :=
  of_word rfl (fun h => (decode_custom0 _).trans (VA.formB_ok .vmsltu h))
theorem vmsle (o : OpB) : Statement (.vmsle o) :=
  of_word rfl (fun h => (decode_custom0 _).trans (VA.formB_ok .vmsle h))
theorem vmsleu (o : OpB) : Statement (.vmsleu o) :=
  of_word rfl (fun h => (decode_custom0 _).trans (VA.formB_ok .vmsleu h))
theorem vmsgt (o : OpB) : Statement (.vmsgt o) :=
  of_word rfl (fun h => (decode_custom0 _).trans (VA.formB_ok .vmsgt h))
theorem vmsgtu (o : OpB) : Statement (.vmsgtu o) :=
  of_word rfl (fun h => (decode_custom0 _).trans (VA.formB_ok .vmsgtu h))
theorem vmfeq (o : OpB) : Statement (.vmfeq o) :=
  of_word rfl (fun h => (decode_custom0 _).trans (VA.formB_ok .vmfeq h))
theorem vmfne (o : OpB) : Statement (.vmfne o) :=
  of_word rfl (fun h => (decode_custom0 _).trans (VA.formB_ok .vmfne h))
theorem vmflt (o : OpB) : Statement (.vmflt o) :=
  of_word rfl (fun h => (decode_custom0 _).trans (VA.formB_ok .vmflt h))
theorem vmfle (o : OpB) : Statement (.vmfle o) :=
  of_word rfl (fun h => (decode_custom0 _).trans (VA.formB_ok .vmfle h))
theorem vmfgt (o : OpB) : Statement (.vmfgt o) :=
  of_word rfl (fun h => (decode_custom0 _).trans (VA.formB_ok .vmfgt h))
theorem vmfge (o : OpB) : Statement (.vmfge o) :=
  of_word rfl (fun h => (decode_custom0 _).trans (VA.formB_ok .vmfge h))
theorem vmand (o : OpB) : Statement (.vmand o) :=
  of_word rfl (fun h => (decode_custom0 _).trans (VA.formB_ok .vmand h))
theorem vmor (o : OpB) : Statement (.vmor o) :=
  of_word rfl (fun h => (decode_custom0 _).trans (VA.formB_ok .vmor h))
theorem vmxor (o : OpB) : Statement (.vmxor o) :=
  of_word rfl (fun h => (decode_custom0 _).trans (VA.formB_ok .vmxor h))
theorem vmandn (o : OpB) : Statement (.vmandn o) :=
  of_word rfl (fun h => (decode_custom0 _).trans (VA.formB_ok .vmandn h))
theorem vmsbf (o : OpU) : Statement (.vmsbf o) :=
  of_word rfl (fun h => (decode_custom0 _).trans (VA.formU_ok (mr := .optional) (o := o) .vmsbf h))
theorem vmsif (o : OpU) : Statement (.vmsif o) :=
  of_word rfl (fun h => (decode_custom0 _).trans (VA.formU_ok (mr := .optional) (o := o) .vmsif h))
theorem vmsof (o : OpU) : Statement (.vmsof o) :=
  of_word rfl (fun h => (decode_custom0 _).trans (VA.formU_ok (mr := .optional) (o := o) .vmsof h))
theorem viota (o : OpU) : Statement (.viota o) :=
  of_word rfl (fun h => (decode_custom0 _).trans (VA.formU_ok (mr := .optional) (o := o) .viota h))
theorem vid (o : OpZ) : Statement (.vid o) :=
  of_word rfl (fun _ => (decode_custom0 _).trans (by cases o; rfl))
theorem vmcnt (o : OpXR) : Statement (.vmcnt o) :=
  of_word rfl (fun h => (decode_custom0 _).trans (VA.formXR_ok (mr := .optional) (o := o) .vmcnt h))
theorem vmfirst (o : OpXR) : Statement (.vmfirst o) :=
  of_word rfl (fun h => (decode_custom0 _).trans (VA.formXR_ok (mr := .optional) (o := o) .vmfirst h))
theorem vmtox (o : OpXR) : Statement (.vmtox o) :=
  of_word rfl (fun h => (decode_custom0 _).trans (VA.formXR_ok (mr := .never) (o := o) .vmtox h))
theorem vmfromx (o : OpD) : Statement (.vmfromx o) :=
  of_word rfl (fun h => (decode_custom0 _).trans (VA.formD_ok .vmfromx h))
theorem vfadd (o : OpB) : Statement (.vfadd o) :=
  of_word rfl (fun h => (decode_custom0 _).trans (VA.formB_ok .vfadd h))
theorem vfsub (o : OpB) : Statement (.vfsub o) :=
  of_word rfl (fun h => (decode_custom0 _).trans (VA.formB_ok .vfsub h))
theorem vfmul (o : OpB) : Statement (.vfmul o) :=
  of_word rfl (fun h => (decode_custom0 _).trans (VA.formB_ok .vfmul h))
theorem vfdiv (o : OpB) : Statement (.vfdiv o) :=
  of_word rfl (fun h => (decode_custom0 _).trans (VA.formB_ok .vfdiv h))
theorem vfsqrt (o : OpU) : Statement (.vfsqrt o) :=
  of_word rfl (fun h => (decode_custom0 _).trans (VA.formU_ok (mr := .optional) (o := o) .vfsqrt h))
theorem vfmin (o : OpB) : Statement (.vfmin o) :=
  of_word rfl (fun h => (decode_custom0 _).trans (VA.formB_ok .vfmin h))
theorem vfmax (o : OpB) : Statement (.vfmax o) :=
  of_word rfl (fun h => (decode_custom0 _).trans (VA.formB_ok .vfmax h))
theorem vfmadd (o : OpB) : Statement (.vfmadd o) :=
  of_word rfl (fun h => (decode_custom0 _).trans (VA.formB_ok .vfmadd h))
theorem vfnmadd (o : OpB) : Statement (.vfnmadd o) :=
  of_word rfl (fun h => (decode_custom0 _).trans (VA.formB_ok .vfnmadd h))
theorem vfmsub (o : OpB) : Statement (.vfmsub o) :=
  of_word rfl (fun h => (decode_custom0 _).trans (VA.formB_ok .vfmsub h))
theorem vfnmsub (o : OpB) : Statement (.vfnmsub o) :=
  of_word rfl (fun h => (decode_custom0 _).trans (VA.formB_ok .vfnmsub h))
theorem vfsgnj (o : OpB) : Statement (.vfsgnj o) :=
  of_word rfl (fun h => (decode_custom0 _).trans (VA.formB_ok .vfsgnj h))
theorem vfsgnjn (o : OpB) : Statement (.vfsgnjn o) :=
  of_word rfl (fun h => (decode_custom0 _).trans (VA.formB_ok .vfsgnjn h))
theorem vfsgnjx (o : OpB) : Statement (.vfsgnjx o) :=
  of_word rfl (fun h => (decode_custom0 _).trans (VA.formB_ok .vfsgnjx h))
theorem vfrece (o : OpU) : Statement (.vfrece o) :=
  of_word rfl (fun h => (decode_custom0 _).trans (VA.formU_ok (mr := .optional) (o := o) .vfrece h))
theorem vfrsqe (o : OpU) : Statement (.vfrsqe o) :=
  of_word rfl (fun h => (decode_custom0 _).trans (VA.formU_ok (mr := .optional) (o := o) .vfrsqe h))
theorem vfcvtFX (o : OpS) : Statement (.vfcvtFX o) :=
  of_word rfl (fun h => (decode_custom0 _).trans (VA.formS_ok (sr := .tag) (o := o) .vfcvtFX h))
theorem vfcvtFXu (o : OpS) : Statement (.vfcvtFXu o) :=
  of_word rfl (fun h => (decode_custom0 _).trans (VA.formS_ok (sr := .tag) (o := o) .vfcvtFXu h))
theorem vfcvtXF (o : OpS) : Statement (.vfcvtXF o) :=
  of_word rfl (fun h => (decode_custom0 _).trans (VA.formS_ok (sr := .tag) (o := o) .vfcvtXF h))
theorem vfcvtXuF (o : OpS) : Statement (.vfcvtXuF o) :=
  of_word rfl (fun h => (decode_custom0 _).trans (VA.formS_ok (sr := .tag) (o := o) .vfcvtXuF h))
theorem vfwid (o : OpS) : Statement (.vfwid o) :=
  of_word rfl (fun h => (decode_custom0 _).trans (VA.formS_ok (sr := .tag) (o := o) .vfwid h))
theorem vfnar (o : OpS) : Statement (.vfnar o) :=
  of_word rfl (fun h => (decode_custom0 _).trans (VA.formS_ok (sr := .tag) (o := o) .vfnar h))
theorem vsext (o : OpS) : Statement (.vsext o) :=
  of_word rfl (fun h => (decode_custom0 _).trans (VA.formS_ok (sr := .ext) (o := o) .vsext h))
theorem vzext (o : OpS) : Statement (.vzext o) :=
  of_word rfl (fun h => (decode_custom0 _).trans (VA.formS_ok (sr := .ext) (o := o) .vzext h))
theorem vnclip (o : OpU) : Statement (.vnclip o) :=
  of_word rfl (fun h => (decode_custom0 _).trans (VA.formU_ok (mr := .optional) (o := o) .vnclip h))
theorem vfclass (o : OpU) : Statement (.vfclass o) :=
  of_word rfl (fun h => (decode_custom0 _).trans (VA.formU_ok (mr := .optional) (o := o) .vfclass h))
theorem vfcvtBfF (o : OpU) : Statement (.vfcvtBfF o) :=
  of_word rfl (fun h => (decode_custom0 _).trans (VA.formU_ok (mr := .optional) (o := o) .vfcvtBfF h))
theorem vfcvtFBf (o : OpU) : Statement (.vfcvtFBf o) :=
  of_word rfl (fun h => (decode_custom0 _).trans (VA.formU_ok (mr := .optional) (o := o) .vfcvtFBf h))
theorem vslideup (o : OpB) : Statement (.vslideup o) :=
  of_word rfl (fun h => (decode_custom0 _).trans (VA.formB_ok .vslideup h))
theorem vslidedn (o : OpB) : Statement (.vslidedn o) :=
  of_word rfl (fun h => (decode_custom0 _).trans (VA.formB_ok .vslidedn h))
theorem vslide1up (o : OpB) : Statement (.vslide1up o) :=
  of_word rfl (fun h => (decode_custom0 _).trans (VA.formB_ok .vslide1up h))
theorem vslide1dn (o : OpB) : Statement (.vslide1dn o) :=
  of_word rfl (fun h => (decode_custom0 _).trans (VA.formB_ok .vslide1dn h))
theorem vrgather (o : OpB) : Statement (.vrgather o) :=
  of_word rfl (fun h => (decode_custom0 _).trans (VA.formB_ok .vrgather h))
theorem vcompress (o : OpB) : Statement (.vcompress o) :=
  of_word rfl (fun h => (decode_custom0 _).trans (VA.formB_ok .vcompress h))
theorem vredsum (o : OpB) : Statement (.vredsum o) :=
  of_word rfl (fun h => (decode_custom0 _).trans (VA.formB_ok .vredsum h))
theorem vredmin (o : OpB) : Statement (.vredmin o) :=
  of_word rfl (fun h => (decode_custom0 _).trans (VA.formB_ok .vredmin h))
theorem vredmax (o : OpB) : Statement (.vredmax o) :=
  of_word rfl (fun h => (decode_custom0 _).trans (VA.formB_ok .vredmax h))
theorem vredand (o : OpB) : Statement (.vredand o) :=
  of_word rfl (fun h => (decode_custom0 _).trans (VA.formB_ok .vredand h))
theorem vredor (o : OpB) : Statement (.vredor o) :=
  of_word rfl (fun h => (decode_custom0 _).trans (VA.formB_ok .vredor h))
theorem vfredo (o : OpB) : Statement (.vfredo o) :=
  of_word rfl (fun h => (decode_custom0 _).trans (VA.formB_ok .vfredo h))
theorem vfredt (o : OpB) : Statement (.vfredt o) :=
  of_word rfl (fun h => (decode_custom0 _).trans (VA.formB_ok .vfredt h))
theorem vfredmin (o : OpB) : Statement (.vfredmin o) :=
  of_word rfl (fun h => (decode_custom0 _).trans (VA.formB_ok .vfredmin h))
theorem vfredmax (o : OpB) : Statement (.vfredmax o) :=
  of_word rfl (fun h => (decode_custom0 _).trans (VA.formB_ok .vfredmax h))
theorem vscan (o : OpS) : Statement (.vscan o) :=
  of_word rfl (fun h => (decode_custom0 _).trans (VA.formS_ok (sr := (.upTo 2)) (o := o) .vscan h))
theorem vmvXS (o : OpXR) : Statement (.vmvXS o) :=
  of_word rfl (fun h => (decode_custom0 _).trans (VA.formXR_ok (mr := .never) (o := o) .vmvXS h))
theorem vmvSX (o : OpD) : Statement (.vmvSX o) :=
  of_word rfl (fun h => (decode_custom0 _).trans (VA.formD_ok .vmvSX h))
theorem vgperm (o : OpB) : Statement (.vgperm o) :=
  of_word rfl (fun h => (decode_custom0 _).trans (VA.formB_ok .vgperm h))
theorem vgred (o : OpS) : Statement (.vgred o) :=
  of_word rfl (fun h => (decode_custom0 _).trans (VA.formS_ok (sr := (.upTo 4)) (o := o) .vgred h))
theorem vgbcast (o : OpB) : Statement (.vgbcast o) :=
  of_word rfl (fun h => (decode_custom0 _).trans (VA.formB_ok .vgbcast h))
theorem vqE4m3 (o : OpB) : Statement (.vqE4m3 o) :=
  of_word rfl (fun h => (decode_custom2 _).trans (VA.formB_ok .vqE4m3 h))
theorem vqE5m2 (o : OpB) : Statement (.vqE5m2 o) :=
  of_word rfl (fun h => (decode_custom2 _).trans (VA.formB_ok .vqE5m2 h))
theorem vqE2m1 (o : OpB) : Statement (.vqE2m1 o) :=
  of_word rfl (fun h => (decode_custom2 _).trans (VA.formB_ok .vqE2m1 h))
theorem vdq (o : OpB) : Statement (.vdq o) :=
  of_word rfl (fun h => (decode_custom2 _).trans (VA.formB_ok .vdq h))
theorem vsclmk (o : OpU) : Statement (.vsclmk o) :=
  of_word rfl (fun h => (decode_custom2 _).trans (VA.formU_ok (mr := .never) (o := o) .vsclmk h))
theorem vmxdot (o : OpB) : Statement (.vmxdot o) :=
  of_word rfl (fun h => (decode_custom2 _).trans (VA.formB_ok .vmxdot h))
theorem vmxmm (o : OpB) : Statement (.vmxmm o) :=
  of_word rfl (fun h => (decode_custom2 _).trans (VA.formB_ok .vmxmm h))
theorem vpkscl (o : OpB) : Statement (.vpkscl o) :=
  of_word rfl (fun h => (decode_custom2 _).trans (VA.formB_ok .vpkscl h))
theorem vaccX (o : OpD) : Statement (.vaccX o) :=
  of_word rfl (fun h => (decode_custom2 _).trans (VA.formD_ok .vaccX h))
theorem vaccI (vs2 rs1 : Reg) : Statement (.vaccI vs2 rs1) :=
  of_word rfl (fun _ => (decode_custom2 _).trans rfl)
theorem vaccZ (rs1 : Reg) : Statement (.vaccZ rs1) :=
  of_word rfl (fun _ => (decode_custom2 _).trans rfl)
theorem lfAdd (o : OpB) : Statement (.lfAdd o) :=
  of_word rfl (fun h => (decode_custom2 _).trans (VA.formB_ok .lfAdd h))
theorem lfSub (o : OpB) : Statement (.lfSub o) :=
  of_word rfl (fun h => (decode_custom2 _).trans (VA.formB_ok .lfSub h))
theorem lfMul (o : OpB) : Statement (.lfMul o) :=
  of_word rfl (fun h => (decode_custom2 _).trans (VA.formB_ok .lfMul h))
theorem lfFma (o : OpB) : Statement (.lfFma o) :=
  of_word rfl (fun h => (decode_custom2 _).trans (VA.formB_ok .lfFma h))
theorem lfDiv (o : OpB) : Statement (.lfDiv o) :=
  of_word rfl (fun h => (decode_custom2 _).trans (VA.formB_ok .lfDiv h))
theorem lfSqrt (o : OpU) : Statement (.lfSqrt o) :=
  of_word rfl (fun h => (decode_custom2 _).trans (VA.formU_ok (mr := .optional) (o := o) .lfSqrt h))
theorem lfRnd (o : OpU) : Statement (.lfRnd o) :=
  of_word rfl (fun h => (decode_custom2 _).trans (VA.formU_ok (mr := .optional) (o := o) .lfRnd h))
theorem lfFromf (o : OpS) : Statement (.lfFromf o) :=
  of_word rfl (fun h => (decode_custom2 _).trans (VA.formS_ok (sr := (.upTo 3)) (o := o) .lfFromf h))
theorem lfTof (o : OpS) : Statement (.lfTof o) :=
  of_word rfl (fun h => (decode_custom2 _).trans (VA.formS_ok (sr := (.upTo 3)) (o := o) .lfTof h))
theorem lfFromx (o : OpS) : Statement (.lfFromx o) :=
  of_word rfl (fun h => (decode_custom2 _).trans (VA.formS_ok (sr := (.upTo 1)) (o := o) .lfFromx h))
theorem lfTox (o : OpS) : Statement (.lfTox o) :=
  of_word rfl (fun h => (decode_custom2 _).trans (VA.formS_ok (sr := (.upTo 1)) (o := o) .lfTox h))
theorem lfCmpLt (o : OpB) : Statement (.lfCmpLt o) :=
  of_word rfl (fun h => (decode_custom2 _).trans (by obtain ⟨vd, vs2, src, m⟩ := o; cases src <;> first | rfl | exact nomatch h))
theorem lfCmpLe (o : OpB) : Statement (.lfCmpLe o) :=
  of_word rfl (fun h => (decode_custom2 _).trans (by obtain ⟨vd, vs2, src, m⟩ := o; cases src <;> first | rfl | exact nomatch h))
theorem lfCmpEq (o : OpB) : Statement (.lfCmpEq o) :=
  of_word rfl (fun h => (decode_custom2 _).trans (by obtain ⟨vd, vs2, src, m⟩ := o; cases src <;> first | rfl | exact nomatch h))
theorem lfCmpUn (o : OpB) : Statement (.lfCmpUn o) :=
  of_word rfl (fun h => (decode_custom2 _).trans (by obtain ⟨vd, vs2, src, m⟩ := o; cases src <;> first | rfl | exact nomatch h))
theorem lfLen (o : OpU) : Statement (.lfLen o) :=
  of_word rfl (fun h => (decode_custom2 _).trans (VA.formU_ok (mr := .optional) (o := o) .lfLen h))
theorem lfSgnj (o : OpB) : Statement (.lfSgnj o) :=
  of_word rfl (fun h => (decode_custom2 _).trans (VA.formB_ok .lfSgnj h))
theorem gbox (o : OpB) : Statement (.gbox o) :=
  of_word rfl (fun h => (decode_custom2 _).trans (VA.formB_ok .gbox h))
theorem gtri (o : OpB) : Statement (.gtri o) :=
  of_word rfl (fun h => (decode_custom2 _).trans (VA.formB_ok .gtri h))
theorem gsetup (o : OpU) : Statement (.gsetup o) :=
  of_word rfl (fun h => (decode_custom2 _).trans (VA.formU_ok (mr := .optional) (o := o) .gsetup h))
theorem gcov (o : OpB) : Statement (.gcov o) :=
  of_word rfl (fun h => (decode_custom2 _).trans (VA.formB_ok .gcov h))
theorem gtex (o : OpB) : Statement (.gtex o) :=
  of_word rfl (fun h => (decode_custom2 _).trans (VA.formB_ok .gtex h))
theorem gblend (o : OpB) : Statement (.gblend o) :=
  of_word rfl (fun h => (decode_custom2 _).trans (VA.formB_ok .gblend h))
theorem grsvUpd (o : OpB) : Statement (.grsvUpd o) :=
  of_word rfl (fun h => (decode_custom2 _).trans (VA.formB_ok .grsvUpd h))
theorem grsvMrg (o : OpB) : Statement (.grsvMrg o) :=
  of_word rfl (fun h => (decode_custom2 _).trans (VA.formB_ok .grsvMrg h))
theorem gpack (o : OpU) : Statement (.gpack o) :=
  of_word rfl (fun h => (decode_custom2 _).trans (VA.formU_ok (mr := .optional) (o := o) .gpack h))
theorem vdsegL2 (o : OpB) : Statement (.vdsegL2 o) :=
  of_word rfl (fun h => (decode_custom2 _).trans (VA.formB_ok .vdsegL2 h))
theorem vdsegIp (o : OpB) : Statement (.vdsegIp o) :=
  of_word rfl (fun h => (decode_custom2 _).trans (VA.formB_ok .vdsegIp h))
theorem vtopk (o : OpB) : Statement (.vtopk o) :=
  of_word rfl (fun h => (decode_custom2 _).trans (VA.formB_ok .vtopk h))
theorem vtopkM (o : OpU) : Statement (.vtopkM o) :=
  of_word rfl (fun h => (decode_custom2 _).trans (VA.formU_ok (mr := .never) (o := o) .vtopkM h))
theorem vld (o : OpM) : Statement (.vld o) :=
  of_word rfl (fun h => (decode_custom1 _).trans (VM.mem_ok .vld h))
theorem vlds (o : OpM) : Statement (.vlds o) :=
  of_word rfl (fun h => (decode_custom1 _).trans (VM.mem_ok .vlds h))
theorem vldx (o : OpM) : Statement (.vldx o) :=
  of_word rfl (fun h => (decode_custom1 _).trans (VM.mem_ok .vldx h))
theorem vldff (o : OpM) : Statement (.vldff o) :=
  of_word rfl (fun h => (decode_custom1 _).trans (VM.mem_ok .vldff h))
theorem vldxff (o : OpM) : Statement (.vldxff o) :=
  of_word rfl (fun h => (decode_custom1 _).trans (VM.mem_ok .vldxff h))
theorem vldr (o : OpDS) : Statement (.vldr o) :=
  of_word rfl (fun _ => (decode_custom1 _).trans rfl)
theorem vst (o : OpM) : Statement (.vst o) :=
  of_word rfl (fun h => (decode_custom1 _).trans (VM.mem_ok .vst h))
theorem vsts (o : OpM) : Statement (.vsts o) :=
  of_word rfl (fun h => (decode_custom1 _).trans (VM.mem_ok .vsts h))
theorem vstx (o : OpM) : Statement (.vstx o) :=
  of_word rfl (fun h => (decode_custom1 _).trans (VM.mem_ok .vstx h))
theorem vstxo (o : OpM) : Statement (.vstxo o) :=
  of_word rfl (fun h => (decode_custom1 _).trans (VM.mem_ok .vstxo h))
theorem vstr (o : OpDS) : Statement (.vstr o) :=
  of_word rfl (fun _ => (decode_custom1 _).trans rfl)
theorem vstrip (o : OpDS) : Statement (.vstrip o) :=
  of_word rfl (fun _ => (decode_custom1 _).trans rfl)
theorem vstripK (o : OpDS) : Statement (.vstripK o) :=
  of_word rfl (fun _ => (decode_custom1 _).trans (by simp [decodeCustom1, decodeConfMode]))
theorem vcfg (o : OpDS) : Statement (.vcfg o) :=
  of_word rfl (fun _ => (decode_custom1 _).trans rfl)
theorem vcfgi (rd : Reg) (vt : BitVec 14) : Statement (.vcfgi rd vt) :=
  of_word rfl (fun h => (decode_custom1 _).trans (by
    have hv := vt.isLt
    have hc : ¬ BitVec.ofNat 3 (vt.toNat / 2048) = 7#3 := by
      intro e
      have e' := congrArg BitVec.toNat e
      have h' : vt.toNat / 2048 ≠ 7 := by simpa [Instr.wellFormed, Instr.layout, Layout.ok] using h
      simp at e'
      omega
    have ht : VM.vtypeImm ⟨2, false, BitVec.ofNat 3 (vt.toNat / 2048), BitVec.ofNat 5 (vt.toNat / 64), BitVec.ofNat 5 (vt.toNat / 2),
        2, vt.toNat % 2 == 1, rd⟩ = vt := by
      apply BitVec.eq_of_toNat_eq
      have hb : (vt.toNat % 2 == 1).toNat = vt.toNat % 2 := by
        rcases Nat.mod_two_eq_zero_or_one vt.toNat with e | e <;> rw [e] <;> rfl
      simp only [VM.vtypeImm, BitVec.toNat_ofNat, hb]
      omega
    refine Eq.trans (b := if (BitVec.ofNat 3 (vt.toNat / 2048) == 7#3) = true then .error .width else
      .ok (.vcfgi rd (VM.vtypeImm ⟨2, false, BitVec.ofNat 3 (vt.toNat / 2048), BitVec.ofNat 5 (vt.toNat / 64),
        BitVec.ofNat 5 (vt.toNat / 2), 2, vt.toNat % 2 == 1, rd⟩))) rfl ?_
    rw [if_neg (fun e => hc (beq_iff_eq.mp e)), ht]))
theorem vbind (o : OpDS) : Statement (.vbind o) :=
  of_word rfl (fun _ => (decode_custom1 _).trans rfl)
theorem vunbind (vd : Reg) : Statement (.vunbind vd) :=
  of_word rfl (fun _ => (decode_custom1 _).trans rfl)
theorem vbend (rd vd : Reg) : Statement (.vbend rd vd) :=
  of_word rfl (fun _ => (decode_custom1 _).trans rfl)
theorem vnest (rs1 : Reg) (len1 : BitVec 4) : Statement (.vnest rs1 len1) :=
  of_word rfl (fun _ => (decode_custom1 _).trans (by
    have hv := len1.isLt
    have h1 : (len1.zeroExtend 5).toNat = len1.toNat := by simp; omega
    have h2 : ¬ 16 ≤ len1.toNat := by omega
    simp [decodeCustom1, decodeConfMode, h1, h2]))
theorem vctxs (rs1 : Reg) : Statement (.vctxs rs1) :=
  of_word rfl (fun _ => (decode_custom1 _).trans rfl)
theorem vctxl (rs1 : Reg) : Statement (.vctxl rs1) :=
  of_word rfl (fun _ => (decode_custom1 _).trans rfl)
theorem ecmd (rd vs1 rs2 : Reg) : Statement (.ecmd rd vs1 rs2) :=
  of_word rfl (fun _ => (decode_custom3 _).trans rfl)
theorem ecommit (b : BitVec 3) : Statement (.ecommit b) :=
  of_word rfl (fun _ => (decode_custom3 _).trans (by
    have hv := b.isLt
    have h1 : (b.zeroExtend 5).toNat = b.toNat := by simp; omega
    simp [decodeCustom3, decodeEngineClass, SF.form, h1, hv]))
theorem ewait (b : BitVec 3) : Statement (.ewait b) :=
  of_word rfl (fun _ => (decode_custom3 _).trans (by
    have hv := b.isLt
    have h1 : (b.zeroExtend 5).toNat = b.toNat := by simp; omega
    simp [decodeCustom3, decodeEngineClass, SF.form, h1, hv]))
theorem ewaitn (rs1 : Reg) : Statement (.ewaitn rs1) :=
  of_word rfl (fun _ => (decode_custom3 _).trans rfl)
theorem epoll (o : OpDS) : Statement (.epoll o) :=
  of_word rfl (fun _ => (decode_custom3 _).trans rfl)
theorem qspawn (o : OpDS) : Statement (.qspawn o) :=
  of_word rfl (fun _ => (decode_custom3 _).trans rfl)
theorem qpush (o : OpR) : Statement (.qpush o) :=
  of_word rfl (fun _ => (decode_custom3 _).trans rfl)
theorem qpushNb (o : OpR) : Statement (.qpushNb o) :=
  of_word rfl (fun _ => (decode_custom3 _).trans rfl)
theorem qpushGate (o : OpR) : Statement (.qpushGate o) :=
  of_word rfl (fun _ => (decode_custom3 _).trans rfl)
theorem qpop (o : OpR) : Statement (.qpop o) :=
  of_word rfl (fun _ => (decode_custom3 _).trans rfl)
theorem qpopNb (o : OpR) : Statement (.qpopNb o) :=
  of_word rfl (fun _ => (decode_custom3 _).trans rfl)
theorem qyield : Statement (.qyield) :=
  of_word rfl (fun _ => (decode_custom3 _).trans rfl)
theorem qexit : Statement (.qexit) :=
  of_word rfl (fun _ => (decode_custom3 _).trans rfl)
theorem qresume (o : OpDS) : Statement (.qresume o) :=
  of_word rfl (fun _ => (decode_custom3 _).trans rfl)
theorem qticket (o : OpDS) : Statement (.qticket o) :=
  of_word rfl (fun _ => (decode_custom3 _).trans rfl)
theorem qturn (rs1 rs2 : Reg) : Statement (.qturn rs1 rs2) :=
  of_word rfl (fun _ => (decode_custom3 _).trans rfl)
theorem qnext (rs1 : Reg) : Statement (.qnext rs1) :=
  of_word rfl (fun _ => (decode_custom3 _).trans rfl)
theorem slotget (o : OpDS) : Statement (.slotget o) :=
  of_word rfl (fun _ => (decode_custom3 _).trans rfl)
theorem slotret (rs1 rs2 : Reg) : Statement (.slotret rs1 rs2) :=
  of_word rfl (fun _ => (decode_custom3 _).trans rfl)
theorem qlen (o : OpDS) : Statement (.qlen o) :=
  of_word rfl (fun _ => (decode_custom3 _).trans rfl)
theorem mwait (o : OpR) : Statement (.mwait o) :=
  of_word rfl (fun _ => (decode_custom3 _).trans rfl)
theorem barv (rs1 : Reg) : Statement (.barv rs1) :=
  of_word rfl (fun _ => (decode_custom3 _).trans rfl)
theorem barw (rs1 : Reg) : Statement (.barw rs1) :=
  of_word rfl (fun _ => (decode_custom3 _).trans rfl)
theorem barvw (rs1 : Reg) : Statement (.barvw rs1) :=
  of_word rfl (fun _ => (decode_custom3 _).trans rfl)
theorem barq (o : OpDS) : Statement (.barq o) :=
  of_word rfl (fun _ => (decode_custom3 _).trans rfl)
theorem ofence (scope : Reg) (pred succ : BitVec 4) : Statement (.ofence scope pred succ) :=
  of_word rfl (fun h => (decode_custom3 _).trans (by
    have hp := pred.isLt
    have hq := succ.isLt
    have h1 : (pred.zeroExtend 5).toNat = pred.toNat := by simp; omega
    have h2 : (succ.zeroExtend 5).toNat = succ.toNat := by simp; omega
    have h3 : scope.toNat ≤ 5 := by simpa [Instr.wellFormed, Instr.layout, Layout.ok] using h
    have h4 : ¬ (16 ≤ pred.toNat ∨ 16 ≤ succ.toNat) := by omega
    have h5 : ¬ 5 < scope.toNat := by omega
    simp [decodeCustom3, decodeFenceClass, h1, h2, h4, h5]))
theorem xfence (scope : Reg) : Statement (.xfence scope) :=
  of_word rfl (fun h => (decode_custom3 _).trans (by
    have h3 : scope.toNat ≤ 5 := by simpa [Instr.wellFormed, Instr.layout, Layout.ok] using h
    have h5 : ¬ 5 < scope.toNat := by omega
    simp [decodeCustom3, decodeFenceClass, SF.form, h5]))
theorem act (o : OpAct) : Statement (.act o) :=
  of_word rfl (fun h => (decode_custom3 _).trans (by
    have hid := o.id.isLt
    have h2 : (BitVec.ofNat 7 (0 * 32 + o.id.toNat)).toNat / 32 = 0 := by simp; omega
    have h3 : BitVec.ofNat 5 (BitVec.ofNat 7 (0 * 32 + o.id.toNat)).toNat = o.id := by
      apply BitVec.eq_of_toNat_eq; simp; omega
    have h4 : (o.s1 == 0) = false := by
      have h' : (o.s1 != 0) = true := h
      simpa using h'
    show decodeActClass ⟨BitVec.ofNat 7 (0 * 32 + o.id.toNat), o.s2, o.s1, 4, o.d⟩ = _
    unfold decodeActClass
    simp only [h2, h3]
    rw [h4]; rfl))
theorem actS (o : OpAct) : Statement (.actS o) :=
  of_word rfl (fun h => (decode_custom3 _).trans (by
    have hid := o.id.isLt
    have h2 : (BitVec.ofNat 7 (1 * 32 + o.id.toNat)).toNat / 32 = 1 := by simp; omega
    have h3 : BitVec.ofNat 5 (BitVec.ofNat 7 (1 * 32 + o.id.toNat)).toNat = o.id := by
      apply BitVec.eq_of_toNat_eq; simp; omega
    have h4 : (o.s1 == 0) = false := by
      have h' : (o.s1 != 0) = true := h
      simpa using h'
    show decodeActClass ⟨BitVec.ofNat 7 (1 * 32 + o.id.toNat), o.s2, o.s1, 4, o.d⟩ = _
    unfold decodeActClass
    simp only [h2, h3]
    rw [h4]; rfl))
theorem vact (o : OpAct) : Statement (.vact o) :=
  of_word rfl (fun _ => (decode_custom3 _).trans (by
    have hid := o.id.isLt
    have h2 : (BitVec.ofNat 7 (2 * 32 + o.id.toNat)).toNat / 32 = 2 := by simp; omega
    have h3 : BitVec.ofNat 5 (BitVec.ofNat 7 (2 * 32 + o.id.toNat)).toNat = o.id := by
      apply BitVec.eq_of_toNat_eq; simp; omega
    show decodeActClass ⟨BitVec.ofNat 7 (2 * 32 + o.id.toNat), o.s2, o.s1, 4, o.d⟩ = _
    unfold decodeActClass
    simp only [h2, h3]))
theorem vactS (o : OpAct) : Statement (.vactS o) :=
  of_word rfl (fun _ => (decode_custom3 _).trans (by
    have hid := o.id.isLt
    have h2 : (BitVec.ofNat 7 (3 * 32 + o.id.toNat)).toNat / 32 = 3 := by simp; omega
    have h3 : BitVec.ofNat 5 (BitVec.ofNat 7 (3 * 32 + o.id.toNat)).toNat = o.id := by
      apply BitVec.eq_of_toNat_eq; simp; omega
    show decodeActClass ⟨BitVec.ofNat 7 (3 * 32 + o.id.toNat), o.s2, o.s1, 4, o.d⟩ = _
    unfold decodeActClass
    simp only [h2, h3]))
theorem actInst (rd rs2 : Reg) (id : BitVec 5) : Statement (.actInst rd rs2 id) :=
  of_word rfl (fun _ => (decode_custom3 _).trans (by
    have hid := id.isLt
    have h2 : (BitVec.ofNat 7 (0 * 32 + id.toNat)).toNat / 32 = 0 := by simp; omega
    have h3 : BitVec.ofNat 5 (BitVec.ofNat 7 (0 * 32 + id.toNat)).toNat = id := by
      apply BitVec.eq_of_toNat_eq; simp; omega
    show decodeActClass ⟨BitVec.ofNat 7 (0 * 32 + id.toNat), rs2, 0, 4, rd⟩ = _
    unfold decodeActClass
    simp only [h2, h3]
    rfl))
theorem actInstS (rd rs2 : Reg) (id : BitVec 5) : Statement (.actInstS rd rs2 id) :=
  of_word rfl (fun _ => (decode_custom3 _).trans (by
    have hid := id.isLt
    have h2 : (BitVec.ofNat 7 (1 * 32 + id.toNat)).toNat / 32 = 1 := by simp; omega
    have h3 : BitVec.ofNat 5 (BitVec.ofNat 7 (1 * 32 + id.toNat)).toNat = id := by
      apply BitVec.eq_of_toNat_eq; simp; omega
    show decodeActClass ⟨BitVec.ofNat 7 (1 * 32 + id.toNat), rs2, 0, 4, rd⟩ = _
    unfold decodeActClass
    simp only [h2, h3]
    rfl))
theorem hbsave (rs1 : Reg) : Statement (.hbsave rs1) :=
  of_word rfl (fun _ => (decode_custom3 _).trans rfl)
theorem hbload (rs1 : Reg) : Statement (.hbload rs1) :=
  of_word rfl (fun _ => (decode_custom3 _).trans rfl)
theorem mgnsafe (rs1 : Reg) : Statement (.mgnsafe rs1) :=
  of_word rfl (fun _ => (decode_custom3 _).trans rfl)
theorem mgnrel : Statement (.mgnrel) :=
  of_word rfl (fun _ => (decode_custom3 _).trans rfl)
theorem gjoin (o : OpDS) : Statement (.gjoin o) :=
  of_word rfl (fun _ => (decode_custom3 _).trans rfl)
theorem gleave : Statement (.gleave) :=
  of_word rfl (fun _ => (decode_custom3 _).trans rfl)
theorem vrel : Statement (.vrel) :=
  of_word rfl (fun _ => (decode_custom3 _).trans rfl)
theorem cquar (rs1 : Reg) : Statement (.cquar rs1) :=
  of_word rfl (fun _ => (decode_custom3 _).trans rfl)
theorem load (o : OpLoad) : Statement (.load o) :=
  of_word rfl (fun h => (decode_load _).trans (by
    obtain ⟨wd, u, rd, rs1, imm⟩ := o
    have hi := SF.immI_of imm (BitVec.ofNat 3 (wd.code + if u then 4 else 0)) rs1 rd
    cases wd <;> cases u <;> first
      | exact congrArg (fun i => Except.ok (Instr.load ⟨.b, false, rd, rs1, i⟩)) hi
      | exact congrArg (fun i => Except.ok (Instr.load ⟨.b, true, rd, rs1, i⟩)) hi
      | exact congrArg (fun i => Except.ok (Instr.load ⟨.h, false, rd, rs1, i⟩)) hi
      | exact congrArg (fun i => Except.ok (Instr.load ⟨.h, true, rd, rs1, i⟩)) hi
      | exact congrArg (fun i => Except.ok (Instr.load ⟨.w, false, rd, rs1, i⟩)) hi
      | exact congrArg (fun i => Except.ok (Instr.load ⟨.w, true, rd, rs1, i⟩)) hi
      | exact congrArg (fun i => Except.ok (Instr.load ⟨.d, false, rd, rs1, i⟩)) hi
      | exact nomatch h))
theorem store (o : OpStore) : Statement (.store o) :=
  of_word rfl (fun _ => (decode_store _).trans (by
    obtain ⟨wd, rs1, rs2, imm⟩ := o
    have hi := SF.immS_of imm rs2 rs1 (BitVec.ofNat 3 wd.code)
    cases wd <;> exact congrArg (fun i => Except.ok (Instr.store ⟨_, rs1, rs2, i⟩)) hi))
theorem lr (o : OpAmo) : Statement (.lr o) :=
  of_word rfl (fun h => (decode_amo _).trans (by
    obtain ⟨wide, aq, rl, rd, rs1, rs2⟩ := o
    have h2 : rs2 = 0 := by simpa [Instr.wellFormed, Instr.layout, Layout.ok] using h
    subst h2
    cases wide <;> cases aq <;> cases rl <;> simp [decodeAmo]))
theorem sc (o : OpAmo) : Statement (.sc o) :=
  of_word rfl (fun _ => (decode_amo _).trans (by
    obtain ⟨wide, aq, rl, rd, rs1, rs2⟩ := o
    cases wide <;> cases aq <;> cases rl <;> simp [decodeAmo]))
theorem amo (f : AmoOp) (o : OpAmo) : Statement (.amo f o) :=
  of_word rfl (fun _ => (decode_amo _).trans (by
    obtain ⟨wide, aq, rl, rd, rs1, rs2⟩ := o
    cases f <;> cases wide <;> cases aq <;> cases rl <;> simp [decodeAmo, amoOpOf, AmoOp.funct5]))
theorem fence (o : OpFence) : Statement (.fence o) :=
  of_word rfl (fun h => (decode_miscMem _).trans (by
    have h2 : (o.fm == 8#4 && o.pred == 3#4 && o.succ == 3#4) = false := by
      have h' : (!(o.fm == 8#4 && o.pred == 3#4 && o.succ == 3#4)) = true := h
      rw [Bool.not_eq_true'] at h'
      exact h'
    refine (decodeMiscMem_fence o).trans ?_
    rw [h2]
    rfl))
theorem fenceTso (o : OpFence) : Statement (.fenceTso o) :=
  of_word rfl (fun h => (decode_miscMem _).trans ((decodeMiscMem_fence o).trans (if_pos h)))
theorem fenceI (rd rs1 : Reg) (imm : BitVec 12) : Statement (.fenceI rd rs1 imm) :=
  of_word rfl (fun _ => (decode_miscMem _).trans
    (congrArg (fun i => Except.ok (Instr.fenceI rd rs1 i)) (SF.immI_of imm 1 rs1 rd)))
theorem sfenceVma (rs1 rs2 : Reg) : Statement (.sfenceVma rs1 rs2) :=
  of_word rfl (fun _ => (decode_system _).trans rfl)
theorem wfi : Statement (.wfi) :=
  of_word rfl (fun _ => (decode_system _).trans rfl)
theorem sret : Statement (.sret) :=
  of_word rfl (fun _ => (decode_system _).trans rfl)
theorem mret : Statement (.mret) :=
  of_word rfl (fun _ => (decode_system _).trans rfl)
theorem ecall : Statement (.ecall) :=
  of_word rfl (fun _ => (decode_system _).trans rfl)
theorem ebreak : Statement (.ebreak) :=
  of_word rfl (fun _ => (decode_system _).trans rfl)
theorem baseInstruction (b : Base) : Statement (.baseInstruction b) := by
  cases b with
  | lui rd imm => exact of_word rfl (fun _ => (decode_lui _).trans (by
      have h : SF.immU ⟨_, _, _, _, rd⟩ = _ := SF.immU_of (d := rd) _ imm.isLt
      exact congrArg (fun i => Except.ok (Instr.baseInstruction (.lui rd i))) (h.trans (by simp))))
  | auipc rd imm => exact of_word rfl (fun _ => (decode_auipc _).trans (by
      have h : SF.immU ⟨_, _, _, _, rd⟩ = _ := SF.immU_of (d := rd) _ imm.isLt
      exact congrArg (fun i => Except.ok (Instr.baseInstruction (.auipc rd i))) (h.trans (by simp))))
  | jal rd imm => exact of_word rfl (fun _ => (decode_jal _).trans
      (congrArg (fun i => Except.ok (Instr.baseInstruction (.jal rd i))) (SF.immJ_of (d := rd) imm)))
  | jalr rd rs1 imm =>
    exact of_word rfl (fun _ => (decode_jalr _).trans
      (congrArg (fun i => Except.ok (Instr.baseInstruction (.jalr rd rs1 i))) (SF.immI_of imm 0 rs1 rd)))
  | branch c rs1 rs2 imm =>
    exact of_word rfl (fun _ => (decode_branch _).trans (by
      have hi := SF.immB_of imm rs2 rs1 (BitVec.ofNat 3 c.code)
      cases c <;> exact congrArg (fun i => Except.ok (Instr.baseInstruction (.branch _ rs1 rs2 i))) hi))
  | opImm f rd rs1 imm => exact of_word rfl (fun h => (decode_opImm _).trans (opImm_ok f rd rs1 imm h))
  | opImmW f rd rs1 imm => exact of_word rfl (fun h => (decode_opImmW _).trans (opImmW_ok f rd rs1 imm h))
  | op f rd rs1 rs2 => exact of_word rfl (fun _ => (decode_op _).trans (by cases f <;> rfl))
  | opW f rd rs1 rs2 => exact of_word rfl (fun _ => (decode_opW _).trans (by cases f <;> rfl))
  | csrRead fn imm csr rd =>
    exact of_word rfl (fun h => (decode_csrWord ⟨fn, imm, csr, rd, 0⟩).trans (by
      have hf : fn ≠ .rw := by simpa [Instr.wellFormed, Instr.layout, Layout.ok, Base.wellFormed] using h
      simp [csrTarget, OpCsr.writes, hf]))
theorem vtypeWrite (o : OpCsr) : Statement (.vtypeWrite o) :=
  of_word rfl (fun h => (decode_csrWord o).trans (by
    have hb : ((o.csr == 0x801#12) && o.writes) = true := h
    rw [Bool.and_eq_true] at hb
    have hw : o.writes = true := hb.2
    have hn : (o.csr == 0x801#12) = true := hb.1
    have hc : o.csr = 0x801#12 := by simpa using hn
    simp [csrTarget, hw, hc]))
theorem vreclaimWrite (o : OpCsr) : Statement (.vreclaimWrite o) :=
  of_word rfl (fun h => (decode_csrWord o).trans (by
    have hb : ((o.csr == 0x5C6#12) && o.writes) = true := h
    rw [Bool.and_eq_true] at hb
    have hw : o.writes = true := hb.2
    have hn : (o.csr == 0x5C6#12) = true := hb.1
    have hc : o.csr = 0x5C6#12 := by simpa using hn
    simp [csrTarget, hw, hc]))
theorem satpWrite (o : OpCsr) : Statement (.satpWrite o) :=
  of_word rfl (fun h => (decode_csrWord o).trans (by
    have hb : ((o.csr == 0x180#12) && o.writes) = true := h
    rw [Bool.and_eq_true] at hb
    have hw : o.writes = true := hb.2
    have hn : (o.csr == 0x180#12) = true := hb.1
    have hc : o.csr = 0x180#12 := by simpa using hn
    simp [csrTarget, hw, hc]))
theorem mgnctlWrite (o : OpCsr) : Statement (.mgnctlWrite o) :=
  of_word rfl (fun h => (decode_csrWord o).trans (by
    have hb : ((o.csr == 0x7C0#12) && o.writes) = true := h
    rw [Bool.and_eq_true] at hb
    have hw : o.writes = true := hb.2
    have hn : (o.csr == 0x7C0#12) = true := hb.1
    have hc : o.csr = 0x7C0#12 := by simpa using hn
    simp [csrTarget, hw, hc]))
theorem stashMapWord0Write (core entry : Nat) (v : Word) : Statement (.stashMapWord0Write core entry v) := of_none rfl
theorem stashMapWord1Write (core entry : Nat) (v : Word) : Statement (.stashMapWord1Write core entry v) := of_none rfl
theorem snapshot (core : Nat) (v : Word) : Statement (.snapshot core v) := of_none rfl
theorem snapshotEnd (core : Nat) : Statement (.snapshotEnd core) := of_none rfl
theorem requeue (core ctx : Nat) (v : Word) : Statement (.requeue core ctx v) := of_none rfl
theorem saveareaRead (core ctx : Nat) (rd : Reg) : Statement (.saveareaRead core ctx rd) := of_none rfl
theorem lvcfgWrite (die : Nat) (v : Word) : Statement (.lvcfgWrite die v) := of_none rfl
theorem registerWrite (t : RegTarget) : Statement (.registerWrite t) := by
  cases t with
  | csr o =>
    exact of_word rfl (fun h => (decode_csrWord o).trans (by
      have hb : (!isSpecialCsr o.csr && o.writes) = true := h
      rw [Bool.and_eq_true] at hb
      have hw : o.writes = true := hb.2
      have hn := hb.1
      simp only [isSpecialCsr, Bool.not_eq_true', Bool.or_eq_false_iff] at hn
      simp [csrTarget, hw, hn.1.1.1, hn.1.1.2, hn.1.2, hn.2]))
  | bar0 off v => exact of_none rfl
  | block c off v => exact of_none rfl
theorem queue (r : CfgReq) : Statement (.queue r) := of_none rfl
theorem turnstile (r : CfgReq) : Statement (.turnstile r) := of_none rfl
theorem pool (r : CfgReq) : Statement (.pool r) := of_none rfl
theorem barrier (r : CfgReq) : Statement (.barrier r) := of_none rfl
theorem pinned (r : CfgReq) : Statement (.pinned r) := of_none rfl
theorem sched (r : CfgReq) : Statement (.sched r) := of_none rfl
theorem aspace (r : CfgReq) : Statement (.aspace r) := of_none rfl
theorem asrel (r : CfgReq) : Statement (.asrel r) := of_none rfl
theorem fenceRequest (r : CfgReq) : Statement (.fenceRequest r) := of_none rfl
theorem capkey (r : CfgReq) : Statement (.capkey r) := of_none rfl
theorem ring (r : CfgReq) : Statement (.ring r) := of_none rfl
theorem nvmeqp (r : CfgReq) : Statement (.nvmeqp r) := of_none rfl
theorem waitword (r : CfgReq) : Statement (.waitword r) := of_none rfl
theorem subscribe (r : CfgReq) : Statement (.subscribe r) := of_none rfl
theorem launch (r : CfgReq) : Statement (.launch r) := of_none rfl
theorem install (r : CfgReq) : Statement (.install r) := of_none rfl
theorem hostPush (queue size : Nat) (words : List Word) : Statement (.hostPush queue size words) := of_none rfl
theorem hostRead (off : Nat) (wd : MemW) : Statement (.hostRead off wd) := of_none rfl
theorem hostWrite (off : Nat) (wd : MemW) (v : Word) : Statement (.hostWrite off wd v) := of_none rfl
theorem atsInvalidation (page : Nat) : Statement (.atsInvalidation page) := of_none rfl
theorem kmma (core node : Nat) : Statement (.kmma core node) := of_none rfl
theorem kcopy (core node : Nat) : Statement (.kcopy core node) := of_none rfl
theorem kgath (core node : Nat) : Statement (.kgath core node) := of_none rfl
theorem kscat (core node : Nat) : Statement (.kscat core node) := of_none rfl
theorem kfill (core node : Nat) : Statement (.kfill core node) := of_none rfl
theorem kred (core node : Nat) : Statement (.kred core node) := of_none rfl
theorem kcoll (core node : Nat) : Statement (.kcoll core node) := of_none rfl
theorem kdisk (core node : Nat) : Statement (.kdisk core node) := of_none rfl
theorem knest (core node : Nat) : Statement (.knest core node) := of_none rfl
theorem ksig (core node : Nat) : Statement (.ksig core node) := of_none rfl
theorem commandLaunch (core node : Nat) : Statement (.commandLaunch core node) := of_none rfl
theorem leaveAdmit (die : Nat) : Statement (.leaveAdmit die) := of_none rfl
theorem leaveWaitExpire (die : Nat) (core node : Nat) : Statement (.leaveWaitExpire die core node) := of_none rfl
theorem kmmaRowFinish (core node : Nat) : Statement (.kmmaRowFinish core node) := of_none rfl
theorem commandComplete (core node : Nat) : Statement (.commandComplete core node) := of_none rfl
theorem commandFault (core node : Nat) (status : BitVec 8) : Statement (.commandFault core node status) := of_none rfl
theorem enginePageFaultResolved (core node : Nat) (ok : Bool) : Statement (.enginePageFaultResolved core node ok) := of_none rfl
theorem ownershipWindowTake (core node : Nat) : Statement (.ownershipWindowTake core node) := of_none rfl
theorem remoteCommandArrive (core node target : Nat) (cap : Word) : Statement (.remoteCommandArrive core node target cap) := of_none rfl
theorem remoteCompletion (core node : Nat) (status : BitVec 8) (progress : Nat) : Statement (.remoteCompletion core node status progress) := of_none rfl
theorem nvmeCompletion (qp : Nat) (cid : Nat) (status : BitVec 16) : Statement (.nvmeCompletion qp cid status) := of_none rfl
theorem actPerform (line : Nat) : Statement (.actPerform line) := of_none rfl
theorem vactComplete (core ctx : Nat) : Statement (.vactComplete core ctx) := of_none rfl
theorem vectorLoadComplete (core ctx : Nat) (vd : Reg) : Statement (.vectorLoadComplete core ctx vd) := of_none rfl
theorem boundRefillLand (core ctx : Nat) (vd : Reg) : Statement (.boundRefillLand core ctx vd) := of_none rfl
theorem channelChunkDeposit (core ctx : Nat) (vd : Reg) : Statement (.channelChunkDeposit core ctx vd) := of_none rfl
theorem vaccPerform (core : Nat) : Statement (.vaccPerform core) := of_none rfl
theorem expand (die : Nat) : Statement (.expand die) := of_none rfl
theorem expandResume (die : Nat) : Statement (.expandResume die) := of_none rfl
theorem dispatch (core ctx : Nat) : Statement (.dispatch core ctx) := of_none rfl
theorem stealAttempt (core attempt : Nat) : Statement (.stealAttempt core attempt) := of_none rfl
theorem stealAnswer (victim thief : Nat) : Statement (.stealAnswer victim thief) := of_none rfl
theorem stealBackoffEnd (core : Nat) : Statement (.stealBackoffEnd core) := of_none rfl
theorem dequeRefill (core : Nat) : Statement (.dequeRefill core) := of_none rfl
theorem agingStep (core : Nat) : Statement (.agingStep core) := of_none rfl
theorem reclaimStart (core : Nat) : Statement (.reclaimStart core) := of_none rfl
theorem reclaimTimeout (core ctx : Nat) : Statement (.reclaimTimeout core ctx) := of_none rfl
theorem reclaimInterrupt (core ctx : Nat) : Statement (.reclaimInterrupt core ctx) := of_none rfl
theorem supervisorTimerInterrupt (core ctx : Nat) : Statement (.supervisorTimerInterrupt core ctx) := of_none rfl
theorem barrierHeldPhaseComplete (dev : Bool) (die idx : Nat) : Statement (.barrierHeldPhaseComplete dev die idx) := of_none rfl
theorem barrierCompletionNotice (dev : Bool) (die idx : Nat) : Statement (.barrierCompletionNotice dev die idx) := of_none rfl
theorem barrierTimeout (dev : Bool) (die idx : Nat) : Statement (.barrierTimeout dev die idx) := of_none rfl
theorem gjoinTimeout (core ctx : Nat) : Statement (.gjoinTimeout core ctx) := of_none rfl
theorem powerWindowEnd (die : Nat) : Statement (.powerWindowEnd die) := of_none rfl
theorem timingEvent (core : Nat) (at' : EventWhere) : Statement (.timingEvent core at') := of_none rfl
theorem marginWindowEnd (core : Nat) : Statement (.marginWindowEnd core) := of_none rfl
theorem mgnsafeExpire (core : Nat) : Statement (.mgnsafeExpire core) := of_none rfl
theorem regulatorStep (core : Nat) : Statement (.regulatorStep core) := of_none rfl
theorem droopDetect (core : Nat) : Statement (.droopDetect core) := of_none rfl
theorem clockHopEnd (die : Nat) : Statement (.clockHopEnd die) := of_none rfl
theorem coldReset : Statement (.coldReset) := of_none rfl
theorem warmReset : Statement (.warmReset) := of_none rfl
theorem bootWatchdogExpire : Statement (.bootWatchdogExpire) := of_none rfl
theorem oxeilQuarantine (core : Nat) : Statement (.oxeilQuarantine core) := of_none rfl
theorem unitWindowEnd (u : Unit22) : Statement (.unitWindowEnd u) := of_none rfl
theorem oxeilSetThreshold (u : Unit22) (raise quar : Nat) : Statement (.oxeilSetThreshold u raise quar) := of_none rfl
theorem oxeilSetTimer (t : Nat) : Statement (.oxeilSetTimer t) := of_none rfl
theorem requalification (u : Unit22) : Statement (.requalification u) := of_none rfl
theorem telemetryRead (src : Nat) : Statement (.telemetryRead src) := of_none rfl
theorem telemetrySample (die : Nat) : Statement (.telemetrySample die) := of_none rfl
theorem subscriptionSample (slot : Nat) : Statement (.subscriptionSample slot) := of_none rfl
theorem laxelFlit (link : Nat) (seq : BitVec 10) (crcOk : Bool) : Statement (.laxelFlit link seq crcOk) := of_none rfl
theorem laxelReplayRequest (link : Nat) (seq : BitVec 10) : Statement (.laxelReplayRequest link seq) := of_none rfl
theorem linkDown (link : Nat) : Statement (.linkDown link) := of_none rfl
theorem e2eRequestArrive (src : Nat) (seq : BitVec 32) (age addr : Nat) (f : AmoOp) (val : Word) : Statement (.e2eRequestArrive src seq age addr f val) := of_none rfl
theorem e2eResponse (seq : BitVec 32) (busy : Bool) (val : Word) : Statement (.e2eResponse seq busy val) := of_none rfl
theorem retransmitTimeout (seq : BitVec 32) : Statement (.retransmitTimeout seq) := of_none rfl
theorem dedupExpire (src : Nat) (seq : BitVec 32) : Statement (.dedupExpire src seq) := of_none rfl
theorem powerCapMessage (seq cap lease : Nat) : Statement (.powerCapMessage seq cap lease) := of_none rfl
theorem capLeaseExpire : Statement (.capLeaseExpire) := of_none rfl
theorem spdmRequest (nonce : Nat) : Statement (.spdmRequest nonce) := of_none rfl
theorem firmwareUpdate (version : Nat) (image : Signed) : Statement (.firmwareUpdate version image) := of_none rfl
theorem activate : Statement (.activate) := of_none rfl
theorem commit : Statement (.commit) := of_none rfl
theorem cfgreqDoorbell (door : Option Nat) (v : Word) : Statement (.cfgreqDoorbell door v) := of_none rfl
theorem engineLineWrite (core node : Nat) : Statement (.engineLineWrite core node) := of_none rfl
theorem clockSourceHop (die : Nat) : Statement (.clockSourceHop die) := of_none rfl
theorem linkTrained (link : Nat) (ok : Bool) : Statement (.linkTrained link ok) := of_none rfl
theorem machineExternalInterrupt (die ctx : Nat) : Statement (.machineExternalInterrupt die ctx) := of_none rfl
theorem powerLoss : Statement (.powerLoss) := of_none rfl
theorem bucketDrain (core : Nat) : Statement (.bucketDrain core) := of_none rfl
theorem unitReplacement (u : Unit22) : Statement (.unitReplacement u) := of_none rfl

end Sys2Proof.Laws.RoundTrip
end

