-- ==== Sys2Proof/Tests/Slice0.lean ====
section
/-! SUPPORT. Tests: ill-formed instructions are refused, words decode to what the encoding tables say, single steps give what the spec's
tables and examples give, and the hypotheses of every statement are met somewhere. -/
namespace Sys2Proof.Tests
open Sys2Proof Sys2Proof.Machine Sys2Proof.Claims
set_option Elab.async false

/-! ### WellFormed refuses -/

theorem test_wf_source_kind : [Instr.vrsub ⟨1, 2, .vv 3, false⟩, .vadd ⟨1, 2, .vf 3, false⟩, .vfadd ⟨1, 2, .vi 3, false⟩,
    .vmfgt ⟨1, 2, .vv 3, false⟩, .vmand ⟨1, 2, .vx 3, false⟩, .gcov ⟨1, 2, .vv 3, false⟩, .vslide1up ⟨1, 2, .vi 3, false⟩,
    .vmfromx ⟨1, .vv 2⟩, .lfCmpLt ⟨1, 2, .vx 3, false⟩].all (fun i => !i.wellFormed) = true := by decide
theorem test_wf_mask_rule : [Instr.vmerge ⟨1, 2, .vv 3, false⟩, .vmand ⟨1, 2, .vv 3, true⟩, .vsclmk ⟨1, 2, true⟩,
    .vmtox ⟨1, 2, true⟩, .vtopk ⟨2, 4, .vv 6, true⟩].all (fun i => !i.wellFormed) = true := by decide
theorem test_wf_selector : [Instr.vfcvtFX ⟨1, 2, 8, false⟩, .vsext ⟨1, 2, 0, false⟩, .vzext ⟨1, 2, 4, false⟩, .vscan ⟨1, 2, 3, false⟩,
    .vgred ⟨1, 2, 5, false⟩, .lfTof ⟨1, 2, 4, false⟩, .lfTox ⟨1, 2, 2, false⟩].all (fun i => !i.wellFormed) = true := by decide
theorem test_wf_width : [Instr.vld ⟨1, 2, 0, 7, false⟩, .vlds ⟨1, 2, 3, 6, false⟩, .vld ⟨1, 2, 3, 0, false⟩,
    .vcfgi 1 0x3800].all (fun i => !i.wellFormed) = true := by decide
theorem test_wf_custom3 : [Instr.act ⟨1, 0, 2, 3⟩, .actS ⟨1, 0, 2, 3⟩, .ofence 6 0 0, .xfence 6].all (fun i => !i.wellFormed) = true := by decide
theorem test_wf_base : [Instr.load ⟨.d, true, 1, 2, 0⟩, .lr ⟨true, false, false, 1, 2, 3⟩, .fence ⟨8, 3, 3, 0, 0⟩, .fenceTso ⟨8, 3, 1, 0, 0⟩,
    .baseInstruction (.opImm .slli 1 2 64), .baseInstruction (.opImmW .sraiw 1 2 32), .baseInstruction (.csrRead .rw false 0x801 1)].all
    (fun i => !i.wellFormed) = true := by decide
theorem test_wf_csr : [Instr.vtypeWrite ⟨.rw, false, 0x802, 1, 2⟩, .satpWrite ⟨.rs, false, 0x180, 1, 0⟩, .mgnctlWrite ⟨.rw, false, 0x180, 1, 2⟩,
    .vreclaimWrite ⟨.rc, true, 0x5C6, 1, 0⟩, .registerWrite (.csr ⟨.rw, false, 0x801, 1, 2⟩)].all (fun i => !i.wellFormed) = true := by decide
theorem test_wf_events : Instr.wellFormed (.stashMapWord0Write 0 64 0) = false ∧ Instr.wellFormed (.snapshot 384 0) = false ∧
    Instr.wellFormed (.requeue 0 8 0) = false ∧ Instr.wellFormed (.lvcfgWrite 4 0) = false ∧ Instr.wellFormed (.kmma 0 96) = false ∧
    Instr.wellFormed (.remoteCommandArrive 0 0 384 0) = false ∧ Instr.wellFormed (.nvmeCompletion 256 0 0) = false ∧
    Instr.wellFormed (.registerWrite (.bar0 65536 0)) = false ∧ Instr.wellFormed (.subscriptionSample 64) = false ∧
    Instr.wellFormed (.laxelFlit 18 0 true) = false ∧ Instr.wellFormed (.cfgreqDoorbell (some 384) 0) = false := by decide

/-! ### Decoding: one word for every row that a word carries, from the match bits and fields of the opcode table -/

/-- Each word decodes to the instruction beside it. -/
def decodes (l : List (BitVec 32 × Instr)) : Bool := l.all (fun p => match decode p.1 with | .ok i => decide (i = p.2) | .error _ => false)

theorem test_decode_custom0_group0 : decodes [
    (0x0084B28B, .vadd ⟨5, 8, .vx 9, true⟩), (0x10F7040B, .vsub ⟨8, 15, .vv 14, false⟩), (0x2169B58B, .vrsub ⟨11, 22, .vx 19, true⟩),
    (0x31DC070B, .vmul ⟨14, 29, .vv 24, false⟩), (0x406E988B, .vmulh ⟨17, 6, .vv 29, true⟩), (0x50D38A0B, .vmulhu ⟨20, 13, .vv 7, false⟩),
    (0x61465B8B, .vmacc ⟨23, 20, .vi 12, true⟩), (0x71B88D0B, .vnmsac ⟨26, 27, .vv 17, false⟩), (0x804B1E8B, .vdiv ⟨29, 4, .vv 22, true⟩),
    (0x90BD818B, .vdivu ⟨3, 11, .vv 27, false⟩), (0xA122930B, .vrem ⟨6, 18, .vv 5, true⟩), (0xB195048B, .vremu ⟨9, 25, .vv 10, false⟩),
    (0xC027960B, .vmin ⟨12, 2, .vv 15, true⟩), (0xD09A078B, .vminu ⟨15, 9, .vv 20, false⟩), (0xE10C990B, .vmax ⟨18, 16, .vv 25, true⟩),
    (0xF17F0A8B, .vmaxu ⟨21, 23, .vv 30, false⟩)] = true := by decide +kernel

theorem test_decode_custom0_group1 : decodes [
    (0x03E43C0B, .vand ⟨24, 30, .vx 8, true⟩), (0x12768D8B, .vor ⟨27, 7, .vv 13, false⟩), (0x22E91F0B, .vxor ⟨30, 14, .vv 18, true⟩),
    (0x335B820B, .vsll ⟨4, 21, .vv 23, false⟩), (0x43CE138B, .vsrl ⟨7, 28, .vv 28, true⟩), (0x5253050B, .vsra ⟨10, 5, .vv 6, false⟩),
    (0x62C5D68B, .vsadd ⟨13, 12, .vi 11, true⟩), (0x7338080B, .vsaddu ⟨16, 19, .vv 16, false⟩),
    (0x83AA998B, .vssub ⟨19, 26, .vv 21, true⟩), (0x923D0B0B, .vssubu ⟨22, 3, .vv 26, false⟩), (0xA2A21C8B, .vsmul ⟨25, 10, .vv 4, true⟩),
    (0xB3100E0B, .vclz ⟨28, 17, false⟩), (0xC380110B, .vcpop ⟨2, 24, true⟩), (0xD219828B, .vabsd ⟨5, 1, .vv 19, false⟩),
    (0xE28C540B, .vmerge ⟨8, 8, .vi 24, true⟩), (0xF20E858B, .vmv ⟨11, .vv 29⟩)] = true := by decide +kernel

theorem test_decode_custom0_group2 : decodes [
    (0x0563B70B, .vmseq ⟨14, 22, .vx 7, true⟩), (0x15D6088B, .vmsne ⟨17, 29, .vv 12, false⟩), (0x2468DA0B, .vmslt ⟨20, 6, .vi 17, true⟩),
    (0x34DB0B8B, .vmsltu ⟨23, 13, .vv 22, false⟩), (0x454D9D0B, .vmsle ⟨26, 20, .vv 27, true⟩),
    (0x55B28E8B, .vmsleu ⟨29, 27, .vv 5, false⟩), (0x6445318B, .vmsgt ⟨3, 4, .vx 10, true⟩), (0x74B7A30B, .vmsgtu ⟨6, 11, .vx 15, false⟩),
    (0x852A148B, .vmfeq ⟨9, 18, .vv 20, true⟩), (0x959C860B, .vmfne ⟨12, 25, .vv 25, false⟩), (0xA42F178B, .vmflt ⟨15, 2, .vv 30, true⟩),
    (0xB494090B, .vmfle ⟨18, 9, .vv 8, false⟩), (0xC506FA8B, .vmfgt ⟨21, 16, .vf 13, true⟩), (0xD5796C0B, .vmfge ⟨24, 23, .vf 18, false⟩)] = true := by decide +kernel

theorem test_decode_custom0_group3 : decodes [
    (0x07EB8D8B, .vmand ⟨27, 30, .vv 23, false⟩), (0x167E0F0B, .vmor ⟨30, 7, .vv 28, false⟩), (0x26E3020B, .vmxor ⟨4, 14, .vv 6, false⟩),
    (0x3755838B, .vmandn ⟨7, 21, .vv 11, false⟩), (0x47C0150B, .vmsbf ⟨10, 28, true⟩), (0x5650068B, .vmsif ⟨13, 5, false⟩),
    (0x66C0180B, .vmsof ⟨16, 12, true⟩), (0x7730098B, .viota ⟨19, 19, false⟩), (0x86001B0B, .vid ⟨22, true⟩),
    (0x96300C8B, .vmcnt ⟨25, 3, false⟩), (0xA6A01E0B, .vmfirst ⟨28, 10, true⟩), (0xB710010B, .vmtox ⟨2, 17, false⟩),
    (0xC60EA28B, .vmfromx ⟨5, .vx 29⟩)] = true := by decide +kernel

theorem test_decode_custom0_group4 : decodes [
    (0x0813840B, .vfadd ⟨8, 1, .vv 7, false⟩), (0x1886158B, .vfsub ⟨11, 8, .vv 12, true⟩), (0x28F8870B, .vfmul ⟨14, 15, .vv 17, false⟩),
    (0x396B188B, .vfdiv ⟨17, 22, .vv 22, true⟩), (0x49D00A0B, .vfsqrt ⟨20, 29, false⟩), (0x58629B8B, .vfmin ⟨23, 6, .vv 5, true⟩),
    (0x68D50D0B, .vfmax ⟨26, 13, .vv 10, false⟩), (0x79479E8B, .vfmadd ⟨29, 20, .vv 15, true⟩),
    (0x89BA018B, .vfnmadd ⟨3, 27, .vv 20, false⟩), (0x984C930B, .vfmsub ⟨6, 4, .vv 25, true⟩),
    (0xA8BF048B, .vfnmsub ⟨9, 11, .vv 30, false⟩), (0xB924160B, .vfsgnj ⟨12, 18, .vv 8, true⟩),
    (0xC996878B, .vfsgnjn ⟨15, 25, .vv 13, false⟩), (0xD829190B, .vfsgnjx ⟨18, 2, .vv 18, true⟩), (0xE8900A8B, .vfrece ⟨21, 9, false⟩),
    (0xF9001C0B, .vfrsqe ⟨24, 16, true⟩)] = true := by decide +kernel

theorem test_decode_custom0_group5 : decodes [
    (0x0B710D8B, .vfcvtFX ⟨27, 23, 2, false⟩), (0x1BE11F0B, .vfcvtFXu ⟨30, 30, 2, true⟩), (0x2A71020B, .vfcvtXF ⟨4, 7, 2, false⟩),
    (0x3AE1138B, .vfcvtXuF ⟨7, 14, 2, true⟩), (0x4B51050B, .vfwid ⟨10, 21, 2, false⟩), (0x5BC1168B, .vfnar ⟨13, 28, 2, true⟩),
    (0x6A51080B, .vsext ⟨16, 5, 2, false⟩), (0x7AC1198B, .vzext ⟨19, 12, 2, true⟩), (0x8B300B0B, .vnclip ⟨22, 19, false⟩),
    (0x9BA01C8B, .vfclass ⟨25, 26, true⟩), (0xAA300E0B, .vfcvtBfF ⟨28, 3, false⟩), (0xBAA0110B, .vfcvtFBf ⟨2, 10, true⟩)] = true := by decide +kernel

theorem test_decode_custom0_group6 : decodes [
    (0x0D16228B, .vslideup ⟨5, 17, .vx 12, false⟩), (0x1D88B40B, .vslidedn ⟨8, 24, .vx 17, true⟩),
    (0x2C1B258B, .vslide1up ⟨11, 1, .vx 22, false⟩), (0x3C8DB70B, .vslide1dn ⟨14, 8, .vx 27, true⟩),
    (0x4CF2888B, .vrgather ⟨17, 15, .vv 5, false⟩), (0x5D650A0B, .vcompress ⟨20, 22, .vv 10, false⟩),
    (0x6DD78B8B, .vredsum ⟨23, 29, .vv 15, false⟩), (0x7C6A1D0B, .vredmin ⟨26, 6, .vv 20, true⟩),
    (0x8CDC8E8B, .vredmax ⟨29, 13, .vv 25, false⟩), (0x9D4F118B, .vredand ⟨3, 20, .vv 30, true⟩),
    (0xADB4030B, .vredor ⟨6, 27, .vv 8, false⟩), (0xBC46948B, .vfredo ⟨9, 4, .vv 13, true⟩),
    (0xCCB9060B, .vfredt ⟨12, 11, .vv 18, false⟩), (0xDD2B978B, .vfredmin ⟨15, 18, .vv 23, true⟩),
    (0xED9E090B, .vfredmax ⟨18, 25, .vv 28, false⟩), (0xFC211A8B, .vscan ⟨21, 2, 2, true⟩)] = true := by decide +kernel

theorem test_decode_custom0_group7 : decodes [
    (0x0E900C0B, .vmvXS ⟨24, 9, false⟩), (0x1E082D8B, .vmvSX ⟨27, .vx 16⟩), (0x2F7A8F0B, .vgperm ⟨30, 23, .vv 21, false⟩),
    (0x3FE1120B, .vgred ⟨4, 30, 2, true⟩), (0x4E72238B, .vgbcast ⟨7, 7, .vx 4, false⟩)] = true := by decide +kernel

theorem test_decode_custom2_group0 : decodes [
    (0x00E4955B, .vqE4m3 ⟨10, 14, .vv 9, true⟩), (0x115706DB, .vqE5m2 ⟨13, 21, .vv 14, false⟩),
    (0x21C9985B, .vqE2m1 ⟨16, 28, .vv 19, true⟩), (0x305C09DB, .vdq ⟨19, 5, .vv 24, false⟩), (0x40C00B5B, .vsclmk ⟨22, 12, false⟩),
    (0x51338CDB, .vmxdot ⟨25, 19, .vv 7, false⟩), (0x61A60E5B, .vmxmm ⟨28, 26, .vv 12, false⟩),
    (0x7038815B, .vpkscl ⟨2, 3, .vv 17, false⟩)] = true := by decide +kernel

theorem test_decode_custom2_group1 : decodes [
    (0x020B22DB, .vaccX ⟨5, .vx 22⟩), (0x131DA05B, .vaccI 17 27), (0x2202A05B, .vaccZ 5)] = true := by decide +kernel

theorem test_decode_custom2_group2 : decodes [
    (0x0415075B, .lfAdd ⟨14, 1, .vv 10, false⟩), (0x148798DB, .lfSub ⟨17, 8, .vv 15, true⟩), (0x24FA0A5B, .lfMul ⟨20, 15, .vv 20, false⟩),
    (0x356C9BDB, .lfFma ⟨23, 22, .vv 25, true⟩), (0x45DF0D5B, .lfDiv ⟨26, 29, .vv 30, false⟩), (0x54601EDB, .lfSqrt ⟨29, 6, true⟩),
    (0x64D001DB, .lfRnd ⟨3, 13, false⟩), (0x7541135B, .lfFromf ⟨6, 20, 2, true⟩), (0x85B104DB, .lfTof ⟨9, 27, 2, false⟩),
    (0x9440965B, .lfFromx ⟨12, 4, 1, true⟩), (0xA4B087DB, .lfTox ⟨15, 11, 1, false⟩), (0xB525995B, .lfCmpLt ⟨18, 18, .vv 11, true⟩),
    (0xB5982ADB, .lfCmpLe ⟨21, 25, .vv 16, false⟩), (0xB42ADC5B, .lfCmpEq ⟨24, 2, .vv 21, true⟩),
    (0xB49D6DDB, .lfCmpUn ⟨27, 9, .vv 26, false⟩), (0xC5001F5B, .lfLen ⟨30, 16, true⟩), (0xD574825B, .lfSgnj ⟨4, 23, .vv 9, false⟩)] = true := by decide +kernel

theorem test_decode_custom2_group3 : decodes [
    (0x07E713DB, .gbox ⟨7, 30, .vv 14, true⟩), (0x1679855B, .gtri ⟨10, 7, .vv 19, false⟩), (0x26E016DB, .gsetup ⟨13, 14, true⟩),
    (0x375EA85B, .gcov ⟨16, 21, .vx 29, false⟩), (0x47C3B9DB, .gtex ⟨19, 28, .vx 7, true⟩), (0x56560B5B, .gblend ⟨22, 5, .vv 12, false⟩),
    (0x66C89CDB, .grsvUpd ⟨25, 12, .vv 17, true⟩), (0x773B0E5B, .grsvMrg ⟨28, 19, .vv 22, false⟩), (0x87A0115B, .gpack ⟨2, 26, true⟩)] = true := by decide +kernel

theorem test_decode_custom2_group4 : decodes [
    (0x083282DB, .vdsegL2 ⟨5, 3, .vv 5, false⟩), (0x18A5145B, .vdsegIp ⟨8, 10, .vv 10, true⟩),
    (0x291785DB, .vtopk ⟨11, 17, .vv 15, false⟩), (0x3980075B, .vtopkM ⟨14, 24, false⟩)] = true := by decide +kernel

theorem test_decode_custom1 : decodes [
    (0x000C88AB, .vld ⟨17, 25, 0, 0, false⟩), (0x22CF1A2B, .vlds ⟨20, 30, 12, 1, true⟩), (0x44F40BAB, .vldx ⟨23, 8, 15, 2, false⟩),
    (0x86069D2B, .vldff ⟨26, 13, 0, 3, true⟩), (0xA9D90EAB, .vldxff ⟨29, 18, 29, 4, false⟩), (0xC00B81AB, .vldr ⟨3, 23⟩),
    (0x020E232B, .vst ⟨6, 28, 0, 1, false⟩), (0x256334AB, .vsts ⟨9, 6, 22, 2, true⟩), (0x47B5A62B, .vstx ⟨12, 11, 27, 3, false⟩),
    (0x684837AB, .vstxo ⟨15, 16, 4, 4, true⟩), (0xC00AA92B, .vstr ⟨18, 21⟩), (0x000D4AAB, .vstrip ⟨21, 26⟩),
    (0x00025C2B, .vstripK ⟨24, 4⟩), (0x2004CDAB, .vcfg ⟨27, 9⟩), (0x4214DF2B, .vcfgi 30 0x0853), (0x6009C22B, .vbind ⟨4, 19⟩),
    (0x800043AB, .vunbind 7), (0xA020452B, .vbend 10 2), (0xC0B3C02B, .vnest 7 11), (0xE006402B, .vctxs 12), (0x0008E02B, .vctxl 17)] = true := by decide +kernel

theorem test_decode_custom3 : decodes [
    (0x008B8B7B, .ecmd 22 23 8), (0x0202807B, .ecommit 5), (0x0403007B, .ewait 6), (0x0605007B, .ewaitn 10), (0x080782FB, .epoll ⟨5, 15⟩),
    (0x000A147B, .qspawn ⟨8, 20⟩), (0x032C95FB, .qpush ⟨11, 25, 18⟩), (0x83DF177B, .qpushNb ⟨14, 30, 29⟩),
    (0x42C418FB, .qpushGate ⟨17, 8, 12⟩), (0x05769A7B, .qpop ⟨20, 13, 23⟩), (0x84691BFB, .qpopNb ⟨23, 18, 6⟩), (0x0600107B, .qyield),
    (0x0800107B, .qexit), (0x0A0311FB, .qresume ⟨3, 6⟩), (0x0C05937B, .qticket ⟨6, 11⟩), (0x0E58107B, .qturn 16 5),
    (0x100A907B, .qnext 21), (0x120D17FB, .slotget ⟨15, 26⟩), (0x14A2107B, .slotret 4 10), (0x16049AFB, .qlen ⟨21, 9⟩),
    (0x18471C7B, .mwait ⟨24, 14, 4⟩), (0x0009A07B, .barv 19), (0x020C207B, .barw 24), (0x040EA07B, .barvw 29), (0x0603A3FB, .barq ⟨7, 7⟩),
    (0x009331FB, .ofence 3 6 9), (0x020032FB, .xfence 5), (0x3D9B487B, .act ⟨16, 22, 25, 30⟩), (0x468DC9FB, .actS ⟨19, 27, 8, 3⟩),
    (0x9132CB7B, .vact ⟨22, 5, 19, 8⟩), (0xDBE54CFB, .vactS ⟨25, 10, 30, 13⟩), (0x24D04E7B, .actInst 28 13 18),
    (0x6F80417B, .actInstS 2 24 23), (0x000CD07B, .hbsave 25), (0x020F507B, .hbload 30), (0x0404507B, .mgnsafe 8), (0x0600507B, .mgnrel),
    (0x080958FB, .gjoin ⟨17, 18⟩), (0x0A00507B, .gleave), (0x0C00507B, .vrel), (0x0E03507B, .cquar 6)] = true := by decide +kernel

theorem test_decode_base : decodes [
    (0xFF832283, .load ⟨.w, false, 5, 6, 0xFF8⟩), (0x0024D383, .load ⟨.h, true, 7, 9, 2⟩), (0x00A5B823, .store ⟨.d, 11, 10, 16⟩),
    (0xFE320FA3, .store ⟨.b, 4, 3, 0xFFF⟩), (0x140332AF, .lr ⟨true, true, false, 5, 6, 0⟩),
    (0x1A7322AF, .sc ⟨false, false, true, 5, 6, 7⟩), (0xE07332AF, .amo .maxu ⟨true, false, false, 5, 6, 7⟩),
    (0x0310000F, .fence ⟨0, 3, 1, 0, 0⟩), (0x8330000F, .fenceTso ⟨8, 3, 3, 0, 0⟩), (0x0000100F, .fenceI 0 0 0),
    (0x12628073, .sfenceVma 5 6), (0x10500073, .wfi), (0x10200073, .sret), (0x30200073, .mret), (0x00000073, .ecall),
    (0x00100073, .ebreak), (0x123452B7, .baseInstruction (.lui 5 0x12345)), (0xFFFFF317, .baseInstruction (.auipc 6 0xFFFFF)),
    (0xFFDFF0EF, .baseInstruction (.jal 1 0xFFFFE)), (0x00C280E7, .baseInstruction (.jalr 1 5 12)),
    (0x00629863, .baseInstruction (.branch .ne 5 6 8)), (0x8062F0E3, .baseInstruction (.branch .geu 5 6 0xC00)),
    (0x00500093, .baseInstruction (.opImm .addi 1 0 5)), (0x43F35293, .baseInstruction (.opImm .srai 5 6 63)),
    (0xFFF3029B, .baseInstruction (.opImmW .addiw 5 6 0xFFF)), (0x407302B3, .baseInstruction (.op .sub 5 6 7)),
    (0x027322B3, .baseInstruction (.op .mulhsu 5 6 7)), (0x027372BB, .baseInstruction (.opW .remuw 5 6 7)),
    (0xF14022F3, .baseInstruction (.csrRead .rs false 0xF14 5)), (0x801312F3, .vtypeWrite ⟨.rw, false, 0x801, 5, 6⟩),
    (0x5C60D073, .vreclaimWrite ⟨.rw, true, 0x5C6, 0, 1⟩), (0x1802A073, .satpWrite ⟨.rs, false, 0x180, 0, 5⟩),
    (0x7C02B3F3, .mgnctlWrite ⟨.rc, false, 0x7C0, 7, 5⟩), (0x802FF3F3, .registerWrite (.csr ⟨.rc, true, 0x802, 7, 31⟩))] = true := by decide +kernel

/-- vadd.vv v4, v8, v12 with mask, field by field from Table 03-3: op, group, vs2, vs1, kind, m, vd, custom-0. -/
theorem test_bits_vadd : decodes [((0#4 ++ 0#3 ++ 8#5 ++ 12#5 ++ 0#2 ++ 1#1 ++ 4#5 ++ 0x0B#7), (.vadd ⟨4, 8, .vv 12, true⟩))] = true := by decide +kernel
/-- vld v4, (x10) of width code 2 (format VM). -/
theorem test_bits_vld : decodes [((0#2 ++ 0#2 ++ 2#3 ++ 0#5 ++ 10#5 ++ 0#2 ++ 0#1 ++ 4#5 ++ 0x2B#7), (.vld ⟨4, 10, 0, 2, false⟩))] = true := by decide +kernel
/-- vcfgi x6, fp32, g2, ta, mu: the word 0x4214D32B of R104. -/
theorem test_bits_vcfgi : decodes [(0x4214D32B, (.vcfgi 6 0x0853))] = true := by decide +kernel
/-- qpush x10, x11, x12 (format S, class 1). -/
theorem test_bits_qpush : decodes [((1#7 ++ 12#5 ++ 11#5 ++ 1#3 ++ 10#5 ++ 0x7B#7), (.qpush ⟨10, 11, 12⟩))] = true := by decide +kernel
/-- Refused by name: no word at all, an operand kind vadd does not take (Table 03-6), a group-0 selector beyond Table 03-9, a mode of direction 11
that Table 04-1 does not list, and a class that Table 03-10 leaves reserved. -/
theorem test_reserved_words : [0x00000000, 0xFFFFFFFF, 0x0000700B, 0x0000705B, 0x0E00002B, 0x0000607B].all
    (fun w => match decode w with | .ok _ => false | .error _ => true) = true := by decide +kernel


/-! ### Hypotheses of the vector statements -/

/-- The state after reset with its hart at a vtype and grant: VLEN 2048, all registers full. -/
def vec (vt g : Nat) : State :=
  State.reset.modHart (fun t => { t with dev := { t.dev with vtype := BitVec.ofNat 64 vt, vgrant := BitVec.ofNat 16 g } })

/-- int32, fp32, fp16 and long floats of two limbs, with a tail of zeros, ten elements granted of 64, 64, 128 and 10. -/
def int32 : State := vec 0x43 10
def fp32 : State := vec 0x843 10
def fp16 : State := vec 0x842 10
def lf2 : State := vec 0x245 4

/-- The hypotheses that every vector statement makes of a state and an instruction's needs. -/
def Ready (s : State) (i : VInfo) : Prop := s.plain ∧ s.sliced ∧ VecReady s i

def readyB (s : State) (i : VInfo) : Bool :=
  i.legal s && !s.hart.anyEmpty (i.reads ++ i.dst) && decide (s.hart.binds = []) && s.gateOpen i.charge

theorem ready_all (s : State) (l : List VInfo) (hp : s.plain) (hs : s.sliced) (h : l.all (readyB s) = true) : ∀ i ∈ l, Ready s i := by
  intro i hi
  have hi := List.all_eq_true.mp h i hi
  simp only [readyB, Bool.and_eq_true, Bool.not_eq_true', decide_eq_true_eq] at hi
  exact ⟨hp, hs, hi.1.1.1, hi.1.1.2, hi.1.2, hi.2⟩

theorem ready_one (s : State) (i : VInfo) (hp : s.plain) (hs : s.sliced) (h : readyB s i = true) : Ready s i :=
  ready_all s [i] hp hs (by simp [h]) i (List.mem_singleton.mpr rfl)

theorem vecReady_of (s : State) (i : VInfo) (h : readyB s i = true) : VecReady s i := by
  simp only [readyB, Bool.and_eq_true, Bool.not_eq_true', decide_eq_true_eq] at h
  exact ⟨h.1.1.1, h.1.1.2, h.1.2, h.2⟩

theorem sliced_of (s : State) (h : (decide ((s.slicesOf s.cur.1 s.cur.2).Nodup) && decide (s.hart.cls ≤ 4) && decide (0 < s.hart.vlen) &&
    decide (s.hart.vlen % 512 = 0) && decide (s.hart.vlen ≤ s.hwLen s.cur.1 s.cur.2)) = true) : s.sliced := by
  simp only [Bool.and_eq_true, decide_eq_true_eq] at h
  exact ⟨h.1.1.1.1, h.1.1.1.2, h.1.1.2, h.1.2, h.2⟩

theorem int32_sliced : int32.sliced := sliced_of _ (by decide +kernel)
theorem fp32_sliced : fp32.sliced := sliced_of _ (by decide +kernel)
theorem fp16_sliced : fp16.sliced := sliced_of _ (by decide +kernel)
theorem lf2_sliced : lf2.sliced := sliced_of _ (by decide +kernel)

/-- Integer rows, moves, slides, gathers, compares, masks, reductions, scans over int32: IntegerElements, VectorMoves, Compares,
MaskRegisters, Reductions. -/
theorem witness_integer_ready : ∀ i ∈ [
    intInfo int32 ⟨4, 8, .vv 12, true⟩ 1 false, intInfo int32 ⟨4, 8, .vi 31, false⟩ 3 true, infoU int32 (intTag int32.hart.dev) 1 ⟨4, 8, true⟩,
    smulInfo int32 ⟨4, 8, .vx 5, false⟩, mergeInfo int32 ⟨4, 8, .vi 3, true⟩, moveInfo int32 ⟨4, .vx 0⟩, vidInfo int32 ⟨4, true⟩,
    infoPerm int32 true ⟨4, 8, .vx 3, false⟩, infoPerm int32 true ⟨4, 8, .vv 12, true⟩, compressInfo int32 ⟨4, 8, .vv 12, false⟩,
    infoCmp int32 (intTag int32.hart.dev) 1 ⟨4, 8, .vx 3, true⟩, logicInfo int32 ⟨4, 8, .vv 12, false⟩, firstInfo int32 ⟨4, 8, true⟩,
    fromxInfo int32 ⟨4, .vx 3⟩, iotaInfo int32 ⟨4, 8, true⟩, maskXInfo int32 ⟨3, 8, true⟩, xsInfo int32 ⟨3, 8, false⟩, sxInfo int32 ⟨4, .vx 3⟩,
    reduceInfo int32 ⟨4, 8, .vv 12, true⟩ (intTag int32.hart.dev) 1 false, scanInfo int32 ⟨4, 8, 0, true⟩, gredInfo int32 ⟨4, 8, 4, true⟩],
    Ready int32 i := ready_all _ _ rfl int32_sliced (by decide +kernel)

/-- Floating-point rows, compares, conversions, reductions, quantising, ray tests and distances over fp32. -/
theorem witness_float_ready : ∀ i ∈ [
    fpInfo fp32 ⟨4, 8, .vv 12, true⟩ 3 true, sqrtInfo fp32 ⟨4, 8, true⟩, infoB fp32 (fpTag fp32.hart.dev) 2 ⟨4, 8, .vf 3, false⟩,
    infoU fp32 (fpTag fp32.hart.dev) 4 ⟨4, 8, false⟩, infoCmp fp32 (fpTag fp32.hart.dev) 2 ⟨4, 8, .vf 3, true⟩,
    convertInfo fp32 4 8 true (cvtFpSrc fp32.hart.dev && selIsInt 32 0) 32 2 true, convertInfo fp32 4 8 false (fpTag fp32.hart.dev) 32 2 false,
    convertInfo fp32 4 8 false (widens (selFmt 16 1) fp32.hart.dev.fmt) 16 2 true,
    convertInfo fp32 4 8 false (widens fp32.hart.dev.fmt (selFmt 64 1)) 64 2 false,
    reduceInfo fp32 ⟨4, 8, .vv 12, true⟩ (fpTag fp32.hart.dev) 2 true, scanInfo fp32 ⟨4, 8, 1, true⟩,
    quantInfo fp32 ⟨4, 8, .vv 12, true⟩ .e4m3, boxInfo fp32 ⟨2, 4, .vv 16, true⟩, triInfo fp32 ⟨1, 4, .vv 16, false⟩,
    texInfo fp32 ⟨4, 8, .vx 5, true⟩, topkInfo fp32 ⟨4, 8, .vv 12, false⟩,
    mergeTopInfo fp32 ⟨4, 8, false⟩], Ready fp32 i :=
  ready_all _ _ rfl fp32_sliced (by decide +kernel)

/-- Conversions of integers and of halves, extensions and clips, and the blends, packs and set-ups of 64-bit and 16-bit bundles. -/
theorem witness_other_types_ready :
    (∀ i ∈ [convertInfo int32 4 8 true (cvtIntSrc int32.hart.dev && (selFmt 32 1).isSome) 32 2 true,
      convertInfo int32 4 8 false (extendOk int32.hart.dev 1) 64 1 false, convertInfo int32 4 8 false (cvtIntSrc int32.hart.dev) 16 1 false],
      Ready int32 i) ∧
    (∀ i ∈ [convertInfo fp16 4 8 false (fp16.hart.dev.fmt == some .fp16) 16 2 true, blendInfo fp16 ⟨4, 8, .vv 16, true⟩,
      packInfo fp16 ⟨4, 8, true⟩], Ready fp16 i) ∧
    (∀ i ∈ [setupInfo (vec 0x44 10) ⟨4, 16, true⟩, covInfo (vec 0x44 10) ⟨2, 4, .vx 5, true⟩, rsvInfo (vec 0x44 10) ⟨2, 8, .vv 16, false⟩],
      Ready (vec 0x44 10) i) ∧
    Ready (vec 0x843 32) (segInfo (vec 0x843 32) ⟨4, 8, .vv 12, false⟩) :=
  ⟨ready_all _ _ rfl int32_sliced (by decide +kernel), ready_all _ _ rfl fp16_sliced (by decide +kernel),
   ready_all _ _ rfl (sliced_of _ (by decide +kernel)) (by decide +kernel),
   ready_one _ _ rfl (sliced_of _ (by decide +kernel)) (by decide +kernel)⟩

/-- VectorMoves, Reductions: outside a gang the segments tile the vector. -/
theorem witness_tiled : Tiled int32 ∧ Tiled fp32 := ⟨rfl, rfl⟩

/-- e4m3 elements with blocks of 32, and with a grant of 0. -/
def narrow (g : Nat) : State := (vec 0x841 g).modHart (fun t => { t with dev := { t.dev with fmta := 0x2002 } })
/-- fp32 elements to be scaled into e4m3 blocks of 32. -/
def scaled : State := fp32.modHart (fun t => { t with dev := { t.dev with fmta := 0x2002 } })

/-- BlockScaling: every row has a state that it runs in; vmxmm also with a grant of 0. -/
theorem witness_block_scaling :
    (∀ i ∈ [dequantInfo (narrow 40) ⟨4, 8, .vv 12, true⟩, mxdotInfo (narrow 40) ⟨4, 8, .vv 16, true⟩, mxmmInfo (narrow 40) ⟨4, 8, .vv 24, false⟩],
      Ready (narrow 40) i) ∧
    (∀ i ∈ [sclmkInfo scaled ⟨4, 8, false⟩, pksclInfo scaled ⟨4, 8, .vv 12, false⟩], Ready scaled i) ∧
    (narrow 0).hart.dev.vgrant = 0 ∧ Ready (narrow 0) (mxmmInfo (narrow 0) ⟨4, 8, .vv 24, false⟩) :=
  ⟨ready_all _ _ rfl (sliced_of _ (by decide +kernel)) (by decide +kernel), ready_all _ _ rfl (sliced_of _ (by decide +kernel)) (by decide +kernel),
   rfl, ready_one _ _ rfl (sliced_of _ (by decide +kernel)) (by decide +kernel)⟩

/-- int32 with the accumulator's port taken, and with a kmma in flight on rows 0 to 3. -/
def portBusy : State := int32.modMyCore (fun c => { c with portHold := 5 })
def kmmaOn : State := int32.modMyCore (fun c => { c with nodes := [(7, { st := .running, kind := 1, w0 := 0x6000000001C1 })] })

/-- Accumulator: the port free and taken, and rows in use. -/
theorem witness_accumulator :
    (Ready int32 (accXInfo int32 ⟨4, .vx 0⟩) ∧ accBusy (elemRows int32 0) int32 = none ∧ portTaken int32 = false) ∧
    (Ready portBusy (accXInfo portBusy ⟨4, .vx 0⟩) ∧ accBusy (elemRows portBusy 0) portBusy = none ∧ portTaken portBusy = true) ∧
    (VecReady kmmaOn (accXInfo kmmaOn ⟨4, .vx 0⟩) ∧ accBusy (elemRows kmmaOn 0) kmmaOn = some { cause := 26, tval := 7 * 256 }) ∧
    Ready int32 (accIInfo int32 8 0) ∧ Ready int32 (accZInfo 0) ∧ accBusy (fun _ r => decide (0 ≤ r ∧ r < 1)) int32 = none :=
  ⟨⟨ready_one _ _ rfl int32_sliced (by decide +kernel), by decide +kernel, rfl⟩,
   ⟨ready_one _ _ rfl (sliced_of _ (by decide +kernel)) (by decide +kernel), by decide +kernel, rfl⟩,
   ⟨vecReady_of _ _ (by decide +kernel), by decide +kernel⟩,
   ready_one _ _ rfl int32_sliced (by decide +kernel), ready_one _ _ rfl int32_sliced (by decide +kernel), by decide +kernel⟩

/-- Long floats 1 in v8 and 3 in v12, rounded to 100 bits, with the precision trap set. -/
def third : State :=
  let one := (lfRound (Ev.ofInt 1) 100 0).1
  let three := (lfRound (Ev.ofInt 3) 100 0).1
  (lf2.modHart (fun t => { t with dev := { t.dev with vprecP := 100, vprecX := true } })).setV 8 one |>.setV 12 three

/-- LongFloats: every kind of row runs; a quotient is inexact at element 0, where the precision trap stops it (R64). -/
theorem witness_long_floats :
    (∀ i ∈ [lfInfo lf2 ⟨4, 8, .vv 12, true⟩ 3 true, lfInfoU lf2 4 ⟨4, 8, false⟩, lfFromInfo lf2 ⟨4, 8, 1, true⟩, lfToInfo lf2 ⟨4, 8, 1, false⟩,
      infoCmp lf2 (lfOk lf2.hart.dev) 3 ⟨4, 8, .vv 12, true⟩], Ready lf2 i) ∧ lf2.hart.dev.vprecX = false ∧
    (third.hart.dev.vprecX = true ∧ (third.frame false).on 0 = true ∧
      (lfRounded third ((lfElem third 8 0).div (lfElem third 12 0))).2.2 = true ∧ third.sliced ∧
      VecReady third (lfInfo third ⟨4, 8, .vv 12, false⟩ 4 false)) :=
  ⟨ready_all _ _ rfl lf2_sliced (by decide +kernel), rfl, rfl, by decide +kernel, by decide +kernel, sliced_of _ (by decide +kernel),
   vecReady_of _ _ (by decide +kernel)⟩

/-! ### Hypotheses of the memory statements -/

def plainReadB (s : State) (x : Xlat) (va n : Nat) : Bool :=
  match translate s x .load va with
  | .done p => decide (regionOf s p.pa = .dram) && !s.blocked s.cur.1 s.cur.2 .R p.pa n && decide (s.badIn p.pa n = none) &&
      s.past.isEmpty && decide (p.cls ≠ .io)
  | _ => false

/-- Before any write every read gives what memory holds. -/
theorem current_of (s : State) (c : Nat) (p : PAddr) (n : Nat) (h : s.past.isEmpty = true) : s.current c p n := by
  intro _ w hw
  rw [List.isEmpty_iff.mp h] at hw
  exact absurd hw List.not_mem_nil

theorem plainRead_of (s : State) (x : Xlat) (va n : Nat) (h : plainReadB s x va n = true) : ∃ p, PlainRead s x va n p ∧ p.cls ≠ .io := by
  unfold plainReadB at h
  split at h
  · rename_i p hp
    simp only [Bool.and_eq_true, Bool.not_eq_true', decide_eq_true_eq] at h
    exact ⟨p, ⟨hp, h.1.1.1.1, h.1.1.1.2, h.1.1.2, current_of _ _ _ _ h.1.2⟩, h.2⟩
  · exact absurd h (by decide)

theorem plainWrite_of (u s : State) (x : Xlat) (va n : Nat) (p : PAddr) (ht : translate u x .store va = .done p)
    (h : (decide (regionOf s p.pa = .dram) && !s.blocked s.cur.1 s.cur.2 .W p.pa n && decide (s.badPartly p.pa n = none)) = true) :
    PlainWriteFrom u s x va n p := by
  simp only [Bool.and_eq_true, Bool.not_eq_true', decide_eq_true_eq] at h
  exact ⟨ht, h.1.1, h.1.2, h.2⟩

/-- int32 with x10 at 0x1000. -/
def atMem (vt g : Nat) : State := (vec vt g).modHart (fun t => t.setX 10 0x1000)

/-- The place of an address of reset memory, where nothing is translated. -/
def place (a : Nat) : PAddr := ⟨a, .pma, true⟩

/-- An aligned element of plain bytes reads as some value. -/
theorem elemReads_of (s : State) (m : MemShape) (va i : Nat) (h1 : m.misaligned va = false) (h2 : m.nib = false) (h3 : m.sh.lf = false)
    (h4 : plainReadB s s.hart.dataXlat va m.size = true) : ∃ v, elemReads s m va i v := by
  obtain ⟨p, hp, -⟩ := plainRead_of _ _ _ _ h4
  exact ⟨_, by rw [elemReads, if_neg (by simp [h2]), if_neg (by simp [h3])]; exact ⟨h1, p, hp, rfl⟩⟩

/-- So does a nibble. -/
theorem nibReads_of (s : State) (m : MemShape) (va i : Nat) (h1 : m.misaligned va = false) (h2 : m.nib = true)
    (h4 : plainReadB s s.hart.dataXlat va 1 = true) : ∃ v, elemReads s m va i v := by
  obtain ⟨p, hp, hc⟩ := plainRead_of _ _ _ _ h4
  exact ⟨_, by rw [elemReads, if_pos h2]; exact ⟨h1, p, hp, hc, rfl⟩⟩

theorem pick_values (l : List Nat) (P : Nat → Nat → Prop) (h : ∀ k ∈ l, ∃ v, P k v) : ∃ f : Nat → Nat, ∀ k ∈ l, P k (f k) := by
  have g : ∀ k, ∃ v, k ∈ l → P k v := fun k => by
    by_cases hk : k ∈ l
    · obtain ⟨v, hv⟩ := h k hk
      exact ⟨v, fun _ => hv⟩
    · exact ⟨0, fun h' => absurd h' hk⟩
  obtain ⟨f, hf⟩ := Classical.axiomOfChoice g
  exact ⟨f, hf⟩

/-- VectorLoads: the loads are ready, and 32-bit elements, nibbles and a long float of no limb read from plain memory. -/
theorem witness_vector_loads :
    let s := atMem 0x43 2
    let e := memShape s.hart 2
    let n := memShape s.hart 6
    (∀ i ∈ [memInfo s ⟨4, 10, 0, 2, false⟩ .unit true, memInfo s ⟨4, 10, 0, 6, false⟩ .unit true, memInfo s ⟨4, 10, 8, 2, true⟩ .indexed true,
      memInfo s ⟨4, 10, 8, 2, false⟩ .strided true], Ready s i) ∧
    (∃ value : Nat → Nat, ∀ k ∈ accessed s ⟨4, 10, 0, 2, false⟩, elemReads s e (elemAddr s e .unit ⟨4, 10, 0, 2, false⟩ k) k (value k)) ∧
    (∃ value : Nat → Nat, ∀ k ∈ accessed s ⟨4, 10, 0, 6, false⟩, elemReads s n (elemAddr s n .unit ⟨4, 10, 0, 6, false⟩ k) k (value k)) ∧
    (let l := atMem 0x245 1
     Ready l (memInfo l ⟨4, 10, 0, 5, false⟩ .unit true) ∧ accessed l ⟨4, 10, 0, 5, false⟩ = [0] ∧
     elemReads l (memShape l.hart 5) (elemAddr l (memShape l.hart 5) .unit ⟨4, 10, 0, 5, false⟩ 0) 0 0) := by
  intro s e n
  have hs : s.sliced := sliced_of _ (by decide +kernel)
  refine ⟨ready_all _ _ rfl hs (by decide +kernel), ?_, ?_, ready_one _ _ rfl (sliced_of _ (by decide +kernel)) (by decide +kernel),
    by decide +kernel, rfl, ?_⟩
  · have h : ∀ k ∈ accessed s ⟨4, 10, 0, 2, false⟩, e.misaligned (elemAddr s e .unit ⟨4, 10, 0, 2, false⟩ k) = false ∧
        plainReadB s s.hart.dataXlat (elemAddr s e .unit ⟨4, 10, 0, 2, false⟩ k) e.size = true := by decide +kernel
    exact pick_values _ _ (fun k hk => elemReads_of s e _ k (h k hk).1 rfl rfl (h k hk).2)
  · have h : ∀ k ∈ accessed s ⟨4, 10, 0, 6, false⟩, n.misaligned (elemAddr s n .unit ⟨4, 10, 0, 6, false⟩ k) = false ∧
        plainReadB s s.hart.dataXlat (elemAddr s n .unit ⟨4, 10, 0, 6, false⟩ k) 1 = true := by decide +kernel
    exact pick_values _ _ (fun k hk => nibReads_of s n _ k (h k hk).1 rfl (h k hk).2)
  · refine ⟨[0], fun j hj => ?_, by decide +kernel⟩
    obtain rfl : j = 0 := by simpa using hj
    exact ⟨by decide +kernel, place 0x1000,
      ⟨by decide +kernel, by decide +kernel, by decide +kernel, by decide +kernel, current_of _ _ _ _ rfl⟩, by decide +kernel⟩

/-- LoadFaults: element 1 of a strided load at an odd address is misaligned; element 0 is a first-fault load's own; FirstFaultLoads: element 4
of a first-fault load lies past the top of device memory. -/
theorem witness_load_faults :
    let s := (vec 0x43 2).modHart (fun t => (t.setX 10 0x1000).setX 11 2)
    let o : OpM := ⟨4, 10, 11, 2, false⟩
    let m := memShape s.hart 2
    (s.sliced ∧ VecReady s (memInfo s o .strided true) ∧ 1 ∈ accessed s o ∧ (∃ v, elemReads s m (elemAddr s m .strided o 0) 0 v) ∧
      elemFaults s m .load (elemAddr s m .strided o 1) { cause := 4, tval := 0x1002 }) ∧
    (let f := (vec 0x43 2).modHart (fun t => t.setX 10 0x1001)
     f.sliced ∧ VecReady f (memInfo f ⟨4, 10, 0, 2, false⟩ .unit true) ∧ (accessed f ⟨4, 10, 0, 2, false⟩).headD 0 = 0 ∧
     elemFaults f m .load (elemAddr f m .unit ⟨4, 10, 0, 2, false⟩ 0) { cause := 4, tval := 0x1001 }) := by
  refine ⟨⟨sliced_of _ (by decide +kernel), vecReady_of _ _ (by decide +kernel), by decide +kernel, ?_, ?_⟩,
    sliced_of _ (by decide +kernel), vecReady_of _ _ (by decide +kernel), by decide +kernel, ?_⟩
  · exact elemReads_of _ _ _ _ (by decide +kernel) rfl rfl (by decide +kernel)
  · exact .inl ⟨by decide +kernel, by decide +kernel⟩
  · exact .inl ⟨by decide +kernel, by decide +kernel⟩

theorem peek_empty (s : State) (h : s.mem = []) (n a : Nat) : s.peek a n = 0 := by
  induction n generalizing a with
  | zero => rfl
  | succ n ih =>
    have hb : s.byte a = 0 := by rw [State.byte, h]; rfl
    rw [State.peek, ih, hb]; rfl

/-- FirstFaultLoads: eight bytes below the top of device memory, two elements load and element 2 lies beyond it. -/
theorem witness_first_fault :
    let s := (vec 0x43 4).modHart (fun t => t.setX 10 (BitVec.ofNat 64 (dramTop State.reset - 8)))
    let o : OpM := ⟨4, 10, 0, 2, false⟩
    let m := memShape s.hart 2
    let cut := if m.nib || nibbleSlot s.hart.dev.ptrmap then 2 - 2 % 2 else 2
    (s.plain ∧ s.sliced ∧ VecReady s (memInfo s o .unit true)) ∧ 2 ∈ accessed s o ∧ (accessed s o).headD 0 < cut ∧
    (∃ value : Nat → Nat, ∀ k ∈ [0, 1], elemReads s m (elemAddr s m .unit o k) k (value k)) ∧
    elemFaults s m .load (elemAddr s m .unit o 2) { cause := 5, tval := dramTop State.reset } ∧
    isDevice s s.hart.dataXlat .load (elemAddr s m .unit o 2) = false := by
  intro s o m cut
  refine ⟨ready_one s _ rfl (sliced_of _ (by decide +kernel)) (by decide +kernel), by decide +kernel, by decide +kernel, ?_,
    .inr ⟨by decide +kernel, by decide +kernel⟩, by decide +kernel⟩
  have h : ∀ k ∈ [0, 1], m.misaligned (elemAddr s m .unit o k) = false ∧
      plainReadB s s.hart.dataXlat (elemAddr s m .unit o k) m.size = true := by decide +kernel
  exact pick_values _ _ (fun k hk => elemReads_of s m _ k (h k hk).1 rfl rfl (h k hk).2)

/-- VectorStores: one element stored to plain memory. -/
theorem witness_vector_stores :
    let s := atMem 0x43 1
    let o : OpM := ⟨4, 10, 0, 2, false⟩
    let m := memShape s.hart 2
    Ready s (memInfo s o .unit false) ∧ (∀ k ∈ accessed s o, m.misaligned (elemAddr s m .unit o k) = false) ∧
    ∃ ps, PiecesAt s s.hart.dataXlat ((accessed s o).map (fun k =>
      elemPieces m (elemAddr s m .unit o k) k (m.sh.get (s.getGroup o.v.toNat m.sh.g) k))).flatten s ps := by
  intro s o m
  have ha : accessed s o = [0] := by decide +kernel
  have hva : elemAddr s m .unit o 0 = 0x1000 := by decide +kernel
  have hsz : m.size = 4 := by decide +kernel
  have e (v : Nat) : elemPieces m (elemAddr s m .unit o 0) 0 v = [⟨0x1000, 4, false, fun _ => v⟩] := by
    rw [elemPieces, if_neg (by decide +kernel), if_neg (by decide +kernel), hva, hsz]
  refine ⟨ready_one s _ rfl (sliced_of _ (by decide +kernel)) (by decide +kernel), by decide +kernel, ?_⟩
  rw [ha, List.map_singleton, e]
  exact ⟨_, place 0x1000, [], plainWrite_of _ _ _ _ _ _ (by decide +kernel) (by decide +kernel), fun h => absurd h (by decide), rfl, rfl⟩

/-- WholeRegisters: aligned words of plain memory; the register's last word with vstart 31; and a misaligned base. -/
theorem witness_whole_registers :
    let s := atMem 0x43 1
    let last := s.modHart (fun t => { t with dev := { t.dev with vstart := 31 } })
    (s.plain ∧ VecReady s (vldrInfo s ⟨4, 10⟩) ∧ (s.xr 10).toNat % 64 = 0 ∧
      ∀ w ∈ wordsLeft s, ∃ p, PlainRead s s.hart.dataXlat (wrapAddr (0x1000 + 8 * w)) 8 p ∧ s.peek p.pa 8 = (0 : Word).toNat) ∧
    (last.plain ∧ VecReady last (vstrInfo last ⟨4, 10⟩) ∧
      ∃ ps, PiecesAt last last.hart.dataXlat ((wordsLeft last).map (fun w =>
        ⟨wrapAddr (0x1000 + 8 * w), 8, false, fun _ => last.field 4 1 64 w⟩)) last ps) ∧
    (let m := (vec 0x43 1).modHart (fun t => t.setX 10 0x1020)
     VecReady m (vldrInfo m ⟨4, 10⟩) ∧ VecReady m (vstrInfo m ⟨4, 10⟩) ∧ (m.xr 10).toNat % 64 ≠ 0) := by
  intro s last
  refine ⟨⟨rfl, vecReady_of _ _ (by decide +kernel), by decide +kernel, ?_⟩, ⟨rfl, vecReady_of _ _ (by decide +kernel), ?_⟩,
    vecReady_of _ _ (by decide +kernel), vecReady_of _ _ (by decide +kernel), by decide +kernel⟩
  · have h : ∀ w ∈ wordsLeft s, plainReadB s s.hart.dataXlat (wrapAddr (0x1000 + 8 * w)) 8 = true := by decide +kernel
    intro w hw
    obtain ⟨p, hp, -⟩ := plainRead_of _ _ _ _ (h w hw)
    exact ⟨p, hp, by rw [peek_empty _ rfl]; rfl⟩
  · have e : wordsLeft last = [31] := by decide +kernel
    rw [e]
    exact ⟨_, place 0x10F8, [], plainWrite_of _ _ _ _ _ _ (by decide +kernel) (by decide +kernel), fun h => absurd h (by decide), rfl, rfl⟩

/-- VectorConfiguration: no type, a type with legal pointers, a pointer slot that is none, a loop's body, and a reclaim pending. -/
theorem witness_configuration :
    (State.reset.plain ∧ State.reset.hart.dev.vill = true) ∧
    (int32.plain ∧ int32.hart.dev.vill = false ∧ badSlot int32.hart.dev.ptrmap = false ∧ int32.hart.dev.reclPend = false ∧ int32.sliced) ∧
    (∃ w : BitVec 32, int32.hart.dev.vill = false ∧ badSlot w = true) ∧
    inBody (int32.modHart (fun t => { t with loop := { active := true } })) = true ∧
    (let s := int32.modHart (fun t => { t with dev := { t.dev with reclPend := true, reclClass := 1 } })
     s.sliced ∧ s.cur.1 ∈ s.slicesOf s.cur.1 s.cur.2 ∧ s.plain ∧ s.hart.dev.vill = false ∧ s.hart.dev.reclPend = true) :=
  ⟨⟨rfl, rfl⟩, ⟨rfl, rfl, rfl, rfl, int32_sliced⟩, ⟨0xC1, rfl, by decide +kernel⟩, rfl, sliced_of _ (by decide +kernel), by decide +kernel, rfl, rfl, rfl⟩

theorem wordsRead_zeros (s : State) (x : Xlat) (a n : Nat) (hm : s.mem = [])
    (h : (List.range n).all (fun j => decide (wrapAddr (a + 8 * j) % 4096 ≤ 4088) && plainReadB s x (wrapAddr (a + 8 * j)) 8) = true) :
    wordsRead s x a (List.replicate n 0) := by
  intro j hj
  have hb := List.all_eq_true.mp h j (by simpa using hj)
  rw [Bool.and_eq_true, decide_eq_true_eq] at hb
  obtain ⟨p, hp, -⟩ := plainRead_of _ _ _ _ hb.2
  refine ⟨hb.1, p, hp, ?_⟩
  rw [peek_empty _ hm]
  simp only [List.length_replicate] at hj
  simp [wordAt, hj]

/-- Bindings: a descriptor of zeros is an input stream of bytes at address 0; it binds v4. -/
theorem witness_bindings :
    let s := atMem 0x43 1
    s.plain ∧ (4 : Reg) ≠ 0 ∧ s.hart.landing.any (fun l => decide (l.vd ≤ 4) && decide (4 < l.vd + l.count)) = false ∧ (s.xr 10).toNat % 8 = 0 ∧
    wordsRead s s.hart.dataXlat (s.xr 10).toNat [0, 0, 0, 0] ∧ descBad 0 0 0 0 = false ∧ channelBad s 0 0 { reg := 4 } = false ∧
    (s.hart.binds.filter (fun c => c.reg != 4)).length < 8 :=
  ⟨rfl, by decide, rfl, by decide +kernel, wordsRead_zeros _ _ _ 4 rfl (by decide +kernel), by decide +kernel, by decide +kernel, by decide +kernel⟩

/-- LoopBuffer: a body of one vadd, of one jal, a nest number above 31, and a replay at its last word. -/
theorem witness_loops :
    (let s : State := { int32 with mem := pokeBytes [] 4 4 0x0086040B }
     s.plain ∧ s.hart.dev.vill = false ∧ (s.xr 0).toNat < 32 ∧ (∃ u, captureBody s (s.hart.pc + 4) 1 = .done ([0x0086040B], u)) ∧
     [0x0086040B#32].all bodyOk = true) ∧
    (let s : State := { int32 with mem := pokeBytes [] 4 4 0x6F }
     (∃ u, captureBody s (s.hart.pc + 4) 1 = .done ([0x6F], u)) ∧ [0x6F#32].all bodyOk = false) ∧
    31 < ((int32.modHart (fun t => t.setX 10 32)).xr 10).toNat ∧
    (let l := (int32.modHart (fun t => { t with loop := { active := true, len := 1, counts := [20, 2, 1, 1, 1, 1] } }))
     l.hart.loop.active = true ∧ l.hart.loop.suspended = false ∧ l.hart.loop.len ≤ l.hart.loop.pos + 1 ∧
     l.hart.loop.j0 + l.hart.dev.vgrant.toNat < l.hart.loop.counts.getD 0 1) ∧
    (let l := (int32.modHart (fun t => { t with loop := { active := true, len := 2, counts := [10, 2, 1, 1, 1, 1] } }))
     l.hart.loop.pos + 1 < l.hart.loop.len ∧ l.hart.loop.counts.getD 0 1 ≤ l.hart.loop.j0 + l.hart.dev.vgrant.toNat ∧
     l.hart.loop.row + 1 < l.hart.loop.rows) ∧
    (int32.modHart (fun t => { t with loop := { active := true, len := 1 } })).hart.loop.rows = 1 := by
  refine ⟨⟨rfl, rfl, ?_, ⟨_, rfl⟩, ?_⟩, ⟨⟨_, rfl⟩, ?_⟩, ?_, ⟨rfl, rfl, ?_, ?_⟩, ⟨?_, ?_, ?_⟩, ?_⟩ <;> first | decide +kernel | rfl


/-- ContextBlocks: a machine-mode thread with an aligned base in plain memory, the block of zero words it reads there, and user mode. -/
theorem witness_context_blocks :
    let s := atMem 0x43 1
    let small := s.modHart (fun t => { t with vlen := 512, cls := 1 })
    (s.plain ∧ s.hart.priv ≠ .U ∧ s.hart.busyVector = false ∧ (s.xr 10).toNat % 64 = 0 ∧ s.hart.landing = []) ∧
    (∃ ps, PiecesAt small small.hart.dataXlat ((List.range 1).map (fun j =>
        ⟨wrapAddr (0x1000 + 8 * j), 8, false, fun _ => (wordAt (blockWords small small.cur.1 small.cur.2) j).toNat⟩)) small ps) ∧
    (State.reset.modHart (fun t => { t with priv := .U })).hart.priv = .U ∧ inBody (int32.modHart (fun t => { t with loop := { active := true } })) = true := by
  refine ⟨⟨rfl, by decide +kernel, by decide +kernel, by decide +kernel, rfl⟩, ⟨_, place 0x1000, [], plainWrite_of _ _ _ _ _ _ (by decide +kernel)
    (by decide +kernel), fun h => absurd h (by decide), rfl, rfl⟩, rfl, by decide +kernel⟩

/-- A thread in supervisor or user mode, and one with a status word. -/
def inMode (p : Priv) (mstatus : Word) : State :=
  State.reset.modHart (fun t => { t with priv := p, std := { t.std with mstatus := mstatus } })

/-- Landings: a load in flight, a refill in flight of a binding of zero points, and a staged chunk. -/
theorem witness_landings :
    let l : Landing := { vd := 4, count := 1, vlen := 2048, val := 7 }
    let s := int32.modHart (fun t => { t with landing := [l] })
    let b : Binding := { reg := 4, refill := some 0 }
    let q : Binding := { reg := 4, word1 := 2, staged := [{ data := 7, len := 1 }] }
    let u := (int32.modHart (fun t => { t with binds := [q] })).modHart (fun t => t.setFull 4 false)
    (((s.thr 0 0).landing.find? (fun l => l.vd == 4)) = some l ∧ (s.slicesOf 0 0).Nodup ∧ (s.thr 0 0).cls ≤ 4 ∧ l.vlen ≤ s.hwLen 0 0) ∧
    (let r := int32.modHart (fun t => { t with binds := [b] })
     (r.thr 0 0).binding 4 = some b ∧ ∃ v u, readPoints r r 0 0 b 0 b.pos = .done (v, u)) ∧
    ((u.thr 0 0).binding 4 = some q ∧ q.kind = 2 ∧ (u.thr 0 0).isFull 4 = false ∧ (u.slicesOf 0 0).Nodup ∧ (u.thr 0 0).vlen ≤ u.hwLen 0 0) := by
  refine ⟨⟨rfl, by decide +kernel, by decide +kernel, by decide +kernel⟩, ⟨rfl, _, _, rfl⟩, rfl, ?_, ?_, ?_, ?_⟩ <;> decide +kernel

/-- BaseIntegerAndControl: jumps to 4 and to 2, a branch taken and one not, from a plain hart at pc 0. -/
theorem witness_base :
    State.reset.plain ∧ (target State.reset.hart.pc (2 : BitVec 20)).toNat % 4 = 0 ∧ (target State.reset.hart.pc (1 : BitVec 20)).toNat % 4 ≠ 0 ∧
    (∀ imm ∈ [4, 2], ((State.reset.xr 0 + (imm : BitVec 12).signExtend 64) &&& ~~~1#64).toNat % 4 = imm.toNat % 4) ∧
    branchTaken .eq (State.reset.xr 1) (State.reset.xr 2) ∧ ¬ branchTaken .ne (State.reset.xr 1) (State.reset.xr 2) := by
  refine ⟨rfl, by decide +kernel, by decide +kernel, by decide +kernel, ?_, ?_⟩
  · show State.reset.xr 1 = State.reset.xr 2
    decide +kernel
  · show ¬ State.reset.xr 1 ≠ State.reset.xr 2
    decide +kernel

/-- ScalarAccesses: the last bytes of a line and the first that cross it; a run of one word. -/
theorem witness_scalar :
    let s := atMem 0x43 1
    let ld : OpLoad := ⟨.d, false, 1, 10, 120⟩
    let cross : OpLoad := ⟨.d, false, 1, 10, 121⟩
    let st : OpStore := ⟨.d, 10, 11, 120⟩
    s.plain ∧ scalarAddr s ld.rs1 ld.imm % 128 + accessBytes ld.width ≤ 128 ∧
    (∃ p, PlainRead s s.hart.dataXlat (scalarAddr s ld.rs1 ld.imm) (accessBytes ld.width) p) ∧
    128 < scalarAddr s cross.rs1 cross.imm % 128 + accessBytes cross.width ∧
    (∃ p, PlainWrite s s.hart.dataXlat (scalarAddr s st.rs1 st.imm) (accessBytes st.width) p) ∧
    128 < scalarAddr s 10 121 % 128 + accessBytes .d ∧
    wordsRun s.hart.dataXlat s 0x1000 [0] ∧ (∃ ps, putsRun s.hart.dataXlat s 0x1000 [7] ps) := by
  refine ⟨rfl, by decide +kernel, ?_, by decide +kernel, ⟨place 0x1078, plainWrite_of _ _ _ _ _ _ (by decide +kernel) (by decide +kernel)⟩,
    by decide +kernel, ⟨⟨place 0x1000, ⟨by decide +kernel, by decide +kernel, by decide +kernel, by decide +kernel, current_of _ _ _ _ rfl⟩,
      by decide +kernel⟩, fun _ _ _ => trivial⟩, _, place 0x1000, [],
    plainWrite_of _ _ _ _ _ _ (by decide +kernel) (by decide +kernel), rfl, fun _ _ => rfl⟩
  obtain ⟨p, hp, -⟩ := plainRead_of (atMem 0x43 1) _ _ _ (by decide +kernel : plainReadB (atMem 0x43 1) (atMem 0x43 1).hart.dataXlat 0x1078 8 = true)
  exact ⟨p, hp⟩

/-- AtomicsAndFences: an aligned word with and without the reservation, a misaligned one, an address that no class but device memory has,
and wfi and sfence.vma allowed, waiting and refused. -/
theorem witness_atomics :
    let s := atMem 0x43 1
    let o : OpAmo := ⟨true, true, true, 1, 10, 11⟩
    let x := s.hart.dataXlat
    let io := s.modHart (fun t => t.setX 10 0xF000000000)
    s.plain ∧ (s.xr o.rs1).toNat % 8 = 0 ∧ (∃ p, PlainRead s x 0x1000 8 p ∧ p.cls ≠ .io) ∧
    (PlainWrite s x 0x1000 8 (place 0x1000) ∧ s.badIn 0x1000 8 = none) ∧
    (s.modHart (fun t => { t with resv := some (0x1000 / 128) })).hart.resv = some (0x1000 / 128) ∧ s.hart.resv ≠ some (0x1000 / 128) ∧
    ((s.modHart (fun t => t.setX 10 0x1004)).xr o.rs1).toNat % 8 ≠ 0 ∧
    (∃ p, translate io io.hart.dataXlat .load 0xF000000000 = .done p ∧ p.cls = .io) ∧
    (∃ p, translate io io.hart.dataXlat .store 0xF000000000 = .done p ∧ p.cls = .io) ∧
    fencedWindows s none = [] ∧ s.intPending s.cur.1 s.cur.2 = false ∧ (inMode .S (1 <<< 20)).hart.std.mstatus.getLsbD 20 = true ∧
    (inMode .S (1 <<< 21)).hart.std.mstatus.getLsbD 21 = true := by
  refine ⟨rfl, by decide +kernel, plainRead_of _ _ _ _ (by decide +kernel), ⟨plainWrite_of _ _ _ _ _ _ (by decide +kernel) (by decide +kernel),
    by decide +kernel⟩, rfl, by decide +kernel, by decide +kernel, ⟨⟨0xF000000000, .io, true⟩, by decide +kernel, rfl⟩,
    ⟨⟨0xF000000000, .io, true⟩, by decide +kernel, rfl⟩, by decide +kernel, by decide +kernel, by decide +kernel, by decide +kernel⟩

/-- SystemCallsAndReturns: each mode, mret and sret allowed and refused, and a saved bank that is legal. -/
theorem witness_system_calls :
    State.reset.hart.priv = .M ∧ (inMode .U 0).hart.priv ≠ .M ∧ (inMode .S 0).hart.requeue = none ∧
    (inMode .S 0).hart.std.mstatus.getLsbD 22 = false ∧ (inMode .S (1 <<< 22)).hart.std.mstatus.getLsbD 22 = true ∧
    (let h := { State.reset.hart with dev := { State.reset.hart.dev with hvValid := true, hvtype := 0x43 } }
     h.dev.hvValid = true ∧ h.dev.hvtype.getLsbD 63 = false ∧ vtypeLegal (h.dev.hvtype.toNat % 2 ^ 14) = true) := by
  refine ⟨?_, ?_, ?_, ?_, ?_, ?_⟩ <;> decide +kernel

/-- CsrInstructions: vtype is a CSR of the hart, 0xC00 is read-only, 0x002 is none; reclaims to one and two clusters, and to none. -/
theorem witness_csr :
    State.reset.plain ∧ (∃ v, csrValue State.reset 0x801 = some v) ∧ (∃ v, csrValue State.reset 0xC00 = some v) ∧ 0xC00 ≤ 0xC00 ∧
    csrValue State.reset 0x002 = none ∧ (1 : Word).toNat % 4 = 1 ∧ (2 : Word).toNat % 4 = 2 ∧ (3 : Word).toNat % 4 ≠ 1 ∧ (3 : Word).toNat % 4 ≠ 2 := by
  refine ⟨rfl, Option.isSome_iff_exists.mp ?_, Option.isSome_iff_exists.mp ?_, ?_, ?_, ?_, ?_, ?_, ?_⟩ <;> decide +kernel

/-! ### Hypotheses of the statements about engines, queues, tasks, barriers and acts -/

def isDone {α : Type} (r : Res α) : Bool := match r with | .done _ => true | _ => false

theorem done_of {α : Type} (r : Res α) (h : isDone r = true) : ∃ v, r = .done v := by
  cases r with
  | done v => exact ⟨v, rfl⟩
  | trap e => exact Bool.noConfusion h
  | wait => exact Bool.noConfusion h

/-- The state after reset with nodes in its core and a batch. -/
def withNode (d : Node) : State :=
  (State.reset.modCore 0 (fun k => { k with nodes := [(5, d)] })).modHart
    (fun t => { t.setX 10 5 with batchSet := t.batchSet.set 0 [d.serial] })

/-- EngineInstructions: v0 of zeros is refused with status 1, a ksig of node 5 is accepted, sixty-four copies in flight are full, and a wait
on nodes that wait, run, are faulted or were never used. -/
theorem witness_engine :
    State.reset.hart.anyEmpty [(0, 1)] = false ∧ State.reset.hart.binds = [] ∧
    acceptCode State.reset 0 0 State.reset.hart.dev (cmdWords 0) false = 1 ∧
    (let s := State.reset.modHart (fun t => t.setX 10 5)
     let n := cmdWords (10 + 5 * 2 ^ 6 + 127 * 2 ^ 13 + 127 * 2 ^ 20)
     acceptCode s 0 0 s.hart.dev n false = 0 ∧ ¬ (copyKind n.cmdKind = true ∧ 64 ≤ copiesInFlight s.myCore)) ∧
    ((withNode {}).hart.batchSet.getD 0 []).filterMap (withNode {}).myCore.bySerial = [] ∧
    (let f := withNode { st := .faulted, status := 2, serial := 1 }
     let left := (f.hart.batchSet.getD 0 []).filterMap f.myCore.bySerial
     left ≠ [] ∧ (∀ e ∈ left, e.2.st = .faulted ∨ e.2.st = .stalled) ∧ blame f.myCore (left.map (fun e => e.1)) = some 5 ∧
     (f.xr 10).toNat ≤ 95 ∧ (f.myCore.node 5).st = .faulted ∧ blame f.myCore [5] = some 5) ∧
    (let r := withNode { st := .running, serial := 1 }
     (∃ e ∈ (r.hart.batchSet.getD 0 []).filterMap r.myCore.bySerial, e.2.st = .waiting ∨ e.2.st = .running) ∧ (r.myCore.node 5).st = .running) := by
  refine ⟨?_, rfl, ?_, ⟨?_, ?_⟩, ?_, ⟨?_, ?_, ?_, ?_, ?_, ?_⟩, ⟨(5, { st := .running, serial := 1 }), ?_, .inr rfl⟩, ?_⟩ <;> decide +kernel

/-- EngineInstructions: a machine of sixty-four copies in flight, which holds the next copy. -/
theorem witness_copies_full :
    let s := State.reset.modCore 0 (fun k => { k with nodes := (List.range 64).map (fun i => (i, { st := .running, w0 := 2, kind := 2 })) })
    copyKind (cmdWords 2).cmdKind = true ∧ 64 ≤ copiesInFlight s.myCore := by
  intro s; constructor <;> decide +kernel

/-- The state after reset with queue 0 as given. -/
def withQueue (q : Queue) : State := (State.reset.setQueue 0 q).modHart (fun t => t.setX 11 0x1000)

/-- HardwareQueues: a data queue and a record queue with room, a full one, a gated one, one with an item and one without, and no queue. -/
theorem witness_queues :
    let q : Queue := { enable := true, capacity := 1, threshold := 1 }
    let full : Queue := { q with items := [{ key := 0, task := { words := [1, 2] } }] }
    (withQueue q).queueOf ((withQueue q).xr 10) = some (0, q) ∧ (∃ r, readItem (withQueue q) 0x1000 2 0 = .done r) ∧
    (∃ r, readItem (withQueue { q with records := true }) 0x1000 8 0 = .done r) ∧ recordReason 0 true = none ∧ q.items.length < q.capacity ∧
    (withQueue full).queueOf ((withQueue full).xr 10) = some (0, full) ∧ full.capacity ≤ full.items.length ∧
    (∃ r, readItem (withQueue full) 0x1000 2 0 = .done r) ∧ ({ q with mode := 2 } : Queue).mode = 2 ∧ q.mode ≠ 2 ∧
    translate (withQueue full) (withQueue full).hart.dataXlat .store 0x1000 = .done (place 0x1000) ∧ full.records = false ∧
    (∃ i, full.next = some i ∧ isDone (plainPut (withQueue full) (withQueue full).hart.dataXlat 0x1000 i.task.words) = true) ∧ q.next = none ∧
    State.reset.queueOf 0 = none ∧ State.reset.turnOf 0x4000 = none ∧ State.reset.poolOf 0 = none := by
  intro q full
  refine ⟨by decide +kernel, done_of _ (by decide +kernel), done_of _ (by decide +kernel), rfl, by decide, by decide +kernel, by decide,
    done_of _ (by decide +kernel), rfl, by decide, by decide +kernel, rfl, ⟨_, rfl, by decide +kernel⟩, rfl, ?_, ?_, ?_⟩ <;> decide +kernel

/-- Turnstiles and pools of HardwareQueues: a turn that has come and one that has not, a slot to hand out, one out, and none left. -/
theorem witness_turnstiles :
    (∃ d i t, State.reset.turnOf (State.reset.xr 10) = some (d, i, t) ∧ 0 ≤ (t.serving - (State.reset.xr 11).setWidth 32).toInt ∧
      (t.serving - (1 : BitVec 32)).toInt < 0) ∧
    (let p : Pool := { size := 2, out := [0] }
     (State.reset.setPool 0 0 p).poolOf 0 = some (0, 0, p) ∧ (1 < p.size ∧ 1 ∉ p.out ∧ ∀ m, m < 1 → m ∈ p.out) ∧ (0 ∈ p.out) ∧ 1 ∉ p.out) ∧
    (let p : Pool := { size := 1, out := [0] }
     (State.reset.setPool 0 0 p).poolOf 0 = some (0, 0, p) ∧ ∀ m, m < p.size → m ∈ p.out) := by
  refine ⟨⟨0, 0, {}, ?_⟩, ?_, ?_⟩ <;> decide +kernel

/-- The state after reset with a task in its hart. -/
def withTask (r : TaskRec) : State := State.reset.modHart (fun t => { t with task := some r })

/-- Tasks: a record that is legal, one of a reserved priority, room and none in the deque, a task with and without a counter, and a save area. -/
theorem witness_tasks :
    let s := atMem 0x43 1
    let r : TaskRec := { words := [0, 0, 0, 0, 0, 0x2000, 0, 0], handle := 7, area := 0x4000 }
    (∃ v, readItem s 0x1000 8 0 = .done v) ∧ recordReason (48 : Word) true = some 5 ∧ recordReason 0 true = none ∧ dequeRoom s 0 = true ∧
    dequeRoom (s.modDie 0 (fun d => { d with overflowCap := 0 })) 0 = true ∧ State.reset.hart.task = none ∧ State.reset.hart.busyVector = false ∧
    (withTask {}).hart.task = some {} ∧ ({} : TaskRec).addr 5 = 0 ∧
    ((withTask r).hart.task = some r ∧ r.addr 5 ≠ 0 ∧ recVa (withTask r).hart.dataXlat (r.addr 5) % 8 = 0 ∧
      PlainWrite (withTask r) (withTask r).hart.dataXlat (recVa (withTask r).hart.dataXlat (r.addr 5)) 8 (place 0x2000) ∧
      (withTask r).badIn 0x2000 8 = none ∧ (withTask r).blocked 0 0 .R 0x2000 8 = false) ∧
    (let n := (withTask r).modHart (fun t => { t with vlen := 0, cls := 1 })
     allocArea n 0 0 = (0x4000, n) ∧ ∃ v, saveTask n 0 0 r 0x4000 0 = .done v) := by
  intro s r
  refine ⟨done_of _ (by decide +kernel), by decide, by decide, by decide +kernel, by decide +kernel, rfl, by decide +kernel, rfl, by decide,
    ⟨rfl, by decide, by decide +kernel, plainWrite_of _ _ _ _ _ _ (by decide +kernel) (by decide +kernel), by decide +kernel,
      by decide +kernel⟩, by rfl,
    done_of _ (by decide +kernel)⟩

/-- Tasks: a faulted task of the caller's address space and of another, none, and words that differ and match for mwait. -/
theorem witness_resume :
    let f : Faulted := { task := { handle := 5 }, core := 0 }
    let s := { State.reset with faulted := [f] }
    s.faulted.find? (fun f => f.task.handle == 5 && (5 : Nat) != 0) = some f ∧ f.task.asid = s.hart.std.satp.toNat / 2 ^ 44 % 2 ^ 16 ∧
    dequeRoom s (resumeCore s f.core) = true ∧ ({ f with task := { handle := 5, asid := 1 } }).task.asid ≠ s.hart.std.satp.toNat / 2 ^ 44 % 2 ^ 16 ∧
    State.reset.faulted.find? (fun f => f.task.handle == 5 && (5 : Nat) != 0) = none ∧
    (∃ p, PlainRead State.reset State.reset.hart.dataXlat 0 8 p ∧ p.cls ≠ .io) ∧ State.reset.peek 0 8 = 0 := by
  refine ⟨rfl, by decide +kernel, by decide +kernel, by decide +kernel, rfl, plainRead_of _ _ _ _ (by decide +kernel), peek_empty _ rfl _ _⟩

/-- The state after reset with barrier 0 of die 0 as given. -/
def withBarrier (b : Barrier) : State := State.reset.setBarrier { dev := false, die := 0, idx := 0 } b

/-- Barriers: unconfigured, no member, a first arrival, one ahead, two made, a completed phase, a barvw that has arrived, and a wait that a
request's reset ended. -/
theorem witness_barriers :
    let k : BarKey := { dev := false, die := 0, idx := 0 }
    let b : Barrier := { n := 2, members := [0, 1] }
    let w : BarWait := { dev := false, die := 0, idx := 0, seq := 0, epoch := 0, arrived := true, own := true }
    barKey 0 0 = some k ∧ (State.reset.barrier k).n = 0 ∧ State.reset.hart.barWait = none ∧
    (0 ∉ (withBarrier { b with members := [1] } |>.barrier k).members) ∧ (withBarrier b).barrier k = b ∧ 0 ∈ b.members ∧
    (arriveAt (withBarrier b) k 0).isSome = true ∧ 0 ∉ b.here ∧ (b.here.length + 1 < b.n) ∧
    (0 ∈ ({ b with here := [0], ahead := [0] } : Barrier).here) ∧ (waitPhase b 0).1 = 0 ∧ b.noticed ≤ (waitPhase b 0).1 ∧
    (waitPhase { b with noticed := 1, marks := [(0, ⟨0, false⟩)] } 0).1 < 1 ∧
    (((withBarrier { b with noticed := 1 }).modHart (fun t => { t with barWait := some w })).hart.waitAt k = some w ∧ w.seq < 1) ∧
    (b.n ≤ ({ b with here := [1] } : Barrier).here.length + 1 ∧ b.completing = false) ∧
    ((withBarrier b).modHart (fun t => { t with barWait := some { w with ends := some 4 } })).hart.waitAt k = some { w with ends := some 4 } := by
  refine ⟨?_, ?_, rfl, ?_, ?_, ?_, ?_, ?_, ?_, ?_, ?_, ?_, ?_, ⟨?_, ?_⟩, ⟨?_, ?_⟩, ?_⟩ <;> decide +kernel

/-- SliceActs: a line to act on, a request that waits, one answered, one aborted, vector forms, and both sides of the mode. -/
theorem witness_acts :
    let a : ActWait := { vector := false, status := false, vd := 4, left := 0, word := 0, tag := 0 }
    let s := vec 0x44 1
    State.reset.hart.act = none ∧ actPlace State.reset 0x1000 = .done (place 0x1000) ∧
    ({ a with left := 1 }).left ≠ 0 ∧ (a.left = 0 ∧ a.aborts = []) ∧ ({ a with aborts := [(0, 1)] }).aborts = (0, 1) :: [] ∧
    (let o : OpAct := ⟨4, 8, 12, 3⟩
     s.plain ∧ s.sliced ∧ VecReady s (vactInfo o s) ∧ (∀ k, ((vec 0x44 0).frame false).on k = false)) ∧
    VecReady (vec 0x44 0) (vactInfo ⟨4, 8, 12, 3⟩ (vec 0x44 0)) ∧
    actPlaces s (s.elem 8) ((List.range s.hart.dev.vgrant.toNat).filter (s.frame false).on) = .ok [(0, place 0)] ∧
    (let t := s.modHart (fun h => { h with act := some { a with vector := true, aborts := [(0, 1)] } })
     t.hart.isFull 4 = true ∧ t.hart.binds = [] ∧ t.plain) ∧ (inMode .U 0).hart.priv = .U ∧ (inMode .S 0).hart.priv ≠ .U ∧
    isDone (install State.reset 0 0 0 0 0 0 0) = true := by
  intro a s
  refine ⟨rfl, by decide +kernel, by decide, ⟨rfl, rfl⟩, rfl, ⟨rfl, sliced_of _ (by decide +kernel), vecReady_of _ _ (by decide +kernel), ?_⟩,
    vecReady_of _ _ (by decide +kernel), ?_, ⟨by decide +kernel, rfl, rfl⟩, rfl, by decide, by decide +kernel⟩
  · intro k
    show (decide (0 ≤ k) && decide (k < 0) && _) = false
    simp
  · have e : (List.range s.hart.dev.vgrant.toNat).filter (s.frame false).on = [0] := by decide +kernel
    have h : actPlace s (s.elem 8 0) = .done (place 0) := by decide +kernel
    rw [e, actPlaces, h]
    rfl

/-! ### Hypotheses of the statements about the system class, the step, exceptions and registers -/

/-- SystemClass: the bank's moves at an aligned address; joins that have ended or ask a shape that is none; a leader of a gang of two whose
peer is a follower; a reclaim pending; quarantines of a core that is up, of this one and of one that is down. -/
theorem witness_system_class :
    State.reset.hart.priv ≠ .U ∧ (State.reset.xr 10).toNat % 8 = 0 ∧
    (∃ u, plainPut State.reset State.reset.hart.dataXlat 0 [0, 0, 0] = .done u) ∧ (∃ p, plainWords State.reset State.reset.hart.dataXlat 0 3 = .done p) ∧
    (inMode .U 0).hart.priv = .U ∧ min ((withNode {}).xr 10).toNat (2 ^ 20) ≠ 0 ∧ State.reset.myCore.margin.hold = false ∧
    (State.reset.modHart (fun t => { t with joinStatus := some 4 })).hart.joinStatus = some 4 ∧
    State.reset.hart.joinStatus = none ∧ State.reset.xr 10 ≠ 1 ∧ State.reset.xr 10 ≠ 2 ∧ State.reset.hart.gang = none ∧
    (let g : Gang := { members := [0, 1], pos := 0, preVlen := 2048, rd := 1 }
     let s := State.reset.modThr 0 0 (fun t => { t with gang := some g })
     s.hart.gang = some g ∧ g.pos = 0 ∧ s.hart.busyVector = false ∧ gangWork s s.cur.1 s.cur.2 = false ∧ s.plain ∧ g.members.Nodup ∧
     g.members.head? = some s.cur.1 ∧ ((s.modThr 1 0 (fun t => { t with gang := some { g with pos := 1 } })).thr 1 0).gang.isSome = true) ∧
    (let s := int32.modHart (fun t => { t with dev := { t.dev with reclPend := true, reclClass := 1 } })
     s.hart.dev.reclPend = true ∧ s.plain ∧ s.sliced ∧ s.cur.1 ∈ s.slicesOf s.cur.1 s.cur.2 ∧ s.hart.dev.vill = false) ∧
    ((withNode {}).hart.priv = .M ∧ ((withNode {}).xr 10).toNat ≠ (withNode {}).cur.1 ∧ (withNode {}).coreUp 5 = true ∧
      (withNode {}).coreUp 400 = false ∧ (State.reset.xr 10).toNat = State.reset.cur.1 ∧ State.reset.quarantined 5 = false) := by
  refine ⟨by decide, by decide +kernel, done_of _ (by decide +kernel), done_of _ (by decide +kernel), rfl, by decide +kernel, by decide +kernel, rfl, rfl,
    by decide +kernel, by decide +kernel, rfl, ⟨rfl, rfl, by decide +kernel, by decide +kernel, rfl, by decide, rfl, by decide +kernel⟩,
    ⟨by decide +kernel, rfl, sliced_of _ (by decide +kernel), by decide +kernel, rfl⟩, ⟨?_, ?_, ?_, ?_, ?_, ?_⟩⟩ <;> decide +kernel

def isNext (o : Outcome) : Bool := match o with | .next _ => true | _ => false

/-- The state after reset with no timer, whose first cycle is core 0's, one whose counting window has ended, one with a timing event
pending, one with an element group to replay, and one with an exception that waits: StepRunsInstruction. -/
theorem witness_step :
    let s : State := { State.reset with timers := [] }
    (∃ at' c n, s.inbox = [] ∧ s.agenda = [] ∧ s.nextCore = some (at', c, n) ∧ (∀ d, s.nextDue = some d → at' < d) ∧ windowEnded (s.core c) n = false ∧
      let u := s.beginCycle at' c n
      (s.core c).replayDue n = none ∧ u.wasted = false ∧ u.hart.raised = none ∧ u.interrupt c (n % 8) = none ∧ u.hart.wfi = false ∧
      u.myCore.margin.late = none ∧ u.hart.act = none ∧ u.plain ∧
      translate u u.hart.fetchXlat .fetch u.hart.pc.toNat = .done (place 0) ∧ regionOf u 0 = .dram ∧ u.ownedIn 0 4 = false ∧ u.badIn 0 4 = none ∧
      u.current u.cur.1 (place 0) 4 ∧ u.past = [] ∧ (∃ v, fetchWord u = .done (0, v)) ∧ u.bodyRefuses 0 = false) ∧
    windowEnded { s.core 0 with cycle := 2 ^ 24 } (2 ^ 24) = true ∧
    (let r : State := s.modHart (fun t => { t with replayAt := some 1, rc := 1 })
     (r.core 0).replayDue 1 = some 0 ∧ (r.beginReplay 0 0 0).wasted = false) ∧
    (let q : Raised := ⟨{ cause := 8, tval := 0 }, 0, 0x73, false⟩
     ((s.modHart (fun t => { t with raised := some q })).beginCycle 0 0 0).hart.raised = some q) ∧
    (let l := (s.modCore 0 (fun k => { k with margin := { k.margin with late := some .scalar } })).beginCycle 0 0 0
     l.myCore.margin.late = some .scalar ∧ isNext (runHart l.calm) = true) ∧
    (∃ e, decode 0 = .error e) ∧ decode 0x13 = .ok (.baseInstruction (.opImm .addi 0 0 0)) ∧
    (let m := inMode .M 8
     let v := m.modHart (fun t => { t with std := { t.std with mip := 0x20, mie := 0x20 } })
     (v.interrupt 0 0).isSome = true) ∧
    (let f := State.reset.modHart (fun t => { t with pc := 0xF00000000000 })
     ∃ e, fetchWord f = .trap e) := by
  intro s
  have hp : (s.beginCycle 0 0 0).plain := rfl
  refine ⟨⟨0, 0, 0, rfl, rfl, by decide +kernel, ?_, by decide +kernel, ?_, ?_, ?_, ?_, ?_, ?_, ?_, hp, ?_, ?_, ?_, ?_, current_of _ _ _ _ rfl, rfl,
    ⟨_, rfl⟩, ?_⟩, ?_, ⟨?_, ?_⟩, rfl, ⟨rfl, ?_⟩, ⟨_, rfl⟩, rfl, by decide +kernel, ?_⟩
  · intro d h
    have e : s.nextDue = none := by decide +kernel
    rw [e] at h
    exact absurd h nofun
  all_goals try decide +kernel
  · exact ⟨_, (by decide +kernel : fetchWord _ = .trap { cause := 1, tval := 0xF00000000000 })⟩

/-- EventsRun: an event waiting, one with a free latency, and a timer before the next core cycle. -/
theorem witness_events :
    ({ State.reset with inbox := [.snapshotEnd 0] } : State).inbox = .snapshotEnd 0 :: [] ∧
    ({ State.reset with agenda := [.snapshotEnd 0] } : State).agenda ≠ [] ∧
    (let s : State := { State.reset with timers := [(0, .snapshotEnd 0)] }
     s.inbox = [] ∧ s.agenda = [] ∧ s.nextDue = some 0 ∧ ∀ c n at', s.nextCore = some (at', c, n) → 0 ≤ at') := by
  refine ⟨rfl, ?_, rfl, rfl, rfl, fun _ _ _ _ => Nat.zero_le _⟩
  exact List.cons_ne_nil _ _

/-- StepKeepsMemory: the memory after reset is in its one form, and a step from reset has a next state by StepAlwaysNext. -/
theorem witness_memory : State.reset.memOk := by
  show Memory.wf State.reset.mem = true
  decide +kernel

/-- ExceptionEntry: an exception of a machine-mode hart is not redirected, interrupt 5, and a user task with a handler and a save area. -/
theorem witness_exception :
    redirects State.reset.hart 2 = false ∧ ({ cause := 2, tval := 0 } : Exc).retire = none ∧
    (let r : TaskRec := { words := [0, 0, 0, 0, 0, 0, 0, 0x3000], area := 0x4000, handle := 3 }
     let s := State.reset.modHart (fun t => { t with task := some r, priv := .U, vlen := 0, cls := 1 })
     redirects s.hart 2 = true ∧ allocArea s 0 0 = (0x4000, s) ∧ dequeRoom s 0 = true ∧ s.hart.busyVector = false ∧
     isDone ((saveTask s 0 0 r 0x4000 0).bind (fun v => storeWords v 0 0 (taskXlat v r) (0x4000 + 448)
       (faultRecord v s.cur r 0x4000 { cause := 2, tval := 0 } 0))) = true) := by
  refine ⟨?_, rfl, ?_, by rfl, ?_, ?_, ?_⟩ <;> decide +kernel

/-- VectorRefusals: a legal row, one with no type, an empty register with and without its trap bit, a bound register, and a full gate. -/
theorem witness_vector_refusals :
    let o : OpB := ⟨4, 8, .vv 12, true⟩
    let i := intInfo int32 o 1 false
    let empty := int32.modHart (fun t => t.setFull 8 false)
    let trap := empty.modHart (fun t => { t with dev := { t.dev with vetrap := 0x100 } })
    let bound := (vec 0x53 10).modHart (fun t => { t with binds := [{ reg := 8 }] })
    let full := int32.modGate (fun q => { q with level := 2 ^ 60 })
    i.legal int32 = true ∧ (intInfo State.reset o 1 false).legal State.reset = false ∧
    (trap.hart.emptyIn true (intInfo trap o 1 false).reads = some 8 ∧ (intInfo trap o 1 false).legal trap = true) ∧
    (empty.hart.emptyIn true (intInfo empty o 1 false).reads = none ∧
      empty.hart.anyEmpty ((intInfo empty o 1 false).reads ++ (intInfo empty o 1 false).dst) = true) ∧
    boundGroup bound.hart ((intInfo bound o 1 false).reads ++ (intInfo bound o 1 false).dst) = some 8 ∧
    full.myCore.gate.passes full.cur.2 (intInfo full o 1 false).charge = false := by
  refine ⟨?_, ?_, ⟨?_, ?_⟩, ⟨?_, ?_⟩, ?_, ?_⟩ <;> decide +kernel

/-- RegisterBlock: entries of a stash map, a snapshot done and running, nodes it waits for, a save area given and none left. -/
theorem witness_register_block :
    let k := State.reset.core 0
    (0 : Nat) < 64 ∧ (1 : Word).getLsbD 0 = true ∧ ¬ mapRefused k 0 1 ∧ mapRefused k 0 (1 + 9 * 256) ∧ k.snap.done = true ∧ k.nodes = [] ∧
    (let r := { State.reset.core 0 with snap := { done := false, mask := 255 }, nodes := [(5, { st := .running, kind := 6, w0 := 6 })] }
     (maskedNodes r).any (fun e => e.2.kind == 7 && e.2.st == .running) = false ∧ (maskedNodes r).any (fun e => snapWaits e.2) = true) ∧
    (let w := { State.reset.core 0 with snap := { done := false, mask := 255 }, nodes := [(5, { st := .waiting, kind := 6, w0 := 6 })] }
     maskedNodes w = w.nodes ∧ isDone (plainPut State.reset { satp := 0, priv := .S } (engVa 0 0) (snapRecord State.reset 0 {})) = true) ∧
    ((withTask {}).thr 0 0).gang = none ∧ ((withTask {}).thr 0 0).task ≠ none ∧ (State.reset.thr 0 0).task = none ∧
    (let a : ASpace := { satp := 0, actbase := 0, poolBase := 0x10000, poolSize := 512, poolCount := 1 }
     (State.reset.setASpace 0 a).aspace 0 = some a ∧ 0 < a.poolCount ∧ 0 ∉ a.used) ∧ State.reset.host.pend = none ∧ State.reset.coreUp 0 = true := by
  intro k
  have hk : ∀ f, f < 64 → (k.stashW0 f).getLsbD 0 = false := by decide +kernel
  refine ⟨by decide, by decide, ?_, .inl (by decide), by decide +kernel, by decide +kernel, ?_, ?_, ?_, ?_, ?_, ?_, ?_, ?_⟩
  · rintro (h | h | h | ⟨f, hf, -, h, -⟩)
    · exact absurd h (by decide)
    · exact absurd h (by decide)
    · revert h
      decide +kernel
    · rw [hk f hf] at h
      exact absurd h (by decide)
  all_goals decide +kernel

/-! ### Hypotheses of the statements about requests, the host and late operations -/

/-- The state after reset with a request's words at 0x1000. -/
def withRequest (ws : List Nat) : State := { State.reset with mem := pokeBytes [] 0x1000 64 (ofFields 64 ws) }
where
  ofFields (w : Nat) : List Nat → Nat
    | [] => 0
    | x :: xs => x + 2 ^ w * ofFields w xs

def req : CfgReq := ⟨none, 0x1000⟩

def askedB (s : State) (op : Nat) (masks : List Nat) : Bool :=
  !s.boot.recovery && decide (0x1040 ≤ dramTop s) && decide (s.badIn 0x1000 64 = none) && decide (reqWord s req 0 = op) && decide (masks.length = 6) &&
    (List.range 6).all (fun i => decide (reqWord s req (i + 1) &&& masks.getD i 0 = reqWord s req (i + 1)))

theorem asked_of (s : State) (op : Nat) (masks : List Nat) (h : askedB s op masks = true) : Asked s req op masks := by
  simp only [askedB, Bool.and_eq_true, Bool.not_eq_true', decide_eq_true_eq, List.all_eq_true, List.mem_range] at h
  exact ⟨h.1.1.1.1.1, h.1.1.1.1.2, h.1.1.1.2, h.1.1.2, h.1.2, h.2⟩

/-- RequestsAndDoorbells: a doorbell that holds the request, of the host and of core 0, alone and before another; recovery, a word out of
device memory, an unknown opcode; a full doorbell and a misaligned address. -/
theorem witness_requests :
    let s := withRequest [0x11]
    (req.addr + 64 ≤ dramTop s ∧ s.host.waits = []) ∧
    ((s.modCore 0 (fun k => { k with bell := { queue := [0x1000] } })).core 0).bell.queue.head? = some 0x1000 ∧
    ((s.modCore 0 (fun k => { k with bell := { queue := [0x1000, 0x2000] } })).core 0).bell.queue.drop 1 = [0x2000] ∧
    ({ s with host := { s.host with bell := { queue := [0x1000] } } }).host.bell.queue.head? = some 0x1000 ∧
    ({ s with boot := { s.boot with recovery := true } }).boot.recovery = true ∧ s.boot.recovery = false ∧
    (dramTop s < (⟨none, dramTop s - 8⟩ : CfgReq).addr + 64 ∧ s.badIn (dramTop s - 8) 64 = none) ∧
    (s.badIn req.addr 64 = none ∧ 0x10 < reqWord s req 0 % 256) ∧ (s.byte req.addr).toNat = 0x11 ∧ ((withRequest [7]).byte req.addr).toNat = 7 ∧
    ((0x1001 : Word).toNat % 2 ^ 48 % 64 ≠ 0 ∧ (0x1000 : Word).toNat % 2 ^ 48 % 64 = 0 ∧ s.host.bell.queue.length < 16 ∧
      16 ≤ (List.replicate 16 0x1000).length ∧ s.host.pend = none) := by
  refine ⟨⟨?_, ?_⟩, ?_, ?_, ?_, ?_, ?_, ⟨?_, ?_⟩, ⟨?_, ?_⟩, ?_, ?_, ?_, ?_, ?_, ?_, ?_⟩ <;> decide +kernel

/-- ObjectRequests: a request of each opcode that is in range, and the values that its clauses part. -/
theorem witness_object_requests :
    Asked (withRequest [1, 4, 9, 1 + 2 ^ 32]) req 0x01 [0xFFF, 0x7FFF, 0x1FFFFF001FFFFF, 0xFFFF, 0, 0] ∧
    Asked (withRequest [1, 4, 9, 0]) req 0x01 [0xFFF, 0x7FFF, 0x1FFFFF001FFFFF, 0xFFFF, 0, 0] ∧
    Asked (withRequest [1, 4, 0, 0]) req 0x01 [0xFFF, 0x7FFF, 0x1FFFFF001FFFFF, 0xFFFF, 0, 0] ∧
    Asked (withRequest [2, 0x3000]) req 0x02 [0x3FFF, 0, 0, 0, 0, 0] ∧
    Asked (withRequest [3, 8, 2 ^ 16]) req 0x03 [0x1F, 2 ^ 64 - 1, 0, 0, 0, 0] ∧
    Asked (withRequest [3, 8, 2 ^ 16 + 1]) req 0x03 [0x1F, 2 ^ 64 - 1, 0, 0, 0, 0] ∧
    Asked (withRequest [4, 1, 2, 100, 3, 0]) req 0x04 [0x73F, 0xFFFF, 0xFFFFFFFF, 2 ^ 64 - 1, 0xFFFFFFFF, 0] ∧
    Asked (withRequest [4, 1, 3, 100, 3, 0]) req 0x04 [0x73F, 0xFFFF, 0xFFFFFFFF, 2 ^ 64 - 1, 0xFFFFFFFF, 0] ∧
    Asked (withRequest [4, 0x10F, 2, 100]) req 0x04 [0x73F, 0xFFFF, 0xFFFFFFFF, 2 ^ 64 - 1, 0xFFFFFFFF, 0] ∧
    Asked (withRequest [5, 0, 2 ^ 25]) req 0x05 [3, 2 ^ 64 - 1, 0, 0, 0, 0] ∧
    Asked (withRequest [5, 0, 2 ^ 25 + 1]) req 0x05 [3, 2 ^ 64 - 1, 0, 0, 0, 0] ∧
    Asked (withRequest [6, 0, 12, 100]) req 0x06 [3, 0x1F, 0xFFFF, 0, 0, 0] ∧
    (List.range 4).all (withRequest []).dieLive = true ∧ (withRequest []).dieLive 5 = false ∧
    pinnedUse (withRequest []) 0 - queueBytes {} + queueBytes { enable := true, capacity := 1 } ≤ 2 ^ 25 ∧
    pinnedUse (withRequest []) 0 ≤ 2 ^ 25 ∧ 0 < pinnedUse (withRequest []) 0 ∧
    pinnedUse (withRequest []) 0 - ((withRequest []).die 0).overflowCap * 6144 + 100 * 6144 ≤ 2 ^ 25 ∧
    ((withQueue { enable := true, items := [{ task := {}, key := 0 }] }).queues.any (fun e => !e.2.items.isEmpty)) = true ∧
    2 ≤ (((List.range 96).filter (fun i => (3 + 0 * 2 ^ 64).testBit i)).map (fun i => i + 0 / 512 * 96)).length := by
  refine ⟨asked_of _ _ _ ?_, asked_of _ _ _ ?_, asked_of _ _ _ ?_, asked_of _ _ _ ?_, asked_of _ _ _ ?_, asked_of _ _ _ ?_, asked_of _ _ _ ?_,
    asked_of _ _ _ ?_, asked_of _ _ _ ?_, asked_of _ _ _ ?_, asked_of _ _ _ ?_, asked_of _ _ _ ?_, ?_, ?_, ?_, ?_, ?_, ?_, ?_, ?_⟩ <;> decide +kernel

/-- An address space 1 over the state. -/
def withSpace (s : State) : State :=
  s.setASpace 1 { satp := 0, actbase := 0, poolBase := 0x10000, poolSize := 512, poolCount := 1 }

/-- ServiceRequests: a request of each opcode in range, with and without its address space, and values its clauses part. -/
theorem witness_service_requests :
    let all := 2 ^ 64 - 1
    Asked (withRequest [7, 1, 9 * 2 ^ 60 + 2 ^ 44, 0, 0x10000, 512 + 2 ^ 32]) req 0x07 [0xFFFF, all, all, all, 0xFFFFFFFFFFFFF, 0] ∧
    Asked (withRequest [7, 0]) req 0x07 [0xFFFF, all, all, all, 0xFFFFFFFFFFFFF, 0] ∧
    Asked (withRequest [8, 1]) req 0x08 [0xFFFF, 0, 0, 0, 0, 0] ∧ (withRequest [8, 1]).aspace 1 = none ∧
    ((withSpace (withRequest [8, 1])).aspace 1).isSome = true ∧ spaceInUse (withSpace (withRequest [8, 1])) 1 = false ∧
    Asked (withRequest [9, 0x10000]) req 0x09 [0x1FFFF, 0, 0, 0, 0, 0] ∧
    isDone (fenceVma State.reset none none (State.reset.cores.map (fun e => e.1))) = true ∧
    Asked (withRequest [10, 3, 1, 5]) req 0x0A [0x1FF, 0xFF, all, all, all, all] ∧ coreStatus (withRequest []) 3 = none ∧ coreStatus (withRequest []) 384 = some 2 ∧
    Asked (withRequest [11, 3, 0x10000, 4, 0x20000, 0x20008]) req 0x0B [0x1FF, all, 0x1F, all, all, 0] ∧
    Asked (withRequest [11, 3, 0x10008, 4]) req 0x0B [0x1FF, all, 0x1F, all, all, 0] ∧ Asked (withRequest [11, 3]) req 0x0B [0x1FF, all, 0x1F, all, all, 0] ∧
    Asked (withRequest [12, 256, 0x10000, 0x20000, 7, 0, 9 + 12 * 256]) req 0x0C [0x1FF, all, all, 0xFFFFFFFF, all, 0xFFFFFFFF] ∧
    pairInUse (withRequest []) 0 = false ∧ Asked (withRequest [12, 0]) req 0x0C [0x1FF, all, all, 0xFFFFFFFF, all, 0xFFFFFFFF] ∧
    Asked (withRequest [13, 2 ^ 16 + 1, 0x3000, 3, 5, 0x4000]) req 0x0D [0x7FF0303FF, all, 7, all, all, 0] ∧
    Asked (withRequest [13, 1]) req 0x0D [0x7FF0303FF, all, 7, all, all, 0] ∧ Asked (withRequest [13, 2 ^ 16, 0x3000, 4]) req 0x0D [0x7FF0303FF, all, 7, all, all, 0] ∧
    Asked (withRequest [14, 2 ^ 6 + 2 * 2 ^ 16, 1, 2, 0x3000]) req 0x0E [0x1FF007F, all, all, all, 0x87FF, 0] ∧
    Asked (withRequest [14, 2 ^ 6, 2, 2, 0x3000]) req 0x0E [0x1FF007F, all, all, all, 0x87FF, 0] ∧
    Asked (withRequest [15, 1, 0x2000, 0]) req 0x0F [0xFFFF, all, 3, 0, 0, 0] ∧ Asked (withRequest [15, 1, 0x2001, 0]) req 0x0F [0xFFFF, all, 3, 0, 0, 0] ∧
    isDone (plainWords (withSpace (withRequest [])) { satp := 0, priv := .U } 0x2000 8) = true ∧
    Asked (withRequest [16, 1, 3]) req 0x10 [0xFFFF, 0x11F, 0, 0, 0, 0] := by
  refine ⟨asked_of _ _ _ ?_, asked_of _ _ _ ?_, asked_of _ _ _ ?_, ?_, ?_, ?_, asked_of _ _ _ ?_, ?_, asked_of _ _ _ ?_, ?_, ?_, asked_of _ _ _ ?_,
    asked_of _ _ _ ?_, asked_of _ _ _ ?_, asked_of _ _ _ ?_, ?_, asked_of _ _ _ ?_, asked_of _ _ _ ?_, asked_of _ _ _ ?_, asked_of _ _ _ ?_,
    asked_of _ _ _ ?_, asked_of _ _ _ ?_, asked_of _ _ _ ?_, asked_of _ _ _ ?_, ?_, asked_of _ _ _ ?_⟩ <;> decide +kernel

/-- HostAccesses: nothing before the access and another before it, the last word of device memory, one above it, one owned, and queues that
take, refuse and do not take records. -/
theorem witness_host :
    let s := State.reset
    let q : Queue := { enable := true, capacity := 1, hostAsid := 1 }
    s.host.pend = none ∧ (Event.hostRead 0 .d ≠ .hostRead 8 .d) ∧ (Event.hostWrite 0 .d 0 ≠ .hostWrite 8 .d 0) ∧
    (dramTop s - 8 + accessBytes .d ≤ dramTop s ∧ s.ownedIn (dramTop s - 8) 8 = false ∧ s.badIn (dramTop s - 8) 8 = none) ∧
    (s.boot.recovery = false ∧ s.boot.poweredDown = false) ∧ dramTop s - 7 < 2 ^ 38 ∧ dramTop s < dramTop s - 7 + accessBytes .d ∧
    (s.modCore 0 (fun k => { k with nodes := [(0, { st := .running, owned := [0] })] })).ownedIn 0 8 = true ∧
    (withQueue q).queueOf (BitVec.ofNat 64 0) = some (0, q) ∧ q.items.length < q.capacity ∧ ¬ (q.records = true) ∧ s.queueOf (BitVec.ofNat 64 0) = none := by
  refine ⟨?_, ?_, ?_, ⟨?_, ?_, ?_⟩, ⟨?_, ?_⟩, ?_, ?_, ?_, ?_, ?_, ?_, ?_⟩ <;> decide +kernel

def endsWell (e : Option (ActEnd × State)) : Bool := match e with | some (.ok _ _, _) => true | _ => false

/-- LateOperations: a request of an act for a line with its waiting context, its routine read from the table, held by the slice, and its
line lost; a vact whose last answer is in; a vacc.x ready, behind a row write and behind another port; and routine words: 0 is adone, an
illegal word, and a run of one word. -/
theorem witness_late :
    let a : ActWait := { vector := true, status := false, vd := 4, left := 1, word := 0, tag := 3 }
    let q : ActReq := { core := 0, ctx := 0, elem := 0, id := 1, asid := 0, satp := 0, actbase := 0x8000, addr := 0x1000, tag := 3, arg0 := 0, arg1 := 0 }
    let s : State := { State.reset.modHart (fun t => { t with act := some a }) with acts := [q], installed := [(0, 2)] }
    let kept : State := { s with copies := { s.copies with routines := [(31 * homeDie s 32 + 1, [⟨0, 1, List.replicate 32 0⟩])] } }
    (q ∈ s.acts ∧ lineOf q.addr = 32 ∧ s.blocked 0 0 .A q.addr 128 = false ∧ regionOf s q.addr = .dram ∧ (s.thr 0 0).act = some a ∧ a.tag = q.tag ∧
      endsWell (actEnd { s with fresh := s.fresh + 1 } q) = true) ∧
    ((SMap.get 0 s.installed q.asid : BitVec 32).getLsbD q.id = true ∧ q.actbase ≠ 0 ∧ s.copies.routines = [] ∧
      translate s (tableXlat 0 0) .load (engVa 0 (0x8000 + 128 * 1)) = .done (place 0x8080) ∧ s.blocked 0 0 .A 0x8080 128 = false ∧
      s.badIn 0x8080 128 = none ∧ s.current 0 (place 0x8080) 128 ∧ s.badIn q.addr 128 = none) ∧
    (homeDie kept 32 = homeDie s 32 ∧ endsWell (actEnd kept q) = true ∧
      endsWell (actEnd { s with bad := [128] } q) = false) ∧
    (let v := vec 0x44 1
     ((v.modHart (fun t => { t with act := some { a with left := 0 } })).slicesOf 0 0).Nodup ∧ (v.thr 0 0).cls ≤ 4 ∧ (v.thr 0 0).shape.lf = false ∧ (v.thr 0 0).shape.ew = 64 ∧
     (v.thr 0 0).vlen ≤ v.hwLen 0 0) ∧
    (let l : Landing := { vd := 4, count := 1, vlen := 2048, val := 7 }
     let p := (State.reset.modHart (fun t => { t with landing := [l] })).modCore 0 (fun k => { k with portBusy := [(0, 0, 4)] })
     let h := p.modCore 0 (fun k => { k with portHold := 5 })
     (p.core 0).portBusy = (0, 0, 4) :: [] ∧ (portCores p (0, 0, 4) = [0] ∧ portCores h (0, 0, 4) = [0]) ∧ (p.core 0).portHold ≤ p.now ∧
     (h.now < 5 ∧ (h.core 0).portHold = 5 ∧ (h.core 0).portBusy = [(0, 0, 4)]) ∧
     (((p.modCore 1 (fun k => { k with portBusy := [(1, 0, 4), (0, 0, 4)] })).core 1).portBusy.head? ≠ some (0, 0, 4)) ∧ (p.thr 0 0).landing.find? (fun l => l.vd == 4) = some l ∧ l.vlen ≤ p.hwLen 0 0) ∧
    (actFields 0).legal = true ∧ (actFields 0).op = 0 ∧ (actFields 0xFFFFFFFF).legal = false ∧ runRoutine [0] 5 0 0 = .ok 5 0 := by
  refine ⟨⟨?_, ?_, ?_, ?_, ?_, ?_, ?_⟩, ⟨?_, ?_, ?_, ?_, ?_, ?_, current_of _ _ _ _ rfl, ?_⟩, ⟨?_, ?_, ?_⟩, ⟨?_, ?_, ?_, ?_, ?_⟩,
    ⟨?_, ⟨?_, ?_⟩, ?_, ⟨?_, ?_, ?_⟩, ?_, ?_, ?_⟩, ?_, ?_, ?_, ?_⟩ <;> decide +kernel

/-! ### Hypotheses of the statements about commands, scheduling, margins, the fleet and boot -/

/-- A machine with one command at node 5 of core 0. -/
def withCommand (d : Node) : State := State.reset.modCore 0 (fun k => { k with nodes := [(5, d)] })

theorem goes_of (d : Node) (h : (d.st == .running && !d.pageStop && !d.stopping) = true) : Goes d := by
  simp only [Bool.and_eq_true, beq_iff_eq, Bool.not_eq_true'] at h
  exact ⟨h.1.1, h.1.2, h.2⟩

theorem bare_of (s : State) (d : Node) (h : (decide (d.satp = 0) && s.bad.isEmpty && s.past.isEmpty) = true) : BareCommand s d := by
  simp only [Bool.and_eq_true, decide_eq_true_eq, List.isEmpty_iff] at h
  refine ⟨h.1.1, h.1.2, fun w hw => ?_⟩
  rw [h.2] at hw
  exact absurd hw List.not_mem_nil

/-- CommandLifeCycle: commands that wait, run, run out of nest, stop at a page and own leave, and a die that lets one more in. -/
theorem witness_life_cycle :
    let w : Node := { st := .waiting, kind := 9, preds := 1, dcount := 1 }
    let r : Node := { st := .running, kind := 2, w0 := 2 + 127 * 2 ^ 13 + 127 * 2 ^ 20 }
    ((withCommand w).node 0 5).st = .waiting ∧ w.preds ≤ w.dcount ∧ ((withCommand w).core 0).snap.done = true ∧
    ((withCommand { w with preds := 2 }).node 0 5).dcount < 2 ∧
    nestsLongEnough (launchedNode (withCommand { w with kind := 6 }) 0 5) = true ∧
    nestsLongEnough (launchedNode (withCommand { w with kind := 2, w0 := 2 + 2 ^ 50, w3 := 5 }) 0 5) = false ∧
    (((withCommand r).node 0 5).st = .running ∧ r.pageStop = false ∧ r.kind ≠ 7 ∧ r.remote = none ∧ timesNamed r 5 = 0 ∧ r.w0.getLsbD 36 = false) ∧
    ((withCommand { r with pageStop := true }).node 0 5).pageStop = true ∧ r.pend = [] ∧ r.kind ∈ [2, 3, 4, 5, 7, 8] ∧
    (let m : Node := { r with kind := 1 }
     (withCommand m).threadOf 0 0 = m.thread ∧ m.kind = 1 ∧ ((withTask { handle := 3 }).thr 0 0).task.isSome = true) ∧
    (let p := (State.reset.die 0).power
     p.held + r.leaveCost ≤ p.limit ∧ (0, 5) ∉ p.asking) ∧
    (({ w with kind := 1, preds := 0, remote := some (1, 0) } : Node).remote = some (1, 0) ∧ ({ w with kind := 1 } : Node).remote = none) := by
  refine ⟨?_, ?_, ?_, ?_, ?_, ?_, ⟨?_, ?_, ?_, ?_, ?_, ?_⟩, ?_, ?_, ?_, ⟨?_, ?_, ?_⟩, ⟨?_, ?_⟩, ?_, ?_⟩ <;> decide +kernel

/-- CopyEngine: a kcopy whose window is read and written, one to take a window, and kred, knest and ksig of a Bare space. -/
theorem witness_copy_engine :
    let w : EngWrite := { unit := 0, off := 0, pa := 0x2000, len := 4, val := 0 }
    let d : Node := { st := .running, kind := 2, w0 := 2 + 2 ^ 58 * 2, w1 := 0x1000, w2 := 0x2000, w3 := 1, winEnd := 1, pend := [w], owned := [64] }
    Goes d ∧ (withCommand d).node 0 5 = d ∧ (withCommand d).bad = [] ∧ d.fetched + 1 = d.winEnd ∧
    (match unitValue { withCommand d with fresh := 1 } d 0 0 with | .ok _ => true | _ => false) = true ∧
    ({ d with fetched := 1 }).winEnd ≤ ({ d with fetched := 1 }).fetched ∧ (∀ e ∈ d.pend, regionOf (withCommand d) e.pa = .dram) ∧
    (let t : Node := { d with winEnd := 0, pend := [], owned := [] }
     let w := (windowFrom t 0 (t.units (withCommand t) - t.winEnd) (withCommand t) t.winEnd 0 []).1
     t.winEnd < t.units (withCommand t) ∧ t.winEnd < w.last ∧ w.pieces.reverse.flatten ≠ []) ∧
    (∀ k ∈ [2, 3, 4, 5], let u : Node := { st := .running, kind := k, w0 := BitVec.ofNat 64 k, w1 := 0x1000, w2 := 0x2000, w3 := 1 }
     BareCommand (withCommand u) u ∧ u.useSrcNest = false ∧ u.base1 + u.elemBytes ≤ dramTop (withCommand u) ∧
     u.base1 + u.rowLen ≤ dramTop (withCommand u) ∧ u.idxBase + u.idxBytes ≤ dramTop (withCommand u) ∧
     u.base1 + ((withCommand u).peek u.idxBase u.idxBytes + 1) * u.rowLen ≤ dramTop (withCommand u)) ∧
    (let r : Node := { st := .running, kind := 6, w0 := 6 + 2 ^ 37 * 10, w1 := 0x1000, w2 := 0x2000, w3 := 1 }
     Goes r ∧ BareCommand (withCommand r) r ∧ r.useSrcNest = false ∧ r.useDstNest = false ∧ r.fmtByte = 10) ∧
    (let n : Node := { st := .running, kind := 9, w0 := 9 + 127 * 2 ^ 13 + 127 * 2 ^ 20, w1 := 0x1000 }
     let s : State := { withCommand n with mem := pokeBytes [] 0x1000 12 (1 + 2 ^ 16 + 2 ^ 32 + 2 ^ 48 + 2 ^ 64 + 2 ^ 80) }
     Goes n ∧ BareCommand s n ∧ n.base1 + 32 ≤ dramTop s ∧ 0 ∉ (List.range 6).map (fun i => s.peek n.base1 32 / 2 ^ (16 * i) % 2 ^ 16) ∧
     0 ∈ (List.range 6).map (fun i => (withCommand n).peek n.base1 32 / 2 ^ (16 * i) % 2 ^ 16) ∧ timesNamed n 5 = 0) ∧
    (∀ k ∈ [0, 1, 2], let g : Node := { st := .running, kind := 10, w0 := BitVec.ofNat 64 (10 + 127 * 2 ^ 13 + 127 * 2 ^ 20 + k * 2 ^ 45), w1 := 0x1000 }
      Goes g ∧ BareCommand (withCommand g) g ∧ g.w0.getLsbD 36 = false ∧ timesNamed g 5 = 0 ∧ g.base1 + 8 ≤ dramTop (withCommand g) ∧ g.w0.toNat / 2 ^ 45 % 4 = k) := by
  refine ⟨goes_of _ (by decide), ?_, ?_, ?_, ?_, ?_, ?_, ⟨?_, ?_, ?_⟩, ?_, ⟨goes_of _ (by decide), bare_of _ _ rfl, ?_, ?_, ?_⟩,
    ⟨goes_of _ (by decide), bare_of _ _ rfl, ?_, ?_, ?_, ?_⟩, ?_⟩
  all_goals try decide +kernel
  · intro k hk
    refine ⟨bare_of _ _ rfl, ?_⟩
    revert k
    decide +kernel
  · intro k hk
    refine ⟨⟨rfl, rfl, rfl⟩, bare_of _ _ rfl, ?_⟩
    revert k
    decide +kernel

/-- MatrixUnit: a kmma of one row, one column and depth one, of 8-bit integers in a Bare space, with leave and without. -/
theorem witness_matrix :
    let d : Node := { st := .running, kind := 1, w0 := 1 + 2 ^ 37 + 127 * 2 ^ 13 + 127 * 2 ^ 20, w1 := 0x1000, w2 := 0x2000, holdsLeave := true }
    let s := withCommand d
    Goes d ∧ d.holdsLeave = true ∧ d.remote = none ∧ d.members = [] ∧ BareCommand s d ∧ d.fmtByte = 1 ∧ d.mmaFmtB = 1 ∧
    ((s.core 0).portHold ≤ s.now ∧ (s.core 0).portBusy = [] ∧ (portBusy.core 0).portHold > portBusy.now) ∧
    (let cols := columnsFor s d 0 (fun k j => d.base2 + k * d.mmaLdb + j)
     cols.length = d.mmaN ∧ ∀ q ∈ cols, q.1.length = d.mmaK) ∧
    max d.progress d.mmaRow0 < d.mmaM ∧ d.mmaN = 1 ∧ d.mmaK = 1 ∧ d.base1 < dramTop s ∧ d.base2 < dramTop s ∧ ({ d with holdsLeave := false }).holdsLeave = false := by
  refine ⟨goes_of _ (by decide), rfl, rfl, rfl, bare_of _ _ rfl, ?_, ?_, ⟨?_, ?_, ?_⟩, ⟨?_, ?_⟩, ?_, ?_, ?_, ?_, ?_, ?_⟩ <;> decide +kernel

/-- RemoteAndStorage: a command sent to core 1 with each outcome of its capability's checks, a report of it, and a kdisk's reads. -/
theorem witness_remote :
    let d : Node := { st := .running, kind := 1, sent := true, remote := some (1, 0) }
    let check := fun (body : Nat) => shake256 (body * 2 ^ 256) 40 2
    let cap : Word := BitVec.ofNat 64 (3 * 2 ^ 32 + check (3 * 2 ^ 32) * 2 ^ 48)
    ((withCommand d).node 0 5 = d ∧ d.leave = false ∧ d.holdsLeave = false ∧ (withCommand d).coreUp 1 = true ∧ (withCommand d).coreUp 400 = false) ∧
    (check 0 ≠ 0 ∧ (State.reset.core 1).capKey = List.replicate 32 0 ∧ (State.reset.core 1).capGen = 0) ∧
    (shake256 (cap.toNat % 2 ^ 48 * 2 ^ 256) 40 2 = cap.toNat / 2 ^ 48 ∧ cap.toNat / 2 ^ 40 % 2 ^ 8 = 0 ∧ cap.toNat / 2 ^ 16 % 2 ^ 16 = d.asid ∧
      cap.toNat / 2 ^ 32 % 2 ^ 8 = 3 ∧ d.mmaAccRow + d.mmaM ≤ 64) ∧ cap.toNat / 2 ^ 16 % 2 ^ 16 ≠ ({ d with asid := 1 }).asid ∧
    ({ d with sent := false }).remote.isSome = true ∧ timesNamed { d with w0 := 127 * 2 ^ 13 + 127 * 2 ^ 20 } 5 = 0 ∧
    (let q : NvmePair := { sq := 0x8000, cq := 0x9000, entries := 8, nvmeId := 0, bell := 0x010000000000, log2Block := 9, log2Xfer := 12, cqBell := 4 }
     let k : Node := { st := .running, kind := 8, winEnd := 1, pend := [{ unit := 0, off := 0, pa := 0x2000, len := 128, val := 0 }] }
     let s : State := { withCommand k with host := { State.reset.host with nvme := [(0, q)] } }
     s.host.nvme.find? (fun e => e.1 == k.diskQp) = some (0, q) ∧ k.fetched < k.winEnd ∧ q.fullAt = false ∧
     ({ q with outstanding := List.replicate 7 (0, 0, 0, 0, 0), tail := 7 } : NvmePair).fullAt = true ∧
     ({ q with outstanding := [(3, 0, 5, 0, 1)] } : NvmePair).outstanding.find? (fun e => e.1 == 3) = some (3, 0, 5, 0, 1) ∧
     (∃ o, regionOf s (q.bell + q.cqBell) = .host o) ∧ (∀ w ∈ k.pend, regionOf s w.pa = .dram)) := by
  refine ⟨⟨?_, ?_, ?_, ?_, ?_⟩, ⟨?_, ?_, ?_⟩, ⟨?_, ?_, ?_, ?_, ?_⟩, ?_, ?_, ?_, ⟨?_, ?_, ?_, ?_, ?_, ⟨4, ?_⟩, ?_⟩⟩ <;> decide +kernel

/-- A launch header of two tasks of one chunk each. -/
def head2 : List Word := [2, 2, 0, 0, 0, 0, 0, 1, 0, 0, 0, 0, 0, 0, 0]

/-- LaunchExpansion: a header that is accepted and one refused, a request for it, an expansion in progress, ended, and toward a queue. -/
theorem witness_expansion :
    let r : TaskRec := { words := [0, 0, 0, 0x2000, 2 ^ 13, 0, 0, 0] }
    let s := State.reset
    headStatus s head2 0 false = none ∧ (headStatus s (List.replicate 15 0) 0 false).isSome = true ∧ head2.length = 15 ∧
    (wordAt head2 11).toNat % 2 ^ 48 = 0 ∧ taskCount head2 = 2 ∧ headQueue head2 = 0 ∧
    (s.modDie 0 (fun d => { d with requests := [r] })).die 0 = { s.die 0 with requests := [r] } ∧
    isDone (plainWords s (taskXlat s r) (recVa (taskXlat s r) (r.addr 3)) 15) = true ∧
    isDone (plainStore s (taskXlat s r) (recVa (taskXlat s r) (r.addr 3) + 120) 8 0x83) = true ∧
    placeCore s 0 0 (headColumn head2) = some 0 ∧ dequeRoom s 0 = true ∧ (0 : Nat) < 2 ∧
    ({ task := r, head := head2, index := 2, total := 2 } : Expansion).total ≤ 2 ∧ s.live = 15 ∧
    headQueue (head2.set 8 1) = 1 ∧ ((withQueue { enable := true, records := true, capacity := 1 }).queueOf (BitVec.ofNat 64 (1 - 1))).isSome = true := by
  refine ⟨?_, ?_, ?_, ?_, ?_, ?_, ?_, ?_, ?_, ?_, ?_, ?_, ?_, ?_, ?_, ?_⟩ <;> decide +kernel

/-- The state after reset with its only thread's context empty and a record in core 0's deque. -/
def withRecord (r : TaskRec) : State :=
  (State.reset.modHart (fun t => { t with status := .empty })).modCore 0 (fun k => { k with deque := [r] })

/-- Dispatching and StealsAndReclaims: a record that fits is chosen; a launch request; headers, formats and their faults; a requeued task
with its area; thieves, victims, a back-off, and a reclaim. -/
theorem witness_scheduling :
    let r : TaskRec := { words := [0x4000, 1, 2, 3, 0, 0, 0, 0] }
    let s := withRecord r
    (s.coreUp 0 = true ∧ (s.thr 0 0).status = .empty ∧ topCand ((dequeCands s 0 ++ queueCands s 0).filter (fun f => fits s 0 0 f.task)) = some ⟨0, .deque 0, r⟩ ∧ lowerTakes s 0 ⟨0, .deque 0, r⟩ = false) ∧
    (recExpand r.w4 = false ∧ r.saved = false ∧ recGang r.w4 = 0 ∧ r.addr 6 = 0 ∧ r.addr 3 = 3) ∧
    ({ r with words := [0, 0, 0, 0, 0, 0, 0, 0] }).addr 3 = 0 ∧ recExpand (0x2000 : Word) = true ∧
    (let h : TaskRec := { words := [0x4000, 1, 2, 0xF00000000000, 0, 0, 0, 0] }
     translate s (taskXlat s h) .load (recVa (taskXlat s h) (h.addr 3)) = .trap { cause := 5, tval := 0xF00000000000 } ∧ h.addr 7 = 0) ∧
    (match readArea s 0 0 (taskXlat s r) 0x8000 with | .done (.ok p) => decide (p.2.1.length = 31) | _ => false) = true ∧
    (State.reset.coreUp 0 = true ∧ dequeCands State.reset 0 = [] ∧ queueCands State.reset 0 = []) ∧ stillSteals s 1 = true ∧ s.idle 1 = true ∧
    victims s 1 0 ≠ [] ∧ (∃ d, s.dieLive d = true ∧ d ≠ 0) ∧ stealFits s (victims s 0 0).head! r = true ∧ dequeRoom s 1 = true ∧ s.idle 0 = false := by
  refine ⟨⟨?_, ?_, ?_, ?_⟩, ⟨?_, ?_, ?_, ?_, ?_⟩, ?_, ?_, ⟨?_, ?_⟩, ?_, ⟨?_, ?_, ?_⟩, ?_, ?_, ?_, ⟨1, ?_, ?_⟩, ?_, ?_, ?_⟩ <;> decide +kernel

/-- BarrierEvents: a completing phase, a timeout due and none, joiners that waited long enough and not. -/
theorem witness_barrier_events :
    let k : BarKey := ⟨false, 0, 0⟩
    let b : Barrier := { n := 2, members := [0, 1], completing := true, first := some 0, timeout := 3 }
    (withBarrier b).barrier k = b ∧ b.completing = true ∧ b.first = some 0 ∧ b.timeout ≠ 0 ∧ b.raised = false ∧
    0 + 91 * b.timeout ≤ ({ withBarrier b with now := 273 } : State).now ∧
    ((State.reset.modHart (fun t => { t with joining := some (1, 0) })).thr 0 0).joining = some (1, 0) ∧ State.reset.coreCycle 0 < 0 + 2 ^ 16 ∧
    0 + 2 ^ 16 ≤ ({ State.reset with now := 2 ^ 16 * 126 } : State).coreCycle 0 ∧ 0 ∈ gangBlock 0 1 := by
  refine ⟨?_, ?_, ?_, ?_, ?_, ?_, ?_, ?_, ?_, ?_⟩ <;> decide +kernel

/-- SafetyNet and PowerControl: margins below, at and above their thresholds, each way to end a window, a hop in progress and none, and power
caps that are accepted and discarded. -/
theorem witness_margin :
    let m := (State.reset.core 0).margin
    QuietReplay m ∧ (({ m with events := m.raiseth.setWidth 32, trim := 3 }).events + 1).toNat = m.raiseth.toNat + 1 ∧ m.stepped = false ∧ m.auto = true ∧
    m.floor < ({ m with trim := 3 } : Margin).trim ∧ (({ m with events := m.quarth.setWidth 32 }).events + 1).toNat = m.quarth.toNat + 1 ∧
    ((State.reset.thr 0 0).status = .running ∧ State.reset.coreUp 0 = true ∧ (State.reset.thr 0 0).rc + 1 < max 1 m.limit.toNat ∧
      max 1 m.limit.toNat ≤ 2 + 1 ∧ ¬ m.floor < m.trim) ∧
    (State.reset.nextCycle 0 (State.reset.core 0) / 2 ^ m.n.toNat ≤ m.win + 1) ∧ m.streak ≠ 2 ∧ m.safe = 0 ∧
    (¬ ∃ t, (State.reset.die (0 / 96)).hop = some t ∧ State.reset.now < t + 64 * Config.corePeriod (classOf 0)) ∧
    (∃ t, ((State.reset.modDie 0 (fun d => { d with hop := some 0 })).die (0 / 96)).hop = some t ∧ State.reset.now < t + 64 * Config.corePeriod (classOf 0)) ∧
    (State.reset.serviceCore 0 = some 0 ∧ State.reset.interrupt 0 0 = none) ∧
    ((∀ n, State.reset.fleet.capSeq = some n → n < 1) ∧ (700 : Nat) ≤ 700 ∧ (1000000 : Nat) ≤ 1000000 ∧ (1000000 : Nat) ≤ 2 ^ 40) ∧
    ({ State.reset with fleet := { State.reset.fleet with leaseEnd := some 0 } } : State).fleet.leaseEnd = some 0 := by
  intro m
  refine ⟨⟨?_, ?_⟩, ?_, ?_, ?_, ?_, ?_, ⟨?_, ?_, ?_, ?_, ?_⟩, ?_, ?_, ?_, ?_, ⟨0, ?_, ?_⟩, ⟨?_, ?_⟩, ⟨?_, ?_, ?_, ?_⟩, rfl⟩
  all_goals decide +kernel

/-- FleetOperation: a unit that turns lasting and one that does not, links that serve and do not, copies and first arrivals of a request, an
open request before, at and after its third timeout, and a subscription on each side of its limits. -/
theorem witness_fleet :
    let s := State.reset
    let r : E2eOut := { seq := 1, target := 2, link := 0, due := 0 }
    let o : State := { s with fleet := { s.fleet with out := [r] } }
    let b : Subscription := { source := 2, die := 0, sensor := 0, low := -1, high := 0, notify := 0x3000, msi := some 3, above := some false }
    (¬ (3 ≤ (s.core 0).margin.streak.toNat ∨ s.quarantined 0 = true)) ∧ (s.unitOf (.core 0)).lasting = false ∧
    (3 ≤ ((s.modCore 0 (fun k => { k with margin := { k.margin with streak := 3 } })).core 0).margin.streak.toNat) ∧
    ((s.link 0).up = true ∧ (s.link 0).retrain = false ∧ (s.link 0).expect = 0) ∧
    (s.boot.oxeil = true ∧ ({ s with boot := { s.boot with oxeil := false } } : State).boot.oxeil = false) ∧
    (s.fleet.dedup.find? (fun d => d.src == 1 && d.seq == 1) = none ∧ s.fleet.dedup.length < 65536 ∧ s.ownedIn 0x1000 8 = false ∧
      s.badIn 0x1000 8 = none ∧ 0 ≤ s.fleet.timerT) ∧
    (o.fleet.out.find? (fun q => q.seq == 1 && q.done.isNone && q.failed.isNone) = some r ∧ r.due ≤ o.now ∧ r.timeouts < 2 ∧ o.linksUp ≠ [] ∧
      2 ≤ ({ r with timeouts := 2 } : E2eOut).timeouts) ∧
    (({ s with host := { s.host with subs := [(1, b)] } } : State).host.subs.find? (fun e => e.1 == 1) = some (1, b) ∧
      b.high ≤ ((s.die b.die).power.power.toNat : Int) ∧ b.above = some false ∧ s.host.waits = [] ∧ s.host.subs.find? (fun e => e.1 == 1) = none) := by
  refine ⟨?_, ?_, ?_, ⟨?_, ?_, ?_⟩, ⟨?_, ?_⟩, ⟨?_, ?_, ?_, ?_, ?_⟩, ⟨?_, ?_, ?_, ?_, ?_⟩, ⟨?_, ?_, ?_, ?_, ?_⟩⟩ <;> decide +kernel

/-- BootAndFirmware: boot records kept and none, units with and without lasting records, slots that are ready, activated and programmed. -/
theorem witness_boot :
    let b := State.reset.boot
    (b.requal = false ∧ newest (b.newEntry).ring = some (0, BootEntry.fresh 0) ∧ newest ([] : SMap BootEntry) = none) ∧
    (({ b with stageOk := false } : Boot).stageOk = false ∧ b.recovery = false ∧ b.poweredDown = false) ∧
    ((State.reset.unitOf (.core 0)).records < 2 ∧ 2 ≤ (((State.reset.setUnit (.core 0) { records := 2 }).unitOf (.core 0)).records)) ∧
    State.reset.coreUp 0 = true ∧ State.reset.coreUp 400 = false ∧
    (let v : ImageSlot := { state := 0xFFFFFFFFFFFFFFFE, pkg := { version := 1, image := 7 } }
     let s : State := { State.reset with boot := { b with slotB := v, booted := false } }
     (s.boot.slot (!s.boot.booted)).state = 0xFFFFFFFFFFFFFFFE ∧ s.boot.rollback ≤ 1) ∧
    (let p : Package := { version := 1, image := 7 }
     let v : ImageSlot := { state := 0xFFFFFFFFFFFFFFFF, pkg := p }
     let kept : Package := ⟨⟨p.minVersion % 2 ^ 64, p.key % 2 ^ 512, p.image, p.signature % 2 ^ (8 * 29792)⟩, p.version % 2 ^ 64⟩
     v.state = 0xFFFFFFFFFFFFFFFF ∧ v.pkg = kept ∧ ({ b with oxeil := true } : Boot).oxeil = true) := by
  refine ⟨⟨?_, ?_, ?_⟩, ⟨?_, ?_, ?_⟩, ⟨?_, ?_⟩, ?_, ?_, ⟨?_, ?_⟩, ⟨?_, ?_, ?_⟩⟩ <;> decide +kernel

/-! ### Hypotheses of the clauses about waits, lost data and what other agents do -/

/-- ContextBlocks: a header of version 1 over zeros is a block of 512 bits. -/
theorem witness_block :
    let s : State := { atMem 0x43 1 with mem := pokeBytes [] 0x1000 8 (2 ^ 40) }
    (match readBlock s 0 0 s.hart.dataXlat 0x1000 with | .done (some b, _) => decide (b.len = 512) | _ => false) = true := by decide +kernel

/-- ExceptionEntry: a redirection that waits for a load in flight; VectorRefusals: a source that alone is empty and trapped. -/
theorem witness_waits :
    (let r : TaskRec := { words := [0, 0, 0, 0, 0, 0, 0, 0x3000], area := 0x4000, handle := 3 }
     let s := State.reset.modHart (fun t => { t with task := some r, priv := .U, landing := [{ vd := 4, count := 1, vlen := 2048, val := 7 }] })
     redirects s.hart 2 = true ∧ (allocArea s 0 0).1 ≠ 0 ∧ dequeRoom s 0 = true ∧ s.hart.busyVector = true) ∧
    (let trap := int32.modHart (fun t => { t.setFull 8 false with dev := { t.dev with vetrap := 0x100 } })
     let i := intInfo trap ⟨4, 8, .vv 12, true⟩ 1 false
     trap.hart.anyEmpty i.dst = false ∧ trap.hart.emptyIn false i.reads = none ∧ trap.hart.emptyIn true i.reads = some 8) ∧
    (let empty := int32.modHart (fun t => t.setFull 8 false)
     empty.hart.emptyIn false (intInfo empty ⟨4, 8, .vv 12, true⟩ 1 false).reads ≠ none) ∧
    (let full := int32.modGate (fun q => { q with level := 2 ^ 60 })
     full.gateOpen (intInfo full ⟨4, 8, .vv 12, true⟩ 1 false).charge = false) := by
  refine ⟨⟨?_, ?_, ?_, ?_⟩, ⟨?_, ?_, ?_⟩, ?_, ?_⟩ <;> decide +kernel

/-- AtomicsAndFences, ServiceRequests: an engine that writes a window of the space fenced holds the fence. -/
theorem witness_fence_waits :
    let w : EngWrite := { unit := 0, off := 0, pa := 0x2000, len := 128, val := 0 }
    let d : Node := { st := .running, kind := 2, writing := true, owned := [64], pend := [w] }
    let s := State.reset.modCore 0 (fun k => { k with nodes := [(5, d)] })
    ((fencedWindows s none).any (fun w => w.2.2.writing) = true) ∧
    (match fenceVma s none none (s.cores.map (fun e => e.1)) with | .wait => true | _ => false) = true := by
  constructor <;> decide +kernel

/-- RequestsAndDoorbells, ServiceRequests, HostAccesses: sector 128 holds lost data, at a request's words and at an access. -/
theorem witness_lost_data :
    let s : State := { withRequest [0x11] with bad := [128] }
    s.badIn req.addr 64 = some 128 ∧ s.badIn 0x1000 8 = some 128 ∧ s.host.pend = none := by
  refine ⟨?_, ?_, ?_⟩ <;> decide +kernel

/-- A machine whose cores 0 and 8 have an empty context each and a choice of the one record of queue 0, core 0's to be made. -/
def contended : State :=
  let i : QItem := { key := 0, task := { words := [0x4000, 1, 2, 3, 0, 0, 0, 0] } }
  let q : Queue := { enable := true, records := true, capacity := 1, threshold := 1, items := [i] }
  { ((State.reset.setQueue 0 q).modThr 0 0 (fun t => { t with status := .empty })) with agenda := [.dispatch 0 0] }

/-- Dispatching, StealsAndReclaims: a queue's head that a lower core takes, a victim with a choice of its own, a header on a line that an engine
owns, and a reclaim of a context of lower priority. -/
theorem witness_contention :
    ((topCand ((dequeCands contended 8 ++ queueCands contended 8).filter (fun f => fits contended 8 0 f.task))).any
      (lowerTakes contended 8) = true ∧ ownDispatch contended 0 = true) ∧
    (let r : TaskRec := { words := [0x4000, 1, 2, 0x1000, 0, 0, 0, 0] }
     let s := (withRecord r).modCore 0 (fun k => { k with nodes := [(5, { st := .running, kind := 2, owned := [32] })] })
     (match plainWords (formBase (openThread s 0 0 r) 0 0 r 0) (taskXlat s r) 0x1000 2 with | .wait => true | _ => false) = true) ∧
    (let low : TaskRec := { words := [0x4000, 1, 2, 3, 0, 0, 0, 0] }
     let high : TaskRec := { words := [0x4000, 1, 2, 3, 5, 0, 0, 0] }
     let s := ((State.reset.modThr 0 0 (fun t => { t with status := .running, task := some low, cls := 4, clusters := 15 }))).modCore 0
       (fun k => { k with deque := [high] })
     (match topCand (dequeCands s 0 ++ queueCands s 0) with
      | some e => (wantsClusters s 0 e).isSome && (firstVictim ((List.range 8).map (fun y => victimsAt s 0 y e.level e.task)).flatten).isSome
      | none => false) = true) := by
  refine ⟨⟨?_, ?_⟩, ?_, ?_⟩ <;> decide +kernel

/-- BarrierEvents: a wait on a phase that completes, a join that no other member of its block asked, alone, beside one of another context
and of a context that is bound. -/
theorem witness_joins :
    let w : BarWait := { dev := false, die := 0, idx := 0, seq := 0, epoch := 0, arrived := true, own := true }
    (w.ends = none ∧ w.third = false ∧ w.seq < ({ n := 2, members := [0, 1], seq := 1 } : Barrier).seq) ∧
    gangBlock 0 2 = [0, 1, 8, 9] ∧
    (let one := State.reset.modThr 0 0 (fun t => { t with joining := some (2, 0) })
     (one.thr 1 0).joining = none ∧ (gangBlock 0 2).all one.coreUp = true ∧
     ((one.thr 0 0).binds = [] ∧ (one.thr 0 0).loop.active = false ∧ (one.thr 0 0).gang = none) ∧
     ((one.modThr 1 3 (fun t => { t with joining := some (2, 0) })).thr 1 3).joining = some (2, 0) ∧
     ((one.modThr 0 0 (fun t => { t with binds := [{ reg := 4 }] })).thr 0 0).binds ≠ []) := by
  refine ⟨⟨?_, ?_, ?_⟩, ?_, ?_, ?_, ⟨?_, ?_, ?_⟩, ?_, ?_⟩ <;> decide +kernel

/-- SafetyNet: an event in the window under way, met by an instruction that completes, by one past its commit point and by one that waits,
below the limit of replays and at it. -/
theorem witness_late_events :
    let s := State.reset
    let m := (s.core 0).margin
    let u := s.modHart (fun t => { t with ended := t.ended + 1 })
    (s.coreUp 0 = true ∧ s.nextCycle 0 (s.core 0) / 2 ^ m.n.toNat = m.win ∧ QuietReplay m ∧ s.cur.1 = 0) ∧
    (s.hart.committed = false ∧ ¬ (s.hart.ended = (u.thr 0 0).ended ∧ (u.thr 0 0).status = .running ∧ (u.thr 0 0).committed = false) ∧
      s.hart.rc + 1 < max 1 m.limit.toNat ∧ max 1 m.limit.toNat ≤ 2 + 1) ∧
    (s.modHart (fun t => { t with midway := true })).hart.committed = true ∧
    (s.hart.ended = (s.thr 0 0).ended ∧ (s.thr 0 0).status = .running ∧ (s.thr 0 0).committed = false) := by
  refine ⟨⟨?_, ?_, ⟨?_, ?_⟩, ?_⟩, ⟨?_, ?_, ?_, ?_⟩, ?_, ?_, ?_, ?_⟩ <;> decide +kernel

/-- FleetOperation: a window of flits to send again, one flit at its sixteenth time, a request already performed, and a die that is fenced. -/
theorem witness_links :
    let k := State.reset.link 0
    k.up = true ∧ ({ k with window := [3, 4] }).window.dropWhile (fun n => n != 3) = [3, 4] ∧ [3, 4].Nodup ∧ k.replays = [] ∧
    ({ k with window := [3], replays := [(3, 15)] }).replays = [(3, 15)] ∧
    (({ State.reset with fleet := { State.reset.fleet with dedup := [{ src := 1, seq := 1, resp := 7, expiry := 5 }] } } : State).fleet.dedup.find?
      (fun d => d.src == 1 && d.seq == 1)).isSome = true ∧
    ({ State.reset with live := 7 } : State).dieLive 3 = false := by
  refine ⟨?_, ?_, ?_, ?_, ?_, ?_, ?_⟩ <;> decide +kernel

/-! ### Single steps against the spec's tables and worked examples -/

/-- The state an instruction leaves. -/
def after (s : State) (i : Instr) : State := match exec i s with
  | .next t => t
  | _ => s

/-- The bits of a format's value rounded into a format under a mode, with the flags. -/
def rounds (f g : FFmt) (v rm : Nat) (sat : Bool) : Nat × Nat := roundTo g (f.decode v) rm sat

/-- Table 02-10: 1 + 2^-11 to FP16 under RNE and RUP; 17.0, 460.0, 500.0 to E4M3; 70,000 to E5M2 with and without saturation. -/
theorem test_rounding_table : (rounds .fp32 .fp16 0x3F801000 0 false).1 = 0x3C00 ∧ (rounds .fp32 .fp16 0x3F801000 3 false).1 = 0x3C01 ∧
    (rounds .fp32 .e4m3 0x41880000 0 false).1 = 0x58 ∧ (rounds .fp32 .e4m3 0x43E60000 0 false).1 = 0x7E ∧
    (rounds .fp32 .e4m3 0x43FA0000 0 false).1 = 0x7F ∧ (rounds .fp32 .e4m3 0x43FA0000 0 true).1 = 0x7E ∧
    (rounds .fp32 .e5m2 0x4788B800 0 false).1 = 0x7C ∧ (rounds .fp32 .e5m2 0x4788B800 0 true).1 = 0x7B ∧
    (rounds .fp32 .bf16 0x3F818000 0 false).1 = 0x3F82 := by decide +kernel

/-- A thread of VLEN 512 at fp32 with ten elements granted, and v8[i] = i + 1 (the example before Table 05-7). -/
def slides : State :=
  ((vec 0x843 10).modHart (fun t => { t with vlen := 512, cls := 1, dev := { t.dev with vfill := 0x3F800000 } })).setV 8
    (packed 32 [0x3F800000, 0x40000000, 0x40400000, 0x40800000, 0x40A00000, 0x40C00000, 0x40E00000, 0x41000000, 0x41100000, 0x41200000,
      0x41300000, 0x41400000, 0x41500000, 0x41600000, 0x41700000, 0x41800000])
where
  packed (w : Nat) : List Nat → Nat
    | [] => 0
    | x :: xs => x + 2 ^ w * packed w xs

/-- Table 05-7. -/
theorem test_slideup : (after slides (.vslideup ⟨4, 8, .vi 2, false⟩)).getV 4 = slides.packed 32
    [0x3F800000, 0, 0x3F800000, 0x40000000, 0x40400000, 0x40800000, 0x40A00000, 0x40C00000, 0x40E00000, 0x41000000] := by decide +kernel
theorem test_slidedn : (after slides (.vslidedn ⟨5, 8, .vi 3, false⟩)).getV 5 = slides.packed 32
    [0x40800000, 0x40A00000, 0x40C00000, 0x40E00000, 0x41000000, 0x41100000, 0x41200000, 0, 0x3F800000, 0] := by decide +kernel

/-- The block of Table 06-2 in v8 and v9: 40.0, 12.0, -20.0, 3.0 and zeros, at fp32 and G = 8, E2M1 in blocks of 32. -/
def block : State :=
  ((vec 0x873 32).modHart (fun t => { t with vlen := 512, cls := 1, dev := { t.dev with fmta := 0x2004 } })).setV 8
    (slides.packed 32 [0x42200000, 0x41400000, 0xC1A00000, 0x40400000])

theorem test_block_scale : (after block (.vsclmk ⟨2, 8, false⟩)).getV 2 = 0x4A82 := by decide +kernel
theorem test_block_quantise : (after (block.setV 2 0x4A82) (.vqE2m1 ⟨3, 8, .vv 2, false⟩)).getV 3 = 0x1C38 := by decide +kernel
/-- vdq of the block's codes: 40.0, 12.0, -16.0, 4.0. -/
theorem test_block_dequantise : (after (((block.setV 2 0x4A82).setV 3 0x1C38).modHart
      (fun t => { t with dev := { t.dev with vtype := 0x40 } })) (.vdq ⟨16, 3, .vv 2, false⟩)).getV 16 =
    slides.packed 32 [0x42200000, 0x41400000, 0xC1800000, 0x40800000] := by decide +kernel

/-- Table 09-3: the set-up of the triangle, in the nine 64-bit words of its bundle, covers the pixels of its mask. -/
def corners : State :=
  ([256, 256, 1792, 256, 256, 1792].zipIdx).foldl (fun s p => s.setV (8 + p.2) p.1)
    ((vec 0x44 1).modHart (fun t => { t with vlen := 512, cls := 1 }))
theorem test_triangle_setup : let t := after corners (.gsetup ⟨16, 8, false⟩)
    t.getV 16 = 0 ∧ t.getV 17 = 2 ^ 64 - 1536 ∧ t.getV 18 = 1536 ∧ t.getV 19 = 1536 ∧ t.getV 22 = 2 ^ 64 - 393216 ∧ t.getV 23 = 3145727 := by decide +kernel
theorem test_triangle_coverage : (after (after corners (.gsetup ⟨16, 8, false⟩)) (.gcov ⟨4, 16, .vx 0, false⟩)).getV 4 = 0x000002060E1E3E00 := by
  decide +kernel

/-- Table 02-11: 1 + 2^-100 at P = 160, and at P = 96 with X set cause 25 with nothing written. -/
def longSum (p : Nat) : State :=
  (((vec 0x245 1).modHart (fun t => { t with vlen := 512, cls := 1, dev := { t.dev with vprecP := BitVec.ofNat 9 p, vprecX := true } })).setV 8
    0x07FFFFFF80000000).setV 12 0x07FFFF9B80000000
theorem test_long_sum : (after (longSum 160) (.lfAdd ⟨4, 8, .vv 12, false⟩)).getV 4 % 2 ^ 192 = 0x27FFFFFF80000000 + 2 ^ 128 * 0x0800000000000000 := by decide +kernel
theorem test_long_sum_stops : let t := after (longSum 96) (.lfAdd ⟨4, 8, .vv 12, false⟩)
    t.hart.std.mcause = 25 ∧ t.getV 4 = 0 ∧ t.hart.dev.vfcsr.getLsbD 8 = true := by decide +kernel

/-- Table 11-3: levels of records A and B at slice cycles 2,200 and 2,400 under aging code 1. -/
theorem test_aging : levelOf (2200 * 91) 10 0 1 = 12 ∧ levelOf (2200 * 91) 11 (1500 * 91) 1 = 11 ∧ levelOf (2400 * 91) 11 (1500 * 91) 1 = 11 ∧
    levelOf (2200 * 91) 44 (2000 * 91) 1 = 44 := by decide +kernel

/-- Table 11-5: the gate of core 0 with pwrbkt.cap 2 and drain 32 takes two charges of 192, and its level after eight cycles. -/
theorem test_gate : let g : Gate := { cap := 2, drain := 32, level := 352 }
    (g.drainTo 7).level = 128 ∧ ({ g with level := 160 }).passes 1 192 = true ∧ ({ g with level := 384 }).passes 1 192 = false := by decide +kernel

/-- The scalar base (R73, Table 03-1): wrap-around, the link of jal, the saved state of ecall from user mode, an access across 128 bytes. -/
theorem test_add_wraps : (after (State.reset.modHart (fun t => t.setX 1 (.allOnes 64))) (.baseInstruction (.opImm .addi 2 1 1))).xr 2 = 0 := by
  decide +kernel
theorem test_x0_discards : (after State.reset (.baseInstruction (.opImm .addi 0 0 5))).xr 0 = 0 := by decide +kernel
theorem test_jal_link : let t := after (State.reset.modHart (fun t => { t with pc := 0x100 })) (.baseInstruction (.jal 1 8))
    t.xr 1 = 0x104 ∧ t.hart.pc = 0x110 := by decide +kernel
theorem test_ecall : let t := after ((inMode .U 8).modHart (fun t => { t with pc := 0x40, std := { t.std with mtvec := 0x8000 } })) .ecall
    t.hart.std.mcause = 8 ∧ t.hart.std.mepc = 0x40 ∧ t.hart.pc = 0x8000 ∧ t.hart.priv = .M ∧ t.hart.std.mstatus = 0x80 := by decide +kernel
theorem test_division_corners : let s := State.reset.modHart (fun t => (t.setX 1 (1 <<< 63)).setX 2 (.allOnes 64))
    (after s (.baseInstruction (.op .div 3 1 2))).xr 3 = 1 <<< 63 ∧ (after s (.baseInstruction (.op .div 3 1 4))).xr 3 = .allOnes 64 := by
  decide +kernel
theorem test_line_crossing : let t := after ((atMem 0x43 1).modHart (fun t => { t with pc := 0x40 })) (.load ⟨.w, false, 1, 10, 126⟩)
    t.hart.std.mcause = 4 ∧ t.hart.std.mtval = 0x107E := by decide +kernel
theorem test_store_load :
    let u := after ((atMem 0x43 1).modHart (fun t => t.setX 5 0xFEDCBA9876543210)) (.store ⟨.d, 10, 5, 8⟩)
    let t := after u (.load ⟨.h, false, 6, 10, 10⟩)
    t.xr 6 = 0x7654 ∧ t.byte 0x100F = 0xFE := by decide +kernel

/-- Configuration (R34, R43, R103): legal, illegal, and a grant. -/
theorem test_vcfgi : let t := after State.reset (.vcfgi 6 0x0853)
    t.hart.dev.vtype = 0x853 ∧ t.hart.dev.vill = false := by decide +kernel
theorem test_vcfgi_illegal : (after State.reset (.vcfgi 6 0x0006)).hart.dev.vtype = 0x8000000000000000 := by decide +kernel
theorem test_vstrip : let s := (after State.reset (.vcfgi 6 0x0843)).modHart (fun t => t.setX 12 100)
    (after s (.vstrip ⟨5, 12⟩)).xr 5 = 64 ∧ (after (s.modHart (fun t => t.setX 12 10)) (.vstrip ⟨5, 12⟩)).hart.dev.vgrant = 10 := by decide +kernel

/-- Turnstiles (R226, R294): tickets count up and a turn waits for its ticket. -/
theorem test_ticket : let t := after State.reset (.qticket ⟨5, 0⟩)
    t.xr 5 = 0 ∧ (after t (.qticket ⟨6, 0⟩)).xr 6 = 1 ∧ (after (t.modHart (fun h => h.setX 7 1)) (.qturn 0 7)).hart.pc = t.hart.pc := by decide +kernel

/-- A push and a pop of a data queue of one place (R222 to R224): the full push reports 1. -/
theorem test_push_pop : let s := withQueue { enable := true, capacity := 1, threshold := 1 }
    let t := after s (.qpushNb ⟨5, 10, 11⟩)
    t.xr 5 = 2 ∧ (after t (.qpushNb ⟨6, 10, 11⟩)).xr 6 = 1 ∧ (after t (.qlen ⟨7, 10⟩)).xr 7 = 1 ∧ (after t (.qpopNb ⟨8, 10, 11⟩)).xr 8 = 0 := by
  decide +kernel

/-- A refused command (R186, Table 07-5): kind 0 is reserved. -/
theorem test_ecmd_refused : (after State.reset (.ecmd 10 8 0)).xr 10 = 1 := by decide +kernel

end Sys2Proof.Tests
end

section
/-! The compares of R138 and R139: the element function of each row against its relation in the spec's terms, and O3. -/
namespace Sys2Proof.Proofs.Compares
open Sys2Proof.Machine Sys2Proof.Claims

/-! ### The shared effect of a compare -/

/-- After its charge a compare writes one bit for each pair of an element and its second operand. -/
theorem cmpB_chargeGate (s : State) (n : Nat) (o : OpB) (f : ElemEnv → Nat → Nat → Bool × Nat) :
    cmpB (s.chargeGate n) o f = .next (writeMaskElems (s.chargeGate n) o.m o.vd
      (fun k => f s.elemEnv (s.elem o.vs2 k) (s.operand o.src k))) := by
  have same := s.chargeGate_same n
  simp only [cmpB, same.shape, same.getGroup, same.op1, same.elemEnv, op1_operand, State.elem]

/-- A compare leaves each bit and raises each flag as its element function gives them. -/
theorem cmpB_writesMask {i : Instr} {s : State} {info : VInfo} {o : OpB} {f : ElemEnv → Nat → Nat → Bool × Nat}
    (he : exec i s = finish (vec s info (fun u => cmpB u o f))) :
    WritesMask i s info o.m o.vd (flagsOver (s.frame o.m) (fun k => (f s.elemEnv (s.elem o.vs2 k) (s.operand o.src k)).2))
      (fun k => (f s.elemEnv (s.elem o.vs2 k) (s.operand o.src k)).1) :=
  writesMask_of he (cmpB_chargeGate s info.charge o f)

/-! ### Integer compares (R138) -/

/-- The signed value of a bit pattern (R46) is the vector's own. -/
theorem toInt_toNat {w : Nat} (x : BitVec w) : toInt w x.toNat = x.toInt := by
  rw [BitVec.toInt_eq_toNat_cond, toInt, Nat.one_shiftLeft, Nat.one_shiftLeft, Nat.mod_eq_of_lt x.isLt]
  cases w with
  | zero => simp [BitVec.of_length_zero]
  | succ n =>
    have half : x.toNat < 2 ^ n ↔ 2 * x.toNat < 2 ^ (n + 1) := by rw [Nat.pow_succ]; omega
    simp only [Nat.add_sub_cancel, half]

theorem toNat_beq {w : Nat} (x y : BitVec w) : (x.toNat == y.toNat) = (x == y) := by
  rw [Bool.eq_iff_iff, beq_iff_eq, beq_iff_eq, BitVec.toNat_inj]

/-- An integer compare whose function on numbers is a relation of bit vectors leaves that relation of the elements: both operands lie
within the element's width. -/
theorem intCmp_writesMask {i : Instr} {s : State} {o : OpB} {f : Nat → Nat → Nat → Bool} {rel : (w : Nat) → BitVec w → BitVec w → Bool}
    (he : exec i s = intCmp o f s) (hrel : ∀ w (x y : BitVec w), f w x.toNat y.toNat = rel w x y) :
    WritesMask i s (infoCmp s (intTag s.hart.dev) 1 o) o.m o.vd 0
      (fun k => rel s.shape.ew (.ofNat _ (s.elem o.vs2 k)) (.ofNat _ (s.operand o.src k))) := by
  intro hp hs hr
  have bit : ∀ k, rel s.shape.ew (.ofNat _ (s.elem o.vs2 k)) (.ofNat _ (s.operand o.src k)) =
      f s.shape.ew (s.elem o.vs2 k) (s.operand o.src k) := fun k => by
    rw [← hrel, BitVec.toNat_ofNat, BitVec.toNat_ofNat, Nat.mod_eq_of_lt (operand_lt s hs o.src k),
      Nat.mod_eq_of_lt (show s.elem o.vs2 k < _ from s.shape.get_lt hs.good _ _)]
  simp only [bit]
  have done := cmpB_writesMask (f := fun e a b => (f e.w a b, 0)) he hp hs hr
  rwa [flagsOver_zero] at done

/-- Each row of R138 runs the integer compare of its relation. -/
theorem intCmpRows_exec : ∀ r ∈ intCmpRows, ∃ f : Nat → Nat → Nat → Bool,
    (∀ o s, exec (r.1 o) s = intCmp o f s) ∧ ∀ w (x y : BitVec w), f w x.toNat y.toNat = r.2 w x y := by
  simp only [intCmpRows, List.forall_mem_cons, List.not_mem_nil, false_implies, implies_true, and_true]
  refine ⟨⟨_, exec_vmseq, fun w x y => ?eq⟩, ⟨_, exec_vmsne, fun w x y => ?ne⟩, ⟨_, exec_vmslt, fun w x y => ?lt⟩,
    ⟨_, exec_vmsltu, fun _ _ _ => rfl⟩, ⟨_, exec_vmsle, fun w x y => ?le⟩, ⟨_, exec_vmsleu, fun _ _ _ => rfl⟩,
    ⟨_, exec_vmsgt, fun w x y => ?gt⟩, ⟨_, exec_vmsgtu, fun _ _ _ => rfl⟩⟩
  case eq => exact toNat_beq x y
  case ne => exact congrArg not (toNat_beq x y)
  case lt | le | gt => simp only [toInt_toNat]; rfl

/-! ### Floating-point compares (R139, Table 05-4) -/

theorem sigNan_of_not_isNan {x : Ev} (h : x.isNan = false) : x.sigNan = false := by
  cases x with
  | nan s => cases h
  | inf n => rfl
  | zero n => rfl
  | fin n m => rfl

theorem magLt_asymm {m l : Mag} (h : magLt m l = true) : magLt l m = false := by
  simp only [magLt, decide_eq_true_eq, decide_eq_false_iff_not] at h ⊢
  rw [Int.min_comm l.e m.e]
  exact Nat.lt_asymm h

/-- No value is both below and above another: values of one sign are ordered by their magnitudes, others by their signs. -/
theorem evLt_asymm : ∀ {x y : Ev}, x.lt y = true → y.lt x = false
  | .inf true, .inf false, _ | .inf true, .zero _, _ | .inf true, .fin _ _, _ => rfl
  | .zero _, .inf false, _ | .fin _ _, .inf false, _ => rfl
  | .zero _, .fin false _, _ | .fin true _, .zero _, _ | .fin true _, .fin false _, _ => rfl
  | .fin true _, .fin true _, h | .fin false _, .fin false _, h => magLt_asymm h

/-- Of two values that are no NaN, one is at most the other where the other is not below it. -/
theorem lt_or_eq_of_not_nan {x y : Ev} (hx : x.isNan = false) (hy : y.isNan = false) : (x.lt y || x.eq y) = !y.lt x := by
  cases h : x.lt y with
  | true => simp [evLt_asymm h]
  | false => simp [Ev.eq, hx, hy, h]

/-- Equality does not depend on the order of its operands. -/
theorem evEq_comm (x y : Ev) : x.eq y = y.eq x := by
  simp only [Ev.eq]; ac_rfl

/-- The pair of answer and flag that the machine forms for two operands is that of Table 05-4: a NaN that signals is a NaN. -/
theorem fpCmp_element {f rel : Ev → Ev → Bool} (nanGives quiet : Bool) {x y : Ev}
    (hrel : x.isNan = false → y.isNan = false → f x y = rel x y) :
    (if x.isNan || y.isNan then (nanGives, if quiet || x.sigNan || y.sigNan then flNV else 0) else (f x y, 0)) =
      (cmpValue rel nanGives x y, cmpFlags quiet x y) := by
  cases nan : x.isNan || y.isNan with
  | true => simp [cmpValue, cmpFlags, nan, Bool.or_comm quiet, Bool.or_assoc]
  | false =>
    obtain ⟨hx, hy⟩ := Bool.or_eq_false_iff.mp nan
    simp [cmpValue, cmpFlags, hx, hy, sigNan_of_not_isNan, hrel]

/-- A compare of Table 05-4 leaves the table's answer and raises NV as the table says, where its relation is the table's on values
that are no NaN. -/
theorem fpCmp_writesMask {i : Instr} {s : State} {o : OpB} {f rel : Ev → Ev → Bool} {nanGives quiet : Bool}
    (he : exec i s = fpCmp o f nanGives quiet s)
    (hrel : ∀ x y : Ev, x.isNan = false → y.isNan = false → f x y = rel x y) :
    WritesMask i s (infoCmp s (fpTag s.hart.dev) 2 o) o.m o.vd
      (flagsOver (s.frame o.m) (fun k => cmpFlags quiet (fpElem s o.vs2 k) (fpOperand s o.src k)))
      (fun k => cmpValue rel nanGives (fpElem s o.vs2 k) (fpOperand s o.src k)) := by
  have done := cmpB_writesMask he
  simp only [fpCmp_element nanGives quiet (hrel _ _)] at done
  exact done

/-- Each row of Table 05-4 runs the compare of its relation, which is the table's on values that are no NaN. -/
theorem fpCmpRows_exec : ∀ r ∈ fpCmpRows, ∃ f : Ev → Ev → Bool,
    (∀ o s, exec (r.1 o) s = fpCmp o f r.2.2.1 r.2.2.2 s) ∧
      ∀ x y : Ev, x.isNan = false → y.isNan = false → f x y = r.2.1 x y := by
  simp only [fpCmpRows, List.forall_mem_cons, List.not_mem_nil, false_implies, implies_true, and_true]
  refine ⟨⟨_, exec_vmfeq, fun _ _ _ _ => rfl⟩, ⟨_, exec_vmfne, fun _ _ _ _ => rfl⟩, ⟨_, exec_vmflt, fun _ _ _ _ => rfl⟩,
    ⟨_, exec_vmfle, fun x y hx hy => ?le⟩, ⟨_, exec_vmfgt, fun _ _ _ _ => rfl⟩, ⟨_, exec_vmfge, fun x y hx hy => ?ge⟩⟩
  case le => exact (lt_or_eq_of_not_nan hx hy).symm
  case ge => rw [evEq_comm, lt_or_eq_of_not_nan hy hx]

/-- Settles O3: every integer row by its relation on bit vectors, every row of Table 05-4 by its relation on values that are no NaN. -/
theorem compares : Obligations.Compares := by
  unfold Obligations.Compares
  intro o s
  constructor
  · intro r hr
    obtain ⟨f, he, hrel⟩ := intCmpRows_exec r hr
    exact intCmp_writesMask (he o s) hrel
  · intro r hr
    obtain ⟨f, he, hrel⟩ := fpCmpRows_exec r hr
    exact fpCmp_writesMask (he o s) hrel

end Sys2Proof.Proofs.Compares
end

section
/-! Queues, turnstiles and slot pools (R222 to R227, R290 to R295): what each instruction comes to on an operand that names one, and O28. -/
namespace Sys2Proof.Proofs.Queues
open Sys2Proof.Machine Sys2Proof.Claims

/-! ### Writing the stash back -/

@[simp] theorem retirePage_queues (s : State) (p : Nat) : (s.retirePage p).queues = s.queues := by
  unfold State.retirePage; split <;> rfl

@[simp] theorem cleanStash_queues (s : State) (c : Nat) : (cleanStash s c).queues = s.queues := by
  have keeps := writeBack_keeps State.queues (testWaits_keeps State.queues retirePage_queues (fun _ _ => rfl))
  simp [cleanStash, keeps]

/-! ### Pushes (R222, R223, R224) -/

/-- The statement's record of a submission and its state after a push are the machine's. -/
theorem newRec_eq_submitted (s : State) (ws : List Word) : newRec s ws = submitted s ws := rfl

theorem pushItem_eq (s : State) (n : Nat) (q : Queue) (r : TaskRec) :
    pushItem s n q r = (if q.threshold ≤ q.items.length + 1 then 2 else 0, afterPush s n q r) := by
  simp only [pushItem, List.length_append, List.length_singleton]
  rfl

/-- A push of an item that its queue accepts turns on the room in the queue alone. -/
theorem push_of_item {s u : State} {o : OpR} {n : Nat} {q : Queue} {ws : List Word} (nb : Bool)
    (hq : s.queueOf (s.xr o.rs1) = some (n, q)) (hread : readItem s (s.xr o.rs2).toNat q.itemWords n = .done (ws, u))
    (hok : q.records = true → recordReason (wordAt ws 4) (s.hart.priv != .U) = none) :
    push nb o s =
      if q.items.length < q.capacity then
        .next ((afterPush (cleanStash u s.cur.1) n q (submitted s ws)).setX o.rd
          (BitVec.ofNat 64 (if q.threshold ≤ q.items.length + 1 then 2 else 0)))
      else if nb then .next (u.setX o.rd 1) else .wait s := by
  have accepted : (if q.records then recordReason (wordAt ws 4) (s.hart.priv != .U) else none) = none := by
    split
    · next h => exact hok h
    · rfl
  simp only [push, hq, hread, Res.body, accepted, pushItem_eq, newRec_eq_submitted]

/-- The status of a push as a word. -/
theorem pushStatus_ofNat (full : Prop) [Decidable full] :
    BitVec.ofNat 64 (if full then 2 else 0) = if full then (2 : Word) else 0 := by
  split <;> rfl

theorem push_with_room {s u : State} {o : OpR} {n : Nat} {q : Queue} {ws : List Word} (nb : Bool)
    (hq : s.queueOf (s.xr o.rs1) = some (n, q)) (hread : readItem s (s.xr o.rs2).toNat q.itemWords n = .done (ws, u))
    (hok : q.records = true → recordReason (wordAt ws 4) (s.hart.priv != .U) = none) (room : q.items.length < q.capacity) :
    push nb o s = .next ((afterPush (cleanStash u s.cur.1) n q (submitted s ws)).setX o.rd
      (if q.threshold ≤ q.items.length + 1 then 2 else 0)) := by
  rw [push_of_item nb hq hread hok, if_pos room, pushStatus_ofNat]

theorem push_when_full {s u : State} {o : OpR} {n : Nat} {q : Queue} {ws : List Word} (nb : Bool)
    (hq : s.queueOf (s.xr o.rs1) = some (n, q)) (hread : readItem s (s.xr o.rs2).toNat q.itemWords n = .done (ws, u))
    (hok : q.records = true → recordReason (wordAt ws 4) (s.hart.priv != .U) = none) (full : q.capacity ≤ q.items.length) :
    push nb o s = if nb then .next (u.setX o.rd 1) else .wait s := by
  rw [push_of_item nb hq hread hok, if_neg (Nat.not_lt.mpr full)]

/-! ### The gate (R224) -/

theorem qpushGate_sorted {s : State} {o : OpR} {n : Nat} {q : Queue} (hq : s.queueOf (s.xr o.rs1) = some (n, q)) (gated : q.mode = 2) :
    let u := { cleanStash s s.cur.1 with queues := s.queues.put n { q with gate := max q.gate (s.xr o.rs2).toNat } }
    exec (.qpushGate o) s = finish (.next ((if q.records then wakeDie u (n % 4) else u).setX o.rd 0)) := by
  simp only [exec_qpushGate, execQpushGate, hq, gated, State.setQueue, cleanStash_queues]
  rfl

theorem qpushGate_unsorted {s : State} {o : OpR} {n : Nat} {q : Queue} (hq : s.queueOf (s.xr o.rs1) = some (n, q)) (ungated : q.mode ≠ 2) :
    exec (.qpushGate o) s = .next (takeException s (exc50 3 n)) := by
  simp only [exec_qpushGate, execQpushGate, hq, if_pos ungated]
  rfl

/-! ### Pops and lengths (R225) -/

/-- A pop of a queue of 16-byte items to an aligned place delivers its next item. -/
theorem pop_item {s u : State} {o : OpR} {n : Nat} {q : Queue} {i : QItem} (nb : Bool)
    (hq : s.queueOf (s.xr o.rs1) = some (n, q)) (data : q.records = false) (aligned : (s.xr o.rs2).toNat % 16 = 0)
    (hi : q.next = some i) (hput : plainPut s s.hart.dataXlat (s.xr o.rs2).toNat i.task.words = .done u) :
    pop nb o s = .next (({ u with queues := u.queues.put n { q with items := q.items.erase i } } : State).setX o.rd 0) := by
  simp only [pop, hq, data, aligned, hi, hput, Bool.false_eq_true, ne_eq, not_true_eq_false, if_false, Res.body, State.setQueue,
    Queue.remove]

theorem pop_nothing {s : State} {o : OpR} {n : Nat} {q : Queue} (nb : Bool) (hq : s.queueOf (s.xr o.rs1) = some (n, q))
    (data : q.records = false) (aligned : (s.xr o.rs2).toNat % 16 = 0) (hnone : q.next = none) :
    pop nb o s = if nb then .next (s.setX o.rd 1) else .wait s := by
  simp only [pop, hq, data, aligned, hnone, Bool.false_eq_true, ne_eq, not_true_eq_false, if_false]

theorem qlen_of_queue {s : State} {o : OpDS} {n : Nat} {q : Queue} (hq : s.queueOf (s.xr o.rs1) = some (n, q)) :
    exec (.qlen o) s = finish (.next (s.setX o.d (BitVec.ofNat 64 q.items.length))) := by
  simp only [exec_qlen, execQlen, hq]

theorem qlen_of_none {s : State} {o : OpDS} (hq : s.queueOf (s.xr o.rs1) = none) :
    exec (.qlen o) s = .next (takeException s (exc50 1 (s.xr o.rs1).toNat)) := by
  simp only [exec_qlen, execQlen, hq]
  rfl

/-! ### Turnstiles (R226) -/

theorem qticket_of_turn {s : State} {o : OpDS} {d i : Nat} {t : Turnstile} (ht : s.turnOf (s.xr o.rs1) = some (d, i, t)) :
    exec (.qticket o) s = finish (.next ((s.setTurn d i { t with next := t.next + 1 }).setX o.d (t.next.zeroExtend 64))) := by
  simp only [exec_qticket, execQticket, ht]

theorem qticket_of_none {s : State} {o : OpDS} (ht : s.turnOf (s.xr o.rs1) = none) :
    exec (.qticket o) s = .next (takeException s (exc50 1 (s.xr o.rs1).toNat)) := by
  simp only [exec_qticket, execQticket, ht]
  rfl

/-- A turn has come when the difference modulo 2^32 of serving and the ticket is not negative. -/
theorem qturn_of_turn {s : State} {rs1 rs2 : Reg} {d i : Nat} {t : Turnstile} (ht : s.turnOf (s.xr rs1) = some (d, i, t)) :
    exec (.qturn rs1 rs2) s =
      finish (if (t.serving - (s.xr rs2).setWidth 32).toInt < 0 then .wait s else .next s) := by
  have ticket : BitVec.ofNat 32 (s.xr rs2).toNat = (s.xr rs2).setWidth 32 := rfl
  simp only [exec_qturn, execQturn, ht, ticket, BitVec.msb_eq_toInt, decide_eq_true_eq]

theorem qnext_of_turn {s : State} {rs1 : Reg} {d i : Nat} {t : Turnstile} (ht : s.turnOf (s.xr rs1) = some (d, i, t)) :
    exec (.qnext rs1) s = finish (.next ((cleanStash s s.cur.1).setTurn d i { t with serving := t.serving + 1 })) := by
  simp only [exec_qnext, execQnext, ht]

/-! ### Slot pools (R227) -/

theorem slotget_lowest {s : State} {o : OpDS} {d i n : Nat} {p : Pool} (hp : s.poolOf (s.xr o.rs1) = some (d, i, p))
    (hn : n < p.size) (free : n ∉ p.out) (lowest : ∀ m, m < n → m ∈ p.out) :
    exec (.slotget o) s = finish (.next ((s.setPool d i { p with out := p.out ++ [n] }).setX o.d (BitVec.ofNat 64 n))) := by
  have found : (List.range p.size).find? (fun m => !p.out.contains m) = some n := by
    simpa [List.find?_range_eq_some, hn, free] using lowest
  simp only [exec_slotget, execSlotget, hp, found]

theorem slotget_exhausted {s : State} {o : OpDS} {d i : Nat} {p : Pool} (hp : s.poolOf (s.xr o.rs1) = some (d, i, p))
    (out : ∀ m, m < p.size → m ∈ p.out) : exec (.slotget o) s = finish (.next (s.setX o.d (.allOnes 64))) := by
  have none_found : (List.range p.size).find? (fun m => !p.out.contains m) = none := by
    simpa [List.find?_range_eq_none] using out
  simp only [exec_slotget, execSlotget, hp, none_found]
  rfl

theorem slotget_of_none {s : State} {o : OpDS} (hp : s.poolOf (s.xr o.rs1) = none) :
    exec (.slotget o) s = .next (takeException s (exc50 1 (s.xr o.rs1).toNat)) := by
  simp only [exec_slotget, execSlotget, hp]
  rfl

theorem slotret_out {s : State} {rs1 rs2 : Reg} {d i : Nat} {p : Pool} (hp : s.poolOf (s.xr rs1) = some (d, i, p))
    (out : (s.xr rs2).toNat ∈ p.out) : exec (.slotret rs1 rs2) s =
      finish (.next ((cleanStash s s.cur.1).setPool d i { p with out := p.out.filter (fun m => m != (s.xr rs2).toNat) })) := by
  simp only [exec_slotret, execSlotret, hp, List.contains_iff_mem, if_pos out]

theorem slotret_free {s : State} {rs1 rs2 : Reg} {d i : Nat} {p : Pool} (hp : s.poolOf (s.xr rs1) = some (d, i, p))
    (free : (s.xr rs2).toNat ∉ p.out) :
    exec (.slotret rs1 rs2) s = .next (takeException s (exc50 6 (s.xr rs2).toNat)) := by
  simp only [exec_slotret, execSlotret, hp, List.contains_iff_mem, if_neg free]
  rfl

/-- Settles O28, clause by clause from the equation of each instruction on its operand. -/
theorem hardwareQueues : Obligations.HardwareQueues := by
  unfold Obligations.HardwareQueues
  refine ⟨fun s o n q hq => ⟨fun ws u hread hok => ⟨fun room i hi => ?_, fun full => ?_⟩, qpushGate_sorted hq, qpushGate_unsorted hq,
    fun data aligned => ⟨fun i u hi hput j hj => ?_, fun hnone => ?_⟩, fun rd => qlen_of_queue hq⟩,
    fun s o rs1 rs2 => ⟨fun d i t => qticket_of_turn, fun d i t ht => ⟨fun come => ?_, fun early => ?_, qnext_of_turn ht⟩,
      fun d i p hp => ⟨fun n => slotget_lowest hp, slotget_exhausted hp⟩, fun d i p hp => ⟨slotret_out hp, slotret_free hp⟩,
      qlen_of_none, qticket_of_none, slotget_of_none⟩⟩
  · have done := fun nb => push_with_room nb hq hread hok room
    obtain rfl | rfl : i = .qpush o ∨ i = .qpushNb o := by simpa using hi
    · exact congrArg finish (done false)
    · exact congrArg finish (done true)
  · have done := fun nb => push_when_full nb hq hread hok full
    exact ⟨congrArg finish (done true), congrArg finish (done false)⟩
  · have done := fun nb => pop_item nb hq data aligned hi hput
    obtain rfl | rfl : j = .qpop o ∨ j = .qpopNb o := by simpa using hj
    · exact congrArg finish (done false)
    · exact congrArg finish (done true)
  · have done := fun nb => pop_nothing nb hq data aligned hnone
    exact ⟨congrArg finish (done true), congrArg finish (done false)⟩
  · rw [qturn_of_turn ht, if_neg (Int.not_lt.mpr come)]
  · rw [qturn_of_turn ht, if_pos early]
    rfl

end Sys2Proof.Proofs.Queues
end

section
/-! Exceptions and interrupts (R73, R123, R211, R213, R309, R311, R312, R346): what entry into a handler writes, where an exception is
redirected, what a redirection leaves of its task and its core's deque, and O41. -/
namespace Sys2Proof.Proofs.TrapEntry
open Sys2Proof.Machine Sys2Proof.Claims

/-! ### Words: the machine writes mstatus.MPP and a handler's address by arithmetic, the statement by masks -/

/-- A privilege's code fits the field MPP. -/
theorem privCode_lt (p : Priv) : privCode p < 2 ^ 2 := by cases p <;> decide

theorem modeCode_eq_ofNat (p : Priv) : modeCode p = BitVec.ofNat 64 (privCode p) := by cases p <;> rfl

/-- Bit i of the word that putMpp writes: a bit of the code at 11 and 12, the old bit elsewhere. -/
theorem testBit_putMpp (w : Word) (p : Priv) (i : Nat) :
    (w.toNat / 8192 * 8192 + privCode p * 2048 + w.toNat % 2048).testBit i =
      if i < 11 then w.getLsbD i else if i < 13 then (privCode p).testBit (i - 11) else w.getLsbD i := by
  have split : w.toNat / 8192 * 8192 + privCode p * 2048 + w.toNat % 2048 =
      2 ^ 11 * (2 ^ 2 * (w.toNat / 2 ^ 13) + privCode p) + w.toNat % 2 ^ 11 := by omega
  rw [split, Nat.testBit_two_pow_mul_add _ (Nat.mod_lt _ (by decide)), Nat.testBit_two_pow_mul_add _ (privCode_lt p)]
  by_cases low : i < 11
  · rw [if_pos low, if_pos low, Nat.testBit_mod_two_pow, decide_eq_true low, Bool.true_and, BitVec.getLsbD]
  · rw [if_neg low, if_neg low]
    by_cases field : i < 13
    · rw [if_pos (by omega), if_pos field]
    · rw [if_neg (by omega), if_neg field, Nat.testBit_div_two_pow, show i - 11 - 2 + 13 = i by omega, BitVec.getLsbD]

/-- Bit i of a two-bit mask shifted to bit 11. -/
theorem getLsbD_mppMask {i : Nat} (h : i < 64) : (3#64 <<< 11).getLsbD i = decide (11 ≤ i ∧ i < 13) := by
  decide +revert

theorem putMpp_eq_mask (w : Word) (p : Priv) : putMpp w p = (w &&& ~~~(3#64 <<< 11)) ||| (modeCode p <<< 11) := by
  apply BitVec.eq_of_getLsbD_eq
  intro i hi
  have code : (modeCode p).getLsbD (i - 11) = (privCode p).testBit (i - 11) := by
    rw [modeCode_eq_ofNat, BitVec.getLsbD_ofNat, decide_eq_true (show i - 11 < 64 by omega), Bool.true_and]
  have high : 13 ≤ i → (privCode p).testBit (i - 11) = false := fun h =>
    Nat.testBit_lt_two_pow (Nat.lt_of_lt_of_le (privCode_lt p) (Nat.pow_le_pow_right (by decide) (by omega)))
  simp only [putMpp, BitVec.getLsbD_ofNat, testBit_putMpp, BitVec.getLsbD_or, BitVec.getLsbD_and, BitVec.getLsbD_not, getLsbD_mppMask hi,
    BitVec.getLsbD_shiftLeft, code, hi]
  by_cases low : i < 11
  · simp [low]
  · by_cases field : i < 13
    · simp [low, field, show 11 ≤ i by omega]
    · simp [low, field, high (by omega)]

/-- The base of a trap-vector register is the register without its low two bits. -/
theorem tvecBase_eq_mask (w : Word) : BitVec.ofNat 64 (w.toNat / 4 * 4) = w &&& ~~~3#64 := by
  apply BitVec.eq_of_getLsbD_eq
  intro i hi
  have mask : (3#64).getLsbD i = decide (i < 2) := by decide +revert
  have div : (w.toNat / 4 * 4).testBit i = (decide (2 ≤ i) && w.getLsbD i) := by
    rw [show w.toNat / 4 * 4 = w.toNat / 2 ^ 2 * 2 ^ 2 from rfl, Nat.testBit_mul_two_pow, Nat.testBit_div_two_pow]
    by_cases low : 2 ≤ i
    · simp [low, BitVec.getLsbD]
    · simp [low]
  simp only [BitVec.getLsbD_ofNat, div, BitVec.getLsbD_and, BitVec.getLsbD_not, mask, hi]
  by_cases low : i < 2
  · simp only [low, show ¬ 2 ≤ i by omega, decide_true, decide_false, Bool.not_true, Bool.false_and, Bool.and_false]
  · simp only [low, show 2 ≤ i by omega, decide_true, decide_false, Bool.not_false, Bool.true_and, Bool.and_true]

theorem vectorPc_exception (tvec : Word) (cause : Nat) : vectorPc tvec cause false = tvec &&& ~~~3#64 := by
  rw [← tvecBase_eq_mask]
  rfl

theorem vectorPc_interrupt (tvec : Word) (i : Nat) : vectorPc tvec i true =
    if tvec.toNat % 4 = 1 then (tvec &&& ~~~3#64) + BitVec.ofNat 64 (4 * i) else tvec &&& ~~~3#64 := by
  by_cases vectored : tvec.toNat % 4 = 1
  · simp [vectorPc, vectored, BitVec.ofNat_add, tvecBase_eq_mask]
  · simp [vectorPc, vectored, tvecBase_eq_mask]

/-! ### A context enters a handler (R73, R211, R309) -/

/-- Entry into a handler writes what the statement gives, by the mode's own registers. -/
theorem enter_eq_entered (t : Ctx) (toM interrupt : Bool) (cause : Nat) (tval epc : Word) :
    t.enter toM interrupt cause tval epc =
      entered t toM (BitVec.ofNat 64 (cause + if interrupt then 1 <<< 63 else 0)) tval epc
        (vectorPc (if toM then t.std.mtvec else t.std.stvec) cause interrupt) := by
  cases toM with
  | true => simp only [Ctx.enter, StdCsr.enterM, entered, putMpp_eq_mask, if_true]; rfl
  | false => rfl

theorem enter_exception (t : Ctx) (toM : Bool) (cause : Nat) (tval epc : Word) :
    t.enter toM false cause tval epc =
      entered t toM (BitVec.ofNat 64 cause) tval epc ((if toM then t.std.mtvec else t.std.stvec) &&& ~~~3#64) := by
  rw [enter_eq_entered, vectorPc_exception]
  rfl

theorem enter_interrupt (t : Ctx) (toM : Bool) (i : Nat) (tval epc : Word) :
    t.enter toM true i tval epc =
      let tvec := if toM then t.std.mtvec else t.std.stvec
      let base := tvec &&& ~~~3#64
      entered t toM (BitVec.ofNat 64 (i + 2 ^ 63)) tval epc (if tvec.toNat % 4 = 1 then base + BitVec.ofNat 64 (4 * i) else base) := by
  rw [enter_eq_entered, vectorPc_interrupt]
  rfl

theorem leaveInstr_eq_interrupted (t : Ctx) : t.leaveInstr = interrupted t := rfl

theorem excToM_eq_trapsToM (t : Ctx) (cause : Nat) : t.excToM cause = trapsToM t cause := rfl

theorem isVectorWord_iff (w : BitVec 32) :
    isVectorWord w = true ↔ w.toNat % 128 = 0x0B ∨ w.toNat % 128 = 0x2B ∨ w.toNat % 128 = 0x5B := by
  simp [isVectorWord, or_assoc]

/-! ### The running hart leaves its instruction: its gate claim ends, its context changes (R304) -/

theorem dropClaim_core (s : State) (c x : Nat) : (dropClaim s c x).core c = { s.core c with gate := unclaimed (s.core c).gate x } := by
  simp only [dropClaim, State.modCore_core, unclaimed]
  cases (s.core c).gate.claim with
  | none => rfl
  | some e =>
    by_cases own : e.1 = x
    · simp [own, Option.filter]
    · simp [own, Option.filter]

theorem dropClaim_core_ne (s : State) {c d : Nat} (x : Nat) (h : d ≠ c) : (dropClaim s c x).core d = s.core d :=
  s.modCore_core_ne _ h

theorem dropClaim_thr (s : State) (c x d y : Nat) : (dropClaim s c x).thr d y = s.thr d y := by
  by_cases same : d = c
  · subst same
    simp [State.thr, dropClaim_core, Core.ctx]
  · simp [State.thr, dropClaim_core_ne s x same]

/-- The running hart's gate claim ends and its context becomes f of what it was. -/
def leftWith (s : State) (f : Ctx → Ctx) : State := (dropClaim s s.cur.1 s.cur.2).modHart f

section
variable (s : State) (f : Ctx → Ctx)

theorem leftWith_hart : (leftWith s f).hart = f s.hart := by
  rw [leftWith, State.modHart_hart]
  exact congrArg f (dropClaim_thr s ..)

theorem leftWith_sameBytes : SameBytes s (leftWith s f) := fun _ => rfl

theorem leftWith_thr_ne {c x : Nat} (h : c ≠ s.cur.1 ∨ x % 8 ≠ s.cur.2 % 8) : (leftWith s f).thr c x = s.thr c x :=
  (State.modHart_thr_ne (dropClaim s s.cur.1 s.cur.2) f h).trans (dropClaim_thr s ..)

theorem leftWith_core_ne {c : Nat} (h : c ≠ s.cur.1) :
    (leftWith s f).core c = { s.core c with ctxs := ((leftWith s f).core c).ctxs } := by
  have rest := State.modHart_core (dropClaim s s.cur.1 s.cur.2) f c
  rwa [dropClaim_core_ne s _ h] at rest

theorem leftWith_myCore :
    (leftWith s f).myCore = { s.myCore with ctxs := (leftWith s f).myCore.ctxs, gate := unclaimed s.myCore.gate s.cur.2 } := by
  have rest := State.modHart_core (dropClaim s s.cur.1 s.cur.2) f s.cur.1
  rwa [dropClaim_core] at rest

theorem leftWith_cores : leftWith s f = { s with cores := (leftWith s f).cores } := rfl

end

/-! ### Interrupts (R73, R309, R446) -/

/-- Serving an interrupt changes the running hart's context alone, and its claim. -/
theorem serveInterrupt_eq_leftWith (s : State) (i : Nat) (toM : Bool) : s.serveInterrupt i toM = leftWith s (fun t =>
    let h := t.leaveInstr.enter toM true i 0 t.pc
    if i = 17 then { h with reentryPend := false } else h) := by
  by_cases reentry : i = 17
  · simp only [State.serveInterrupt, takeInterrupt, reentry, if_true, State.modHart_modHart]
    rfl
  · simp only [State.serveInterrupt, takeInterrupt, reentry, if_false]
    rfl

/-! ### An exception in the context itself (R73, R123, R213, R346) -/

/-- The context of a trapping instruction with its handler bank and precision words (R213, R448). -/
def trapBank (t : Ctx) (e : Exc) (word : BitVec 32) : Ctx :=
  { t with dev := if isVectorWord word then t.dev.bankTrap else t.dev, lastPrec := if e.cause = 25 then e.words else t.lastPrec }

theorem trapHere_eq_leftWith (s : State) {e : Exc} (epc : Word) (noPage : e.retire = none) : trapHere s e epc = leftWith s (fun t =>
    (trapBank t e s.fetched).leaveInstr.enter (t.excToM e.cause) false e.cause (BitVec.ofNat 64 e.tval) epc) := by
  have page : retireFor s e = s := by simp only [retireFor, noPage]
  have bank : ∀ t : Ctx,
      (let t0 := if e.cause = 25 then { t with lastPrec := e.words } else t
       if isVectorWord s.fetched then { t0 with dev := t0.dev.bankTrap } else t0) = trapBank t e s.fetched := fun t => by
    unfold trapBank
    split <;> split <;> rfl
  simp only [trapHere, page, ← bank]
  rfl

theorem trapBank_of_word (t : Ctx) (e : Exc) (w : BitVec 32) :
    trapBank t e w = { t with
      dev := if w.toNat % 128 = 0x0B ∨ w.toNat % 128 = 0x2B ∨ w.toNat % 128 = 0x5B then
          { t.dev with hvtype := t.dev.vtype, hvgrant := t.dev.vgrant.zeroExtend 64, hvstart := t.dev.vstart.zeroExtend 64,
                       hvValid := true, hvLost := t.dev.hvLost || t.dev.hvValid }
        else t.dev
      lastPrec := if e.cause = 25 then e.words else t.lastPrec } := by
  simp only [trapBank, isVectorWord_iff]
  rfl

/-! ### Which exceptions are redirected (R311) -/

theorem redirects_of_task {t : Ctx} {r : TaskRec} (ht : t.task = some r) (cause : Nat) :
    redirects t cause = true ↔ t.priv = .U ∧ (wordAt r.words 7).toNat % (1 <<< 48) ≠ 0 ∧ redirected cause = true := by
  simp only [redirects, ht, Bool.and_eq_true, beq_iff_eq, bne_iff_ne, and_assoc, TaskRec.addr]

theorem task_of_redirects {t : Ctx} {cause : Nat} (h : redirects t cause = true) : ∃ r, t.task = some r := by
  cases ht : t.task with
  | none => simp [redirects, ht] at h
  | some r => exact ⟨r, rfl⟩

theorem takeException_not_redirected {s : State} {e : Exc} (h : redirects s.hart e.cause = false) :
    takeException s e = trapHere s e s.hart.pc := by
  cases ht : s.hart.task with
  | none => simp only [takeException, takeExceptionAt, ht]
  | some r =>
    have refused := mt (redirects_of_task ht e.cause).mpr (Bool.eq_false_iff.mp h)
    simp only [takeException, takeExceptionAt, ht, if_neg refused]

section
variable {s : State} {e : Exc} {r : TaskRec} (ht : s.hart.task = some r) (h : redirects s.hart e.cause = true)
include ht h

theorem takeException_redirect_fails (hr : redirect s s.cur.1 s.cur.2 r e s.hart.pc false = .done none) :
    takeException s e = trapHere s e s.hart.pc := by
  simp only [takeException, takeExceptionAt, ht, if_pos ((redirects_of_task ht e.cause).mp h), hr]

theorem takeException_redirect_done {u : State} (hr : redirect s s.cur.1 s.cur.2 r e s.hart.pc false = .done (some u)) :
    takeException s e = retireFor u e := by
  simp only [takeException, takeExceptionAt, ht, if_pos ((redirects_of_task ht e.cause).mp h), hr]

theorem takeException_redirect_waits (hr : redirect s s.cur.1 s.cur.2 r e s.hart.pc false = .wait) :
    takeException s e = holdRaised s s.cur.1 s.cur.2 ⟨e, s.hart.pc, s.fetched, false⟩ := by
  simp only [takeException, takeExceptionAt, ht, if_pos ((redirects_of_task ht e.cause).mp h), hr]

end

/-! ### What a redirection comes to (R311, R312) -/

theorem redirect_without_place {s : State} {c x : Nat} (r : TaskRec) (e : Exc) (epc : Word)
    (h : (allocArea s c x).1 = 0 ∨ dequeRoom s c = false) : redirect s c x r e epc false = .done none := by
  have refused : (allocArea s c x).1 = 0 ∨ (!dequeRoom s c) = true := by simpa using h
  simp only [redirect, if_pos refused]

theorem redirect_while_busy {s : State} {c x : Nat} (r : TaskRec) (e : Exc) (epc : Word) (area : (allocArea s c x).1 ≠ 0)
    (room : dequeRoom s c = true) (busy : (s.thr c x).busyVector = true) : redirect s c x r e epc false = .wait := by
  simp [redirect, area, room, busy]

/-- The machine's fault record is that of Table 11-7. -/
theorem faultWords_eq_record (s : State) (c x : Nat) (r : TaskRec) (area : Nat) (e : Exc) (epc : Word) :
    faultWords s c x r area e epc false = faultRecord s (c, x) r area e epc := by
  have head : false.toNat * (1 <<< 35) + x * (1 <<< 32) + c * 65536 + e.cause = e.cause + c * 2 ^ 16 + x * 2 ^ 32 := by
    simp only [Bool.toNat_false, Nat.shiftLeft_eq]
    omega
  simp only [faultWords, faultRecord, head] <;> rfl

theorem redirect_saves {s u v w : State} {c x area : Nat} {r : TaskRec} {e : Exc} {epc : Word} (alloc : allocArea s c x = (area, u))
    (place : area ≠ 0) (room : dequeRoom s c = true) (idle : (s.thr c x).busyVector = false)
    (save : saveTask u c x r area epc = .done v)
    (record : storeWords v c x (taskXlat v r) (area + 448) (faultRecord v (c, x) r area e epc) = .done w) :
    redirect s c x r e epc false = .done (some (faultTask w c x { r with area := area } area)) := by
  simp [redirect, alloc, place, room, idle, save, Res.bind, faultWords_eq_record, record]

/-- An exception that is not redirected, or finds no save area or no room, traps in its own context. -/
theorem takeException_traps {s : State} {e : Exc}
    (h : redirects s.hart e.cause = false ∨ (allocArea s s.cur.1 s.cur.2).1 = 0 ∨ dequeRoom s s.cur.1 = false) :
    takeException s e = trapHere s e s.hart.pc := by
  cases hr : redirects s.hart e.cause with
  | false => exact takeException_not_redirected hr
  | true =>
    obtain ⟨r, ht⟩ := task_of_redirects hr
    exact takeException_redirect_fails ht hr (redirect_without_place r e _ (h.resolve_left (by simp [hr])))

/-- While a landing or a refill is in flight the exception waits in its context. -/
theorem takeException_holds {s : State} {e : Exc} (h : redirects s.hart e.cause = true) (area : (allocArea s s.cur.1 s.cur.2).1 ≠ 0)
    (room : dequeRoom s s.cur.1 = true) (busy : s.hart.busyVector = true) :
    takeException s e = leftWith s (fun t => { t with raised := some ⟨e, s.hart.pc, s.fetched, false⟩ }) := by
  obtain ⟨r, ht⟩ := task_of_redirects h
  exact takeException_redirect_waits ht h (redirect_while_busy r e _ area room busy)

/-! ### A core looks for work: only the agenda changes (R298, R301) -/

/-- A fold of steps that change the agenda alone changes the agenda alone. -/
theorem foldl_onlyAgenda {α : Type} {f : State → α → State} (hf : ∀ s a, f s a = { s with agenda := (f s a).agenda }) (l : List α)
    (s : State) : l.foldl f s = { s with agenda := (l.foldl f s).agenda } := by
  induction l generalizing s with
  | nil => rfl
  | cons a l ih =>
    rw [List.foldl_cons, ih, hf s a]

theorem alertThieves_onlyAgenda (s : State) (c : Nat) : alertThieves s c = { s with agenda := (alertThieves s c).agenda } := by
  simp only [alertThieves]
  split <;> rfl

theorem wakeCore_onlyAgenda (s : State) (c : Nat) : wakeCore s c = { s with agenda := (wakeCore s c).agenda } := by
  have dispatches := foldl_onlyAgenda
    (f := fun (t : State) x => if (t.thr c x).status = .empty ∧ !t.agenda.any (isDispatch c x) then t.later (.dispatch c x) else t)
    (fun t x => by split <;> rfl) (List.range 8) s
  rw [wakeCore, alertThieves_onlyAgenda, dispatches]

theorem wakeLeaders_onlyAgenda (s : State) (c : Nat) : wakeLeaders s c = { s with agenda := (wakeLeaders s c).agenda } :=
  foldl_onlyAgenda wakeCore_onlyAgenda _ s

/-- A core that chooses again changes the agenda and ends its back-off. -/
theorem rouseCore_onlyAgenda (s : State) (c : Nat) : rouseCore s c =
    { s.modCore c (fun k => { k with steal := { k.steal with backoff := none } }) with agenda := (rouseCore s c).agenda } :=
  wakeCore_onlyAgenda _ c

/-- What neither the agenda nor a core's steal round decides stays as it was when a core chooses again. -/
theorem rouseCore_keeps {α : Type} (f : State → α) (hf : ∀ (s : State) a, f { s with agenda := a } = f s)
    (hm : ∀ (s : State) c (k : Steal), f (s.modCore c (fun j => { j with steal := k })) = f s) (s : State) (c : Nat) :
    f (rouseCore s c) = f s := by
  rw [rouseCore_onlyAgenda, hf]
  exact hm s c { (s.core c).steal with backoff := none }

theorem modCore_thr (s : State) {c : Nat} {f : Core → Core} (hf : ∀ k, (f k).ctxs = k.ctxs) (d y : Nat) :
    (s.modCore c f).thr d y = s.thr d y := by
  by_cases same : d = c
  · subst same
    simp only [State.thr, State.modCore_core, Core.ctx, hf]
  · simp only [State.thr, s.modCore_core_ne f same]

@[simp] theorem rouseCore_thr (s : State) (c d y : Nat) : (rouseCore s c).thr d y = s.thr d y :=
  rouseCore_keeps (fun t => t.thr d y) (fun _ _ => rfl) (fun t _ _ => modCore_thr t (by intro; rfl) d y) s c

@[simp] theorem rouseCore_cur (s : State) (c : Nat) : (rouseCore s c).cur = s.cur :=
  rouseCore_keeps State.cur (fun _ _ => rfl) (fun _ _ _ => rfl) s c

@[simp] theorem rouseCore_mem (s : State) (c : Nat) : (rouseCore s c).mem = s.mem :=
  rouseCore_keeps State.mem (fun _ _ => rfl) (fun _ _ _ => rfl) s c

@[simp] theorem rouseCore_faulted (s : State) (c : Nat) : (rouseCore s c).faulted = s.faulted :=
  rouseCore_keeps State.faulted (fun _ _ => rfl) (fun _ _ _ => rfl) s c

theorem modCore_deque (s : State) {c : Nat} {f : Core → Core} (hf : ∀ k, (f k).deque = k.deque) (d : Nat) :
    ((s.modCore c f).core d).deque = (s.core d).deque := by
  by_cases same : d = c
  · subst same
    rw [State.modCore_core, hf]
  · rw [s.modCore_core_ne f same]

@[simp] theorem rouseCore_deque (s : State) (c d : Nat) : ((rouseCore s c).core d).deque = (s.core d).deque :=
  rouseCore_keeps (fun t => (t.core d).deque) (fun _ _ => rfl) (fun t _ _ => modCore_deque t (by intro; rfl) d) s c

/-! ### A record at the bottom of a deque (R296) -/

@[simp] theorem pushBottom_cur (s : State) (c : Nat) (r : TaskRec) : (pushBottom s c r).cur = s.cur := rfl
@[simp] theorem pushBottom_mem (s : State) (c : Nat) (r : TaskRec) : (pushBottom s c r).mem = s.mem := rfl
@[simp] theorem pushBottom_faulted (s : State) (c : Nat) (r : TaskRec) : (pushBottom s c r).faulted = s.faulted := rfl

@[simp] theorem pushBottom_thr (s : State) (c : Nat) (r : TaskRec) (d y : Nat) : (pushBottom s c r).thr d y = s.thr d y := by
  refine modCore_thr s (fun k => ?_) d y
  cases k.deque with
  | nil => rfl
  | cons top rest => dsimp only; split <;> rfl

/-- The record is the bottom one, whether or not the topmost had to make room. -/
theorem pushBottom_bottom (s : State) (c : Nat) (r : TaskRec) : ((pushBottom s c r).core c).deque.getLast? = some r := by
  rw [pushBottom, State.modCore_core]
  cases (s.core c).deque with
  | nil => rfl
  | cons top rest => dsimp only; split <;> exact List.getLast?_concat ..

/-! ### A context is freed (R308) -/

@[simp] theorem wakeLeaders_thr (s : State) (c d y : Nat) : (wakeLeaders s c).thr d y = s.thr d y := by rw [wakeLeaders_onlyAgenda]; rfl
@[simp] theorem wakeLeaders_cur (s : State) (c : Nat) : (wakeLeaders s c).cur = s.cur := by rw [wakeLeaders_onlyAgenda]
@[simp] theorem wakeLeaders_mem (s : State) (c : Nat) : (wakeLeaders s c).mem = s.mem := by rw [wakeLeaders_onlyAgenda]
@[simp] theorem wakeLeaders_faulted (s : State) (c : Nat) : (wakeLeaders s c).faulted = s.faulted := by rw [wakeLeaders_onlyAgenda]

@[simp] theorem freeContext_cur (s : State) (c x : Nat) : (freeContext s c x).cur = s.cur := by simp [freeContext, dropClaim]
@[simp] theorem freeContext_mem (s : State) (c x : Nat) : (freeContext s c x).mem = s.mem := by simp [freeContext, dropClaim]
@[simp] theorem freeContext_faulted (s : State) (c x : Nat) : (freeContext s c x).faulted = s.faulted := by simp [freeContext, dropClaim]

theorem freeContext_thr (s : State) (c x : Nat) : (freeContext s c x).thr c x = (s.thr c x).emptied := by
  simp only [freeContext, wakeLeaders_thr, rouseCore_thr]
  refine (modCore_thr _ (fun _ => ?_) c x).trans ?_
  · rfl
  · rw [State.modThr_thr, dropClaim_thr]

/-! ### A task faults (R312) -/

section
variable (s : State) (c x : Nat) (r : TaskRec) (area : Nat)

theorem faultTask_cur : (faultTask s c x r area).cur = s.cur := by simp [faultTask]

theorem faultTask_mem : (faultTask s c x r area).mem = s.mem := by simp [faultTask]

theorem faultTask_faulted :
    (faultTask s c x r area).faulted = s.faulted ++ [{ task := pendingRec s c x r area false, core := c }] := by simp [faultTask]

theorem faultTask_thr : (faultTask s c x r area).thr c x = (s.thr c x).emptied := by
  simp only [faultTask, rouseCore_thr, pushBottom_thr, freeContext_thr]
  rfl

theorem faultTask_bottom : ((faultTask s c x r area).core c).deque.getLast? = some (handlerRec s r area) := by
  rw [faultTask, rouseCore_deque, pushBottom_bottom]

end

theorem handlerRec_area (s : State) (r : TaskRec) (a area : Nat) : handlerRec s { r with area := a } area = handlerRec s r area := rfl

/-- Word 4 of a handler's record: the priority and the column class of the faulted record's, and class C1. -/
theorem handlerRec_w4 (s : State) (r : TaskRec) (area : Nat) :
    (handlerRec s r area).w4.toNat = r.w4.toNat % 64 + r.w4.toNat / 256 % 4 * 256 := by
  show (BitVec.ofNat 64 (r.w4.toNat % 64 + r.w4.toNat / 256 % 4 * 256)).toNat = _
  rw [BitVec.toNat_ofNat]
  exact Nat.mod_eq_of_lt (by omega)

/-- The handler's record as the statement gives it (R312). -/
theorem handlerRec_words (s : State) (r : TaskRec) (area : Nat) :
    let h := handlerRec s r area
    wordAt h.words 0 = wordAt r.words 7 ∧ wordAt h.words 1 = BitVec.ofNat 64 (area + 448) ∧ wordAt h.words 2 = wordAt r.words 2 ∧
      wordAt h.words 3 = 0 ∧ recPriority h.w4 = recPriority r.w4 ∧ recColumn h.w4 = recColumn r.w4 ∧ recClass h.w4 = 0 ∧
      h.asid = r.asid := by
  refine ⟨rfl, rfl, rfl, rfl, ?_, ?_, ?_, rfl⟩ <;> simp only [recPriority, recColumn, recClass, handlerRec_w4] <;> omega

/-! ### The accesses that save a task leave the running hart's place alone -/

theorem Res.bind_eq_done {α β : Type} {r : Res α} {f : α → Res β} {b : β} (h : r.bind f = .done b) : ∃ a, r = .done a ∧ f a = .done b := by
  cases r with
  | done a => exact ⟨a, rfl, h⟩
  | trap e => cases h
  | wait => cases h

theorem foldl_cur {α : Type} {f : State → α → State} (hf : ∀ s a, (f s a).cur = s.cur) (l : List α) (s : State) :
    (l.foldl f s).cur = s.cur := by
  induction l generalizing s with
  | nil => rfl
  | cons a l ih => exact (ih _).trans (hf s a)

theorem noted_cur (s u : State) (t : Xlat) (acc : Acc) (va : Nat) : (s.noted u t acc va).cur = s.cur := by
  simp only [State.noted]
  split
  · rfl
  · split
    · split
      · rfl
      · dsimp only
        split
        · exact foldl_cur (fun q a => recallRead_cur q none a 8) _ s
        · rfl
    · rfl

theorem stashTouches_cur (s : State) (c asid e va pa n : Nat) (dirty : Bool) : (stashTouches s c asid e va pa n dirty).cur = s.cur := by
  have touch : ∀ (u : State) va pa, (stashTouch u c asid e va pa dirty).cur = u.cur := fun u va pa => by
    simp only [stashTouch, State.modCore_cur]
    split
    · split
      · exact writeBack_cur ..
      · rfl
    · rfl
  rw [stashTouches, touch, touch]

theorem ringDoorbell_cur {s u : State} {c : Nat} {v : Word} (h : ringDoorbell s (some c) v = .done u) : u.cur = s.cur := by
  simp only [ringDoorbell] at h
  split at h
  · cases h; rfl
  · split at h
    · cases h
    · cases h
      split <;> rfl

theorem startSnapshot_cur (s : State) (c mask : Nat) (satp : Word) : (startSnapshot s c mask satp).cur = s.cur := by
  simp only [startSnapshot]
  split <;> rfl

theorem writeRequeue_cur (s : State) (c x : Nat) (v : Word) : (writeRequeue s c x v).cur = s.cur := by
  simp only [writeRequeue]
  split <;> rfl

theorem armLeaves_cur (s : State) (die : Nat) : (armLeaves s die).cur = s.cur :=
  foldl_cur (by intros; rfl) (s.die die).power.asking s

theorem writeLvcfgOf_cur (s : State) (die : Nat) (v : Word) : (writeLvcfgOf s die v).cur = s.cur :=
  armLeaves_cur _ die

theorem writeStashMap_cur (s : State) (c off : Nat) (v : Word) : (writeStashMap s c off v).cur = s.cur := writeBack_cur ..

/-- A store to a register is performed where its privilege allows it. -/
theorem store_allowed {ok : Prop} [Decidable ok] {t u : State} {e : Exc}
    (h : (if ok then Res.done t else .trap e) = .done u) : u = t := by
  split at h
  · cases h; rfl
  · cases h

/-- A store to the register block moves no hart: of the stash map, then of the doorbell, CFGDONE, the snapshot and save registers, the power
controller and the quarst mirror, in the order of the block. -/
theorem blockStore_cur {s u : State} {c x core off : Nat} {priv : Priv} {v : Word} (h : blockStore s c x priv core off v = .done u) :
    u.cur = s.cur := by
  simp only [blockStore] at h
  split at h
  · cases h
  · split at h
    · split at h
      · cases h
      · cases h; exact writeStashMap_cur ..
    · split at h
      · split at h
        · exact ringDoorbell_cur h
        · cases h
      · rw [store_allowed h]; rfl
      · rw [store_allowed h]; rfl
      · rw [store_allowed h, startSnapshot_cur]
      · rw [store_allowed h, writeRequeue_cur]
      · rw [store_allowed h]
      · rw [store_allowed h]
      · split at h <;> cases h <;> rfl
      · split at h
        · cases h; exact writeLvcfgOf_cur ..
        · cases h; rfl
      · cases h; rfl
      · rw [store_allowed h]; rfl
      · cases h; rfl

theorem storeAt_cur {s u : State} {c x : Nat} {t : Xlat} {va n v : Nat} {p : PAddr} (h : storeAt s c x t va n v p = .done u) :
    u.cur = s.cur := by
  simp only [storeAt] at h
  split at h
  · split at h
    · cases h
    · split at h
      · cases h
      · split at h
        · cases h; rw [stashTouches_cur, State.storePhys_cur]
        · cases h; exact State.storePhys_cur ..
  · split at h
    · split at h
      · cases h
      · exact blockStore_cur h
    · cases h
  · split at h
    · cases h
      simp only [hostStore, State.post, atsUse]
      split <;> rfl
    · cases h
  · cases h

theorem storeWordsFrom_cur {s t : State} {c x : Nat} {xl : Xlat} {va : Nat} {ws : List Word} (u : State)
    (h : storeWordsFrom u s c x xl va ws = .done t) : t.cur = s.cur := by
  induction ws generalizing s va with
  | nil => cases h; rfl
  | cons w ws ih =>
    obtain ⟨s1, first, rest⟩ := Res.bind_eq_done h
    obtain ⟨p, -, stored⟩ := Res.bind_eq_done first
    rw [ih rest, storeAt_cur stored, noted_cur]

theorem rememberNests_cur (s : State) (t : Xlat) (len iter va : Nat) (bs : List Binding) :
    (rememberNests s t len iter va bs).cur = s.cur := by
  induction bs generalizing s va with
  | nil => rfl
  | cons b bs ih =>
    rw [rememberNests, ih]
    split <;> rfl

theorem saveTask_cur {s u : State} {c x area : Nat} {r : TaskRec} {pc : Word} (h : saveTask s c x r area pc = .done u) : u.cur = s.cur := by
  obtain ⟨s1, words, block⟩ := Res.bind_eq_done h
  obtain ⟨s2, blockWords, nests⟩ := Res.bind_eq_done block
  cases nests
  rw [rememberNests_cur, storeWordsFrom_cur _ blockWords, storeWordsFrom_cur _ words]

theorem allocArea_cur (s : State) (c x : Nat) : (allocArea s c x).2.cur = s.cur := by
  simp only [allocArea]
  split
  · rfl
  · split
    · rfl
    · split
      · rfl
      · split <;> rfl

/-- A redirection's saves end in a state of the same running hart. -/
theorem saved_cur {s u v w : State} {c x area : Nat} {r : TaskRec} {pc : Word} {xl : Xlat} {a : Nat} {ws : List Word}
    (alloc : allocArea s c x = (area, u)) (save : saveTask u c x r area pc = .done v)
    (record : storeWords v c x xl a ws = .done w) : w.cur = s.cur := by
  have area_cur := allocArea_cur s c x
  rw [alloc] at area_cur
  rw [storeWordsFrom_cur _ record, saveTask_cur save, area_cur]

/-- Settles O41: an exception in its own context and an interrupt by what a trap entry writes, a redirection by its fault record, its
handler's record and the freed context, a waiting one by what it holds. -/
theorem exceptionEntry : Obligations.ExceptionEntry := by
  unfold Obligations.ExceptionEntry
  refine ⟨fun s e noPage inPlace => ?_, fun s i toM hi => ?_, fun s u v w e r area noPage ht redir alloc place room idle save record => ?_,
    fun s e redir place room busy => ?_⟩
  · rw [takeException_traps inPlace, trapHere_eq_leftWith s _ noPage]
    refine ⟨?_, leftWith_sameBytes s _, fun c x => leftWith_thr_ne s _, fun c => leftWith_core_ne s _, leftWith_myCore s _,
      leftWith_cores s _⟩
    rw [leftWith_hart, enter_exception, leaveInstr_eq_interrupted, excToM_eq_trapsToM, trapBank_of_word]
    rfl
  · rw [serveInterrupt_eq_leftWith]
    refine ⟨?_, leftWith_sameBytes s _, fun c x => leftWith_thr_ne s _, leftWith_cores s _⟩
    rw [leftWith_hart]
    simp only [enter_interrupt, leaveInstr_eq_interrupted]
    rfl
  · have cur := saved_cur alloc save record
    have page : ∀ t : State, retireFor t e = t := fun t => by simp only [retireFor, noPage]
    rw [takeException_redirect_done ht redir (redirect_saves alloc place room idle save record), page]
    have hart : (faultTask w s.cur.1 s.cur.2 { r with area := area } area).hart = (w.thr s.cur.1 s.cur.2).emptied := by
      rw [State.hart, faultTask_cur, cur, faultTask_thr]
    have bottom := faultTask_bottom w s.cur.1 s.cur.2 { r with area := area } area
    rw [handlerRec_area] at bottom
    refine ⟨?_, ?_, faultTask_mem .., ⟨_, faultTask_faulted .., rfl, rfl, rfl, rfl⟩, ⟨handlerRec w r area, ?_, handlerRec_words w r area⟩⟩
    · rw [hart]; rfl
    · rw [hart]; rfl
    · rwa [State.myCore, faultTask_cur, cur]
  · rw [takeException_holds redir place room busy]
    exact ⟨leftWith_hart s _, leftWith_sameBytes s _, fun c x => leftWith_thr_ne s _, leftWith_cores s _⟩

end Sys2Proof.Proofs.TrapEntry
end
